-- ==== Sys2Proof/Word.lean ====
section
/-! DEFINITION. The word types of the FSC: the widths the spec gives to a byte, a soft symbol, a
register of the bus and the words of the three interfaces. -/

namespace Sys2Proof

/-- One byte of a frame or of a codeword (20_memory R80). -/
abbrev Byte := BitVec 8

/-- A soft symbol: signed 8 bits, two's complement (R113, R165). -/
abbrev Soft := BitVec 8

/-- A register of space REG (R82). -/
abbrev RegWord := BitVec 32

/-- A word of the register bus, `{rw, addr[7:0], data[31:0]}` (R111). -/
abbrev BusWord := BitVec 41

/-- An entry of the symbol input stream, `{eos, sym[7:0]}` (R113). -/
abbrev SymWord := BitVec 9

/-- An operation identifier (R114). -/
abbrev OpId := BitVec 8

/-- A frame: its bytes, byte 0 first (R85). -/
abbrev Frame := List Byte

end Sys2Proof
end

