-- ==== Sys2Proof/Config.lean ====
section
/-! DEFINITION. What the spec leaves to an implementation, and the free values: opaque constants
and functions with no body, so that nothing can be proved of their values (logs 8 to 15, 24). -/

namespace Sys2Proof

/-- IN_DEPTH less one: "at least 1" (R11, D31). Log 15. -/
opaque Config.inDepthLessOne : Nat

/-- OUT_DEPTH less one: "at least 1" (R11, D31). Log 15. -/
opaque Config.outDepthLessOne : Nat

/-- IN_DEPTH, the capacity of the input FIFO in entries (R11). -/
def Config.inDepth : Nat := Config.inDepthLessOne + 1

/-- OUT_DEPTH, the capacity of the output FIFO in frames (R11). -/
def Config.outDepth : Nat := Config.outDepthLessOne + 1

/-- Free value: the negation of the soft symbol -128, which no clamped symbol is (R167, R168).
Log 8. -/
opaque Config.negOfMin : Soft

/-- Free value: the cost of the soft symbol -128 against a channel bit; R211 gives the cost for
-127 to 127. Log 9. -/
opaque Config.costOfMin : Bool → BitVec 9

/-- Free value: `PH.ROT s, r` for BPSK with r = 2 or 3, "not used" in R168. Log 10. -/
opaque Config.rotUnused : BitVec 2 → Soft → Soft

/-- Free value: `PH.SWAP (i, q)` for BPSK, "not defined for BPSK" in R169. Log 11. -/
opaque Config.swapBpsk : Soft → Soft → Soft × Soft

/-- Free value: the start state of a traceback when no path metric is 0, which R218 excludes.
Log 12. -/
opaque Config.traceStart : BitVec 6

/-- Free value: `a mod 0`; R12 defines `a mod b` for b > 0. Log 13. -/
opaque Config.modZero : Int → Nat

/-- Free value: NROOTS for RS_TYPE 0 and 3, which the table of R292 does not list. Log 14. -/
opaque Config.nrootsOther : BitVec 2 → Nat

/-- Free value: FCR for RS_TYPE 0 and 3, which the table of R292 does not list. Log 14. -/
opaque Config.fcrOther : BitVec 2 → Nat

/-- Free value: `h_rs[j]` for j = 8 and above, which CTL.ACCEPT would index where RS_DEPTH is 9 to
15; `h_rs` has eight entries (R43) and R14 gives such an index no meaning. Log 24. -/
opaque Config.countPast : Nat → BitVec 8

end Sys2Proof
end

