-- ==== Sys2Proof/Syntax.lean ====
section
/-! DEFINITION. The operations of the FSC (30_encoding R115), one constructor per row of
spec/opcode_table.json, and the words of the three interfaces they are presented on (R110). -/

namespace Sys2Proof

/-- A word together with the interface it arrives on: "a decoder tells the format from the
interface the word arrives on, never from the word" (R110). -/
inductive IfWord where
  /-- A host bus transaction (R111). -/
  | bus (w : BusWord)
  /-- An entry of the symbol input stream (R113). -/
  | sym (w : SymWord)
  /-- An operation identifier (R114). -/
  | op (w : OpId)
  deriving DecidableEq, Repr

/-- Why an interface word names no operation the decoder can give. -/
inductive Reject where
  /-- The OP value is not in the table of R115: "no such operation exists" (R118). -/
  | noSuchOperation
  /-- The OP value is 0x01 to 0x07: that operation is decoded from its BUS or SYM word (R114). -/
  | interfaceWordNeeded
  deriving DecidableEq, Repr

/-- The fifty-three operations (R115). The operands of the bus operations and of SRC.PUSH are the
fields of their words (R111, R113); those of the operations of format OP are state elements
(R116), so their constructors carry none. -/
inductive Instr where
  | hostCfgw (addr : BitVec 8) (data : RegWord)
  | hostRd (addr : BitVec 8)
  | hostStart
  | hostCancel
  | hostReset
  | srcPush (sym : Soft)
  | srcEos
  | sinkPop
  | corrScore
  | corrSearch
  | corrApply
  | phClamp
  | phRot
  | phSwap
  | phPush
  | phNext
  | diffDec
  | ccEnc
  | dpPush
  | ccInv
  | vitBm
  | vitAcs
  | vitTb
  | vitBer
  | vitLock
  | vitStep
  | vitReset
  | vitFlush
  | dfPush
  | dfReset
  | drApply
  | rsDeint
  | rsToconv
  | rsSynd
  | rsDec
  | rsTodual
  | rsReint
  | rsFrame
  | ctlCheck
  | ctlRead
  | ctlData
  | ctlFrame
  | ctlAccept
  | ctlEmit
  | ctlResync
  | ctlPublish
  | ctlFlush
  | ctlHalt
  | ctlTop
  | ctlCorr
  | ctlBit
  | ctlRschk
  | ctlClear
  deriving DecidableEq, Repr

end Sys2Proof
end

