-- ==== Sys2Proof/WellFormed.lean ====
section
/-! DEFINITION. Which terms of `Instr` some interface word stands for. -/

namespace Sys2Proof

/-- A write to CTRL (address 0x00) whose command bits are 1, 2 or 3 is START, CANCEL or RESET and
not HOST.CFGW (R112: rows 1 to 3 are tried before row 4). -/
def Instr.isPlainWrite (addr : BitVec 8) (data : RegWord) : Bool :=
  addr != 0x00#8 || data.extractLsb' 0 2 == 0#2

/-- A term is well formed when a word of its interface decodes to it. Only HOST.CFGW has a field
value that its word reads as another operation. -/
def Instr.wf (i : Instr) : Bool :=
  match i with
  | .hostCfgw addr data => Instr.isPlainWrite addr data
  | _ => true

end Sys2Proof
end

