-- ==== Sys2Proof/Decode.lean ====
section
/-! DEFINITION. Decoding the words of the three interfaces (30_encoding R110 to R118), and the
encoder written from the same tables. -/

namespace Sys2Proof

/-! ## BUS words (R111, R112) -/

/-- Field `rw` of a BUS word, bit 40 (R111). -/
def busRw (w : BusWord) : Bool := w.getLsbD 40

/-- Field `addr` of a BUS word, bits 39 to 32 (R111). -/
def busAddr (w : BusWord) : BitVec 8 := w.extractLsb' 32 8

/-- Field `data` of a BUS word, bits 31 to 0 (R111). -/
def busData (w : BusWord) : RegWord := w.extractLsb' 0 32

/-- The BUS word with these fields (R111). -/
def busWord (rw : Bool) (addr : BitVec 8) (data : RegWord) : BusWord :=
  BitVec.ofBool rw ++ addr ++ data

/-- The rows of R112 in their order, by their conditions in words: a write to CTRL is START,
CANCEL or RESET by `data[1:0]`; any other write is HOST.CFGW; a read is HOST.RD. -/
def decodeBus (w : BusWord) : Instr :=
  if busRw w then
    if busAddr w = 0x00#8 ∧ (busData w).extractLsb' 0 2 = 1#2 then .hostStart
    else if busAddr w = 0x00#8 ∧ (busData w).extractLsb' 0 2 = 2#2 then .hostCancel
    else if busAddr w = 0x00#8 ∧ (busData w).extractLsb' 0 2 = 3#2 then .hostReset
    else .hostCfgw (busAddr w) (busData w)
  else .hostRd (busAddr w)

/-! ## SYM words (R113) -/

/-- Bit 8 tells the end-of-stream token from a soft symbol; `sym` is ignored in the token. -/
def decodeSym (w : SymWord) : Instr :=
  if w.getLsbD 8 then .srcEos else .srcPush (w.extractLsb' 0 8)

/-- The SYM word of a soft symbol. -/
def symWord (s : Soft) : SymWord := 0#1 ++ s

/-- The SYM word of the end-of-stream token, canonically 0x100. -/
def eosWord : SymWord := 0x100#9

/-! ## Operation identifiers (R114, R115) -/

/-- The identifiers of R115 whose rows are of format OP, in the order of the table. -/
def opTable : List (OpId × Instr) :=
  [(0x08, .sinkPop),
   (0x10, .corrScore), (0x11, .corrSearch), (0x12, .corrApply),
   (0x20, .phClamp), (0x21, .phRot), (0x22, .phSwap), (0x23, .phPush), (0x24, .phNext),
   (0x26, .diffDec),
   (0x30, .ccEnc), (0x32, .dpPush), (0x33, .ccInv),
   (0x40, .vitBm), (0x41, .vitAcs), (0x42, .vitTb), (0x43, .vitBer), (0x44, .vitLock),
   (0x45, .vitStep), (0x46, .vitReset), (0x47, .vitFlush),
   (0x50, .dfPush), (0x51, .dfReset),
   (0x60, .drApply),
   (0x70, .rsDeint), (0x71, .rsToconv), (0x72, .rsSynd), (0x73, .rsDec), (0x74, .rsTodual),
   (0x75, .rsReint), (0x76, .rsFrame),
   (0x80, .ctlCheck), (0x81, .ctlRead), (0x82, .ctlData), (0x83, .ctlFrame),
   (0x84, .ctlAccept), (0x85, .ctlEmit), (0x86, .ctlResync), (0x87, .ctlPublish),
   (0x88, .ctlFlush), (0x89, .ctlHalt), (0x8A, .ctlTop), (0x8B, .ctlCorr), (0x8C, .ctlBit),
   (0x8D, .ctlRschk), (0x8E, .ctlClear)]

/-- An OP value in the table names its operation; 0x01 to 0x07 name operations that are decoded
from a BUS or SYM word; every other value names none (R114, R115, R118). Log 20. -/
def decodeOp (w : OpId) : Except Reject Instr :=
  match opTable.find? (fun row => row.1 == w) with
  | some row => .ok row.2
  | none =>
    if 1 ≤ w.toNat ∧ w.toNat ≤ 7 then .error .interfaceWordNeeded else .error .noSuchOperation

/-- Decoding is total: every BUS and SYM word names an operation, and an OP word names one or is
rejected by name. -/
def decode (w : IfWord) : Except Reject Instr :=
  match w with
  | .bus b => .ok (decodeBus b)
  | .sym s => .ok (decodeSym s)
  | .op o => decodeOp o

/-! ## The encoder -/

/-- The identifier of an operation, the `op` column of R115. -/
def opId (i : Instr) : OpId :=
  match i with
  | .hostCfgw _ _ => 0x01
  | .hostRd _ => 0x02
  | .hostStart => 0x03
  | .hostCancel => 0x04
  | .hostReset => 0x05
  | .srcPush _ => 0x06
  | .srcEos => 0x07
  | .sinkPop => 0x08
  | .corrScore => 0x10
  | .corrSearch => 0x11
  | .corrApply => 0x12
  | .phClamp => 0x20
  | .phRot => 0x21
  | .phSwap => 0x22
  | .phPush => 0x23
  | .phNext => 0x24
  | .diffDec => 0x26
  | .ccEnc => 0x30
  | .dpPush => 0x32
  | .ccInv => 0x33
  | .vitBm => 0x40
  | .vitAcs => 0x41
  | .vitTb => 0x42
  | .vitBer => 0x43
  | .vitLock => 0x44
  | .vitStep => 0x45
  | .vitReset => 0x46
  | .vitFlush => 0x47
  | .dfPush => 0x50
  | .dfReset => 0x51
  | .drApply => 0x60
  | .rsDeint => 0x70
  | .rsToconv => 0x71
  | .rsSynd => 0x72
  | .rsDec => 0x73
  | .rsTodual => 0x74
  | .rsReint => 0x75
  | .rsFrame => 0x76
  | .ctlCheck => 0x80
  | .ctlRead => 0x81
  | .ctlData => 0x82
  | .ctlFrame => 0x83
  | .ctlAccept => 0x84
  | .ctlEmit => 0x85
  | .ctlResync => 0x86
  | .ctlPublish => 0x87
  | .ctlFlush => 0x88
  | .ctlHalt => 0x89
  | .ctlTop => 0x8A
  | .ctlCorr => 0x8B
  | .ctlBit => 0x8C
  | .ctlRschk => 0x8D
  | .ctlClear => 0x8E

/-- The word an operation is presented as, ignored bits 0 (R112, R113, R115). -/
def encode (i : Instr) : IfWord :=
  match i with
  | .hostCfgw addr data => .bus (busWord true addr data)
  | .hostRd addr => .bus (busWord false addr 0#32)
  | .hostStart => .bus 0x10000000001#41
  | .hostCancel => .bus 0x10000000002#41
  | .hostReset => .bus 0x10000000003#41
  | .srcPush s => .sym (symWord s)
  | .srcEos => .sym eosWord
  | j => .op (opId j)

/-! ## The table's words -/

/-- The interface word that a row of `nbits` bits (the table's width in whole bytes: 8 for OP, 16
for SYM, 48 for BUS) with these bits stands for; `none` where a bit above the format's width is
set, since no such word exists on the interface. -/
def tableWord (nbits w : Nat) : Option IfWord :=
  if nbits ≤ 8 then (if w < 2 ^ 8 then some (.op (BitVec.ofNat 8 w)) else none)
  else if nbits ≤ 16 then (if w < 2 ^ 9 then some (.sym (BitVec.ofNat 9 w)) else none)
  else (if w < 2 ^ 41 then some (.bus (BitVec.ofNat 41 w)) else none)

/-- The operation the decoder reads from a row's bits. -/
def decodeTableWord (nbits w : Nat) : Option Instr :=
  match tableWord nbits w with
  | none => none
  | some x =>
    match decode x with
    | .ok i => some i
    | .error _ => none

end Sys2Proof
end

