-- ==== Sys2Proof/Machine/State.lean ====
section
/-! DEFINITION. The state of the FSC (10_state R20 to R79, 20_memory R80) as plain data, the reasons
a step can stop, and the state after reset (R78). INVENTORY.md lists every field with its rule. -/

namespace Sys2Proof.Machine

/-! ## Memory spaces -/

/-- An internal buffer: (index, value) pairs with strictly rising indices and no value equal to
what an unlisted index reads as. `Memory 8` is a list of `Host.Cell`. -/
abbrev Memory (w : Nat) := List (Nat × BitVec w)

/-- The spaces whose index range a rule's index is held against (20_memory R80; log 7). -/
inductive SpaceName where
  | sym | hist | dly | frm | punc | pattern | hrs | dfSr
  deriving DecidableEq, Repr

/-! ## Reasons to stop -/

/-- Faults of the model. The hardware itself has none besides the configuration trap, which is a
next state (R380, R386). -/
inductive Fault where
  /-- An index outside the extent of `space`, which "cannot occur and needs no meaning" (R14).
  Raised by the operations that index SYM, HIST, DLY, FRM, PUNC, the pattern table, `h_rs` or the
  bits of `df_sr`.
  Safe: the model stops where the spec gives no meaning. Log 7. -/
  | outOfBounds (space : SpaceName)
  deriving DecidableEq, Repr

/-- Refusals. -/
inductive Refusal where
  /-- An operation whose meaning is not written yet, raised by its arm of `exec`. Safe. -/
  | notModelled (mnemonic : String)
  /-- A turn handed the model an OP value that decodes to no operation (R118: "a model that is
  handed one refuses it"). Raised by `step`. Safe: the spec refuses it too. Log 20. -/
  | undecodable (reason : Reject) (word : OpId)
  deriving DecidableEq, Repr

/-! ## Enumerations -/

/-- The values of the sequencer (R49). -/
inductive Seq where
  | idle | check | top | read | corr | data | resync | flush | publish | done | error
  deriving DecidableEq, Repr

/-- The mode, a function of the sequencer (R50). -/
inductive Mode where
  | idle | running | done | error
  deriving DecidableEq, Repr

/-- The deframer's states (R36, R252). -/
inductive DfState where
  | searching | checking | synced
  deriving DecidableEq, Repr

/-! ## The host's registers -/

/-- A reference pattern (R71). -/
structure Pattern where
  lo : RegWord
  hi : RegWord
  len : BitVec 7
  deriving DecidableEq, Repr

/-- The configuration registers 0x10 to 0x1C, the pattern table and CFG_WRITTEN (R57 to R71), each
register as the word a read returns. -/
structure Cfg where
  modem : RegWord
  code : RegWord
  vitlock : RegWord
  vitwin : RegWord
  frame : RegWord
  asmLo : RegWord
  asmHi : RegWord
  asmctl : RegWord
  deframer : RegWord
  derand : RegWord
  rs : RegWord
  batch : RegWord
  corr : RegWord
  pats : Vector Pattern 8
  written : BitVec 16
  deriving DecidableEq, Repr

/-- The health record, written by CTL.PUBLISH only (R72 to R77). -/
structure Health where
  hSeq : RegWord
  hState : RegWord
  hBerErrs : RegWord
  hBerTotal : RegWord
  hRsLo : RegWord
  hRsHi : RegWord
  deriving DecidableEq, Repr

/-! ## The datapath -/

/-- Phase normaliser and differential decoder (R21 to R24). -/
structure Phase where
  hyp : BitVec 3
  skip : BitVec 32
  iHave : Bool
  iHold : Soft
  nrzmPrev : Bool
  deriving DecidableEq, Repr

/-- Depuncturer (R25). -/
structure Depunct where
  dpK : BitVec 3
  dpI : Bool
  dpR1 : Soft
  deriving DecidableEq, Repr

/-- Viterbi decoder, error-rate estimator and lock (R26 to R35). -/
structure Viterbi where
  pm : Vector (BitVec 16) 64
  hist : Memory 64
  dly : Memory 4
  histWp : BitVec 8
  vitN : BitVec 9
  reenc : BitVec 6
  berErrs : BitVec 17
  berTotal : BitVec 17
  berSteps : BitVec 16
  berErrsL : BitVec 17
  berTotalL : BitVec 17
  vitLock : Bool
  badCnt : BitVec 9
  deriving DecidableEq, Repr

/-- Deframer (R36 to R41); its frame buffer FRM is a space of `State`. -/
structure Deframer where
  dfState : DfState
  dfSr : BitVec 64
  dfCnt : BitVec 20
  dfMiss : BitVec 8
  dfConf : BitVec 2
  dfBitctr : BitVec 20
  dfOffset : BitVec 20
  deriving DecidableEq, Repr

/-- Controller registers, sequencer, flags and the trap's registers (R44 to R52). -/
structure Ctl where
  unsyncBits : BitVec 32
  acqPending : Bool
  eosSeen : Bool
  cancelReq : Bool
  symN : BitVec 16
  symI : BitVec 16
  flI : BitVec 8
  seq : Seq
  finalRun : Bool
  errCode : BitVec 8
  errInfo : BitVec 8
  deriving DecidableEq, Repr

/-! ## What stands outside the machine -/

/-- The four branch metrics of one pair (R212). -/
structure Metrics where
  m00 : BitVec 9
  m01 : BitVec 9
  m10 : BitVec 9
  m11 : BitVec 9
  deriving DecidableEq, Repr

/-- What a correlator search found (R155). -/
structure Hit where
  score : Nat
  ph : BitVec 2
  off : BitVec 16
  pat : BitVec 3
  deriving DecidableEq, Repr

/-- Operand latches of an operation handed to the model by its identifier: "Operands of core
operations are state elements" (R116). The model's own; log 3. -/
structure Args where
  /-- Phase candidate `ph`, rotation index `r`. -/
  ph : BitVec 2
  /-- Offset `o`. -/
  off : BitVec 16
  /-- Pattern index `j`. -/
  pat : BitVec 3
  /-- `found` of CORR.APPLY. -/
  found : Bool
  /-- A soft symbol: `s`, `x`, `y`, `i` or `r1`. -/
  x : Soft
  /-- A second soft symbol: `q` or `r2`. -/
  y : Soft
  /-- A bit: `b` or `u`. -/
  bit : Bool
  /-- For VIT.BER: whether `b` is a bit and not `none`. -/
  bitGiven : Bool
  /-- The encoder state `s` of CC.ENC. -/
  enc : BitVec 6
  /-- The branch metrics of VIT.ACS. -/
  bm : Metrics
  /-- Interleave index `j` of RS.DEINT and RS.REINT. -/
  lane : BitVec 3
  deriving DecidableEq, Repr

/-- The result of the last operation handed to the model that returns one. The model's own; log 3. -/
inductive OpResult where
  | none
  | score (n : Nat)
  | search (hit : Option Hit)
  | symbol (s : Soft)
  | symbols (l : List Soft)
  | pair (a b : Soft)
  | pairs (l : List (Soft × Soft))
  | bit (b : Bool)
  | bitOpt (b : Option Bool)
  | bits (l : List Bool)
  | encoded (s : BitVec 6) (c1 c2 : Bool)
  | metrics (m : Metrics)
  | frame (f : Option Frame)
  | syndromes (l : List Byte)
  | count (n : Int)
  | accept (b : Bool)
  deriving DecidableEq, Repr

/-- Who moves next (R6). `op w` hands the machine the identifier `w` (R114, R118). Log 1, log 3. -/
inductive Turn where
  | host | source | sink | core
  | op (w : OpId)
  deriving DecidableEq, Repr

/-- The outside of the machine, the model's own fields: the interleaving still to come, the words
the host and the source have still to present, the latches of handed operations, and what an
observer has seen so far (R7). Logs 1 to 4. -/
structure Env where
  turns : List Turn
  hostQ : List BusWord
  srcQ : List SymWord
  args : Args
  res : OpResult
  reads : List RegWord
  popped : List Frame
  deriving DecidableEq, Repr

/-! ## The whole state -/

/-- The state of the FSC (R20) and of its surroundings. -/
structure State where
  cfg : Cfg
  health : Health
  ph : Phase
  dp : Depunct
  vit : Viterbi
  df : Deframer
  /-- The Reed-Solomon counts `h_rs[0..7]`, two's complement (R43). -/
  hRs : Vector (BitVec 8) 8
  ctl : Ctl
  /-- The symbol buffer SYM (R48). -/
  sym : Memory 8
  /-- The frame buffer FRM (R42). -/
  frm : Memory 8
  /-- The codeword buffer CW (R43). -/
  cw : Memory 8
  /-- The input FIFO, oldest entry first (R53). -/
  inq : List SymWord
  /-- The output FIFO, oldest frame first (R53). -/
  outq : List Frame
  env : Env
  deriving DecidableEq, Repr

/-! ## Reset (R78, R411) -/

/-- An unused pattern (R71: reset value 0 everywhere). -/
def Pattern.reset : Pattern := ⟨0, 0, 0⟩

/-- The configuration registers after reset (R78). -/
def Cfg.reset : Cfg where
  modem := 0
  code := 0
  vitlock := 0
  vitwin := 2048
  frame := 0
  asmLo := 0x1ACFFC1D
  asmHi := 0
  asmctl := 0x00000020
  deframer := 0
  derand := 0x00040001
  rs := 0
  batch := 8192
  corr := 0
  pats := Vector.ofFn fun _ => Pattern.reset
  written := 0

/-- The health record after reset (R78). -/
def Health.reset : Health := ⟨0, 0, 0, 0, 0, 0⟩

/-- The phase normaliser after reset (R21 to R24); `hold_i` is unspecified, 0 here (log 5). -/
def Phase.reset : Phase := ⟨0, 0, false, 0, false⟩

/-- The depuncturer after reset (R25); `dp_r1` is unspecified, 0 here (log 5). -/
def Depunct.reset : Depunct := ⟨0, false, 0⟩

/-- The decoder after reset (R26 to R35); HIST and DLY are unspecified, nothing listed here
(log 5). -/
def Viterbi.reset : Viterbi where
  pm := Vector.ofFn fun _ => 0
  hist := []
  dly := []
  histWp := 0
  vitN := 0
  reenc := 0
  berErrs := 0
  berTotal := 0
  berSteps := 0
  berErrsL := 0
  berTotalL := 0
  vitLock := false
  badCnt := 0

/-- The deframer after reset (R36 to R41). -/
def Deframer.reset : Deframer := ⟨.searching, 0, 0, 0, 0, 0, 0⟩

/-- The controller after reset (R44 to R52). -/
def Ctl.reset : Ctl := ⟨0, false, false, false, 0, 0, 0, .idle, false, 0, 0⟩

/-- The latches of handed operations before any is set (log 3). -/
def Args.reset : Args := ⟨0, 0, 0, false, 0, 0, false, false, 0, ⟨0, 0, 0, 0⟩, 0⟩

/-- No turn, no word and no observation (logs 1 to 4). -/
def Env.reset : Env := ⟨[], [], [], Args.reset, .none, [], []⟩

/-- The machine right after reset (R78, R411): mode IDLE, both FIFOs empty, every register at its
reset value; FRM, CW and SYM are unspecified, nothing listed here (log 5). -/
def State.reset : State where
  cfg := Cfg.reset
  health := Health.reset
  ph := Phase.reset
  dp := Depunct.reset
  vit := Viterbi.reset
  df := Deframer.reset
  hRs := Vector.ofFn fun _ => 0
  ctl := Ctl.reset
  sym := []
  frm := []
  cw := []
  inq := []
  outq := []
  env := Env.reset

end Sys2Proof.Machine
end

