-- ==== Sys2Proof/Machine/Bits.lean ====
section
/-! DEFINITION. Bit counts, remainders and soft-symbol arithmetic used by every family (R12, R165 to
R168). -/

namespace Sys2Proof.Machine

/-- `popcount(v)`: the number of 1 bits (R12). -/
def popcount {w : Nat} (v : BitVec w) : Nat :=
  (List.range w).countP fun i => v.getLsbD i

/-- `parity(v) = popcount(v) mod 2` (R12). -/
def parity {w : Nat} (v : BitVec w) : Bool :=
  popcount v % 2 == 1

/-- `a mod b`, the non-negative remainder (R12); for `b = 0`, which R12 does not define, a free
value (log 13). -/
def modFree (a : Int) (b : Nat) : Nat :=
  if b = 0 then Config.modZero a else (a % (b : Int)).toNat

/-- The position `(wp - k) mod n` of a ring of `n` entries, `n > 0` (R217). -/
def ringBack (wp k n : Nat) : Nat :=
  (((wp : Int) - (k : Int)) % (n : Int)).toNat

/-- Bit `i` of `v` replaced by `b`, the other bits kept. -/
def setBit (v : Byte) (i : Nat) (b : Bool) : Byte :=
  if b then v ||| (1#8 <<< i) else v &&& ~~~(1#8 <<< i)

/-- The hard decision of a soft symbol: 1 if it is positive, else 0 (R166). -/
def hardBit (s : Soft) : Bool := decide (0 < s.toInt)

/-- A soft symbol of value 0 is an erasure (R166, R17). -/
def isErasure (s : Soft) : Bool := s == 0#8

/-- `-s`, exact for -127 to 127 (R167, R168); of -128, which no clamped symbol is, a free value
(log 8). -/
def negSoft (s : Soft) : Soft :=
  if s = 0x80#8 then Config.negOfMin else -s

end Sys2Proof.Machine
end

