-- ==== Sys2Proof/Machine/Operands.lean ====
section
/-! DEFINITION. The operands the rules read: the fields `cfg.F` of the configuration registers
(10_state R58 to R71) and the quantities derived from them (R10). -/

namespace Sys2Proof.Machine

/-! ## Fields -/

/-- The field of `width` bits at bit `lo` of a register, unsigned (R116). -/
def field (r : RegWord) (lo width : Nat) : Nat := (r.extractLsb' lo width).toNat

/-- CONST (R58). -/
def Cfg.const (c : Cfg) : Nat := field c.modem 0 2
/-- IQ_SWAP (R58). -/
def Cfg.iqSwap (c : Cfg) : Bool := c.modem.getLsbD 4
/-- INV_C1 (R58). -/
def Cfg.invC1 (c : Cfg) : Bool := c.modem.getLsbD 5
/-- INV_C2 (R58). -/
def Cfg.invC2 (c : Cfg) : Bool := c.modem.getLsbD 6
/-- SWAP_SEARCH (R58). -/
def Cfg.swapSearch (c : Cfg) : Bool := c.modem.getLsbD 7
/-- NRZM (R58). -/
def Cfg.nrzm (c : Cfg) : Bool := c.modem.getLsbD 8
/-- USE_CORR (R58). -/
def Cfg.useCorr (c : Cfg) : Bool := c.modem.getLsbD 9
/-- RATE (R59). -/
def Cfg.rate (c : Cfg) : Nat := field c.code 0 3
/-- TBD (R59). -/
def Cfg.tbd (c : Cfg) : Nat := field c.code 8 8
/-- BER_THR (R60). -/
def Cfg.berThr (c : Cfg) : Nat := field c.vitlock 0 16
/-- OUTSYNC_AFTER (R60). -/
def Cfg.outsyncAfter (c : Cfg) : Nat := field c.vitlock 16 8
/-- BER_WIN (R61). -/
def Cfg.berWin (c : Cfg) : Nat := field c.vitwin 0 16
/-- FRAME_BITS (R62). -/
def Cfg.frameBits (c : Cfg) : Nat := field c.frame 0 20
/-- PAD_BITS (R62). -/
def Cfg.padBits (c : Cfg) : Nat := field c.frame 24 3
/-- `ASM = {CFG_ASM_HI, CFG_ASM_LO}` (R64). -/
def Cfg.asm (c : Cfg) : BitVec 64 := c.asmHi ++ c.asmLo
/-- ASM_LEN (R65). -/
def Cfg.asmLen (c : Cfg) : Nat := field c.asmctl 0 7
/-- ASM_TOL (R65). -/
def Cfg.asmTol (c : Cfg) : Nat := field c.asmctl 8 6
/-- MISS_THR (R66). -/
def Cfg.missThr (c : Cfg) : Nat := field c.deframer 0 8
/-- CONFIRM (R66). -/
def Cfg.confirm (c : Cfg) : Nat := field c.deframer 8 2
/-- RESYNC_N (R66). -/
def Cfg.resyncN (c : Cfg) : Nat := field c.deframer 16 8
/-- DERAND_MODE (R67). -/
def Cfg.derandMode (c : Cfg) : Nat := field c.derand 0 2
/-- DERAND_START (R67). -/
def Cfg.derandStart (c : Cfg) : Nat := field c.derand 16 16
/-- RS_TYPE (R68). -/
def Cfg.rsType (c : Cfg) : BitVec 2 := c.rs.extractLsb' 0 2
/-- RS_DEPTH (R68). -/
def Cfg.rsDepth (c : Cfg) : Nat := field c.rs 4 4
/-- RS_DUAL (R68). -/
def Cfg.rsDual (c : Cfg) : Bool := c.rs.getLsbD 8
/-- ACCEPT_ALL (R68). -/
def Cfg.acceptAll (c : Cfg) : Bool := c.rs.getLsbD 9
/-- BATCH (R69). -/
def Cfg.batchLen (c : Cfg) : Nat := field c.batch 0 16
/-- NPAT (R70). -/
def Cfg.npat (c : Cfg) : Nat := field c.corr 0 4
/-- CORR_MIN (R70). -/
def Cfg.corrMin (c : Cfg) : Nat := field c.corr 8 7
/-- CORR_WIN (R70). -/
def Cfg.corrWin (c : Cfg) : Nat := field c.corr 16 16

/-- Pattern `j` of the table (R71); an index of 8 or more is excluded by the callers' guards. -/
def Cfg.pattern (c : Cfg) (j : Nat) : Pattern :=
  if h : j < 8 then c.pats[j] else Pattern.reset

/-- PAT_LEN[j] (R71). -/
def Cfg.patLen (c : Cfg) (j : Nat) : Nat := (c.pattern j).len.toNat

/-! ## Derived quantities (R10) -/

/-- The constellation is BPSK; every other code takes the QPSK branch of the rules (R171; log 16
for the illegal codes 2 and 3). -/
def Cfg.isBpsk (c : Cfg) : Bool := c.const == 0

/-- U, soft symbols per channel symbol. -/
def Cfg.u (c : Cfg) : Nat := if c.isBpsk then 1 else 2

/-- NPH, the number of phase rotations. -/
def Cfg.nph (c : Cfg) : Nat := if c.isBpsk then 2 else 4

/-- NHYP, the number of hypotheses. -/
def Cfg.nhyp (c : Cfg) : Nat :=
  if c.swapSearch && !c.isBpsk then c.nph * 2 else c.nph

/-- FRAME_BYTES (log 16 where the quotient is not whole). -/
def Cfg.frameBytes (c : Cfg) : Nat := (c.frameBits + c.padBits) / 8

/-- ASM_BYTES (log 16 where the quotient is not whole). -/
def Cfg.asmBytes (c : Cfg) : Nat := c.asmLen / 8

/-- NROOTS of the code RS_TYPE names (R292); a free value for types 0 and 3 (log 14). -/
def nroots (t : BitVec 2) : Nat :=
  if t = 1#2 then 32 else if t = 2#2 then 16 else Config.nrootsOther t

/-- FCR of the code RS_TYPE names (R292); a free value for types 0 and 3 (log 14). -/
def fcr (t : BitVec 2) : Nat :=
  if t = 1#2 then 112 else if t = 2#2 then 120 else Config.fcrOther t

/-- `t = NROOTS / 2`, the number of errors a codeword's decoding corrects (R292). -/
def rsT (t : BitVec 2) : Nat := nroots t / 2

end Sys2Proof.Machine
end

