-- ==== Sys2Proof/Machine/Flags.lean ====
section
/-! DEFINITION. The one-bit status values (R52) that a rule computes from a comparison: the mode
(R50), the window classes of the lock decision (R228), the marker match (R251), the guards of the
two FIFOs (R84, R85). -/

namespace Sys2Proof.Machine

/-- The mode as a function of the sequencer (R50). -/
def Seq.mode (q : Seq) : Mode :=
  match q with
  | .idle => .idle
  | .done => .done
  | .error => .error
  | .check | .top | .read | .corr | .data | .resync | .flush | .publish => .running

/-- The mode of a state. -/
def State.mode (s : State) : Mode := s.ctl.seq.mode

/-- STATUS.MODE (R56, R117). -/
def Mode.code (m : Mode) : BitVec 2 :=
  match m with
  | .idle => 0
  | .running => 1
  | .done => 2
  | .error => 3

/-- H_STATE.DF_STATE (R73, R117). -/
def DfState.code (d : DfState) : BitVec 2 :=
  match d with
  | .searching => 0
  | .checking => 1
  | .synced => 2

/-- The classes of an error-rate window (R228). -/
inductive WindowClass where
  | good | bad | neutral
  deriving DecidableEq, Repr

/-- R228: with E errors of T compared symbols against the threshold H / 65536. -/
def windowClass (e t h : Nat) : WindowClass :=
  if 0 < t ∧ e * 65536 < h * t then .good
  else if t = 0 ∨ h * t < e * 65536 then .bad
  else .neutral

/-- R251: the last ASM_LEN bits differ from the marker in at most ASM_TOL places. -/
def markerMatches (c : Cfg) (sr : BitVec 64) : Bool :=
  decide (popcount ((sr ^^^ c.asm) &&& BitVec.ofNat 64 (2 ^ c.asmLen - 1)) ≤ c.asmTol)

/-- IN holds IN_DEPTH entries or more (R84). IN_DEPTH is at least 1, so an empty FIFO is not full
whatever it is. -/
def inFull (s : State) : Bool :=
  !s.inq.isEmpty && decide (Config.inDepth ≤ s.inq.length)

/-- OUT holds OUT_DEPTH frames or more (R85). -/
def outFull (s : State) : Bool :=
  !s.outq.isEmpty && decide (Config.outDepth ≤ s.outq.length)

end Sys2Proof.Machine
end

