-- ==== Sys2Proof/Machine/Ops.lean ====
section
/-! DEFINITION. The named operations over memory, the register map, the FIFOs and the outcome of a
step; the configuration trap and the way out of it. -/

namespace Sys2Proof.Machine

/-! ## Memory -/

/-- What an index that is not listed reads as (log 5). -/
def Memory.unwritten (w : Nat) : BitVec w := 0

/-- The value at index `a`. -/
def Memory.read {w : Nat} (m : Memory w) (a : Nat) : BitVec w :=
  match m with
  | [] => Memory.unwritten w
  | (k, v) :: r => if k = a then v else Memory.read r a

/-- Put `v` at index `a`, keeping the canonical form: the value an unlisted index reads as is not
listed. -/
def Memory.write {w : Nat} (m : Memory w) (a : Nat) (v : BitVec w) : Memory w :=
  match m with
  | [] => if v = Memory.unwritten w then [] else [(a, v)]
  | (k, u) :: r =>
    if a < k then (if v = Memory.unwritten w then (k, u) :: r else (a, v) :: (k, u) :: r)
    else if a = k then (if v = Memory.unwritten w then r else (a, v) :: r)
    else (k, u) :: Memory.write r a v

/-- The canonical form: indices strictly rising, no entry equal to what an unlisted index reads
as. -/
abbrev Memory.wf {w : Nat} (m : Memory w) : Prop :=
  m.Pairwise (fun p q => p.1 < q.1) ∧ ∀ p ∈ m, p.2 ≠ Memory.unwritten w

/-- Write a list of values at `base`, `base + step`, `base + 2 * step`, ... -/
def Memory.storeStride {w : Nat} (m : Memory w) (base step : Nat) (l : List (BitVec w)) :
    Memory w :=
  match l with
  | [] => m
  | v :: r => Memory.storeStride (m.write base v) (base + step) step r

/-- The values at indices 0 to n - 1. -/
def Memory.firstN {w : Nat} (m : Memory w) (n : Nat) : List (BitVec w) :=
  (List.range n).map m.read

/-- `i`, if the space of `extent` entries has it; else the fault of an index that "cannot occur"
(R14; log 7). -/
def within (sp : SpaceName) (extent i : Nat) : Except Fault Unit :=
  if i < extent then .ok () else .error (.outOfBounds sp)

/-! ## The register map (10_state section 4) -/

/-- The register an address names (R81, R118). -/
inductive RegName where
  | ctrl | status | cfgWritten
  | modem | code | vitlock | vitwin | frame | asmLo | asmHi | asmctl
  | deframer | derand | rs | batch | corr
  | patLo (j : BitVec 3) | patHi (j : BitVec 3) | patLen (j : BitVec 3)
  | hSeq | hState | hBerErrs | hBerTotal | hRsLo | hRsHi
  /-- A reserved word (0x1D to 0x1F, 0x23 + 4j). -/
  | reserved
  | unmapped
  deriving DecidableEq, Repr

/-- The register at a word address (R55 to R77). -/
def regAt (addr : BitVec 8) : RegName :=
  if addr.extractLsb' 5 3 = 1#3 then
    if addr.extractLsb' 0 2 = 0#2 then .patLo (addr.extractLsb' 2 3)
    else if addr.extractLsb' 0 2 = 1#2 then .patHi (addr.extractLsb' 2 3)
    else if addr.extractLsb' 0 2 = 2#2 then .patLen (addr.extractLsb' 2 3)
    else .reserved
  else match addr with
    | 0x00#8 => .ctrl
    | 0x01#8 => .status
    | 0x02#8 => .cfgWritten
    | 0x10#8 => .modem
    | 0x11#8 => .code
    | 0x12#8 => .vitlock
    | 0x13#8 => .vitwin
    | 0x14#8 => .frame
    | 0x15#8 => .asmLo
    | 0x16#8 => .asmHi
    | 0x17#8 => .asmctl
    | 0x18#8 => .deframer
    | 0x19#8 => .derand
    | 0x1A#8 => .rs
    | 0x1B#8 => .batch
    | 0x1C#8 => .corr
    | 0x1D#8 | 0x1E#8 | 0x1F#8 => .reserved
    | 0x40#8 => .hSeq
    | 0x41#8 => .hState
    | 0x42#8 => .hBerErrs
    | 0x43#8 => .hBerTotal
    | 0x44#8 => .hRsLo
    | 0x45#8 => .hRsHi
    | _ => .unmapped

/-- The bits of a configuration register that belong to a field; every other bit is reserved
(R54, R58 to R71). -/
def RegName.fieldMask (r : RegName) : RegWord :=
  match r with
  | .modem => 0x000003F3
  | .code => 0x0000FF07
  | .vitlock => 0x00FFFFFF
  | .vitwin => 0x0000FFFF
  | .frame => 0x070FFFFF
  | .asmLo => 0xFFFFFFFF
  | .asmHi => 0xFFFFFFFF
  | .asmctl => 0x00003F7F
  | .deframer => 0x00FF03FF
  | .derand => 0xFFFF0003
  | .rs => 0x000003F3
  | .batch => 0x0000FFFF
  | .corr => 0xFFFF7F0F
  | .patLo _ => 0xFFFFFFFF
  | .patHi _ => 0xFFFFFFFF
  | .patLen _ => 0x0000007F
  | .ctrl | .status | .cfgWritten | .hSeq | .hState | .hBerErrs | .hBerTotal | .hRsLo | .hRsHi
  | .reserved | .unmapped => 0

/-- STATUS (R56). -/
def statusWord (s : State) : RegWord :=
  0#8 ++ s.ctl.errInfo ++ s.ctl.errCode ++ 0#6 ++ s.mode.code

/-- The value a read of the register returns (R123); 0 for a write-only, reserved or unmapped
one. -/
def readReg (s : State) (r : RegName) : RegWord :=
  match r with
  | .ctrl => 0
  | .status => statusWord s
  | .cfgWritten => 0#16 ++ s.cfg.written
  | .modem => s.cfg.modem
  | .code => s.cfg.code
  | .vitlock => s.cfg.vitlock
  | .vitwin => s.cfg.vitwin
  | .frame => s.cfg.frame
  | .asmLo => s.cfg.asmLo
  | .asmHi => s.cfg.asmHi
  | .asmctl => s.cfg.asmctl
  | .deframer => s.cfg.deframer
  | .derand => s.cfg.derand
  | .rs => s.cfg.rs
  | .batch => s.cfg.batch
  | .corr => s.cfg.corr
  | .patLo j => (s.cfg.pattern j.toNat).lo
  | .patHi j => (s.cfg.pattern j.toNat).hi
  | .patLen j => 0#25 ++ (s.cfg.pattern j.toNat).len
  | .hSeq => s.health.hSeq
  | .hState => s.health.hState
  | .hBerErrs => s.health.hBerErrs
  | .hBerTotal => s.health.hBerTotal
  | .hRsLo => s.health.hRsLo
  | .hRsHi => s.health.hRsHi
  | .reserved => 0
  | .unmapped => 0

/-- Pattern `j` replaced. -/
def Cfg.setPattern (c : Cfg) (j : BitVec 3) (f : Pattern → Pattern) : Cfg :=
  { c with pats := Vector.ofFn fun i => if i.val = j.toNat then f c.pats[i] else c.pats[i] }

/-- Store `data` into a register's fields, reserved bits dropped (R54, R122). A name that is no
configuration register stores nothing. -/
def Cfg.store (c : Cfg) (r : RegName) (data : RegWord) : Cfg :=
  let d := data &&& r.fieldMask
  match r with
  | .modem => { c with modem := d }
  | .code => { c with code := d }
  | .vitlock => { c with vitlock := d }
  | .vitwin => { c with vitwin := d }
  | .frame => { c with frame := d }
  | .asmLo => { c with asmLo := d }
  | .asmHi => { c with asmHi := d }
  | .asmctl => { c with asmctl := d }
  | .deframer => { c with deframer := d }
  | .derand => { c with derand := d }
  | .rs => { c with rs := d }
  | .batch => { c with batch := d }
  | .corr => { c with corr := d }
  | .patLo j => c.setPattern j fun p => { p with lo := d }
  | .patHi j => c.setPattern j fun p => { p with hi := d }
  | .patLen j => c.setPattern j fun p => { p with len := d.extractLsb' 0 7 }
  | .ctrl | .status | .cfgWritten | .hSeq | .hState | .hBerErrs | .hBerTotal | .hRsLo | .hRsHi
  | .reserved | .unmapped => c

/-- The CFG_WRITTEN bit of an address 0x10 to 0x1F set; other addresses set none (R57, R71). -/
def Cfg.markWritten (c : Cfg) (addr : BitVec 8) : Cfg :=
  if addr.toNat ≤ 0x1F then
    { c with written := c.written ||| (1#16 <<< (addr.toNat - 0x10)) }
  else c

/-- A write to a configuration address 0x10 to 0x3F in mode IDLE (R122). -/
def Cfg.hostWrite (c : Cfg) (addr : BitVec 8) (data : RegWord) : Cfg :=
  if 0x10 ≤ addr.toNat ∧ addr.toNat ≤ 0x3F then (c.markWritten addr).store (regAt addr) data
  else c

/-! ## Outcomes -/

/-- The outcome of an operation that either gives a state or indexes outside a space. -/
def settle (r : Except Fault State) : Host.Outcome State Fault Refusal :=
  match r with
  | .ok t => .next t
  | .error f => .fault f

/-- The outcome of an operation that may call CTL.EMIT: where it does while OUT is full it is not
enabled, and the core waits without changing anything (R98, R334; log 6). -/
def settleEmit (s : State) (r : Except Fault State) : Host.Outcome State Fault Refusal :=
  match r with
  | .ok t => if t.outq.length ≠ s.outq.length ∧ outFull s = true then .next s else .next t
  | .error f => .fault f

/-- Leave the result of a handed operation in its latch (log 3). -/
def State.setRes (s : State) (r : OpResult) : State :=
  { s with env := { s.env with res := r } }

/-! ## The configuration trap (60 R386, R387) -/

/-- Trap entry, `raise ConfigError(code, info)` (R386): the cause is recorded and the mode becomes
ERROR; nothing else changes. There is no vector, no saved state and no handler. -/
def raiseConfigError (code info : BitVec 8) (s : State) : State :=
  { s with ctl := { s.ctl with errCode := code, errInfo := info, seq := .error } }

/-- There is no trap return (R387); ERROR is left only by HOST.RESET, which gives every state
element its reset value (R333, R410). The agents' pending words and the observer's record stand
outside the machine and stay (log 22). -/
def resetMachine (s : State) : State :=
  { State.reset with env := s.env }

end Sys2Proof.Machine
end

