-- ==== Sys2Proof/Machine/Bus.lean ====
section
/-! DEFINITION. The operations of the host, the symbol source and the frame sink (30_encoding R122
to R126, 47_pipeline_controller R331 to R333). -/

namespace Sys2Proof.Machine

/-- `HOST.CFGW addr, data` (R122): stored in IDLE, ignored in every other mode (R99). -/
def execHostCfgw (addr : BitVec 8) (data : RegWord) (s : State) :
    Host.Outcome State Fault Refusal :=
  if s.mode = .idle then .next { s with cfg := s.cfg.hostWrite addr data } else .next s

/-- `HOST.RD addr` (R123): no register changes; the value returned joins the observer's record. -/
def execHostRd (addr : BitVec 8) (s : State) : Host.Outcome State Fault Refusal :=
  .next { s with env := { s.env with reads := s.env.reads ++ [readReg s (regAt addr)] } }

/-- `HOST.START` (R331): accepted in IDLE, ignored in every other mode. -/
def execHostStart (s : State) : Host.Outcome State Fault Refusal :=
  if s.mode = .idle then
    .next { s with ctl := { s.ctl with acqPending := s.cfg.useCorr, seq := .check } }
  else .next s

/-- `HOST.CANCEL` (R332): accepted in RUNNING, ignored in every other mode. -/
def execHostCancel (s : State) : Host.Outcome State Fault Refusal :=
  if s.mode = .running then .next { s with ctl := { s.ctl with cancelReq := true } } else .next s

/-- `HOST.RESET` (R333), in every mode. -/
def execHostReset (s : State) : Host.Outcome State Fault Refusal :=
  .next (resetMachine s)

/-- The source's word joins IN; while IN is full the source waits with the word still to present
(R84, R124, R125; log 6). -/
def present (s : State) (w : SymWord) : State :=
  if inFull s then { s with env := { s.env with srcQ := w :: s.env.srcQ } }
  else { s with inq := s.inq ++ [w] }

/-- `SRC.PUSH s` (R124). -/
def execSrcPush (x : Soft) (s : State) : Host.Outcome State Fault Refusal :=
  .next (present s (symWord x))

/-- `SRC.EOS` (R125): the token `{1, 0}` joins IN. -/
def execSrcEos (s : State) : Host.Outcome State Fault Refusal :=
  .next (present s eosWord)

/-- `SINK.POP` (R126): the oldest frame leaves OUT for the sink; while OUT is empty the sink
waits (R85; log 6). -/
def execSinkPop (s : State) : Host.Outcome State Fault Refusal :=
  match s.outq with
  | [] => .next s
  | f :: r => .next { s with outq := r, env := { s.env with popped := s.env.popped ++ [f] } }

end Sys2Proof.Machine
end

