-- ==== Sys2Proof/Machine/Code.lean ====
section
/-! DEFINITION. Convolutional code, puncture patterns, depuncturer, invert flags
(42_convolutional_code). -/

namespace Sys2Proof.Machine

/-! ## The mother code -/

/-- R193: the successor state and the two channel bits, `sr = {s, u}`, generators 0x4F and 0x6D
(R191, R192). -/
def convEncode (s : BitVec 6) (u : Bool) : BitVec 6 × Bool × Bool :=
  let sr : BitVec 7 := s ++ BitVec.ofBool u
  (sr.extractLsb' 0 6, parity (sr &&& 0x4F#7), parity (sr &&& 0x6D#7))

/-! ## The depuncturer -/

/-- One row of PUNC (R194): PERIOD is the length of `p1` and of `p2`. -/
structure Puncture where
  p1 : List Bool
  p2 : List Bool
  deriving DecidableEq, Repr

/-- PERIOD of R194. -/
def Puncture.period (p : Puncture) : Nat := p.p1.length

/-- The table PUNC (R194); RATE 5 to 7 have no row. -/
def puncture (rate : Nat) : Option Puncture :=
  match rate with
  | 0 => some ⟨[true], [true]⟩
  | 1 => some ⟨[true, false], [true, true]⟩
  | 2 => some ⟨[true, false, true], [true, true, false]⟩
  | 3 => some ⟨[true, false, true, false, true], [true, true, false, true, false]⟩
  | 4 => some ⟨[true, false, false, false, true, false, true],
               [true, true, true, true, false, true, false]⟩
  | _ => none

/-- `kept()` of R198. -/
def Puncture.kept (p : Puncture) (d : Depunct) : Bool :=
  if d.dpI then p.p2.getD d.dpK.toNat false else p.p1.getD d.dpK.toNat false

/-- `place(v)` of R198: fill the next slot; the pair is emitted when its second slot is filled. -/
def Puncture.place (p : Puncture) (d : Depunct) (v : Soft) : Depunct × List (Soft × Soft) :=
  if d.dpI then
    ({ d with dpI := false, dpK := BitVec.ofNat 3 ((d.dpK.toNat + 1) % p.period) },
      [(d.dpR1, v)])
  else ({ d with dpR1 := v, dpI := true }, [])

/-- `while kept() = 0: place(0)` of R198. No row has two periods of punctured slots, so `fuel` =
twice the slots of a period never cuts the loop short. -/
def Puncture.fill (p : Puncture) (fuel : Nat) (d : Depunct) : Depunct × List (Soft × Soft) :=
  match fuel with
  | 0 => (d, [])
  | n + 1 =>
    if p.kept d then (d, [])
    else
      let r := p.place d 0#8
      let q := p.fill n r.1
      (q.1, r.2 ++ q.2)

/-- R198: depuncture one soft symbol; zero or one pair. A RATE with no row in PUNC and a step index
outside the period are indices outside the table (R14; log 7). -/
def depuncture (c : Cfg) (d : Depunct) (y : Soft) : Except Fault (Depunct × List (Soft × Soft)) :=
  match puncture c.rate with
  | none => .error (.outOfBounds .punc)
  | some p =>
    let r := p.place d y
    if r.1.dpK.toNat < p.period then
      let q := p.fill (4 * p.period) r.1
      .ok (q.1, r.2 ++ q.2)
    else .error (.outOfBounds .punc)

/-- R200: apply the invert flags to a pair. -/
def invertPair (c : Cfg) (p : Soft × Soft) : Soft × Soft :=
  (if c.invC1 then negSoft p.1 else p.1, if c.invC2 then negSoft p.2 else p.2)

/-! ## Meanings -/

/-- `CC.ENC s, u` (R193). -/
def execCcEnc (s : State) : Host.Outcome State Fault Refusal :=
  let e := convEncode s.env.args.enc s.env.args.bit
  .next (s.setRes (.encoded e.1 e.2.1 e.2.2))

/-- `DP.PUSH y` (R198). -/
def execDpPush (s : State) : Host.Outcome State Fault Refusal :=
  settle ((depuncture s.cfg s.dp s.env.args.x).map fun r =>
    { s with dp := r.1 }.setRes (.pairs r.2))

/-- `CC.INV (r1, r2)` (R200). -/
def execCcInv (s : State) : Host.Outcome State Fault Refusal :=
  let p := invertPair s.cfg (s.env.args.x, s.env.args.y)
  .next (s.setRes (.pair p.1 p.2))

end Sys2Proof.Machine
end

