-- ==== Sys2Proof/Machine/Deframer.lean ====
section
/-! DEFINITION. Deframer: bit synchroniser and attached-sync-marker framer (44_deframer). -/

namespace Sys2Proof.Machine

/-! ## The frame buffer -/

/-- `store(k, b)` of R253: bit `k` of the frame is bit `7 - (k mod 8)` of byte `k div 8` (R86). -/
def storeBit (c : Cfg) (frm : Memory 8) (k : Nat) (b : Bool) : Except Fault (Memory 8) :=
  (within .frm c.frameBytes (k / 8)).map fun _ =>
    frm.write (k / 8) (setBit (frm.read (k / 8)) (7 - k % 8) b)

/-- `store` of consecutive bits from bit `k` on. -/
def storeBits (c : Cfg) (frm : Memory 8) (k : Nat) (bits : List Bool) : Except Fault (Memory 8) :=
  match bits with
  | [] => .ok frm
  | b :: r => do
    let f ← storeBit c frm k b
    storeBits c f (k + 1) r

/-- The marker bits as received, first in time first: `df_sr[ASM_LEN - 1 - k]` for k = 0 on
(R254). -/
def receivedMarker (c : Cfg) (sr : BitVec 64) : List Bool :=
  (List.range c.asmLen).map fun k => sr.getLsbD (c.asmLen - 1 - k)

/-- The FRAME_BYTES bytes of FRM (R85, R263). -/
def frameOf (c : Cfg) (frm : Memory 8) : Frame := frm.firstN c.frameBytes

/-! ## The operation -/

/-- What a push leaves: the registers, FRM, and whether a candidate frame is returned. -/
structure Pushed where
  df : Deframer
  frm : Memory 8
  frame : Bool
  deriving DecidableEq, Repr

/-- The part of R254 before the tests on the state: the shift register and the bit counter. -/
def shiftIn (c : Cfg) (d : Deframer) (b : Bool) : Deframer :=
  { d with
    dfSr := d.dfSr.extractLsb' 0 63 ++ BitVec.ofBool b
    dfBitctr := BitVec.ofNat 20 (modFree (d.dfBitctr.toNat + 1) c.frameBits) }

/-- R254 in SEARCHING at a match: the marker bits are stored as received and the offset recorded.
`df_sr` has no bit beyond 63 (log 7). -/
def startChecking (c : Cfg) (d : Deframer) (pos : Nat) (frm : Memory 8) : Except Fault Pushed := do
  within .dfSr 65 c.asmLen
  let f ← storeBits c frm 0 (receivedMarker c d.dfSr)
  return {
    df := { d with
      dfState := .checking
      dfConf := 0
      dfCnt := BitVec.ofNat 20 c.asmLen
      dfOffset := BitVec.ofNat 20 (modFree ((pos : Int) - ((c.asmLen : Int) - 1)) c.frameBits) }
    frm := f
    frame := false }

/-- R254 at the marker position of a frame, `df_cnt = ASM_LEN`, with `m` the match. -/
def atMarker (c : Cfg) (d : Deframer) (m : Bool) : Deframer :=
  match d.dfState with
  | .checking =>
    if m then
      let e := { d with dfConf := d.dfConf + 1 }
      if c.confirm ≤ e.dfConf.toNat then { e with dfState := .synced, dfMiss := 0 } else e
    else { d with dfState := .searching, dfCnt := 0 }
  | .synced | .searching =>
    if m then { d with dfMiss := 0 }
    else
      let e := { d with dfMiss := d.dfMiss + 1 }
      if c.missThr ≤ e.dfMiss.toNat then { e with dfState := .searching, dfCnt := 0 } else e

/-- R254 at the end of a frame, `df_cnt = FRAME_BITS`: in SYNCED the padding bits are written as 0
and the frame is returned (R257, R258); in CHECKING it is dropped (R256). -/
def atFrameEnd (c : Cfg) (d : Deframer) (frm : Memory 8) : Except Fault Pushed :=
  let e := { d with dfCnt := 0 }
  if d.dfState = .synced then
    (storeBits c frm c.frameBits (List.replicate c.padBits false)).map fun f => ⟨e, f, true⟩
  else .ok ⟨e, frm, false⟩

/-- R254: push one bit. -/
def pushBit (c : Cfg) (d : Deframer) (frm : Memory 8) (b : Bool) : Except Fault Pushed :=
  let d1 := shiftIn c d b
  let m := markerMatches c d1.dfSr
  if d.dfState = .searching then
    if m then startChecking c d1 d.dfBitctr.toNat frm else .ok ⟨d1, frm, false⟩
  else do
    let f ← storeBit c frm d.dfCnt.toNat b
    let d2 := { d1 with dfCnt := d.dfCnt + 1 }
    if d2.dfCnt.toNat = c.asmLen then return ⟨atMarker c d2 m, f, false⟩
    else if d2.dfCnt.toNat = c.frameBits then atFrameEnd c d2 f
    else return ⟨d2, f, false⟩

/-- R262: FRM is not cleared. -/
def clearDeframer : Deframer := ⟨.searching, 0, 0, 0, 0, 0, 0⟩

/-! ## Meanings -/

/-- `DF.PUSH b` (R254); the result is the candidate frame or none. -/
def execDfPush (s : State) : Host.Outcome State Fault Refusal :=
  settle ((pushBit s.cfg s.df s.frm s.env.args.bit).map fun r =>
    { s with df := r.df, frm := r.frm }.setRes
      (.frame (if r.frame then some (frameOf s.cfg r.frm) else none)))

/-- `DF.RESET` (R262). -/
def execDfReset (s : State) : Host.Outcome State Fault Refusal :=
  .next { s with df := clearDeframer }

end Sys2Proof.Machine
end

