-- ==== Sys2Proof/Machine/Phase.lean ====
section
/-! DEFINITION. Phase normaliser, hypothesis search and NRZ-M decoder (41_phase_normalizer). -/

namespace Sys2Proof.Machine

/-! ## Shared operations -/

/-- R167: the result of PH.CLAMP. -/
def clampSoft (s : Soft) : Soft := if s = 0x80#8 then 0x81#8 else s

/-- R168, the BPSK column; rotations 2 and 3 are "not used" there: a free value (log 10). -/
def rotBpsk (r : BitVec 2) (s : Soft) : Soft :=
  if r = 0#2 then s else if r = 1#2 then negSoft s else Config.rotUnused r s

/-- R168, the QPSK column: multiplication of i + jq by j^r. -/
def rotQpsk (r : BitVec 2) (p : Soft × Soft) : Soft × Soft :=
  if r = 0#2 then (p.1, p.2)
  else if r = 1#2 then (negSoft p.2, p.1)
  else if r = 2#2 then (negSoft p.1, negSoft p.2)
  else (p.2, negSoft p.1)

/-- R169. -/
def swapIq (p : Soft × Soft) : Soft × Soft := (p.2, p.1)

/-- `PH.SWAP_if` of R169. -/
def swapIf (sw : Bool) (p : Soft × Soft) : Soft × Soft := if sw then swapIq p else p

/-- `rot = hyp mod NPH` (R170). -/
def rotOf (c : Cfg) (hyp : BitVec 3) : BitVec 2 := BitVec.ofNat 2 (hyp.toNat % c.nph)

/-- `sw = cfg.IQ_SWAP ^ (hyp div NPH)` (R170). -/
def swapOf (c : Cfg) (hyp : BitVec 3) : Bool :=
  Bool.xor c.iqSwap ((hyp.toNat / c.nph) % 2 == 1)

/-- R171: normalise one soft symbol; the list holds zero, one or two normalised symbols. -/
def normalise (c : Cfg) (p : Phase) (x : Soft) : Phase × List Soft :=
  if c.isBpsk then (p, [rotBpsk (rotOf c p.hyp) x])
  else if p.iHave then
    let iq := rotQpsk (rotOf c p.hyp) (swapIf (swapOf c p.hyp) (p.iHold, x))
    ({ p with iHave := false }, [iq.1, iq.2])
  else ({ p with iHold := x, iHave := true }, [])

/-- R173: the next hypothesis, with a slip of one channel symbol when all have been tried. -/
def nextHyp (c : Cfg) (p : Phase) : Phase :=
  let h := (p.hyp.toNat + 1) % c.nhyp
  { p with
    hyp := BitVec.ofNat 3 h
    skip := if h = 0 then p.skip + BitVec.ofNat 32 c.u else p.skip }

/-- R175: NRZ-M decode one bit. -/
def diffDecode (p : Phase) (b : Bool) : Phase × Bool :=
  ({ p with nrzmPrev := b }, Bool.xor b p.nrzmPrev)

/-! ## Meanings -/

/-- `PH.CLAMP s` (R167). -/
def execPhClamp (s : State) : Host.Outcome State Fault Refusal :=
  .next (s.setRes (.symbol (clampSoft s.env.args.x)))

/-- `PH.ROT (i, q), r` for QPSK, `PH.ROT s, r` for BPSK (R168). -/
def execPhRot (s : State) : Host.Outcome State Fault Refusal :=
  if s.cfg.isBpsk then .next (s.setRes (.symbol (rotBpsk s.env.args.ph s.env.args.x)))
  else
    let iq := rotQpsk s.env.args.ph (s.env.args.x, s.env.args.y)
    .next (s.setRes (.pair iq.1 iq.2))

/-- `PH.SWAP (i, q)` (R169); "not defined for BPSK": a free value there (log 11). -/
def execPhSwap (s : State) : Host.Outcome State Fault Refusal :=
  let iq :=
    if s.cfg.isBpsk then Config.swapBpsk s.env.args.x s.env.args.y
    else swapIq (s.env.args.x, s.env.args.y)
  .next (s.setRes (.pair iq.1 iq.2))

/-- `PH.PUSH x` (R171). -/
def execPhPush (s : State) : Host.Outcome State Fault Refusal :=
  let r := normalise s.cfg s.ph s.env.args.x
  .next ({ s with ph := r.1 }.setRes (.symbols r.2))

/-- `PH.NEXT` (R173). -/
def execPhNext (s : State) : Host.Outcome State Fault Refusal :=
  .next { s with ph := nextHyp s.cfg s.ph }

/-- `DIFF.DEC b` (R175). DESIGN CHOICE: R175 says "performed only when cfg.NRZM = 1"; handed with
NRZM = 0 it is performed as well (log 27). The core worker tests NRZM in `routeBit` (R341). -/
def execDiffDec (s : State) : Host.Outcome State Fault Refusal :=
  let r := diffDecode s.ph s.env.args.bit
  .next ({ s with ph := r.1 }.setRes (.bit r.2))

end Sys2Proof.Machine
end

