-- ==== Sys2Proof/Machine/Viterbi.lean ====
section
/-! DEFINITION. Viterbi decoder, traceback unit, error-rate estimator, lock (43_viterbi). -/

namespace Sys2Proof.Machine

/-! ## Branch metrics (R211, R212) -/

/-- R211: the cost of a soft symbol against a hypothesised channel bit; for -128, outside the
range R211 speaks of, a free value (log 9). -/
def softCost (c : Bool) (r : Soft) : BitVec 9 :=
  if r = 0x80#8 then Config.costOfMin c
  else BitVec.ofInt 9 (if c then 127 - r.toInt else 127 + r.toInt)

/-- `bm[c1][c2]`. -/
def Metrics.get (m : Metrics) (c1 c2 : Bool) : BitVec 9 :=
  match c1, c2 with
  | false, false => m.m00
  | false, true => m.m01
  | true, false => m.m10
  | true, true => m.m11

/-- R212: the four branch metrics of a pair. -/
def branchMetrics (r1 r2 : Soft) : Metrics where
  m00 := softCost false r1 + softCost false r2
  m01 := softCost false r1 + softCost true r2
  m10 := softCost true r1 + softCost false r2
  m11 := softCost true r1 + softCost true r2

/-! ## Add-compare-select (R213 to R216) -/

/-- The 64 trellis states, lowest first. -/
def trellisStates : List (BitVec 6) := (List.range 64).map (BitVec.ofNat 6)

/-- `PM[t]`. -/
def Viterbi.metric (v : Viterbi) (t : BitVec 6) : Nat := (v.pm[t.toNat]'t.isLt).toNat

/-- The predecessor `(t >> 1) | (d << 5)` of a state (R191, R215). -/
def predecessor (t : BitVec 6) (d : Bool) : BitVec 6 := BitVec.ofBool d ++ t.extractLsb' 1 5

/-- The label `(c1, c2)` of the branch from a predecessor into `t` (R213). -/
def branchLabel (t : BitVec 6) (d : Bool) : Bool × Bool :=
  (convEncode (predecessor t d) (t.getLsbD 0)).2

/-- `cand0` (d = false) and `cand1` (d = true) of R214, as exact sums. -/
def candidate (v : Viterbi) (m : Metrics) (t : BitVec 6) (d : Bool) : Nat :=
  v.metric (predecessor t d) + (m.get (branchLabel t d).1 (branchLabel t d).2).toNat

/-- `D[t]` of R214: 1 only if `cand1` is strictly smaller. -/
def decision (v : Viterbi) (m : Metrics) (t : BitVec 6) : Bool :=
  decide (candidate v m t true < candidate v m t false)

/-- `new[t]` of R214. -/
def newMetric (v : Viterbi) (m : Metrics) (t : BitVec 6) : Nat :=
  candidate v m t (decision v m t)

/-- The smallest value of a function over the 64 states. -/
def minOver (f : BitVec 6 → Nat) : Nat :=
  trellisStates.foldl (fun a t => min a (f t)) (f 0#6)

/-- R214: all states at once, the smallest metric subtracted, the decisions stored at
HIST[hist_wp]. -/
def addCompareSelect (c : Cfg) (v : Viterbi) (m : Metrics) : Except Fault Viterbi :=
  (within .hist c.tbd v.histWp.toNat).map fun _ =>
    let least := minOver (newMetric v m)
    { v with
      pm := Vector.ofFn fun t => BitVec.ofNat 16 (newMetric v m (BitVec.ofNat 6 t.val) - least)
      hist := v.hist.write v.histWp.toNat
        (BitVec.ofFnLE fun t : Fin 64 => decision v m (BitVec.ofNat 6 t.val)) }

/-! ## Traceback (R217 to R220) -/

/-- One step back along a survivor: the decision of `st` in a history entry chooses its
predecessor (R215, R219). -/
def stepBack (entry : BitVec 64) (st : BitVec 6) : BitVec 6 :=
  predecessor st (entry.getLsbD st.toNat)

/-- R218: the lowest-numbered state whose path metric is 0; a free value where none is (log 12). -/
def traceStart (v : Viterbi) : BitVec 6 :=
  match trellisStates.find? (fun t => v.metric t == 0) with
  | some t => t
  | none => Config.traceStart

/-- R219: trace back TBD steps; the newest bit of the state reached. -/
def traceback (c : Cfg) (v : Viterbi) : Bool :=
  ((List.range c.tbd).foldl
    (fun st k => stepBack (v.hist.read (ringBack v.histWp.toNat k c.tbd)) st)
    (traceStart v)).getLsbD 0

/-! ## Error-rate estimate and lock (R221 to R229) -/

/-- R229: the end of a window. -/
def lockDecision (c : Cfg) (v : Viterbi) : Viterbi :=
  let w :=
    match windowClass v.berErrs.toNat v.berTotal.toNat c.berThr with
    | .good => { v with vitLock := true, badCnt := 0 }
    | .bad =>
      if v.vitLock then
        if c.outsyncAfter < v.badCnt.toNat + 1 then { v with vitLock := false, badCnt := 0 }
        else { v with badCnt := v.badCnt + 1 }
      else v
    | .neutral => v
  { w with
    berErrsL := v.berErrs
    berTotalL := v.berTotal
    berErrs := 0
    berTotal := 0
    berSteps := 0 }

/-- A DLY entry `{h1, e1, h2, e2}` (R28, R221). -/
def delayEntry (r1 r2 : Soft) : BitVec 4 :=
  BitVec.ofBool (hardBit r1) ++ BitVec.ofBool (isErasure r1) ++ BitVec.ofBool (hardBit r2) ++
    BitVec.ofBool (isErasure r2)

/-- Count one symbol of the delayed pair: an erased symbol is not compared and not counted
(R221, R226). -/
def countSymbol (erased hard sent : Bool) (v : Viterbi) : Viterbi :=
  if erased then v
  else { v with
    berTotal := v.berTotal + 1
    berErrs := if hard != sent then v.berErrs + 1 else v.berErrs }

/-- The part of R226 under `b != none`: re-encode, compare with the delayed entry, count, and end
the window when BER_WIN bits have been counted. -/
def compareReencoded (c : Cfg) (v : Viterbi) (old : BitVec 4) (b : Bool) : Viterbi :=
  let e := convEncode v.reenc b
  let v1 := countSymbol (old.getLsbD 2) (old.getLsbD 3) e.2.1 { v with reenc := e.1 }
  let v2 := countSymbol (old.getLsbD 0) (old.getLsbD 1) e.2.2 v1
  let v3 := { v2 with berSteps := v2.berSteps + 1 }
  if v3.berSteps.toNat = c.berWin then lockDecision c v3 else v3

/-- R226: the old DLY entry is read before the new one is written. -/
def errorRate (c : Cfg) (v : Viterbi) (r1 r2 : Soft) (b : Option Bool) : Except Fault Viterbi :=
  (within .dly c.tbd v.histWp.toNat).map fun _ =>
    let old := v.dly.read v.histWp.toNat
    let w := { v with dly := v.dly.write v.histWp.toNat (delayEntry r1 r2) }
    match b with
    | none => w
    | some b => compareReencoded c w old b

/-! ## The step, reset, flush (R230 to R232) -/

/-- The saturating count of trellis steps (R30, R230). -/
def countStep (c : Cfg) (v : Viterbi) : Viterbi :=
  if v.vitN.toNat < c.tbd + 1 then { v with vitN := v.vitN + 1 } else v

/-- R230: one trellis step. -/
def trellisStep (c : Cfg) (v : Viterbi) (r1 r2 : Soft) : Except Fault (Viterbi × Option Bool) := do
  let v1 ← addCompareSelect c v (branchMetrics r1 r2)
  let v2 := countStep c v1
  let b := if v2.vitN.toNat = c.tbd + 1 then some (traceback c v2) else none
  let v3 ← errorRate c v2 r1 r2 b
  return ({ v3 with histWp := BitVec.ofNat 8 ((v3.histWp.toNat + 1) % c.tbd) }, b)

/-- R231: HIST and DLY are not cleared. -/
def clearViterbi (v : Viterbi) : Viterbi :=
  { v with
    pm := Vector.ofFn fun _ => 0
    histWp := 0
    vitN := 0
    reenc := 0
    berErrs := 0
    berTotal := 0
    berSteps := 0
    berErrsL := 0
    berTotalL := 0
    vitLock := false
    badCnt := 0 }

/-- The lowest-numbered state whose path metric is the smallest (R232). -/
def bestState (v : Viterbi) : BitVec 6 :=
  match trellisStates.find? (fun t => v.metric t == minOver v.metric) with
  | some t => t
  | none => 0#6

/-- The loop of R232: `n` more bits, newest first, reading the entries at `last - k`,
`last - (k + 1)`, ... -/
def flushBits (c : Cfg) (v : Viterbi) (last : Nat) (n k : Nat) (st : BitVec 6) : List Bool :=
  match n with
  | 0 => []
  | m + 1 =>
    let st' := stepBack (v.hist.read (ringBack last k c.tbd)) st
    st'.getLsbD 0 :: flushBits c v last m (k + 1) st'

/-- `P` of R232: how many bits the decoder still holds. -/
def heldBits (c : Cfg) (v : Viterbi) : Nat :=
  if v.vitN.toNat = c.tbd + 1 then c.tbd else v.vitN.toNat

/-- R232: the bits still held, oldest first. A ring with no entry cannot be read (log 7). -/
def flushList (c : Cfg) (v : Viterbi) : Except Fault (List Bool) :=
  if v.vitN = 0 then .ok []
  else if c.tbd = 0 ∧ 2 ≤ heldBits c v then .error (.outOfBounds .hist)
  else
    let st := bestState v
    .ok (st.getLsbD 0 ::
      flushBits c v (ringBack v.histWp.toNat 1 c.tbd) (heldBits c v - 1) 0 st).reverse

/-! ## Meanings -/

/-- `VIT.BM r1, r2` (R212). -/
def execVitBm (s : State) : Host.Outcome State Fault Refusal :=
  .next (s.setRes (.metrics (branchMetrics s.env.args.x s.env.args.y)))

/-- `VIT.ACS bm` (R214). -/
def execVitAcs (s : State) : Host.Outcome State Fault Refusal :=
  settle ((addCompareSelect s.cfg s.vit s.env.args.bm).map fun v => { s with vit := v })

/-- `VIT.TB` (R219). -/
def execVitTb (s : State) : Host.Outcome State Fault Refusal :=
  .next (s.setRes (.bit (traceback s.cfg s.vit)))

/-- `VIT.BER r1, r2, b` (R226). -/
def execVitBer (s : State) : Host.Outcome State Fault Refusal :=
  let b := if s.env.args.bitGiven then some s.env.args.bit else none
  settle ((errorRate s.cfg s.vit s.env.args.x s.env.args.y b).map fun v => { s with vit := v })

/-- `VIT.LOCK` (R229). -/
def execVitLock (s : State) : Host.Outcome State Fault Refusal :=
  .next { s with vit := lockDecision s.cfg s.vit }

/-- `VIT.STEP r1, r2` (R230). -/
def execVitStep (s : State) : Host.Outcome State Fault Refusal :=
  settle ((trellisStep s.cfg s.vit s.env.args.x s.env.args.y).map fun r =>
    { s with vit := r.1 }.setRes (.bitOpt r.2))

/-- `VIT.RESET` (R231). -/
def execVitReset (s : State) : Host.Outcome State Fault Refusal :=
  .next { s with vit := clearViterbi s.vit }

/-- `VIT.FLUSH` (R232). -/
def execVitFlush (s : State) : Host.Outcome State Fault Refusal :=
  settle ((flushList s.cfg s.vit).map fun l => s.setRes (.bits l))

end Sys2Proof.Machine
end

