-- ==== Sys2Proof/Machine/Resync.lean ====
section
/-! DEFINITION. What the correlator and the controller call alike: the resynchronisation CTL.CLEAR
(47 R350). -/

namespace Sys2Proof.Machine

/-- R350: the datapath as after reset, keeping `hyp`, `skip` and everything of the controller but
`unsync_bits`. -/
def clearDatapath (s : State) : State :=
  { s with
    vit := clearViterbi s.vit
    df := clearDeframer
    dp := { s.dp with dpK := 0, dpI := false }
    ph := { s.ph with nrzmPrev := false, iHave := false }
    ctl := { s.ctl with unsyncBits := 0 } }

/-- `CTL.CLEAR` (R350). -/
def execCtlClear (s : State) : Host.Outcome State Fault Refusal :=
  .next (clearDatapath s)

end Sys2Proof.Machine
end

