-- ==== Sys2Proof/Machine/Correlator.lean ====
section
/-! DEFINITION. Correlator (40_correlator). -/

namespace Sys2Proof.Machine

/-! ## The window -/

/-- `WL = min(sym_n, cfg.CORR_WIN)` rounded down to a multiple of U (R150). -/
def windowLen (s : State) : Nat :=
  min s.ctl.symN.toNat s.cfg.corrWin / s.cfg.u * s.cfg.u

/-- R151: bit `i` in time order of a pattern, the most significant of its PAT_LEN bits first. -/
def patternBit (p : Pattern) (i : Nat) : Bool :=
  (p.hi ++ p.lo).getLsbD (p.len.toNat - 1 - i)

/-- The QPSK window transformed pair by pair as PH.PUSH would (R152). -/
def transformPairs (sw : Bool) (r : BitVec 2) (l : List Soft) : List Soft :=
  match l with
  | i :: q :: rest =>
    let iq := rotQpsk r (swapIf sw (i, q))
    iq.1 :: iq.2 :: transformPairs sw r rest
  | _ => []

/-- R152: the hard-decision stream of phase candidate `r`, for the WL symbols of the window. -/
def hardStream (s : State) (r : BitVec 2) : List Bool :=
  let w := s.sym.firstN (windowLen s)
  (if s.cfg.isBpsk then w.map (rotBpsk r)
   else transformPairs (swapOf s.cfg s.ph.hyp) r w).map hardBit

/-! ## Scores -/

/-- R153: how many pattern bits agree with the stream from offset `o` on. -/
def scoreAt (hb : List Bool) (p : Pattern) (o : Nat) : Nat :=
  (List.range p.len.toNat).countP fun i => hb.getD (o + i) false == patternBit p i

/-- The indices a search makes lie in their spaces: the window in SYM, the patterns in the table,
the bits of a pattern that fits in its 64 (R14; log 7). -/
def searchBounds (s : State) : Except Fault Unit :=
  if windowLen s = 0 then .ok ()
  else do
    within .sym (s.cfg.batchLen + 1) (windowLen s)
    within .pattern 9 s.cfg.npat
    if (List.range s.cfg.npat).all fun j =>
        decide (s.cfg.patLen j ≤ 64) || decide (windowLen s < s.cfg.patLen j) then .ok ()
    else .error (.outOfBounds .pattern)

/-- The candidates of R155 in the order its loops meet them: phase outermost, then offset, then
pattern; a pattern that does not fit at an offset is no candidate (R154). -/
def candidates (s : State) : List Hit :=
  (List.range s.cfg.nph).flatMap fun ph =>
    let hb := hardStream s (BitVec.ofNat 2 ph)
    ((List.range (windowLen s)).filter fun o => o % s.cfg.u == 0).flatMap fun o =>
      ((List.range s.cfg.npat).filter fun j =>
          decide (o + s.cfg.patLen j ≤ windowLen s)).map fun j =>
        { score := scoreAt hb (s.cfg.pattern j) o
          ph := BitVec.ofNat 2 ph
          off := BitVec.ofNat 16 o
          pat := BitVec.ofNat 3 j }

/-- A later candidate replaces the best only if its score is strictly greater (R155). -/
def better (best : Option Hit) (h : Hit) : Option Hit :=
  match best with
  | none => some h
  | some b => if b.score < h.score then some h else some b

/-- R155: the best candidate, found if its score is greater than CORR_MIN. -/
def search (s : State) : Option Hit :=
  match (candidates s).foldl better none with
  | none => none
  | some b => if s.cfg.corrMin < b.score then some b else none

/-- R156: turn a search result into hypothesis and skip. DESIGN CHOICE: operands that no CORR.SEARCH
returns (`ph` of NPH or more, which is 2 or 3 under BPSK, or an offset that is no candidate's) are
put through the same formula, so that `hyp` can leave 0 to NHYP - 1 (log 26). -/
def applySearch (s : State) (found : Bool) (ph : BitVec 2) (o : BitVec 16) : State :=
  if found && (ph.toNat != s.ph.hyp.toNat % s.cfg.nph || o != 0#16) then
    clearDatapath
      { s with ph := { s.ph with
          hyp := BitVec.ofNat 3 (s.ph.hyp.toNat / s.cfg.nph * s.cfg.nph + ph.toNat)
          skip := s.ph.skip + o.zeroExtend 32 } }
  else s

/-- R156 on the result of R155. -/
def applyHit (s : State) (hit : Option Hit) : State :=
  match hit with
  | some h => applySearch s true h.ph h.off
  | none => applySearch s false 0 0

/-! ## Meanings -/

/-- `CORR.SCORE ph, o, j` (R153). DESIGN CHOICE: an offset that is no multiple of U, and `ph` of 2
or 3 under BPSK, are put through the same formula (log 26). A span that leaves the window, a window
that leaves SYM and a pattern longer than its 64 bits are indices outside a space (log 7). -/
def execCorrScore (s : State) : Host.Outcome State Fault Refusal :=
  let a := s.env.args
  settle (do
    within .sym (windowLen s + 1) (a.off.toNat + s.cfg.patLen a.pat.toNat)
    within .sym (s.cfg.batchLen + 1) (windowLen s)
    within .pattern 65 (s.cfg.patLen a.pat.toNat)
    return s.setRes (.score (scoreAt (hardStream s a.ph) (s.cfg.pattern a.pat.toNat) a.off.toNat)))

/-- `CORR.SEARCH` (R155). -/
def execCorrSearch (s : State) : Host.Outcome State Fault Refusal :=
  settle ((searchBounds s).map fun _ => s.setRes (.search (search s)))

/-- `CORR.APPLY found, ph, o` (R156); for operands that no search returns: log 26. -/
def execCorrApply (s : State) : Host.Outcome State Fault Refusal :=
  .next (applySearch s s.env.args.found s.env.args.ph s.env.args.off)

end Sys2Proof.Machine
end

