-- ==== Sys2Proof/Machine/Derand.lean ====
section
/-! DEFINITION. Derandomiser (45_derandomizer). -/

namespace Sys2Proof.Machine

/-- One step of the generator of R281 on the last eight bits, the oldest in bit 7:
`a(n + 8) = a(n) ^ a(n + 3) ^ a(n + 5) ^ a(n + 7)`. -/
def lfsrStep (r : Byte) : Byte :=
  r.extractLsb' 0 7 ++
    BitVec.ofBool
      (Bool.xor (Bool.xor (r.getLsbD 7) (r.getLsbD 4)) (Bool.xor (r.getLsbD 2) (r.getLsbD 0)))

/-- Eight steps: the next byte of the sequence. -/
def lfsrByte (r : Byte) : Byte :=
  lfsrStep (lfsrStep (lfsrStep (lfsrStep (lfsrStep (lfsrStep (lfsrStep (lfsrStep r)))))))

/-- `n` bytes of the sequence, `r` the first. -/
def prnFrom (n : Nat) (r : Byte) : List Byte :=
  match n with
  | 0 => []
  | m + 1 => r :: prnFrom m (lfsrByte r)

/-- The table PRN, computed from R281 as R282 allows: 255 bytes, the first all ones. -/
def prnTable : List Byte := prnFrom 255 0xFF#8

/-- `PRN[i]`. -/
def prn (i : Nat) : Byte := prnTable.getD i 0

/-- The loop of R283 from byte `i` for `n` bytes. -/
def derandFrom (start : Nat) (frm : Memory 8) (i n : Nat) : Memory 8 :=
  match n with
  | 0 => frm
  | m + 1 =>
    derandFrom start (frm.write i (frm.read i ^^^ prn ((i - start) % 255))) (i + 1) m

/-- R283: XOR the sequence into FRM from DERAND_START to the end of the frame. -/
def derandomise (c : Cfg) (frm : Memory 8) : Memory 8 :=
  derandFrom c.derandStart frm c.derandStart (c.frameBytes - c.derandStart)

/-- `DR.APPLY` (R283). -/
def execDrApply (s : State) : Host.Outcome State Fault Refusal :=
  .next { s with frm := derandomise s.cfg s.frm }

end Sys2Proof.Machine
end

