-- ==== Sys2Proof/Machine/Field.lean ====
section
/-! DEFINITION. The field GF(256) of the Reed-Solomon codes, its tables, and polynomials over it
(46_reed_solomon R290, R291). -/

namespace Sys2Proof.Machine

/-- R290: times alpha, modulo x^8 + x^7 + x^2 + x + 1. -/
def xtime (a : Byte) : Byte :=
  if a.getLsbD 7 then (a <<< 1) ^^^ 0x87#8 else a <<< 1

/-- The loop of `gmul` in R290: bit `k` of `b` adds `xtime^k(a)`. -/
def gmulFrom (n k : Nat) (a b : Byte) : Byte :=
  match n with
  | 0 => 0
  | m + 1 => (if b.getLsbD k then a else 0) ^^^ gmulFrom m (k + 1) (xtime a) b

/-- R290: multiplication in the field. -/
def gmul (a b : Byte) : Byte := gmulFrom 8 0 a b

/-- `n` successive powers of alpha, `a` the first. -/
def powersFrom (n : Nat) (a : Byte) : List Byte :=
  match n with
  | 0 => []
  | m + 1 => a :: powersFrom m (xtime a)

/-- The table GFEXP (R291). -/
def gfexpTable : List Byte := powersFrom 255 0x01#8

/-- `α^i = GFEXP[i mod 255]` (R291). -/
def gfexp (i : Nat) : Byte := gfexpTable.getD (i % 255) 0

/-- The table GFLOG (R291): entry `a` is the `i` with `GFEXP[i] = a`; entry 0 is the placeholder
0, which no rule reads. -/
def gflogTable : List Nat :=
  0 :: (List.range 255).map fun a => gfexpTable.idxOf (BitVec.ofNat 8 (a + 1))

/-- `GFLOG[a]`. -/
def gflog (a : Byte) : Nat := gflogTable.getD a.toNat 0

/-- R291: division; `b != 0` required. -/
def gdiv (a b : Byte) : Byte :=
  if a = 0#8 then 0 else gfexp (gflog a + 255 - gflog b)

/-- R291: the inverse; `a != 0` required. -/
def ginv (a : Byte) : Byte := gfexp (255 - gflog a)

/-- R291: a power. -/
def gpow (a : Byte) (n : Nat) : Byte :=
  if n = 0 then 1 else if a = 0#8 then 0 else gfexp (gflog a * n)

/-! ## Polynomials, lowest degree first (R304) -/

/-- Sum of two polynomials. -/
def polyAdd (p q : List Byte) : List Byte :=
  match p, q with
  | [], q => q
  | p, [] => p
  | a :: p', b :: q' => (a ^^^ b) :: polyAdd p' q'

/-- `c × x^m × p`. -/
def polyScale (c : Byte) (m : Nat) (p : List Byte) : List Byte :=
  List.replicate m 0 ++ p.map (gmul c)

/-- `p(x)`. -/
def polyEval (p : List Byte) (x : Byte) : Byte :=
  p.foldr (fun c acc => gmul acc x ^^^ c) 0

/-- XOR of a list of bytes. -/
def xorAll (l : List Byte) : Byte := l.foldl (· ^^^ ·) 0

/-- Strip trailing zero coefficients. -/
def polyTrim (p : List Byte) : List Byte :=
  (p.reverse.dropWhile (· == 0#8)).reverse

end Sys2Proof.Machine
end

