-- ==== Sys2Proof/Machine/ReedSolomon.lean ====
section
/-! DEFINITION. Reed-Solomon block decoder (46_reed_solomon). -/

namespace Sys2Proof.Machine

/-! ## The dual basis (R296) -/

/-- The rows of T for u7 to u0 (conventional to dual). -/
def dualRows : List Byte := [0x8D, 0xEF, 0xEC, 0x86, 0xFA, 0x99, 0xAF, 0x7B]

/-- The rows of T^-1 for z0 to z7 (dual to conventional). -/
def convRows : List Byte := [0xC5, 0x42, 0x2E, 0xFD, 0xF0, 0x79, 0xAC, 0xCC]

/-- The XOR of the rows selected by the 1 bits of `v`, the first row by bit 7. -/
def selectRows (rows : List Byte) (v : Byte) : Byte :=
  xorAll ((List.range 8).map fun i => if v.getLsbD (7 - i) then rows.getD i 0 else 0)

/-- `TAL[v]` (R296, R297). -/
def tal (v : Byte) : Byte := selectRows dualRows v

/-- `TAL1[v]` (R296, R298). -/
def tal1 (v : Byte) : Byte := selectRows convRows v

/-! ## Syndromes (R302) -/

/-- `β^n` with β = α^11 (R292). -/
def betaPow (n : Nat) : Byte := gfexp (11 * n)

/-- `r(x)` for the received word `cw[0..254]`, `cw[0]` the highest coefficient (R293, R302). -/
def horner (x : Byte) (cw : List Byte) : Byte :=
  cw.foldl (fun y v => gmul y x ^^^ v) 0

/-- R302: the NROOTS syndromes of a word. -/
def syndromes (t : BitVec 2) (cw : List Byte) : List Byte :=
  (List.range (nroots t)).map fun i => horner (betaPow (fcr t + i)) cw

/-- Every syndrome is 0: the word is a codeword (R293, R302). -/
def isCodeword (t : BitVec 2) (cw : List Byte) : Bool :=
  (syndromes t cw).all (· == 0#8)

/-! ## The decoder (R303, realised by R304; log 17) -/

/-- The variables of step 1 of R304. -/
structure Locator where
  c : List Byte
  b : List Byte
  l : Nat
  m : Nat
  d : Byte
  deriving DecidableEq, Repr

/-- One iteration of step 1 of R304 (Berlekamp-Massey); the field `d` is the rule's `b`. -/
def locatorStep (s : List Byte) (k : Locator) (n : Nat) : Locator :=
  let d := s.getD n 0 ^^^
    xorAll ((List.range k.l).map fun i => gmul (k.c.getD (i + 1) 0) (s.getD (n - (i + 1)) 0))
  if d = 0#8 then { k with m := k.m + 1 }
  else
    let c' := polyAdd k.c (polyScale (gdiv d k.d) k.m k.b)
    if 2 * k.l ≤ n then { c := c', b := k.c, l := n + 1 - k.l, m := 1, d := d }
    else { k with c := c', m := k.m + 1 }

/-- Step 1 of R304. -/
def locator (s : List Byte) : Locator :=
  (List.range s.length).foldl (locatorStep s) ⟨[1], [1], 0, 1, 1⟩

/-- `X_k = β^(254 - k)` (R304 step 2). -/
def position (k : Nat) : Byte := betaPow (254 - k)

/-- Step 2 of R304: the positions whose inverse locator is a root. -/
def errorPositions (c : List Byte) : List Nat :=
  (List.range 255).filter fun k => polyEval c (ginv (position k)) == 0#8

/-- Step 3 of R304: `Om(x) = (S(x) × C(x)) mod x^NROOTS`. -/
def evaluator (s c : List Byte) : List Byte :=
  (List.range s.length).map fun i =>
    xorAll ((List.range (i + 1)).map fun j => gmul (s.getD j 0) (c.getD (i - j) 0))

/-- The formal derivative `C'(x)` of step 4 of R304. -/
def derivativeAt (c : List Byte) (x : Byte) : Byte :=
  xorAll ((List.range c.length).map fun i =>
    if i % 2 == 1 then gmul (c.getD i 0) (gpow x (i - 1)) else 0)

/-- Step 4 of R304: the word with the value at one error position corrected; `none` where the
derivative is 0. -/
def correctAt (t : BitVec 2) (c om : List Byte) (cw : List Byte) (k : Nat) : Option (List Byte) :=
  let x := position k
  let den := derivativeAt c (ginv x)
  if den = 0#8 then none
  else
    let e := gmul (gpow x (((1 : Int) - (fcr t : Int)) % 255).toNat)
      (gdiv (polyEval om (ginv x)) den)
    some (cw.set k (cw.getD k 0 ^^^ e))

/-- All error positions corrected in turn. -/
def correctAll (t : BitVec 2) (c om : List Byte) (cw : List Byte) (locs : List Nat) :
    Option (List Byte) :=
  match locs with
  | [] => some cw
  | k :: r =>
    match correctAt t c om cw k with
    | none => none
    | some w => correctAll t c om w r

/-- The number of byte positions in which two words differ. -/
def distance (a b : List Byte) : Nat :=
  ((List.zip a b).countP fun p => p.1 != p.2)

/-- R304: the corrected word with the count of changed positions, or `none` for an uncorrectable
word. -/
def decodeWord (t : BitVec 2) (cw : List Byte) : Option (Nat × List Byte) :=
  if isCodeword t cw then some (0, cw)
  else
    let s := syndromes t cw
    let k := locator s
    let c := polyTrim k.c
    if c.length ≠ k.l + 1 ∨ rsT t < k.l then none
    else
      let locs := errorPositions c
      if locs.length ≠ k.l then none
      else
        match correctAll t c (evaluator s c) cw locs with
        | none => none
        | some w => if isCodeword t w then some (distance cw w, w) else none

/-! ## The operations on CW and FRM -/

/-- The 255 bytes of CW. -/
def codeword (cw : Memory 8) : List Byte := cw.firstN 255

/-- CW with these bytes. -/
def setCodeword (cw : Memory 8) (l : List Byte) : Memory 8 := cw.storeStride 0 1 l

/-- `FRM[ASM_BYTES + j + RS_DEPTH × k]`, k = 254, lies in the frame (R295; log 7). DESIGN CHOICE:
nothing else is asked of j, so a handed `j` of RS_DEPTH or more, outside the operand range of R300
and R306, uses the same formula where its bytes lie in FRM (log 25). -/
def laneBounds (c : Cfg) (j : Nat) : Except Fault Unit :=
  within .frm c.frameBytes (c.asmBytes + j + c.rsDepth * 254)

/-- R300: the bytes of interleave `j`. -/
def laneBytes (c : Cfg) (frm : Memory 8) (j : Nat) : List Byte :=
  (List.range 255).map fun k => frm.read (c.asmBytes + j + c.rsDepth * k)

/-- R300: gather interleave `j` into CW. -/
def gather (c : Cfg) (frm cw : Memory 8) (j : Nat) : Except Fault (Memory 8) :=
  (laneBounds c j).map fun _ => setCodeword cw (laneBytes c frm j)

/-- R306: scatter CW back into FRM. -/
def scatter (c : Cfg) (frm cw : Memory 8) (j : Nat) : Except Fault (Memory 8) :=
  (laneBounds c j).map fun _ => frm.storeStride (c.asmBytes + j) c.rsDepth (codeword cw)

/-- R301: `CW[k] <- TAL1[CW[k]]`. -/
def toConventional (cw : Memory 8) : Memory 8 := setCodeword cw ((codeword cw).map tal1)

/-- R305: `CW[k] <- TAL[CW[k]]`. -/
def toDual (cw : Memory 8) : Memory 8 := setCodeword cw ((codeword cw).map tal)

/-- R303: CW corrected in place with the number of positions changed, or unchanged with -1. -/
def correctCw (t : BitVec 2) (cw : Memory 8) : Memory 8 × Int :=
  match decodeWord t (codeword cw) with
  | some (n, w) => (setCodeword cw w, n)
  | none => (cw, -1)

/-- The frame's bytes, CW and the counts, as RS.FRAME carries them from lane to lane. -/
structure Lanes where
  frm : Memory 8
  cw : Memory 8
  hRs : Vector (BitVec 8) 8
  deriving DecidableEq, Repr

/-- `h_rs` with entry `j` replaced. -/
def setCount (h : Vector (BitVec 8) 8) (j : Nat) (n : Int) : Vector (BitVec 8) 8 :=
  Vector.ofFn fun i => if i.val = j then BitVec.ofInt 8 n else h[i]

/-- The body of the second loop of R307 for interleave `j`; `h_rs` has eight entries (log 7). -/
def decodeLane (c : Cfg) (l : Lanes) (j : Nat) : Except Fault Lanes := do
  let cw0 ← gather c l.frm l.cw j
  let cw1 := if c.rsDual then toConventional cw0 else cw0
  let r := correctCw c.rsType cw1
  within .hrs 8 j
  if 0 ≤ r.2 then
    let cw2 := if c.rsDual then toDual r.1 else r.1
    let f ← scatter c l.frm cw2 j
    return ⟨f, cw2, setCount l.hRs j r.2⟩
  else return ⟨l.frm, r.1, setCount l.hRs j r.2⟩

/-- The second loop of R307: interleaves `j`, `j + 1`, ..., `n` of them. -/
def decodeLanes (c : Cfg) (l : Lanes) (j n : Nat) : Except Fault Lanes :=
  match n with
  | 0 => .ok l
  | m + 1 => do
    let l' ← decodeLane c l j
    decodeLanes c l' (j + 1) m

/-- All eight counts 0 (the first loop of R307, and R342). -/
def noCounts : Vector (BitVec 8) 8 := Vector.ofFn fun _ => 0

/-- R307: all interleaves of a frame. -/
def decodeFrame (s : State) : Except Fault State :=
  (decodeLanes s.cfg ⟨s.frm, s.cw, noCounts⟩ 0 s.cfg.rsDepth).map fun l =>
    { s with frm := l.frm, cw := l.cw, hRs := l.hRs }

/-! ## Meanings -/

/-- `RS.DEINT j` (R300); for j of RS_DEPTH or more: log 25. -/
def execRsDeint (s : State) : Host.Outcome State Fault Refusal :=
  settle ((gather s.cfg s.frm s.cw s.env.args.lane.toNat).map fun m => { s with cw := m })

/-- `RS.TOCONV` (R301); handed with RS_DUAL = 0 it is performed as well: DESIGN CHOICE, log 27. -/
def execRsToconv (s : State) : Host.Outcome State Fault Refusal :=
  .next { s with cw := toConventional s.cw }

/-- `RS.SYND` (R302). -/
def execRsSynd (s : State) : Host.Outcome State Fault Refusal :=
  .next (s.setRes (.syndromes (syndromes s.cfg.rsType (codeword s.cw))))

/-- `RS.DEC` (R303). -/
def execRsDec (s : State) : Host.Outcome State Fault Refusal :=
  let r := correctCw s.cfg.rsType s.cw
  .next ({ s with cw := r.1 }.setRes (.count r.2))

/-- `RS.TODUAL` (R305); handed with RS_DUAL = 0, or after a count of -1, it is performed as well:
DESIGN CHOICE, log 27. -/
def execRsTodual (s : State) : Host.Outcome State Fault Refusal :=
  .next { s with cw := toDual s.cw }

/-- `RS.REINT j` (R306); for j of RS_DEPTH or more: log 25. Handed after a count of -1 it is
performed as well: DESIGN CHOICE, log 27. -/
def execRsReint (s : State) : Host.Outcome State Fault Refusal :=
  settle ((scatter s.cfg s.frm s.cw s.env.args.lane.toNat).map fun m => { s with frm := m })

/-- `RS.FRAME` (R307); handed with RS_TYPE 0 or 3 it is performed as well, with the free code
parameters of log 14: DESIGN CHOICE, log 27. -/
def execRsFrame (s : State) : Host.Outcome State Fault Refusal :=
  settle (decodeFrame s)

end Sys2Proof.Machine
end

