-- ==== Sys2Proof/Machine/Controller.lean ====
section
/-! DEFINITION. Pipeline controller (47_pipeline_controller) and the configuration check
(60_exceptions R380 to R386). -/

namespace Sys2Proof.Machine

/-! ## The configuration check (R381, R383) -/

/-- The required registers never written in IDLE: `0x0517 & ~CFG_WRITTEN` (R57, R383). -/
def missing (c : Cfg) : BitVec 16 := 0x0517#16 &&& ~~~c.written

/-- The index of the lowest 1 bit of a word that has one. -/
def lowestBit (v : BitVec 16) : Nat :=
  match (List.range 16).find? (fun i => v.getLsbD i) with
  | some i => i
  | none => 0

/-- A pattern length E_CORR refuses (R381). -/
def badPattern (c : Cfg) (j : Nat) : Bool :=
  decide (c.patLen j = 0 ∨ 64 < c.patLen j ∨ c.corrWin < c.patLen j)

/-- The last two tests of R383, made when USE_CORR = 1. -/
def corrError (c : Cfg) : Option (BitVec 8 × BitVec 8) :=
  if c.useCorr then
    if c.npat = 0 ∨ 8 < c.npat ∨ c.corrWin = 0 ∨ c.batchLen < c.corrWin then some (12, 0xFF)
    else
      match (List.range c.npat).find? (badPattern c) with
      | some j => some (12, BitVec.ofNat 8 j)
      | none => none
  else none

/-- The first error of R383 in the order of the codes: `(code, info)`; `none` if the configuration
is legal. -/
def configError (c : Cfg) : Option (BitVec 8 × BitVec 8) :=
  if missing c ≠ 0 then some (1, BitVec.ofNat 8 (0x10 + lowestBit (missing c)))
  else if 2 ≤ c.const then some (2, 0x10)
  else if 5 ≤ c.rate then some (3, 0x11)
  else if c.tbd = 0 then some (4, 0x11)
  else if c.berWin = 0 then some (5, 0x13)
  else if c.asmLen ∉ [8, 16, 24, 32, 40, 48, 56, 64] then some (6, 0x17)
  else if c.frameBits ≤ c.asmLen ∨ (c.frameBits + c.padBits) % 8 ≠ 0 then some (7, 0x14)
  else if c.missThr = 0 ∨ c.confirm = 0 ∨ c.confirm = 3 then some (8, 0x18)
  else if c.derandMode = 3 ∨ (c.derandMode ≠ 0 ∧ c.frameBytes ≤ c.derandStart) then some (9, 0x19)
  else if c.rsType = 3#2 ∨ (c.rsType ≠ 0#2 ∧
      (c.rsDepth = 0 ∨ 8 < c.rsDepth ∨ c.frameBytes < c.asmBytes + 255 * c.rsDepth)) then
    some (10, 0x1A)
  else if c.batchLen = 0 ∨ (c.const = 1 ∧ c.batchLen % 2 = 1) then some (11, 0x1B)
  else corrError c

/-! ## Shared operations -/

/-- The sequencer moved (R15: `seq <- S_X`). -/
def State.goto (s : State) (q : Seq) : State := { s with ctl := { s.ctl with seq := q } }

/-- `h_rs[j]` as CTL.ACCEPT reads it (R343). DESIGN CHOICE: for j = 8 and above, which R14 gives no
meaning and which RS_DEPTH 9 to 15, refused by CTL.CHECK with RS on, would index, a free value
(log 24). -/
def countAt (s : State) (j : Nat) : BitVec 8 :=
  if h : j < 8 then s.hRs[j] else Config.countPast j

/-- R343: 1 (true) to accept the frame; with RS_DEPTH above 8 the counts past `h_rs[7]` are free
values (log 24). -/
def accepts (s : State) : Bool :=
  s.cfg.acceptAll || s.cfg.rsType == 0#2 ||
    (List.range s.cfg.rsDepth).all fun j => decide (0 ≤ (countAt s j).toInt)

/-- R344: FRM appended to OUT as one entry. -/
def emit (s : State) : State := { s with outq := s.outq ++ [frameOf s.cfg s.frm] }

/-- The Reed-Solomon part of R342. -/
def correctFrame (s : State) : Except Fault State :=
  if s.cfg.rsType ≠ 0#2 then decodeFrame s else .ok { s with hRs := noCounts }

/-- DR.APPLY at one of its two points (R286, R342). -/
def derandAt (mode : Nat) (s : State) : State :=
  if s.cfg.derandMode = mode then { s with frm := derandomise s.cfg s.frm } else s

/-- R342: process the candidate frame in FRM. -/
def processFrame (s : State) : Except Fault State :=
  (correctFrame (derandAt 1 s)).map fun t =>
    let u := derandAt 2 t
    if accepts u then emit u else u

/-- `unsync_bits` after a push (R44, R341). -/
def countUnsync (d : DfState) (n : BitVec 32) : BitVec 32 :=
  if d = .synced then 0 else if n = 0xFFFFFFFF#32 then n else n + 1

/-- R341: route one decoded bit. -/
def routeBit (s : State) (b : Bool) : Except Fault State := do
  let d := if s.cfg.nrzm then diffDecode s.ph b else (s.ph, b)
  let p ← pushBit s.cfg s.df s.frm d.2
  let t := { s with
    ph := d.1
    df := p.df
    frm := p.frm
    ctl := { s.ctl with unsyncBits := countUnsync p.df.dfState s.ctl.unsyncBits } }
  if p.frame then processFrame t else return t

/-- One pair through CC.INV, VIT.STEP and CTL.BIT (R339). -/
def routePair (s : State) (p : Soft × Soft) : Except Fault State := do
  let q := invertPair s.cfg p
  let r ← trellisStep s.cfg s.vit q.1 q.2
  let t := { s with vit := r.1 }
  match r.2 with
  | none => return t
  | some b => routeBit t b

/-- Pairs in order. -/
def routePairs (s : State) (l : List (Soft × Soft)) : Except Fault State :=
  match l with
  | [] => .ok s
  | p :: r => do
    let t ← routePair s p
    routePairs t r

/-- One normalised symbol through DP.PUSH and what follows (R339). -/
def routeSymbol (s : State) (y : Soft) : Except Fault State := do
  let r ← depuncture s.cfg s.dp y
  routePairs { s with dp := r.1 } r.2

/-- Normalised symbols in order. -/
def routeSymbols (s : State) (l : List Soft) : Except Fault State :=
  match l with
  | [] => .ok s
  | y :: r => do
    let t ← routeSymbol s y
    routeSymbols t r

/-- R340: the symbol taken from SYM is discarded while `skip > 0`; else it enters the datapath. -/
def takeSymbol (s : State) (x : Soft) : Except Fault State :=
  if s.ph.skip ≠ 0 then .ok { s with ph := { s.ph with skip := s.ph.skip - 1 } }
  else
    let n := normalise s.cfg s.ph x
    routeSymbols { s with ph := n.1 } n.2

/-- R339: one soft symbol of the batch. -/
def dataStep (s : State) : Except Fault State := do
  within .sym s.cfg.batchLen s.ctl.symI.toNat
  let x := s.sym.read s.ctl.symI.toNat
  let t ← takeSymbol { s with ctl := { s.ctl with symI := s.ctl.symI + 1 } } x
  return if t.ctl.symI = t.ctl.symN then t.goto .resync else t

/-- R337: one entry of IN, `e`, with the rest of the FIFO; a soft symbol is clamped and stored. -/
def readEntry (s : State) (e : SymWord) (rest : List SymWord) : Except Fault State :=
  if e.getLsbD 8 then
    .ok { s with inq := rest, ctl := { s.ctl with eosSeen := true, seq := .corr } }
  else
    (within .sym s.cfg.batchLen s.ctl.symN.toNat).map fun _ =>
      let t := { s with
        inq := rest
        sym := s.sym.write s.ctl.symN.toNat (clampSoft (e.extractLsb' 0 8))
        ctl := { s.ctl with symN := s.ctl.symN + 1 } }
      if t.ctl.symN.toNat = s.cfg.batchLen then t.goto .corr else t

/-- R346: one resynchronisation attempt. -/
def resyncAttempt (s : State) : State :=
  if s.cfg.useCorr then { s with ctl := { s.ctl with acqPending := true, unsyncBits := 0 } }
  else clearDatapath { s with ph := nextHyp s.cfg s.ph }

/-- The test of R345. -/
def resyncDue (s : State) : Bool :=
  s.cfg.resyncN != 0 && decide (s.cfg.resyncN * s.cfg.frameBits ≤ s.ctl.unsyncBits.toNat)

/-- H_STATE (R73): EOS bit 12, HYP bits 10 to 8, VIT_LOCK bit 4, DF_STATE bits 1 to 0. -/
def healthState (s : State) : RegWord :=
  0#19 ++ BitVec.ofBool s.ctl.eosSeen ++ 0#1 ++ s.ph.hyp ++ 0#3 ++ BitVec.ofBool s.vit.vitLock ++
    0#2 ++ s.df.dfState.code

/-- Four counts in byte lanes, the first in bits 7 to 0 (R76, R77, R87). -/
def lanesWord (a b c d : BitVec 8) : RegWord := d ++ c ++ b ++ a

/-- The six registers of R347. -/
def healthRecord (s : State) : Health where
  hSeq := s.health.hSeq + 1
  hState := healthState s
  hBerErrs := 0#15 ++ s.vit.berErrsL
  hBerTotal := 0#15 ++ s.vit.berTotalL
  hRsLo := lanesWord s.hRs[0] s.hRs[1] s.hRs[2] s.hRs[3]
  hRsHi := lanesWord s.hRs[4] s.hRs[5] s.hRs[6] s.hRs[7]

/-! ## Meanings -/

/-- `CTL.CHECK` (R383): the trap of R386, or the run begins. -/
def execCtlCheck (s : State) : Host.Outcome State Fault Refusal :=
  match configError s.cfg with
  | some e => .next (raiseConfigError e.1 e.2 s)
  | none => .next (s.goto .top)

/-- `CTL.TOP` (R336). -/
def execCtlTop (s : State) : Host.Outcome State Fault Refusal :=
  if s.ctl.cancelReq then .next { s with ctl := { s.ctl with finalRun := true, seq := .publish } }
  else .next { s with ctl := { s.ctl with symN := 0, symI := 0, seq := .read } }

/-- `CTL.READ` (R337); with IN empty the core waits (R334; log 6). -/
def execCtlRead (s : State) : Host.Outcome State Fault Refusal :=
  match s.inq with
  | [] => .next s
  | e :: rest => settle (readEntry s e rest)

/-- `CTL.CORR` (R338). -/
def execCtlCorr (s : State) : Host.Outcome State Fault Refusal :=
  let q : Seq := if s.ctl.symN = 0 then .resync else .data
  if s.ctl.acqPending then
    settle ((searchBounds s).map fun _ =>
      (applyHit { s with ctl := { s.ctl with acqPending := false } } (search s)).goto q)
  else .next (s.goto q)

/-- `CTL.DATA` (R339). -/
def execCtlData (s : State) : Host.Outcome State Fault Refusal :=
  settleEmit s (dataStep s)

/-- `CTL.BIT b` (R341). -/
def execCtlBit (s : State) : Host.Outcome State Fault Refusal :=
  settleEmit s (routeBit s s.env.args.bit)

/-- `CTL.FRAME` (R342). -/
def execCtlFrame (s : State) : Host.Outcome State Fault Refusal :=
  settleEmit s (processFrame s)

/-- `CTL.ACCEPT` (R343). -/
def execCtlAccept (s : State) : Host.Outcome State Fault Refusal :=
  .next (s.setRes (.accept (accepts s)))

/-- `CTL.EMIT` (R344); with OUT full the core waits (R85, R334; log 6). -/
def execCtlEmit (s : State) : Host.Outcome State Fault Refusal :=
  if outFull s then .next s else .next (emit s)

/-- `CTL.RSCHK` (R345). -/
def execCtlRschk (s : State) : Host.Outcome State Fault Refusal :=
  let t := if resyncDue s then resyncAttempt s else s
  if t.ctl.eosSeen then .next { t with ctl := { t.ctl with flI := 0, seq := .flush } }
  else .next (t.goto .publish)

/-- `CTL.RESYNC` (R346). -/
def execCtlResync (s : State) : Host.Outcome State Fault Refusal :=
  .next (resyncAttempt s)

/-- `CTL.PUBLISH` (R347): the six registers at once, then CTL.HALT (R349) or the next cycle. -/
def execCtlPublish (s : State) : Host.Outcome State Fault Refusal :=
  .next ({ s with health := healthRecord s }.goto (if s.ctl.finalRun then .done else .top))

/-- One flush bit (R348). -/
def flushStep (s : State) : Except Fault State := do
  let bits ← flushList s.cfg s.vit
  match bits[s.ctl.flI.toNat]? with
  | some b => do
    let t ← routeBit s b
    return { t with ctl := { t.ctl with flI := t.ctl.flI + 1 } }
  | none => return { s with ctl := { s.ctl with finalRun := true, seq := .publish } }

/-- `CTL.FLUSH` (R348). -/
def execCtlFlush (s : State) : Host.Outcome State Fault Refusal :=
  settleEmit s (flushStep s)

/-- `CTL.HALT` (R349). -/
def execCtlHalt (s : State) : Host.Outcome State Fault Refusal :=
  .next (s.goto .done)

end Sys2Proof.Machine
end

