-- ==== Sys2Proof/Machine/Dispatch.lean ====
section
/-! DEFINITION. The meaning of every operation (R115), one arm a constructor. -/

namespace Sys2Proof.Machine

def exec (i : Instr) (s : State) : Host.Outcome State Fault Refusal :=
  match i with
  | .hostCfgw addr data => Sys2Proof.Machine.execHostCfgw addr data s
  | .hostRd addr => Sys2Proof.Machine.execHostRd addr s
  | .hostStart => Sys2Proof.Machine.execHostStart s
  | .hostCancel => Sys2Proof.Machine.execHostCancel s
  | .hostReset => Sys2Proof.Machine.execHostReset s
  | .srcPush sym => Sys2Proof.Machine.execSrcPush sym s
  | .srcEos => Sys2Proof.Machine.execSrcEos s
  | .sinkPop => Sys2Proof.Machine.execSinkPop s
  | .corrScore => Sys2Proof.Machine.execCorrScore s
  | .corrSearch => Sys2Proof.Machine.execCorrSearch s
  | .corrApply => Sys2Proof.Machine.execCorrApply s
  | .phClamp => Sys2Proof.Machine.execPhClamp s
  | .phRot => Sys2Proof.Machine.execPhRot s
  | .phSwap => Sys2Proof.Machine.execPhSwap s
  | .phPush => Sys2Proof.Machine.execPhPush s
  | .phNext => Sys2Proof.Machine.execPhNext s
  | .diffDec => Sys2Proof.Machine.execDiffDec s
  | .ccEnc => Sys2Proof.Machine.execCcEnc s
  | .dpPush => Sys2Proof.Machine.execDpPush s
  | .ccInv => Sys2Proof.Machine.execCcInv s
  | .vitBm => Sys2Proof.Machine.execVitBm s
  | .vitAcs => Sys2Proof.Machine.execVitAcs s
  | .vitTb => Sys2Proof.Machine.execVitTb s
  | .vitBer => Sys2Proof.Machine.execVitBer s
  | .vitLock => Sys2Proof.Machine.execVitLock s
  | .vitStep => Sys2Proof.Machine.execVitStep s
  | .vitReset => Sys2Proof.Machine.execVitReset s
  | .vitFlush => Sys2Proof.Machine.execVitFlush s
  | .dfPush => Sys2Proof.Machine.execDfPush s
  | .dfReset => Sys2Proof.Machine.execDfReset s
  | .drApply => Sys2Proof.Machine.execDrApply s
  | .rsDeint => Sys2Proof.Machine.execRsDeint s
  | .rsToconv => Sys2Proof.Machine.execRsToconv s
  | .rsSynd => Sys2Proof.Machine.execRsSynd s
  | .rsDec => Sys2Proof.Machine.execRsDec s
  | .rsTodual => Sys2Proof.Machine.execRsTodual s
  | .rsReint => Sys2Proof.Machine.execRsReint s
  | .rsFrame => Sys2Proof.Machine.execRsFrame s
  | .ctlCheck => Sys2Proof.Machine.execCtlCheck s
  | .ctlRead => Sys2Proof.Machine.execCtlRead s
  | .ctlData => Sys2Proof.Machine.execCtlData s
  | .ctlFrame => Sys2Proof.Machine.execCtlFrame s
  | .ctlAccept => Sys2Proof.Machine.execCtlAccept s
  | .ctlEmit => Sys2Proof.Machine.execCtlEmit s
  | .ctlResync => Sys2Proof.Machine.execCtlResync s
  | .ctlPublish => Sys2Proof.Machine.execCtlPublish s
  | .ctlFlush => Sys2Proof.Machine.execCtlFlush s
  | .ctlHalt => Sys2Proof.Machine.execCtlHalt s
  | .ctlTop => Sys2Proof.Machine.execCtlTop s
  | .ctlCorr => Sys2Proof.Machine.execCtlCorr s
  | .ctlBit => Sys2Proof.Machine.execCtlBit s
  | .ctlRschk => Sys2Proof.Machine.execCtlRschk s
  | .ctlClear => Sys2Proof.Machine.execCtlClear s

end Sys2Proof.Machine
end

