-- ==== Sys2Proof/Machine/Fetch.lean ====
section
/-! DEFINITION. Who moves next and with which word (00_scope R6, 47 R330, R334; logs 1 to 3). -/

namespace Sys2Proof.Machine

/-- The operation the core performs next, by its identifier (R334); none in IDLE, DONE and
ERROR. -/
def Seq.opWord (q : Seq) : Option OpId :=
  match q with
  | .idle => none
  | .check => some 0x80
  | .top => some 0x8A
  | .read => some 0x81
  | .corr => some 0x8B
  | .data => some 0x82
  | .resync => some 0x8D
  | .flush => some 0x88
  | .publish => some 0x87
  | .done => none
  | .error => none

/-- What a turn comes to: no word (the agent has nothing to do), or a word with the state from
which it has been taken. -/
inductive Fetched where
  | nothing (s : State)
  | word (w : IfWord) (s : State)
  deriving DecidableEq, Repr

/-- The core's turn: the operation `seq` names (R330). -/
def fetchCore (s : State) : Fetched :=
  match s.ctl.seq.opWord with
  | none => .nothing s
  | some w => .word (.op w) s

/-- The state with the remaining turns `r`. -/
def State.withTurns (s : State) (r : List Turn) : State :=
  { s with env := { s.env with turns := r } }

/-- The next word: the head of the turn list says who moves, and the core moves when the list is
empty (log 1). The host and the source present the first of their pending words (log 2); the
sink's request is SINK.POP (R126); `op w` hands the machine the identifier `w` (R118, log 3). -/
def fetch (s : State) : Fetched :=
  match s.env.turns with
  | [] => fetchCore s
  | .core :: r => fetchCore (s.withTurns r)
  | .host :: r =>
    match s.env.hostQ with
    | [] => .nothing (s.withTurns r)
    | w :: q => .word (.bus w) { s with env := { s.env with turns := r, hostQ := q } }
  | .source :: r =>
    match s.env.srcQ with
    | [] => .nothing (s.withTurns r)
    | w :: q => .word (.sym w) { s with env := { s.env with turns := r, srcQ := q } }
  | .sink :: r => .word (.op 0x08) (s.withTurns r)
  | .op w :: r => .word (.op w) (s.withTurns r)

/-- The identifier a rejected word carries, for the refusal's record; only OP words are rejected. -/
def opValue (w : IfWord) : OpId :=
  match w with
  | .op o => o
  | .bus _ => 0
  | .sym _ => 0

/-- A word put where the next `fetch` takes it: at the head of the pending words of the agent it
belongs to, with that agent's turn next; an identifier as a turn of its own. -/
def State.presentWord (s : State) (w : IfWord) : State :=
  match w with
  | .bus b =>
    { s with env := { s.env with turns := .host :: s.env.turns, hostQ := b :: s.env.hostQ } }
  | .sym x =>
    { s with env := { s.env with turns := .source :: s.env.turns, srcQ := x :: s.env.srcQ } }
  | .op o => { s with env := { s.env with turns := .op o :: s.env.turns } }

end Sys2Proof.Machine
end

