-- ==== Sys2Proof/Machine/Step.lean ====
section
/-! DEFINITION. One step of the machine: the next agent's word is fetched, decoded and performed
(R6, R93: every operation is atomic). -/

namespace Sys2Proof.Machine

/-- A turn with nothing to do leaves the state as it is (R334, R397); an identifier that decodes to
no operation is refused (R118). -/
def step (s : State) : Host.Outcome State Fault Refusal :=
  match fetch s with
  | .nothing t => .next t
  | .word w t =>
    match decode w with
    | .ok i => exec i t
    | .error e => .refused (.undecodable e (opValue w))

/-- `s` with the row's word presented next (log 2). -/
def State.withFetchWord (s : State) (nbits w : Nat) : State :=
  match tableWord nbits w with
  | none => s
  | some x => s.presentWord x

end Sys2Proof.Machine
end

