-- ==== Sys2Proof/Safety.lean ====
section
/-! DEFINITION. What a safe step is, and the invariants the claims are stated in terms of: `Inv`,
which every step keeps from every state, and `RunInv`, which holds of every state a run of the four
agents reaches. -/

namespace Sys2Proof.Machine

/-- The step answers a next state: no fault, no refusal. -/
def Safe (s : State) : Prop := ∃ t, step s = .next t

/-! ## The invariant of every step -/

/-- The five internal buffers have their canonical form. -/
structure Canonical (s : State) : Prop where
  sym : s.sym.wf
  frm : s.frm.wf
  cw : s.cw.wf
  hist : s.vit.hist.wf
  dly : s.vit.dly.wf

/-- No reserved bit of a configuration register is set: "they read as 0 and writes to them are
ignored" (R54). -/
structure Cfg.ReservedClear (c : Cfg) : Prop where
  modem : c.modem &&& ~~~0x000003F3#32 = 0
  code : c.code &&& ~~~0x0000FF07#32 = 0
  vitlock : c.vitlock &&& ~~~0x00FFFFFF#32 = 0
  vitwin : c.vitwin &&& ~~~0x0000FFFF#32 = 0
  frame : c.frame &&& ~~~0x070FFFFF#32 = 0
  asmctl : c.asmctl &&& ~~~0x00003F7F#32 = 0
  deframer : c.deframer &&& ~~~0x00FF03FF#32 = 0
  derand : c.derand &&& ~~~0xFFFF0003#32 = 0
  rs : c.rs &&& ~~~0x000003F3#32 = 0
  batch : c.batch &&& ~~~0x0000FFFF#32 = 0
  corr : c.corr &&& ~~~0xFFFF7F0F#32 = 0

/-- The bits of the health record that belong to no field are 0 (R73 to R75). -/
structure Health.ReservedClear (h : Health) : Prop where
  hState : h.hState &&& ~~~0x00001713#32 = 0
  hBerErrs : h.hBerErrs &&& ~~~0x0001FFFF#32 = 0
  hBerTotal : h.hBerTotal &&& ~~~0x0001FFFF#32 = 0

/-- The invariant of every step, from every state. -/
structure Inv (s : State) : Prop where
  canonical : Canonical s
  cfg : s.cfg.ReservedClear
  health : s.health.ReservedClear
  /-- Some path metric is 0 (R216, R218). -/
  zeroMetric : ∃ t, s.vit.metric t = 0

/-! ## The invariant of a run -/

/-- The turns are those of the four agents (R6): no identifier is handed to the machine. -/
def AgentTurns (s : State) : Prop := ∀ w, Turn.op w ∉ s.env.turns

/-- `seq` is one of S_TOP to S_PUBLISH: the configuration has been checked and the run goes on. -/
def Seq.working (q : Seq) : Bool :=
  match q with
  | .top | .read | .corr | .data | .resync | .flush | .publish => true
  | .idle | .check | .done | .error => false

/-- Everything but the configuration, the input FIFO, the controller and the surroundings is as
reset leaves it. -/
structure Untouched (s : State) : Prop where
  health : s.health = Health.reset
  ph : s.ph = Phase.reset
  dp : s.dp = Depunct.reset
  vit : s.vit = Viterbi.reset
  df : s.df = Deframer.reset
  hRs : s.hRs = noCounts
  sym : s.sym = []
  frm : s.frm = []
  cw : s.cw = []
  outq : s.outq = []

/-- The controller's registers before the first CTL.TOP: as reset leaves them but for those that
START, CANCEL and the trap write. -/
def Ctl.early (c : Ctl) : Prop :=
  c = { Ctl.reset with
    acqPending := c.acqPending
    cancelReq := c.cancelReq
    seq := c.seq
    errCode := c.errCode
    errInfo := c.errInfo }

/-- Soft symbols that stand in a register or in an entry of SYM are clamped: -127 to 127 (R167,
R337). -/
structure Clamped (s : State) : Prop where
  sym : ∀ e ∈ s.sym, e.2 ≠ 0x80#8
  hold : s.ph.iHold ≠ 0x80#8
  first : s.dp.dpR1 ≠ 0x80#8

/-- The ranges of the decoder's registers on a configuration: the ring pointer and the step count
(R29, R30), the counts of the running window (R32), the bad windows (R35), the path metrics
(R26). -/
structure Viterbi.Ranges (c : Cfg) (v : Viterbi) : Prop where
  histWp : v.histWp.toNat < c.tbd
  vitN : v.vitN.toNat ≤ c.tbd + 1
  berErrs : v.berErrs.toNat ≤ v.berTotal.toNat
  berTotal : v.berTotal.toNat ≤ 2 * v.berSteps.toNat
  berSteps : v.berSteps.toNat < c.berWin
  badCnt : v.badCnt.toNat ≤ c.outsyncAfter
  /-- R216: `k` steps lead from a state of metric 0 to all states that share their high `6 - k`
  bits, so some such block has metrics of at most `508 × k`. -/
  spread : ∀ k ≤ 6, ∃ z < 2 ^ (6 - k), ∀ t : BitVec 6, t.toNat / 2 ^ k = z → v.metric t ≤ 508 * k
  /-- The bound of R26 and R216, which is `spread` at k = 6. -/
  pm : ∀ t, v.metric t ≤ 3048

/-- The ranges of the deframer's registers on a configuration (R38 to R41). -/
structure Deframer.Ranges (c : Cfg) (d : Deframer) : Prop where
  cnt : d.dfState ≠ .searching → d.dfCnt.toNat < c.frameBits
  cntSearching : d.dfState = .searching → d.dfCnt = 0
  bitctr : d.dfBitctr.toNat < c.frameBits
  offset : d.dfOffset.toNat < c.frameBits
  miss : d.dfMiss.toNat ≤ c.missThr
  missSynced : d.dfState = .synced → d.dfMiss.toNat < c.missThr
  conf : d.dfConf.toNat ≤ c.confirm
  confChecking : d.dfState = .checking → d.dfConf.toNat < c.confirm

/-- The ranges of the datapath registers (R21, R25, R48 and those of the decoder and the deframer)
and the puncture table's row for RATE. -/
structure Bounds (s : State) : Prop where
  hyp : s.ph.hyp.toNat < s.cfg.nhyp
  dpK : ∃ p, puncture s.cfg.rate = some p ∧ s.dp.dpK.toNat < p.period
  vit : s.vit.Ranges s.cfg
  df : s.df.Ranges s.cfg
  flI : s.ctl.flI.toNat ≤ s.cfg.tbd

/-- The loop counters of the batch (R48), by the value of `seq`. -/
structure BatchInv (s : State) : Prop where
  read : s.ctl.seq = .read → s.ctl.symN.toNat < s.cfg.batchLen ∧ s.ctl.symI = 0
  corr : s.ctl.seq = .corr → s.ctl.symN.toNat ≤ s.cfg.batchLen ∧ s.ctl.symI = 0
  data : s.ctl.seq = .data →
    s.ctl.symI.toNat < s.ctl.symN.toNat ∧ s.ctl.symN.toNat ≤ s.cfg.batchLen

/-- The invariant of a run. -/
structure RunInv (s : State) : Prop where
  agents : AgentTurns s
  clamped : Clamped s
  /-- In IDLE, in S_CHECK and in ERROR no working register has been written (R331, R386). -/
  untouched : s.ctl.seq = .idle ∨ s.ctl.seq = .check ∨ s.ctl.seq = .error →
    Untouched s ∧ s.ctl.early
  /-- IDLE is entered only by reset (R331). -/
  idle : s.ctl.seq = .idle → s.ctl = Ctl.reset
  /-- A pending correlator run means that the correlator is in use (R45, R338). -/
  acq : s.ctl.seq ≠ .idle → s.ctl.acqPending = true → s.cfg.useCorr = true
  /-- `err_code` and `err_info` are 0 but in ERROR (R51). -/
  noError : s.ctl.seq ≠ .error → s.ctl.errCode = 0 ∧ s.ctl.errInfo = 0
  /-- The loop runs on a legal configuration, its registers in their ranges. -/
  legal : s.ctl.seq.working = true → configError s.cfg = none ∧ Bounds s
  batch : BatchInv s

end Sys2Proof.Machine
end

