-- ==== Sys2Proof/Certificates/Slice0/Obligations.lean ====
section
/-! DEFINITION. The statements for the provers. `Sys2Proof.Claims` holds what the statements need
beside the model: the spec's tables and formulas written a second time, over numbers, so that a
statement does not repeat the definition it is about. -/

namespace Sys2Proof.Claims
open Sys2Proof.Machine

/-! ## Handing operations to the machine -/

/-- The state with the operands of a handed operation changed (R116, log 3). -/
def withArgs (s : State) (f : Args → Args) : State :=
  { s with env := { s.env with args := f s.env.args } }

/-- The state with a result left in the latch of handed operations (log 3). -/
def answered (s : State) (r : OpResult) : State := { s with env := { s.env with res := r } }

/-- The operation `i` performed once for each item of a list, its operands latched from the item:
the results in order and the last state; none where it stops. -/
def feed {α : Type} (i : Instr) (latch : α → Args → Args) (l : List α) (s : State) :
    Option (List OpResult × State) :=
  match l with
  | [] => some ([], s)
  | x :: r =>
    match exec i (withArgs s (latch x)) with
    | .next t =>
      match feed i latch r t with
      | some q => some (t.env.res :: q.1, q.2)
      | none => none
    | .fault _ => none
    | .refused _ => none

/-- The operation `i` performed `n` times. -/
def times (i : Instr) (n : Nat) (s : State) : Option State :=
  match n with
  | 0 => some s
  | m + 1 =>
    match exec i s with
    | .next t => times i m t
    | .fault _ => none
    | .refused _ => none

/-! ## Words -/

/-- The OP values that R115 lists as naming no operation. -/
def unlisted (w : OpId) : Bool :=
  let n := w.toNat
  n == 0 || (9 ≤ n && n ≤ 0x0F) || (0x13 ≤ n && n ≤ 0x1F) || n == 0x25 ||
    (0x27 ≤ n && n ≤ 0x2F) || n == 0x31 || (0x34 ≤ n && n ≤ 0x3F) || (0x48 ≤ n && n ≤ 0x4F) ||
    (0x52 ≤ n && n ≤ 0x5F) || (0x61 ≤ n && n ≤ 0x6F) || (0x77 ≤ n && n ≤ 0x7F) ||
    (0x8F ≤ n && n ≤ 0xFF)

/-! ## The register map (10_state section 4) -/

/-- The bits of a configuration address that a host write stores (R54, R58 to R71). -/
def stored (a : BitVec 8) : RegWord :=
  match a.toNat with
  | 0x10 => 0x000003F3
  | 0x11 => 0x0000FF07
  | 0x12 => 0x00FFFFFF
  | 0x13 => 0x0000FFFF
  | 0x14 => 0x070FFFFF
  | 0x15 => 0xFFFFFFFF
  | 0x16 => 0xFFFFFFFF
  | 0x17 => 0x00003F7F
  | 0x18 => 0x00FF03FF
  | 0x19 => 0xFFFF0003
  | 0x1A => 0x000003F3
  | 0x1B => 0x0000FFFF
  | 0x1C => 0xFFFF7F0F
  | n =>
    if 0x20 ≤ n ∧ n ≤ 0x3F then
      (if n % 4 = 0 ∨ n % 4 = 1 then 0xFFFFFFFF else if n % 4 = 2 then 0x7F else 0)
    else 0

/-- The bits of an address that belong to a field a read returns (R54, R56, R57, R72 to R77). -/
def readable (a : BitVec 8) : RegWord :=
  match a.toNat with
  | 0x01 => 0x00FFFF03
  | 0x02 => 0x0000FFFF
  | 0x40 => 0xFFFFFFFF
  | 0x41 => 0x00001713
  | 0x42 => 0x0001FFFF
  | 0x43 => 0x0001FFFF
  | 0x44 => 0xFFFFFFFF
  | 0x45 => 0xFFFFFFFF
  | _ => stored a

/-- STATUS.MODE by the value of the sequencer (R50, R117). -/
def modeNumber (q : Seq) : Nat :=
  match q with
  | .idle => 0
  | .done => 2
  | .error => 3
  | _ => 1

/-- The value a host read of an address returns (R55 to R77, R123). -/
def registerValue (s : State) (a : BitVec 8) : RegWord :=
  match a.toNat with
  | 0x01 =>
    BitVec.ofNat 32
      (modeNumber s.ctl.seq + s.ctl.errCode.toNat * 2 ^ 8 + s.ctl.errInfo.toNat * 2 ^ 16)
  | 0x02 => BitVec.ofNat 32 s.cfg.written.toNat
  | 0x10 => s.cfg.modem
  | 0x11 => s.cfg.code
  | 0x12 => s.cfg.vitlock
  | 0x13 => s.cfg.vitwin
  | 0x14 => s.cfg.frame
  | 0x15 => s.cfg.asmLo
  | 0x16 => s.cfg.asmHi
  | 0x17 => s.cfg.asmctl
  | 0x18 => s.cfg.deframer
  | 0x19 => s.cfg.derand
  | 0x1A => s.cfg.rs
  | 0x1B => s.cfg.batch
  | 0x1C => s.cfg.corr
  | 0x40 => s.health.hSeq
  | 0x41 => s.health.hState
  | 0x42 => s.health.hBerErrs
  | 0x43 => s.health.hBerTotal
  | 0x44 => s.health.hRsLo
  | 0x45 => s.health.hRsHi
  | n =>
    if 0x20 ≤ n ∧ n ≤ 0x3F then
      let p := s.cfg.pats.toList.getD ((n - 0x20) / 4) ⟨0, 0, 0⟩
      if n % 4 = 0 then p.lo
      else if n % 4 = 1 then p.hi
      else if n % 4 = 2 then BitVec.ofNat 32 p.len.toNat
      else 0
    else 0

/-- The value R78 gives each address of space REG after reset. -/
def resetValue (a : BitVec 8) : RegWord :=
  match a.toNat with
  | 0x13 => 2048
  | 0x15 => 0x1ACFFC1D
  | 0x17 => 0x00000020
  | 0x19 => 0x00040001
  | 0x1B => 8192
  | _ => 0

/-- Every state element that R78 gives a value has it. -/
structure AtReset (t : State) : Prop where
  seq : t.ctl.seq = .idle
  regs : ∀ a, registerValue t a = resetValue a
  hyp : t.ph.hyp = 0 ∧ t.ph.skip = 0 ∧ t.ph.iHave = false ∧ t.ph.nrzmPrev = false
  dp : t.dp.dpK = 0 ∧ t.dp.dpI = false
  pm : ∀ x, t.vit.metric x = 0
  vit : t.vit.histWp = 0 ∧ t.vit.vitN = 0 ∧ t.vit.reenc = 0 ∧ t.vit.vitLock = false ∧
    t.vit.badCnt = 0
  ber : t.vit.berErrs = 0 ∧ t.vit.berTotal = 0 ∧ t.vit.berSteps = 0 ∧ t.vit.berErrsL = 0 ∧
    t.vit.berTotalL = 0
  df : t.df.dfState = .searching ∧ t.df.dfSr = 0 ∧ t.df.dfCnt = 0 ∧ t.df.dfMiss = 0 ∧
    t.df.dfConf = 0 ∧ t.df.dfBitctr = 0 ∧ t.df.dfOffset = 0
  counts : ∀ j (h : j < 8), t.hRs[j] = 0
  ctl : t.ctl.unsyncBits = 0 ∧ t.ctl.acqPending = false ∧ t.ctl.eosSeen = false ∧
    t.ctl.cancelReq = false ∧ t.ctl.symN = 0 ∧ t.ctl.symI = 0 ∧ t.ctl.flI = 0 ∧
    t.ctl.finalRun = false ∧ t.ctl.errCode = 0 ∧ t.ctl.errInfo = 0
  fifos : t.inq = [] ∧ t.outq = []

/-! ## The configuration check (60_exceptions R381, R383) -/

/-- The tests of R383 in their order: whether it holds, the code, the info. -/
def faultTests (c : Cfg) : List (Bool × Nat × Nat) :=
  ([0x10, 0x11, 0x12, 0x14, 0x18, 0x1A].map fun a => (!c.written.getLsbD (a - 0x10), 1, a)) ++
  [(decide (2 ≤ c.const), 2, 0x10),
   (decide (5 ≤ c.rate), 3, 0x11),
   (decide (c.tbd = 0), 4, 0x11),
   (decide (c.berWin = 0), 5, 0x13),
   (decide (c.asmLen = 0 ∨ c.asmLen % 8 ≠ 0 ∨ 64 < c.asmLen), 6, 0x17),
   (decide (c.frameBits ≤ c.asmLen ∨ (c.frameBits + c.padBits) % 8 ≠ 0), 7, 0x14),
   (decide (c.missThr = 0 ∨ c.confirm = 0 ∨ c.confirm = 3), 8, 0x18),
   (decide (c.derandMode = 3 ∨
      (c.derandMode ≠ 0 ∧ (c.frameBits + c.padBits) / 8 ≤ c.derandStart)), 9, 0x19),
   (decide (c.rsType.toNat = 3 ∨ (c.rsType.toNat ≠ 0 ∧ (c.rsDepth = 0 ∨ 8 < c.rsDepth ∨
      (c.frameBits + c.padBits) / 8 < c.asmLen / 8 + 255 * c.rsDepth))), 10, 0x1A),
   (decide (c.batchLen = 0 ∨ (c.const = 1 ∧ c.batchLen % 2 = 1)), 11, 0x1B),
   (c.useCorr && decide (c.npat = 0 ∨ 8 < c.npat ∨ c.corrWin = 0 ∨ c.batchLen < c.corrWin),
      12, 0xFF)] ++
  ((List.range c.npat).map fun j =>
    (c.useCorr && decide (c.patLen j = 0 ∨ 64 < c.patLen j ∨ c.corrWin < c.patLen j), 12, j))

/-- The first test that holds. -/
def firstFault (c : Cfg) : Option (Bool × Nat × Nat) := (faultTests c).find? fun e => e.1

/-- The field of `width` bits at bit `lo`, as a number. -/
def bits (r : RegWord) (lo width : Nat) : Nat := r.toNat / 2 ^ lo % 2 ^ width

/-! ## Soft symbols (R166 to R171, R211) -/

/-- The value of a soft symbol as CTL.READ leaves it: -127 to 127 (R167). -/
def clamped (x : Soft) : Prop := x ≠ 0x80#8

/-- R168, the QPSK column: the channel symbol turned by r × 90 degrees. -/
def turned (r : Nat) (p : Int × Int) : Int × Int :=
  match r with
  | 0 => (p.1, p.2)
  | 1 => (-p.2, p.1)
  | 2 => (-p.1, -p.2)
  | _ => (p.2, -p.1)

/-- The swap in force, `sw = cfg.IQ_SWAP ^ (hyp div NPH)` of R170, for QPSK. -/
def swapping (c : Cfg) (hyp : BitVec 3) : Bool := c.iqSwap != decide (4 ≤ hyp.toNat)

/-- `PH.SWAP_if` of R169. -/
def swappedIf (sw : Bool) (p : Int × Int) : Int × Int := if sw then (p.2, p.1) else p

/-- NPH and U of R10 by CONST. -/
def phases (c : Cfg) : Nat := if c.const = 0 then 2 else 4
/-- U of R10. -/
def unit (c : Cfg) : Nat := if c.const = 0 then 1 else 2
/-- NHYP of R10. -/
def hypotheses (c : Cfg) : Nat :=
  if c.swapSearch = true ∧ c.const = 1 then 8 else phases c

/-- R211: `cost(c, r)`. -/
def cost (c : Bool) (r : Int) : Int := if c then 127 - r else 127 + r

/-! ## The correlator (R150 to R154) -/

/-- WL of R150. -/
def windowLength (s : State) : Nat :=
  min s.ctl.symN.toNat s.cfg.corrWin / unit s.cfg * unit s.cfg

/-- `y[n]` of R152 for candidate `ph`. -/
def windowSymbol (s : State) (ph n : Nat) : Int :=
  let v := fun k => (s.sym.read k).toInt
  if s.cfg.const = 0 then (if ph = 0 then v n else -(v n))
  else
    let e := n / 2 * 2
    let y := turned ph (swappedIf (swapping s.cfg s.ph.hyp) (v e, v (e + 1)))
    if n % 2 = 0 then y.1 else y.2

/-- `pbit(j, i)` of R151. -/
def patternBitAt (c : Cfg) (j i : Nat) : Bool :=
  ((c.pattern j).hi ++ (c.pattern j).lo).getLsbD (c.patLen j - 1 - i)

/-- `score(ph, o, j)` of R153. -/
def score (s : State) (ph o j : Nat) : Nat :=
  (List.range (s.cfg.patLen j)).countP fun i =>
    decide (0 < windowSymbol s ph (o + i)) == patternBitAt s.cfg j i

/-- A candidate of the loops of R155. -/
structure Candidate (s : State) (ph o j : Nat) : Prop where
  ph : ph < phases s.cfg
  aligned : o % unit s.cfg = 0
  inside : o < windowLength s
  pat : j < s.cfg.npat
  fits : o + s.cfg.patLen j ≤ windowLength s

/-- What holds of SYM, the patterns and the constellation when a search runs: a legal constellation,
a window that lies in SYM, clamped symbols, patterns of at most 64 bits (R150, R381). -/
structure SearchReady (s : State) : Prop where
  const : s.cfg.const < 2
  window : windowLength s ≤ s.cfg.batchLen
  symbols : ∀ n < windowLength s, clamped (s.sym.read n)
  npat : s.cfg.npat ≤ 8
  lengths : ∀ j < s.cfg.npat, s.cfg.patLen j ≤ 64

/-! ## Code, trellis, puncturing (R190 to R198, R213) -/

/-- `parity` of a number below 128 (R12). -/
def oddOnes (n : Nat) : Bool := ((List.range 7).countP fun i => n.testBit i) % 2 == 1

/-- R193 over numbers: the successor state and the two channel bits. -/
def encoder (st : Nat) (u : Bool) : Nat × Bool × Bool :=
  let sr := 2 * st + u.toNat
  (sr % 64, oddOnes (sr &&& 0x4F), oddOnes (sr &&& 0x6D))

/-- PUNC (R194): P1 and P2 by RATE. -/
def punc (rate : Nat) : List Bool × List Bool :=
  match rate with
  | 0 => ([true], [true])
  | 1 => ([true, false], [true, true])
  | 2 => ([true, false, true], [true, true, false])
  | 3 => ([true, false, true, false, true], [true, true, false, true, false])
  | _ => ([true, false, false, false, true, false, true],
          [true, true, true, true, false, true, false])

/-- PERIOD of R194. -/
def period (rate : Nat) : Nat := (punc rate).1.length

/-- The next slot of the depuncturer is a kept one (R198). -/
def slotKept (rate : Nat) (d : Depunct) : Prop :=
  (if d.dpI then (punc rate).2 else (punc rate).1).getD d.dpK.toNat false = true

/-- The reference puncturer of R195 from step `n` on: the soft symbols of the transmitted slots. -/
def punctured (rate : Nat) (l : List (Soft × Soft)) (n : Nat) : List Soft :=
  match l with
  | [] => []
  | p :: r =>
    (if (punc rate).1.getD (n % period rate) false then [p.1] else []) ++
    (if (punc rate).2.getD (n % period rate) false then [p.2] else []) ++ punctured rate r (n + 1)

/-- The same pairs with an erasure in each slot that was not transmitted (R197). -/
def erased (rate : Nat) (l : List (Soft × Soft)) (n : Nat) : List (Soft × Soft) :=
  match l with
  | [] => []
  | p :: r =>
    (if (punc rate).1.getD (n % period rate) false then p.1 else 0,
      if (punc rate).2.getD (n % period rate) false then p.2 else 0) :: erased rate r (n + 1)

/-- The pairs that a run of DP.PUSH returned. -/
def pairsOf (l : List OpResult) : List (Soft × Soft) :=
  match l with
  | [] => []
  | .pairs p :: r => p ++ pairsOf r
  | _ :: r => pairsOf r

/-- The predecessor `(t >> 1) | (d << 5)` (R191, R215). -/
def pred (t : BitVec 6) (d : Bool) : BitVec 6 := BitVec.ofNat 6 (t.toNat / 2 + 32 * d.toNat)

/-- `cand0` and `cand1` of R214. -/
def cand (v : Viterbi) (m : Metrics) (t : BitVec 6) (d : Bool) : Nat :=
  let e := (encoder (pred t d).toNat (t.getLsbD 0)).2
  v.metric (pred t d) + (m.get e.1 e.2).toNat

/-- `new[t]` of R214. -/
def survivor (v : Viterbi) (m : Metrics) (t : BitVec 6) : Nat :=
  if cand v m t true < cand v m t false then cand v m t true else cand v m t false

/-- The four metrics are those of some pair: each at most 508 (R212). -/
def smallMetrics (m : Metrics) : Prop := ∀ c1 c2, (m.get c1 c2).toNat ≤ 508

/-- The HIST entry written `k` steps before entry `last` (R217). -/
def historyAt (c : Cfg) (v : Viterbi) (last k : Nat) : BitVec 64 :=
  v.hist.read ((last + c.tbd - k) % c.tbd)

/-- `st` is the lowest-numbered state with the property (R218, R232). -/
def lowest (p : BitVec 6 → Prop) (st : BitVec 6) : Prop := p st ∧ ∀ x, p x → st.toNat ≤ x.toNat

/-- A survivor read backwards from `start`: `path (k + 1)` is the predecessor that the entry `k`
steps before `last` chose for `path k` (R215, R219). -/
def survivorPath (c : Cfg) (v : Viterbi) (last n : Nat) (start : BitVec 6) (path : Nat → BitVec 6) :
    Prop :=
  path 0 = start ∧
    ∀ k < n, path (k + 1) =
      pred (path k) ((historyAt c v last k).getLsbD (path k).toNat)

/-- A channel bit as a soft symbol of amplitude `a` (R196). -/
def softOf (a : Soft) (c : Bool) : Soft := if c then a else -a

/-- The reference transmit chain of R196 at rate 1/2, from encoder state `st`. -/
def sent (a : Soft) (msg : List Bool) (st : Nat) : List (Soft × Soft) :=
  match msg with
  | [] => []
  | u :: r =>
    let e := encoder st u
    (softOf a e.2.1, softOf a e.2.2) :: sent a r e.1

/-- The state the encoder ends in. -/
def endState (msg : List Bool) (st : Nat) : Nat :=
  match msg with
  | [] => st
  | u :: r => endState r (encoder st u).1

/-- Operands of a step: `r1`, `r2`. -/
def latchPair (p : Soft × Soft) (a : Args) : Args := { a with x := p.1, y := p.2 }

/-- Operand of a bit operation. -/
def latchBit (b : Bool) (a : Args) : Args := { a with bit := b }

/-- The decoder after VIT.RESET (R231); HIST and DLY are what they were. -/
def cleared (v : Viterbi) : Prop :=
  (∀ x, v.metric x = 0) ∧ v.histWp = 0 ∧ v.vitN = 0

/-! ## Lock (R228, R229) -/

/-- R228: a good window. -/
def goodWindow (c : Cfg) (e t : Nat) : Prop := 0 < t ∧ e * 65536 < c.berThr * t

/-- R228: a bad window. -/
def badWindow (c : Cfg) (e t : Nat) : Prop := t = 0 ∨ c.berThr * t < e * 65536

/-- Windows ended one after another, each with its counts of errors and of compared symbols. -/
def endWindows (l : List (BitVec 17 × BitVec 17)) (s : State) : Option State :=
  match l with
  | [] => some s
  | w :: r =>
    match exec .vitLock { s with vit := { s.vit with berErrs := w.1, berTotal := w.2 } } with
    | .next t => endWindows r t
    | .fault _ => none
    | .refused _ => none

/-! ## Deframer (R251, R253) -/

/-- Bit `k` of the frame in FRM (R86, R253). -/
def frameBit (m : Memory 8) (k : Nat) : Bool := (m.read (k / 8)).getLsbD (7 - k % 8)

/-- `df_sr` after a push (R254). -/
def shifted (d : Deframer) (b : Bool) : BitVec 64 := BitVec.ofNat 64 (2 * d.dfSr.toNat + b.toNat)

/-- R251: the marker matches the last ASM_LEN bits in all but ASM_TOL places at most. -/
abbrev matching (c : Cfg) (sr : BitVec 64) : Prop :=
  ((List.range c.asmLen).countP fun i => sr.getLsbD i != c.asm.getLsbD i) ≤ c.asmTol

/-- What holds of the deframer's registers between operations on a legal configuration (R38, R41,
R383). -/
structure FramerReady (s : State) : Prop where
  cfg : configError s.cfg = none
  cnt : s.df.dfState ≠ .searching → s.df.dfCnt.toNat < s.cfg.frameBits
  bitctr : s.df.dfBitctr.toNat < s.cfg.frameBits

/-- The first `ASM_LEN` bits of `l` from place `o` on, compared with the marker: matching there, the
bits before the first counting as 0 (R251, R255). -/
def matchingAt (c : Cfg) (l : List Bool) (n : Nat) : Prop :=
  ((List.range c.asmLen).countP fun i =>
    (if i ≤ n then l.getD (n - i) false else false) != c.asm.getLsbD i) ≤ c.asmTol

/-! ## Reed-Solomon (R292, R296, R302) -/

/-- NROOTS by RS_TYPE (R292). -/
def roots (t : BitVec 2) : Nat := if t = 1#2 then 32 else 16
/-- FCR by RS_TYPE (R292). -/
def firstRoot (t : BitVec 2) : Nat := if t = 1#2 then 112 else 120

/-- `[z0 ... z7] = [u7 ... u0] × T`: bit 7 - k of the product, by the rows of the matrix (R296). -/
def timesMatrix (rows : List Nat) (v : Byte) (k : Nat) : Bool :=
  ((List.range 8).countP fun i => v.getLsbD (7 - i) && (rows.getD i 0).testBit (7 - k)) % 2 == 1

/-- T of R296. -/
def matrixT : List Nat := [0x8D, 0xEF, 0xEC, 0x86, 0xFA, 0x99, 0xAF, 0x7B]
/-- T^-1 of R296. -/
def matrixTInv : List Nat := [0xC5, 0x42, 0x2E, 0xFD, 0xF0, 0x79, 0xAC, 0xCC]

/-- A byte times a byte as polynomials over GF(2), bit `k` the coefficient of x^k: the product
before reduction. -/
def carryless (a b : Nat) : Nat :=
  (List.range 8).foldl (fun p k => p ^^^ if b.testBit k then a * 2 ^ k else 0) 0

/-- The remainder by the field polynomial 0x187 of R290: the coefficients of x^14 to x^8 are
cancelled, the highest first. -/
def reduced (p : Nat) : Nat :=
  (List.range 7).foldl
    (fun r k => r ^^^ if r.testBit (14 - k) then 0x187 * 2 ^ (6 - k) else 0) p

/-- Multiplication in the field of R290. -/
def product (a b : Byte) : Byte := BitVec.ofNat 8 (reduced (carryless a.toNat b.toNat))

/-- α^n by repeated multiplication, α = 0x02 (R290, R291). -/
def alphaPow (n : Nat) : Byte :=
  match n with
  | 0 => 1
  | m + 1 => product (alphaPow m) 2

/-- β^n, β = α^11 (R292). -/
def beta (n : Nat) : Byte := alphaPow (11 * n % 255)

/-- `y` runs through Horner's rule of R302 over CW at the point `x`. -/
def hornerRun (m : Memory 8) (x : Byte) (y : Nat → Byte) : Prop :=
  y 0 = 0 ∧ ∀ k < 255, y (k + 1) = product (y k) x ^^^ m.read k

/-- R293, R302: CW is a codeword: Horner's rule ends in 0 at every code root. -/
def isCode (t : BitVec 2) (m : Memory 8) : Prop :=
  ∀ i < roots t, ∃ y, hornerRun m (beta (firstRoot t + i)) y ∧ y 255 = 0

/-- The number of byte positions of CW in which two buffers differ (R303). -/
def changed (m n : Memory 8) : Nat := (List.range 255).countP fun k => m.read k != n.read k

/-- The place in FRM of byte `k` of codeword `j` (R295). -/
def laneIndex (c : Cfg) (j k : Nat) : Nat := c.asmLen / 8 + j + c.rsDepth * k

/-- The frame the deframer and CTL.EMIT speak of: the FRAME_BYTES bytes of FRM (R85). -/
def frameBytesOf (c : Cfg) (m : Memory 8) : Frame :=
  (List.range ((c.frameBits + c.padBits) / 8)).map m.read

/-- OUT holds fewer than OUT_DEPTH frames (R85). -/
def roomInOut (s : State) : Prop := s.outq.length < Config.outDepth

/-- `s` with OUT empty. -/
def emptyOut (s : State) : State := { s with outq := [] }

/-- The outcome `o` of an operation on `s`, told from the state `t` it gives with OUT empty: frames
it emits join OUT behind those that wait there; where it emits and OUT is full it is not enabled,
and nothing changes; where it does not emit, OUT makes no difference (R85, R98, R334). -/
def behindOut (s t : State) (o : Host.Outcome State Fault Refusal) : Prop :=
  (t.outq = [] ∨ roomInOut s → o = .next { t with outq := s.outq ++ t.outq }) ∧
  (t.outq ≠ [] → ¬ roomInOut s → o = .next s)

/-! ## The datapath as separate operations (R339) -/

/-- The operation `i` performed with its operands latched; none where it stops. -/
def perform (i : Instr) (latch : Args → Args) (s : State) : Option State :=
  match exec i (withArgs s latch) with
  | .next t => some t
  | .fault _ => none
  | .refused _ => none

/-- R339, inner loop: CC.INV, VIT.STEP and, where a bit is decoded, CTL.BIT. -/
def pairThrough (s : State) (p : Soft × Soft) : Option State := do
  let a ← perform .ccInv (latchPair p) s
  match a.env.res with
  | .pair r1 r2 =>
    let b ← perform .vitStep (latchPair (r1, r2)) a
    match b.env.res with
    | .bitOpt (some u) => perform .ctlBit (latchBit u) b
    | .bitOpt none => some b
    | _ => none
  | _ => none

/-- R339: DP.PUSH and the pairs it returns, in order. -/
def symbolThrough (s : State) (y : Soft) : Option State := do
  let a ← perform .dpPush (fun g => { g with x := y }) s
  match a.env.res with
  | .pairs l => l.foldlM pairThrough a
  | _ => none

/-- R339: PH.PUSH and the symbols it returns, in order. -/
def batchSymbolThrough (s : State) (x : Soft) : Option State := do
  let a ← perform .phPush (fun g => { g with x := x }) s
  match a.env.res with
  | .symbols l => l.foldlM symbolThrough a
  | _ => none

end Sys2Proof.Claims

open Sys2Proof Sys2Proof.Machine Sys2Proof.Claims

/-! ## Words and turns -/

/-- Every operation that a word of its interface stands for is decoded from the word it is encoded
as, with every field at every value (R111 to R115), and the decoder gives such operations only. -/
def Obligations.DecodeOfEncode : Prop :=
  (∀ i : Instr, i.wf = true → decode (encode i) = .ok i) ∧
  ∀ w i, decode w = .ok i → i.wf = true

/-- R112: the rows are tried in their order by mask and match, and row 4 or row 5 takes every word
the first three leave; a write to 0x00 with data[1:0] = 0 falls to row 4 and does nothing. -/
def Obligations.BusWordRowsInOrder : Prop :=
  (∀ w : BusWord, decode (.bus w) = .ok (
    if w &&& 0x1FF00000003#41 = 0x10000000001#41 then .hostStart
    else if w &&& 0x1FF00000003#41 = 0x10000000002#41 then .hostCancel
    else if w &&& 0x1FF00000003#41 = 0x10000000003#41 then .hostReset
    else if w &&& 0x10000000000#41 = 0x10000000000#41 then
      .hostCfgw (w.extractLsb' 32 8) (w.extractLsb' 0 32)
    else .hostRd (w.extractLsb' 32 8))) ∧
  (∀ w : BusWord, w &&& 0x10000000000#41 ≠ 0x10000000000#41 → w &&& 0x10000000000#41 = 0#41) ∧
  ∀ (data : RegWord) (s : State), data.extractLsb' 0 2 = 0#2 →
    decode (.bus (busWord true 0x00#8 data)) = .ok (.hostCfgw 0x00#8 data) ∧
      exec (.hostCfgw 0x00#8 data) s = .next s

/-- R113: bit 8 of a SYM word tells the token from a symbol, bits 7 to 0 are the symbol, and they
are ignored in the token. R114, R115, R118: the identifiers of the table from 0x08 on name one
operation each; the values listed as naming none are refused by name. Model's choice (log 20): 0x01
to 0x07, whose operations have words on the bus or the symbol stream, are refused too when handed
as identifiers. -/
def Obligations.SymAndIdentifierWords : Prop :=
  (∀ w : SymWord,
    (w &&& 0x100#9 = 0x000#9 → decode (.sym w) = .ok (.srcPush (w.extractLsb' 0 8))) ∧
    (w &&& 0x100#9 = 0x100#9 → decode (.sym w) = .ok .srcEos)) ∧
  (∀ w, unlisted w = true → decode (.op w) = .error .noSuchOperation) ∧
  (∀ w : OpId, 1 ≤ w.toNat → w.toNat ≤ 7 → decode (.op w) = .error .interfaceWordNeeded) ∧
  (∀ w : OpId, unlisted w = false → 8 ≤ w.toNat →
    ∃ i, decode (.op w) = .ok i ∧ encode i = .op w) ∧
  ∀ s w r e, s.env.turns = .op w :: r → decode (.op w) = .error e →
    step s = .refused (.undecodable e w)

/-- Words written out from the tables of 30_encoding decode to the operations they stand for. -/
def Obligations.WrittenWordsDecode : Prop :=
  decode (.bus 0x11400002000#41) = .ok (.hostCfgw 0x14#8 0x00002000#32) ∧
  decode (.bus 0x01500000000#41) = .ok (.hostRd 0x15#8) ∧
  decode (.bus 0x10000000001#41) = .ok .hostStart ∧
  decode (.sym 0x0C0#9) = .ok (.srcPush 0xC0#8) ∧
  decode (.sym 0x100#9) = .ok .srcEos ∧
  decode (.op 0b00010001#8) = .ok .corrSearch ∧
  decode (.op 0b00100100#8) = .ok .phNext ∧
  decode (.op 0b00110010#8) = .ok .dpPush ∧
  decode (.op 0b01000101#8) = .ok .vitStep ∧
  decode (.op 0b01010000#8) = .ok .dfPush ∧
  decode (.op 0b01100000#8) = .ok .drApply ∧
  decode (.op 0b01110011#8) = .ok .rsDec ∧
  decode (.op 0b10000111#8) = .ok .ctlPublish

/-- A step runs the operation decoded from the word of the agent whose turn it is, on the state
from which the turn and the word have been taken; an agent with nothing to present lets its turn
pass. A row's word placed by `withFetchWord` is the next thing the machine runs, on the state as it
was. How the turns and the pending words are held is the model's choice (logs 1, 2, 3). -/
def Obligations.StepRunsDecodedInstruction : Prop :=
  (∀ (s : State) (i : Instr) (r : List Turn),
    (∀ w q, s.env.turns = .host :: r → s.env.hostQ = w :: q → decode (.bus w) = .ok i →
      step s = exec i { s with env := { s.env with turns := r, hostQ := q } }) ∧
    (∀ w q, s.env.turns = .source :: r → s.env.srcQ = w :: q → decode (.sym w) = .ok i →
      step s = exec i { s with env := { s.env with turns := r, srcQ := q } }) ∧
    (s.env.turns = .sink :: r →
      step s = exec .sinkPop { s with env := { s.env with turns := r } }) ∧
    (∀ w, s.env.turns = .op w :: r → decode (.op w) = .ok i →
      step s = exec i { s with env := { s.env with turns := r } }) ∧
    (∀ w, s.env.turns = .core :: r → s.ctl.seq.opWord = some w → decode (.op w) = .ok i →
      step s = exec i { s with env := { s.env with turns := r } }) ∧
    (∀ w, s.env.turns = [] → s.ctl.seq.opWord = some w → decode (.op w) = .ok i →
      step s = exec i s) ∧
    (s.env.turns = .host :: r ∧ s.env.hostQ = [] ∨ s.env.turns = .source :: r ∧ s.env.srcQ = [] ∨
        s.env.turns = .core :: r ∧ s.ctl.seq.opWord = none →
      step s = .next { s with env := { s.env with turns := r } }) ∧
    (s.env.turns = [] → s.ctl.seq.opWord = none → step s = .next s)) ∧
  ∀ (s : State) (nbits w : Nat) (i : Instr), decodeTableWord nbits w = some i →
    step (s.withFetchWord nbits w) = exec i s

/-- R330, R334: the core performs the controller operation that `seq` names, nothing in IDLE, DONE
and ERROR; a step that is not enabled (IN empty in S_READ, OUT full where the step would emit)
changes nothing. -/
def Obligations.CoreStepFollowsSequencer : Prop :=
  ∀ s : State, s.env.turns = [] →
    (step s = match s.ctl.seq with
      | .idle => .next s
      | .check => exec .ctlCheck s
      | .top => exec .ctlTop s
      | .read => exec .ctlRead s
      | .corr => exec .ctlCorr s
      | .data => exec .ctlData s
      | .resync => exec .ctlRschk s
      | .flush => exec .ctlFlush s
      | .publish => exec .ctlPublish s
      | .done => .next s
      | .error => .next s) ∧
    (s.ctl.seq = .read → s.inq = [] → step s = .next s) ∧
    (∀ u, s.ctl.seq = .data → dataStep s = .ok u → u.outq.length ≠ s.outq.length →
      ¬ roomInOut s → s.outq ≠ [] → step s = .next s) ∧
    (∀ u, s.ctl.seq = .flush → flushStep s = .ok u → u.outq.length ≠ s.outq.length →
      ¬ roomInOut s → s.outq ≠ [] → step s = .next s)

/-! ## The whole machine -/

/-- R14, R98, R380: on a run of the four agents no step ever faults or is refused, and after every
step of the loop these registers are in the ranges the spec gives them: `hyp` below NHYP (R21),
`dp_k` below PERIOD (R25), `PM` at most 3048 (R26, R216), `hist_wp` below TBD (R29), `vit_n` at
most TBD + 1 (R30), `ber_errs`, `ber_total` and `ber_steps` (R32), `bad_cnt` at most OUTSYNC_AFTER
(R35), `df_cnt` (R38), `df_miss` at most MISS_THR (R39), `df_conf` at most CONFIRM (R40),
`df_bitctr` and `df_offset` below FRAME_BITS (R41), `sym_n`, `sym_i` and `fl_i` (R48); and the
symbols in SYM, `hold_i` and `dp_r1` are clamped (R167, R337). -/
def Obligations.RunNeverStops : Prop :=
  ∀ s : State, RunInv s → ∃ t, step s = .next t ∧ RunInv t

/-- The buffers' canonical form, the reserved bits and a zero path metric are kept by every step
from every state (R54, R73 to R75, R216). -/
def Obligations.EveryStepKeepsInvariant : Prop :=
  ∀ s t : State, Inv s → step s = .next t → Inv t

/-- Right after reset both invariants hold, whatever words and turns of the four agents are still
to come. Model's choices (logs 5, 22): every entry of HIST, DLY, FRM, CW and SYM, `hold_i` and
`dp_r1` read 0 after reset, and HOST.RESET keeps the agents' pending words and the observer's
record. -/
def Obligations.ResetMeetsInvariants : Prop :=
  Inv State.reset ∧
  (∀ e : Env, (∀ w, Turn.op w ∉ e.turns) → RunInv { State.reset with env := e }) ∧
  ∀ s : State, exec .hostReset s = .next { State.reset with env := s.env } ∧
    State.reset.ph.iHold = 0 ∧ State.reset.dp.dpR1 = 0 ∧
    ∀ a, State.reset.vit.hist.read a = 0 ∧ State.reset.vit.dly.read a = 0 ∧
      State.reset.frm.read a = 0 ∧ State.reset.cw.read a = 0 ∧ State.reset.sym.read a = 0

/-- R78: every state element that has a specified reset value has it, after power-on and after
HOST.RESET in any state. -/
def Obligations.ResetRegisterValues : Prop :=
  AtReset State.reset ∧ ∀ s : State, ∃ t, exec .hostReset s = .next t ∧ AtReset t

/-- R335: the successor of every value of `seq` in a run when the core has its turn. -/
def Obligations.SequencerSuccessors : Prop :=
  ∀ s t : State, RunInv s → s.env.turns = [] → step s = .next t →
    match s.ctl.seq with
    | .idle => t.ctl.seq = .idle
    | .check => t.ctl.seq = if firstFault s.cfg = none then .top else .error
    | .top =>
      if s.ctl.cancelReq then t.ctl.seq = .publish ∧ t.ctl.finalRun = true
      else t.ctl.seq = .read
    | .read =>
      match s.inq with
      | [] => t.ctl.seq = .read
      | e :: _ =>
        t.ctl.seq = if e.getLsbD 8 ∨ s.ctl.symN.toNat + 1 = s.cfg.batchLen then .corr else .read
    | .corr => t.ctl.seq = if s.ctl.symN.toNat > 0 then .data else .resync
    | .data => t.ctl.seq = if t.ctl.symI = t.ctl.symN then .resync else .data
    | .resync => t.ctl.seq = if s.ctl.eosSeen then .flush else .publish
    | .flush =>
      ∃ l, exec .vitFlush s = .next (answered s (.bits l)) ∧
        if s.ctl.flI.toNat < l.length then t.ctl.seq = .flush
        else t.ctl.seq = .publish ∧ t.ctl.finalRun = true
    | .publish => t.ctl.seq = if s.ctl.finalRun then .done else .top
    | .done => t.ctl.seq = .done
    | .error => t.ctl.seq = .error

/-- Each of these registers has the one writer its rule names besides reset: the configuration only
HOST.CFGW in IDLE (R99), the health record only CTL.PUBLISH (R347), the error registers only
CTL.CHECK (R51), `cancel_req` only CANCEL while RUNNING, which sets it (R47), `eos_seen` only
CTL.READ (R46), `hyp` only the operations of R21. The sequencer is moved by no operation of an
outside agent but an accepted START, and IDLE is entered by reset only (R331, R335). -/
def Obligations.RegistersHaveOneWriter : Prop :=
  ∀ (i : Instr) (s t : State), exec i s = .next t → i ≠ .hostReset →
    (t.cfg ≠ s.cfg → s.ctl.seq = .idle ∧ ∃ a d, i = .hostCfgw a d) ∧
    (t.health ≠ s.health → i = .ctlPublish) ∧
    (t.ctl.errCode ≠ s.ctl.errCode ∨ t.ctl.errInfo ≠ s.ctl.errInfo → i = .ctlCheck) ∧
    (t.ctl.cancelReq ≠ s.ctl.cancelReq →
      i = .hostCancel ∧ modeNumber s.ctl.seq = 1 ∧ t.ctl.cancelReq = true) ∧
    (t.ctl.eosSeen ≠ s.ctl.eosSeen → i = .ctlRead ∧ t.ctl.eosSeen = true) ∧
    (t.ph.hyp ≠ s.ph.hyp → i ∈ [.phNext, .corrApply, .ctlCorr, .ctlResync, .ctlRschk]) ∧
    (t.env.popped ≠ s.env.popped → i = .sinkPop) ∧
    (t.env.reads ≠ s.env.reads → ∃ a, i = .hostRd a) ∧
    (t.ctl.seq ≠ s.ctl.seq → i ∉ [.hostCancel, .srcEos, .sinkPop] ∧
      (∀ a d, i ≠ .hostCfgw a d) ∧ (∀ a, i ≠ .hostRd a) ∧ (∀ x, i ≠ .srcPush x) ∧
      (i = .hostStart → s.ctl.seq = .idle ∧ t.ctl.seq = .check) ∧ t.ctl.seq ≠ .idle)

/-- R94: the two FIFOs are first-in first-out. Frames already popped or waiting keep their order
and only CTL.EMIT, alone or within the operations that call it, adds frames behind them; entries of
IN leave at the head, one at a time, by CTL.READ only, and join at the tail. -/
def Obligations.StreamsKeepTheirOrder : Prop :=
  ∀ (i : Instr) (s t : State), exec i s = .next t → i ≠ .hostReset →
    (∃ l, t.env.popped ++ t.outq = s.env.popped ++ s.outq ++ l ∧
      (l ≠ [] → i ∈ [.ctlEmit, .ctlFrame, .ctlBit, .ctlData, .ctlFlush])) ∧
    (i = .ctlRead → t.inq = s.inq.tail) ∧
    (i ≠ .ctlRead → ∃ l, t.inq = s.inq ++ l ∧ l.length ≤ 1)

/-! ## Host, source and sink -/

/-- The fields of the configuration registers stand where R58 to R70 put them. -/
def Obligations.ConfigurationFields : Prop :=
  ∀ c : Cfg,
    (c.const = bits c.modem 0 2 ∧ c.iqSwap = c.modem.getLsbD 4 ∧ c.invC1 = c.modem.getLsbD 5 ∧
      c.invC2 = c.modem.getLsbD 6 ∧ c.swapSearch = c.modem.getLsbD 7 ∧
      c.nrzm = c.modem.getLsbD 8 ∧ c.useCorr = c.modem.getLsbD 9) ∧
    (c.rate = bits c.code 0 3 ∧ c.tbd = bits c.code 8 8) ∧
    (c.berThr = bits c.vitlock 0 16 ∧ c.outsyncAfter = bits c.vitlock 16 8) ∧
    c.berWin = bits c.vitwin 0 16 ∧
    (c.frameBits = bits c.frame 0 20 ∧ c.padBits = bits c.frame 24 3) ∧
    (c.asm.toNat = c.asmHi.toNat * 2 ^ 32 + c.asmLo.toNat) ∧
    (c.asmLen = bits c.asmctl 0 7 ∧ c.asmTol = bits c.asmctl 8 6) ∧
    (c.missThr = bits c.deframer 0 8 ∧ c.confirm = bits c.deframer 8 2 ∧
      c.resyncN = bits c.deframer 16 8) ∧
    (c.derandMode = bits c.derand 0 2 ∧ c.derandStart = bits c.derand 16 16) ∧
    (c.rsType.toNat = bits c.rs 0 2 ∧ c.rsDepth = bits c.rs 4 4 ∧ c.rsDual = c.rs.getLsbD 8 ∧
      c.acceptAll = c.rs.getLsbD 9) ∧
    c.batchLen = bits c.batch 0 16 ∧
    (c.npat = bits c.corr 0 4 ∧ c.corrMin = bits c.corr 8 7 ∧ c.corrWin = bits c.corr 16 16)

/-- R122: a write in IDLE to 0x10 to 0x3F stores the fields of the addressed register, drops its
reserved bits, and sets the CFG_WRITTEN bit of an address up to 0x1F; nothing else a read can show
changes. Every other write changes nothing. -/
def Obligations.ConfigurationWrite : Prop :=
  ∀ (addr : BitVec 8) (data : RegWord) (s : State),
    (s.ctl.seq ≠ .idle ∨ addr.toNat < 0x10 ∨ 0x3F < addr.toNat →
      exec (.hostCfgw addr data) s = .next s) ∧
    (s.ctl.seq = .idle → 0x10 ≤ addr.toNat → addr.toNat ≤ 0x3F →
      ∃ t, exec (.hostCfgw addr data) s = .next t ∧ t = { s with cfg := t.cfg } ∧
        (∀ a, a ≠ 0x02#8 → registerValue t a =
          if a = addr then data &&& stored addr else registerValue s a) ∧
        ∀ k, k < 16 → t.cfg.written.getLsbD k =
          (s.cfg.written.getLsbD k || decide (addr.toNat = 0x10 + k)))

/-- R123: a read returns the value of the register at the address, 0 for an unmapped, reserved or
write-only one, in every mode, and changes no register; in a state with the invariant the reserved
bits read 0. The value joins the observer's record (log 4). -/
def Obligations.RegisterReadValue : Prop :=
  ∀ (addr : BitVec 8) (s : State),
    exec (.hostRd addr) s = .next
      { s with env := { s.env with reads := s.env.reads ++ [registerValue s addr] } } ∧
    (Inv s → registerValue s addr &&& ~~~readable addr = 0)

/-- R331: START is accepted in IDLE, where it sets `acq_pending` to USE_CORR and moves to S_CHECK,
and ignored in every other mode; in a run every working register then has its reset value. R332:
CANCEL sets `cancel_req` while RUNNING and is ignored in every other mode. -/
def Obligations.HostStartAndCancel : Prop :=
  ∀ s : State,
    (s.ctl.seq = .idle → exec .hostStart s =
      .next { s with ctl := { s.ctl with acqPending := s.cfg.useCorr, seq := .check } }) ∧
    (s.ctl.seq ≠ .idle → exec .hostStart s = .next s) ∧
    (RunInv s → s.ctl.seq = .idle → Untouched s ∧ s.ctl = Ctl.reset) ∧
    (modeNumber s.ctl.seq = 1 →
      exec .hostCancel s = .next { s with ctl := { s.ctl with cancelReq := true } }) ∧
    (modeNumber s.ctl.seq ≠ 1 → exec .hostCancel s = .next s)

/-- R84, R124, R125: with room in IN the source's word joins its tail, a symbol as `{0, s}`, the
token as 0x100. R85, R126: SINK.POP takes the oldest frame of OUT, in every mode. Model's choices
(logs 4, 6): with IN full the word goes back to the head of the source's pending words, with OUT
empty the sink waits, and nothing else changes; a popped frame joins the observer's record. -/
def Obligations.StreamEndsAppendTakeOrWait : Prop :=
  (∀ s : State,
    (s.inq.length < Config.inDepth →
      (∀ x : Soft, exec (.srcPush x) s =
        .next { s with inq := s.inq ++ [BitVec.ofNat 9 x.toNat] }) ∧
      exec .srcEos s = .next { s with inq := s.inq ++ [0x100#9] }) ∧
    (Config.inDepth ≤ s.inq.length →
      (∀ x : Soft, exec (.srcPush x) s = .next
        { s with env := { s.env with srcQ := BitVec.ofNat 9 x.toNat :: s.env.srcQ } }) ∧
      exec .srcEos s =
        .next { s with env := { s.env with srcQ := 0x100#9 :: s.env.srcQ } })) ∧
  ∀ s : State,
    (∀ f r, s.outq = f :: r → exec .sinkPop s =
      .next { s with outq := r, env := { s.env with popped := s.env.popped ++ [f] } }) ∧
    (s.outq = [] → exec .sinkPop s = .next s)

/-! ## Correlator -/

/-- R153, with the stream of R152: CORR.SCORE returns the number of pattern bits the hard decisions
of the rotated window agree with; for BPSK the score of the inverted phase is the complement where
no symbol of the span is 0. -/
def Obligations.CorrScoreCountsAgreements : Prop :=
  ∀ s : State, SearchReady s →
    ∀ ph o j : Nat, s.env.args.ph.toNat = ph → s.env.args.off.toNat = o →
      s.env.args.pat.toNat = j → ph < phases s.cfg → o % unit s.cfg = 0 →
      s.cfg.patLen j ≤ 64 → o + s.cfg.patLen j ≤ windowLength s →
      exec .corrScore s = .next (answered s (.score (score s ph o j))) ∧
      score s ph o j ≤ s.cfg.patLen j ∧
      (s.cfg.const = 0 → (∀ i < s.cfg.patLen j, s.sym.read (o + i) ≠ 0) →
        score s 1 o j = s.cfg.patLen j - score s 0 o j)

/-- R155: CORR.SEARCH finds the candidate of the highest score, the lowest phase, then offset, then
pattern among equals, if that score is greater than CORR_MIN; else it finds nothing. -/
def Obligations.CorrSearchFindsFirstBest : Prop :=
  ∀ s : State, SearchReady s →
    ∃ hit, exec .corrSearch s = .next (answered s (.search hit)) ∧
      match hit with
      | none => ∀ ph o j, Candidate s ph o j → score s ph o j ≤ s.cfg.corrMin
      | some h =>
        Candidate s h.ph.toNat h.off.toNat h.pat.toNat ∧
        h.score = score s h.ph.toNat h.off.toNat h.pat.toNat ∧ s.cfg.corrMin < h.score ∧
        ∀ ph o j, Candidate s ph o j → score s ph o j ≤ h.score ∧
          (score s ph o j = h.score → h.ph.toNat < ph ∨ h.ph.toNat = ph ∧
            (h.off.toNat < o ∨ h.off.toNat = o ∧ h.pat.toNat ≤ j))

/-- R156, with the clear of R350: CORR.APPLY replaces the rotation, keeps the swap toggle, adds the
offset to `skip` and clears the datapath when the phase or the alignment moves; otherwise it does
nothing. Model's choices: the clear keeps `hold_i`, to which the spec allows any value then
(log 5); CONST 2 and 3, which CTL.CHECK refuses, count as QPSK (log 16); an offset
that no search returns and a `hyp` past its range are put through the same formula (log 26). -/
def Obligations.CorrApplyMovesPhase : Prop :=
  ∀ s : State, s.env.args.ph.toNat < phases s.cfg →
    (s.env.args.found = false ∨
        (s.env.args.ph.toNat = s.ph.hyp.toNat % phases s.cfg ∧ s.env.args.off = 0) →
      exec .corrApply s = .next s) ∧
    (s.env.args.found = true →
      (s.env.args.ph.toNat ≠ s.ph.hyp.toNat % phases s.cfg ∨ s.env.args.off ≠ 0) →
      ∃ t, exec .corrApply s = .next t ∧
        t.ph.hyp.toNat =
          s.ph.hyp.toNat / phases s.cfg * phases s.cfg + s.env.args.ph.toNat ∧
        t.ph.skip = s.ph.skip + BitVec.ofNat 32 s.env.args.off.toNat ∧
        t.ph.iHave = false ∧ t.ph.iHold = s.ph.iHold ∧ t.ph.nrzmPrev = false ∧
        exec .ctlClear { s with ph := { s.ph with hyp := t.ph.hyp, skip := t.ph.skip } } = .next t)

/-! ## Phase normaliser, hypothesis search, NRZ-M -/

/-- R167: PH.CLAMP gives -127 for -128 and leaves every other soft symbol; the result and its
negation lie in -127 to 127. R169: PH.SWAP exchanges I and Q; for BPSK, where the rule does not
define it, it completes with values that stay free (log 11). R200: CC.INV negates the symbols whose
invert flag is set, exactly for clamped symbols (log 8). -/
def Obligations.SymbolOperations : Prop :=
  (∀ s : State, ∃ x : Soft,
    exec .phClamp s = .next (answered s (.symbol x)) ∧
    x.toInt = (if s.env.args.x.toInt = -128 then -127 else s.env.args.x.toInt) ∧
    -127 ≤ x.toInt ∧ x.toInt ≤ 127 ∧ (-x).toInt = -x.toInt) ∧
  (∀ s : State,
    (s.cfg.const = 1 →
      exec .phSwap s = .next (answered s (.pair s.env.args.y s.env.args.x))) ∧
    ∃ a b, exec .phSwap s = .next (answered s (.pair a b))) ∧
  ∀ s : State, ∃ a b : Soft, exec .ccInv s = .next (answered s (.pair a b)) ∧
    (clamped s.env.args.x →
      a.toInt = if s.cfg.invC1 then -s.env.args.x.toInt else s.env.args.x.toInt) ∧
    (clamped s.env.args.y →
      b.toInt = if s.cfg.invC2 then -s.env.args.y.toInt else s.env.args.y.toInt)

/-- R168: PH.ROT turns a QPSK symbol by r × 90 degrees and a BPSK symbol by r × 180 degrees, r = 0
or 1; for r = 2 and 3, not used with BPSK, it completes with a value that stays free (log 10). -/
def Obligations.RotationTable : Prop :=
  ∀ s : State,
    (s.cfg.const = 1 → clamped s.env.args.x → clamped s.env.args.y →
      ∃ a b : Soft, exec .phRot s = .next (answered s (.pair a b)) ∧
        (a.toInt, b.toInt) =
          turned s.env.args.ph.toNat (s.env.args.x.toInt, s.env.args.y.toInt)) ∧
    (s.cfg.const = 0 → clamped s.env.args.x →
      ∃ a : Soft, exec .phRot s = .next (answered s (.symbol a)) ∧
        (s.env.args.ph = 0#2 → a.toInt = s.env.args.x.toInt) ∧
        (s.env.args.ph = 1#2 → a.toInt = -s.env.args.x.toInt)) ∧
    ∃ t, exec .phRot s = .next t ∧ t = answered s t.env.res

/-- R171 for clamped symbols and the constellations BPSK and QPSK: BPSK symbols are turned one by
one; a QPSK I is held, and its Q returns the swapped and turned pair, I first. -/
def Obligations.PhPushNormalises : Prop :=
  ∀ s : State, clamped s.env.args.x → clamped s.ph.iHold →
    (s.cfg.const = 0 →
      ∃ a : Soft, exec .phPush s = .next (answered s (.symbols [a])) ∧
        a.toInt = if s.ph.hyp.toNat % 2 = 0 then s.env.args.x.toInt else -s.env.args.x.toInt) ∧
    (s.cfg.const = 1 → s.ph.iHave = false →
      exec .phPush s = .next (answered
        { s with ph := { s.ph with iHold := s.env.args.x, iHave := true } } (.symbols []))) ∧
    (s.cfg.const = 1 → s.ph.iHave = true →
      ∃ a b : Soft, exec .phPush s = .next (answered
          { s with ph := { s.ph with iHave := false } } (.symbols [a, b])) ∧
        (a.toInt, b.toInt) = turned (s.ph.hyp.toNat % 4)
          (swappedIf (swapping s.cfg s.ph.hyp) (s.ph.iHold.toInt, s.env.args.x.toInt)))

/-- R173: PH.NEXT advances `hyp` modulo NHYP and adds U to `skip` when it wraps. R174: from
hypothesis 0 the search reaches slip `d` and hypothesis `h` after exactly `d × NHYP + h` calls of
PH.NEXT, `d` channel symbols having been added to `skip`. -/
def Obligations.SearchReachesHypothesis : Prop :=
  (∀ s : State, s.cfg.const < 2 → ∃ t, exec .phNext s = .next t ∧
    t = { s with ph := { s.ph with hyp := t.ph.hyp, skip := t.ph.skip } } ∧
    t.ph.hyp.toNat = (s.ph.hyp.toNat + 1) % hypotheses s.cfg ∧
    t.ph.skip = if t.ph.hyp = 0 then s.ph.skip + BitVec.ofNat 32 (unit s.cfg) else s.ph.skip) ∧
  ∀ (s : State) (d h : Nat), s.cfg.const < 2 → s.ph.hyp = 0 → h < hypotheses s.cfg →
    ∃ t, times .phNext (d * hypotheses s.cfg + h) s = some t ∧
      t = { s with ph := { s.ph with hyp := t.ph.hyp, skip := t.ph.skip } } ∧
      t.ph.hyp.toNat = h ∧ t.ph.skip = s.ph.skip + BitVec.ofNat 32 (d * unit s.cfg)

/-- R175: DIFF.DEC returns the XOR of its input with the previous input and keeps the input; over a
list of bits each output is an XOR of neighbours, the carried bit before the first, and an inverted
list gives the same outputs from the second on. Model's choice (log 27): handed with NRZM = 0, where
R175 does not have it performed, it does the same. -/
def Obligations.DiffDecXorsNeighbours : Prop :=
  (∀ s : State, exec .diffDec s = .next (answered
    { s with ph := { s.ph with nrzmPrev := s.env.args.bit } }
    (.bit (s.env.args.bit != s.ph.nrzmPrev)))) ∧
  ∀ (l : List Bool) (s : State), ∃ out out' t t',
    feed .diffDec latchBit l s = some (out, t) ∧
    feed .diffDec latchBit (l.map fun b => !b) s = some (out', t') ∧
    out.length = l.length ∧
    (∀ n < l.length, out[n]? = some (.bit (l.getD n false !=
      if n = 0 then s.ph.nrzmPrev else l.getD (n - 1) false))) ∧
    out'.drop 1 = out.drop 1

/-! ## Convolutional code, depuncturer, invert flags -/

/-- R193: CC.ENC over numbers; complementing state and input complements successor and outputs; the
worked example of the rule. -/
def Obligations.EncoderStep : Prop :=
  (∀ s : State,
    let e := encoder s.env.args.enc.toNat s.env.args.bit
    exec .ccEnc s = .next (answered s (.encoded (BitVec.ofNat 6 e.1) e.2.1 e.2.2))) ∧
  (∀ (s u v : State) (a b : BitVec 6) (c1 c2 d1 d2 : Bool),
    exec .ccEnc s = .next u → u.env.res = .encoded a c1 c2 →
    exec .ccEnc (withArgs s fun g => { g with enc := ~~~g.enc, bit := !g.bit }) = .next v →
    v.env.res = .encoded b d1 d2 → b = ~~~a ∧ d1 = !c1 ∧ d2 = !c2) ∧
  sent 1 [true, false, false, false, false, false, false, false] 0 =
    [(1, 1), (1, -1), (1, 1), (1, 1), (-1, -1), (-1, 1), (1, 1), (-1, -1)] ∧
  endState [true, false, false, false, false, false, false, false] 0 = 0

/-- R198: from a kept slot DP.PUSH returns at most one pair, leaves a kept slot in the period and
writes the depuncturer's three registers only. R195, R197: from slot (0, 0) the depuncturer turns
the punctured form of whole periods back into their pairs, an erasure in each punctured slot, and
stands at slot (0, 0) again. -/
def Obligations.DepunctureRestoresPairs : Prop :=
  (∀ s : State, s.cfg.rate < 5 → s.dp.dpK.toNat < period s.cfg.rate → slotKept s.cfg.rate s.dp →
    ∃ d l, exec .dpPush s = .next (answered { s with dp := d } (.pairs l)) ∧ l.length ≤ 1 ∧
      d.dpK.toNat < period s.cfg.rate ∧ slotKept s.cfg.rate d) ∧
  ∀ (s : State) (l : List (Soft × Soft)), s.cfg.rate < 5 → s.dp.dpK = 0 → s.dp.dpI = false →
    l.length % period s.cfg.rate = 0 →
    ∃ res t, feed .dpPush (fun x a => { a with x := x }) (punctured s.cfg.rate l 0) s =
        some (res, t) ∧
      pairsOf res = erased s.cfg.rate l 0 ∧ t.dp.dpK = 0 ∧ t.dp.dpI = false

/-! ## Viterbi decoder -/

/-- R211, R212: the four branch metrics of a pair of clamped symbols are the sums of the two costs,
each 0 to 508, and opposite metrics sum to 508; for -128, outside the rule's range, VIT.BM
completes with values that stay free (log 9). -/
def Obligations.BranchMetricValues : Prop :=
  ∀ s : State,
    (clamped s.env.args.x → clamped s.env.args.y →
      ∃ m, exec .vitBm s = .next (answered s (.metrics m)) ∧ smallMetrics m ∧
        (∀ c1 c2, ((m.get c1 c2).toNat : Int) =
          cost c1 s.env.args.x.toInt + cost c2 s.env.args.y.toInt) ∧
        (m.get false false).toNat + (m.get true true).toNat = 508 ∧
        (m.get false true).toNat + (m.get true false).toNat = 508) ∧
    ∃ m, exec .vitBm s = .next (answered s (.metrics m))

/-- R214, R215: VIT.ACS over all states at once. Each new metric is the smaller of the two
candidates less the smallest of all; the entry at `hist_wp` holds the decisions, a tie choosing p0;
the rest of HIST and of the machine is what it was. -/
def Obligations.AddCompareSelect : Prop :=
  ∀ s : State, Inv s → s.vit.histWp.toNat < s.cfg.tbd → (∀ x, s.vit.metric x ≤ 60000) →
    smallMetrics s.env.args.bm →
    ∃ t m, exec .vitAcs s = .next t ∧
      t = { s with vit := { s.vit with pm := t.vit.pm, hist := t.vit.hist } } ∧
      (∃ x, survivor s.vit s.env.args.bm x = m) ∧
      (∀ x, t.vit.metric x + m = survivor s.vit s.env.args.bm x) ∧
      (∀ x, (t.vit.hist.read s.vit.histWp.toNat).getLsbD x.toNat =
        decide (cand s.vit s.env.args.bm x true < cand s.vit s.env.args.bm x false)) ∧
      ∀ a, a ≠ s.vit.histWp.toNat → t.vit.hist.read a = s.vit.hist.read a

/-- R216: `n` steps after a clear the metrics are at most 508 × min(n, 6), the smallest being 0;
and from any state whose metrics are at most 60000 they are at most 3048 from the sixth step on. -/
def Obligations.PathMetricsStaySmall : Prop :=
  ∀ (s : State) (ms : List Metrics), s.vit.histWp.toNat < s.cfg.tbd →
    (∀ m ∈ ms, smallMetrics m) → (∀ x, s.vit.metric x ≤ 60000) →
    ∃ res t, feed .vitAcs (fun m a => { a with bm := m }) ms s = some (res, t) ∧
      (6 ≤ ms.length → ∀ x, t.vit.metric x ≤ 3048) ∧
      ((∀ x, s.vit.metric x = 0) → ∀ x, t.vit.metric x ≤ 508 * min ms.length 6) ∧
      (ms ≠ [] → ∃ x, t.vit.metric x = 0)

/-- R218, R219: VIT.TB follows the decisions of the last TBD entries back from the lowest state of
metric 0 and returns the newest bit of the state it reaches; no register changes. With no metric 0,
which no step leaves, the operation completes from a free state (log 12). -/
def Obligations.TracebackFollowsDecisions : Prop :=
  ∀ s : State,
    (∀ st path, lowest (fun x => s.vit.metric x = 0) st →
      survivorPath s.cfg s.vit s.vit.histWp.toNat s.cfg.tbd st path →
      exec .vitTb s = .next (answered s (.bit ((path s.cfg.tbd).getLsbD 0)))) ∧
    ∃ b, exec .vitTb s = .next (answered s (.bit b))

/-- R221, R226: VIT.BER stores the hard decisions and erasure flags of the pair at DLY[`hist_wp`]
and, with a decoded bit, re-encodes it, compares the symbols of the entry that stood there, those
that were not erased, counts, and performs VIT.LOCK when BER_WIN bits have been counted. -/
def Obligations.ErrorRateStep : Prop :=
  ∀ s : State, Inv s → s.vit.histWp.toNat < s.cfg.tbd →
    ∃ dly : Memory 4, dly.wf ∧
      (dly.read s.vit.histWp.toNat).toNat =
        8 * (decide (0 < s.env.args.x.toInt)).toNat + 4 * (decide (s.env.args.x.toInt = 0)).toNat +
        2 * (decide (0 < s.env.args.y.toInt)).toNat + (decide (s.env.args.y.toInt = 0)).toNat ∧
      (∀ a, a ≠ s.vit.histWp.toNat → dly.read a = s.vit.dly.read a) ∧
      (s.env.args.bitGiven = false →
        exec .vitBer s = .next { s with vit := { s.vit with dly := dly } }) ∧
      (s.env.args.bitGiven = true →
        let old := s.vit.dly.read s.vit.histWp.toNat
        let e := encoder s.vit.reenc.toNat s.env.args.bit
        let n1 := !old.getLsbD 2
        let n2 := !old.getLsbD 0
        let u := { s with vit := { s.vit with
          dly := dly
          reenc := BitVec.ofNat 6 e.1
          berTotal := s.vit.berTotal + BitVec.ofNat 17 (n1.toNat + n2.toNat)
          berErrs := s.vit.berErrs + BitVec.ofNat 17
            ((n1 && (old.getLsbD 3 != e.2.1)).toNat + (n2 && (old.getLsbD 1 != e.2.2)).toNat)
          berSteps := s.vit.berSteps + 1 } }
        exec .vitBer s = if u.vit.berSteps.toNat = s.cfg.berWin then exec .vitLock u else .next u)

/-- R228, R229: VIT.LOCK by the class of the window: a good one locks, a bad one counts while
locked and unlocks past OUTSYNC_AFTER, a neutral one changes neither; the counts are latched and
cleared. So the flag comes down on the (OUTSYNC_AFTER + 1)-th consecutive bad window and not
before, and goes up on the first good one. -/
def Obligations.LockDecision : Prop :=
  (∀ s : State,
    let e := s.vit.berErrs.toNat
    let t := s.vit.berTotal.toNat
    let ended := { s.vit with
      berErrsL := s.vit.berErrs, berTotalL := s.vit.berTotal
      berErrs := 0, berTotal := 0, berSteps := 0 }
    (goodWindow s.cfg e t → exec .vitLock s =
      .next { s with vit := { ended with vitLock := true, badCnt := 0 } }) ∧
    (badWindow s.cfg e t → s.vit.vitLock = true →
      s.cfg.outsyncAfter < s.vit.badCnt.toNat + 1 → exec .vitLock s =
        .next { s with vit := { ended with vitLock := false, badCnt := 0 } }) ∧
    (badWindow s.cfg e t → s.vit.vitLock = true →
      s.vit.badCnt.toNat + 1 ≤ s.cfg.outsyncAfter → exec .vitLock s =
        .next { s with vit := { ended with badCnt := s.vit.badCnt + 1 } }) ∧
    (badWindow s.cfg e t → s.vit.vitLock = false → exec .vitLock s =
      .next { s with vit := ended }) ∧
    (¬ goodWindow s.cfg e t → ¬ badWindow s.cfg e t → exec .vitLock s =
      .next { s with vit := ended })) ∧
  ∀ (s : State) (l : List (BitVec 17 × BitVec 17)),
    (∀ w ∈ l, badWindow s.cfg w.1.toNat w.2.toNat) → s.vit.vitLock = true → s.vit.badCnt = 0 →
    ∃ t, endWindows l s = some t ∧
      (l.length ≤ s.cfg.outsyncAfter →
        t.vit.vitLock = true ∧ t.vit.badCnt.toNat = l.length) ∧
      (s.cfg.outsyncAfter < l.length → t.vit.vitLock = false ∧ t.vit.badCnt = 0) ∧
      ∀ w : BitVec 17 × BitVec 17, goodWindow s.cfg w.1.toNat w.2.toNat →
        ∃ u, endWindows [w] t = some u ∧ u.vit.vitLock = true

/-- R230: VIT.STEP is VIT.BM, VIT.ACS, the saturating count, VIT.TB from step TBD on, VIT.BER and
the advance of `hist_wp`, as separate operations would do them. -/
def Obligations.TrellisStepComposite : Prop :=
  ∀ s : State, s.vit.histWp.toNat < s.cfg.tbd →
    ∃ m a n b u,
      exec .vitBm s = .next (answered s (.metrics m)) ∧
      exec .vitAcs (withArgs s fun g => { g with bm := m }) = .next a ∧
      n.toNat = (if s.vit.vitN.toNat < s.cfg.tbd + 1 then s.vit.vitN.toNat + 1
        else s.vit.vitN.toNat) ∧
      exec .vitTb { a with vit := { a.vit with vitN := n } } =
        .next (answered { a with vit := { a.vit with vitN := n } } (.bit b)) ∧
      exec .vitBer (withArgs { a with vit := { a.vit with vitN := n } } fun g =>
        { g with bit := b, bitGiven := decide (n.toNat = s.cfg.tbd + 1) }) = .next u ∧
      exec .vitStep s = .next (answered
        { s with vit := { u.vit with
          histWp := BitVec.ofNat 8 ((s.vit.histWp.toNat + 1) % s.cfg.tbd) } }
        (.bitOpt (if n.toNat = s.cfg.tbd + 1 then some b else none)))

/-- R231, R262, R350: VIT.RESET, DF.RESET and CTL.CLEAR, register by register; `hyp`, `skip`, FRM
and everything else of the controller stay. Model's choice (log 5): CTL.CLEAR keeps `hold_i` and
`dp_r1` and VIT.RESET keeps HIST and DLY, to all of which the spec allows any value then. -/
def Obligations.ClearOperations : Prop :=
  ∀ s : State,
    (∃ v, exec .vitReset s = .next { s with vit := v } ∧ (∀ x, v.metric x = 0) ∧
      v = { pm := v.pm, hist := s.vit.hist, dly := s.vit.dly, histWp := 0, vitN := 0, reenc := 0,
            berErrs := 0, berTotal := 0, berSteps := 0, berErrsL := 0, berTotalL := 0,
            vitLock := false, badCnt := 0 }) ∧
    exec .dfReset s = .next { s with df := ⟨.searching, 0, 0, 0, 0, 0, 0⟩ } ∧
    ∃ v, exec .vitReset s = .next { s with vit := v } ∧
      exec .ctlClear s = .next
        { s with
          vit := v
          df := ⟨.searching, 0, 0, 0, 0, 0, 0⟩
          dp := { s.dp with dpK := 0, dpI := false }
          ph := { s.ph with nrzmPrev := false, iHave := false }
          ctl := { s.ctl with unsyncBits := 0 } }

/-- R232: VIT.FLUSH returns the bits still held, oldest first, as many as steps were made up to
TBD, read back along the survivor of the lowest state of smallest metric, and changes no register.
-/
def Obligations.FlushReadsSurvivor : Prop :=
  ∀ s : State, 0 < s.cfg.tbd → s.vit.vitN.toNat ≤ s.cfg.tbd + 1 →
    ∃ l, exec .vitFlush s = .next (answered s (.bits l)) ∧
      l.length = min s.vit.vitN.toNat s.cfg.tbd ∧
      ∀ st path, lowest (fun x => ∀ y, s.vit.metric x ≤ s.vit.metric y) st →
        survivorPath s.cfg s.vit ((s.vit.histWp.toNat + s.cfg.tbd - 1) % s.cfg.tbd)
          (l.length - 1) st path →
        ∀ k < l.length, l.reverse[k]? = some ((path k).getLsbD 0)

/-- The decoder decodes: with a traceback depth of at least 5, the step numbered n after a clear
returns nothing while n < TBD and message bit n - TBD after that, for every message, every
amplitude and every start state of the encoder, on a stream without errors; and after a message
longer than TBD, VIT.FLUSH returns its last TBD bits (R219, R220, R232). -/
def Obligations.DecoderReturnsMessage : Prop :=
  ∀ (s : State) (a : Soft) (msg : List Bool) (st : Nat), Inv s → cleared s.vit →
    0 < a.toInt → st < 64 → 5 ≤ s.cfg.tbd →
    ∃ res t, feed .vitStep latchPair (sent a msg st) s = some (res, t) ∧
      res.length = msg.length ∧
      (∀ n < msg.length, res[n]? =
        some (.bitOpt (if n < s.cfg.tbd then none else msg[n - s.cfg.tbd]?))) ∧
      (s.cfg.tbd < msg.length →
        exec .vitFlush t = .next (answered t (.bits (msg.drop (msg.length - s.cfg.tbd)))))

/-! ## Deframer -/

/-- R254, R259: the registers after DF.PUSH, transition by transition, and the frame it returns; no
register outside the deframer and FRM changes. -/
def Obligations.DeframerTransitions : Prop :=
  ∀ s : State, FramerReady s →
    ∃ t f, exec .dfPush s = .next (answered t (.frame f)) ∧
      t = { s with df := t.df, frm := t.frm } ∧
      t.df.dfSr = shifted s.df s.env.args.bit ∧
      t.df.dfBitctr.toNat = (s.df.dfBitctr.toNat + 1) % s.cfg.frameBits ∧
      let m := matching s.cfg t.df.dfSr
      let n := s.df.dfCnt.toNat + 1
      (s.df.dfState = .searching → f = none ∧ t.df.dfMiss = s.df.dfMiss ∧
        (m → t.df.dfState = .checking ∧ t.df.dfConf = 0 ∧ t.df.dfCnt.toNat = s.cfg.asmLen ∧
          (t.df.dfOffset.toNat : Int) =
            ((s.df.dfBitctr.toNat : Int) - (s.cfg.asmLen - 1)) % s.cfg.frameBits) ∧
        (¬m → t.df.dfState = .searching ∧ t.df.dfConf = s.df.dfConf ∧ t.df.dfCnt = s.df.dfCnt ∧
          t.df.dfOffset = s.df.dfOffset)) ∧
      (s.df.dfState ≠ .searching → t.df.dfOffset = s.df.dfOffset ∧
        (n ≠ s.cfg.asmLen → t.df.dfState = s.df.dfState ∧ t.df.dfConf = s.df.dfConf ∧
          t.df.dfMiss = s.df.dfMiss ∧
          (n = s.cfg.frameBits → t.df.dfCnt = 0 ∧
            f = if s.df.dfState = .synced then some (frameBytesOf s.cfg t.frm) else none) ∧
          (n ≠ s.cfg.frameBits → t.df.dfCnt.toNat = n ∧ f = none)) ∧
        (n = s.cfg.asmLen → f = none ∧
          (s.df.dfState = .checking → m →
            t.df.dfConf = s.df.dfConf + 1 ∧ t.df.dfCnt.toNat = n ∧
            if s.cfg.confirm ≤ (s.df.dfConf + 1).toNat then
              t.df.dfState = .synced ∧ t.df.dfMiss = 0
            else t.df.dfState = .checking ∧ t.df.dfMiss = s.df.dfMiss) ∧
          (s.df.dfState = .checking → ¬m →
            t.df.dfState = .searching ∧ t.df.dfCnt = 0 ∧ t.df.dfConf = s.df.dfConf ∧
              t.df.dfMiss = s.df.dfMiss) ∧
          (s.df.dfState = .synced → m →
            t.df.dfState = .synced ∧ t.df.dfMiss = 0 ∧ t.df.dfCnt.toNat = n ∧
              t.df.dfConf = s.df.dfConf) ∧
          (s.df.dfState = .synced → ¬m →
            t.df.dfMiss = s.df.dfMiss + 1 ∧ t.df.dfConf = s.df.dfConf ∧
            if s.cfg.missThr ≤ (s.df.dfMiss + 1).toNat then
              t.df.dfState = .searching ∧ t.df.dfCnt = 0
            else t.df.dfState = .synced ∧ t.df.dfCnt.toNat = n)))

/-- R253, R254, R258, R86: the bits of FRM after DF.PUSH: in SEARCHING the marker as received at a
match, else nothing; otherwise bit `df_cnt` is the pushed bit, and at the end of a frame in SYNCED
the padding bits are 0. Every other bit is what it was. -/
def Obligations.DeframerStoresBits : Prop :=
  ∀ s t : State, FramerReady s → Inv s → exec .dfPush s = .next t →
    ∀ k, frameBit t.frm k =
      if s.df.dfState = .searching then
        (if matching s.cfg (shifted s.df s.env.args.bit) ∧ k < s.cfg.asmLen then
          (shifted s.df s.env.args.bit).getLsbD (s.cfg.asmLen - 1 - k) else frameBit s.frm k)
      else if k = s.df.dfCnt.toNat then s.env.args.bit
      else if s.df.dfState = .synced ∧ s.df.dfCnt.toNat + 1 = s.cfg.frameBits ∧
          s.cfg.frameBits ≤ k ∧ k < s.cfg.frameBits + s.cfg.padBits then false
      else frameBit s.frm k

/-- R260: with CONFIRM = 1, when the marker first matches with its first bit at place `o` and again
one frame later, the state is CHECKING after bit `o + ASM_LEN - 1`, SYNCED after bit `o +
FRAME_BITS + ASM_LEN - 1`, and the first frame returned is the stream's second, complete after bit
`o + 2 × FRAME_BITS - 1`. -/
def Obligations.DeframerLocksInTwoFrames : Prop :=
  ∀ (s : State) (l : List Bool) (o : Nat), Inv s → configError s.cfg = none →
    s.cfg.confirm = 1 → s.df = ⟨.searching, 0, 0, 0, 0, 0, 0⟩ →
    l.length = o + 2 * s.cfg.frameBits →
    (∀ n, n < o + s.cfg.asmLen - 1 → ¬matchingAt s.cfg l n) →
    matchingAt s.cfg l (o + s.cfg.asmLen - 1) →
    matchingAt s.cfg l (o + s.cfg.frameBits + s.cfg.asmLen - 1) →
    (∃ res t, feed .dfPush latchBit (l.take (o + s.cfg.asmLen)) s = some (res, t) ∧
      t.df.dfState = .checking ∧ t.df.dfOffset.toNat = o % s.cfg.frameBits) ∧
    (∃ res t, feed .dfPush latchBit (l.take (o + s.cfg.frameBits + s.cfg.asmLen)) s =
      some (res, t) ∧ t.df.dfState = .synced) ∧
    ∃ res t f, feed .dfPush latchBit l s = some (res, t) ∧
      (∀ n, n + 1 < l.length → res[n]? = some (.frame none)) ∧
      res[l.length - 1]? = some (.frame (some f)) ∧
      f.length * 8 = s.cfg.frameBits + s.cfg.padBits ∧
      ∀ k < s.cfg.frameBits,
        (f.getD (k / 8) 0).getLsbD (7 - k % 8) = l.getD (o + s.cfg.frameBits + k) false

/-! ## Derandomiser -/

/-- R281, R283: DR.APPLY XORs byte `i` of the payload region with byte `(i - DERAND_START) mod 255`
of the sequence generated from eight ones by a(n+8) = a(n) ^ a(n+3) ^ a(n+5) ^ a(n+7), its first
bit the most significant; every other byte of FRM stays. R284: performed twice, it leaves FRM, and
the whole machine, unchanged. -/
def Obligations.DerandomiserXorsPayload : Prop :=
  (∃ a : Nat → Bool, (∀ n < 8, a n = true) ∧
    (∀ n, a (n + 8) = (((a n != a (n + 3)) != a (n + 5)) != a (n + 7))) ∧
    ∀ s : State, Inv s → ∃ t, exec .drApply s = .next t ∧ t = { s with frm := t.frm } ∧
      ∀ i, if s.cfg.derandStart ≤ i ∧ i < (s.cfg.frameBits + s.cfg.padBits) / 8 then
          ∀ k < 8, ((s.frm.read i ^^^ t.frm.read i).getLsbD (7 - k) =
            a (8 * ((i - s.cfg.derandStart) % 255) + k))
        else t.frm.read i = s.frm.read i) ∧
  ∀ s : State, s.frm.wf → times .drApply 2 s = some s

/-! ## Reed-Solomon -/

/-- R296, R301, R305: RS.TODUAL and RS.TOCONV multiply every byte of CW by T and by its inverse,
and each undoes the other; nothing else changes. Model's choice (log 27): handed with RS_DUAL = 0,
or after a count of -1, they do the same. -/
def Obligations.DualBasisTransforms : Prop :=
  ∀ s : State, s.cw.wf → ∃ t u,
    exec .rsTodual s = .next t ∧ t = { s with cw := t.cw } ∧
    exec .rsToconv s = .next u ∧ u = { s with cw := u.cw } ∧
    (∀ k < 255, ∀ i < 8, (t.cw.read k).getLsbD (7 - i) = timesMatrix matrixT (s.cw.read k) i ∧
      (u.cw.read k).getLsbD (7 - i) = timesMatrix matrixTInv (s.cw.read k) i) ∧
    (∀ k, 255 ≤ k → t.cw.read k = s.cw.read k ∧ u.cw.read k = s.cw.read k) ∧
    exec .rsToconv t = .next s ∧ exec .rsTodual u = .next s

/-- R295, R300, R306: RS.DEINT gathers byte `k` of interleave `j` from FRM into CW, RS.REINT
scatters CW back to the same places and touches no other byte, and a gather followed by a scatter
leaves FRM as it was. Model's choice (log 27): RS.REINT handed after a count of -1 does the same. -/
def Obligations.InterleaveGatherScatter : Prop :=
  ∀ s : State, s.frm.wf → s.cw.wf →
    let j := s.env.args.lane.toNat
    j < s.cfg.rsDepth → laneIndex s.cfg j 254 < (s.cfg.frameBits + s.cfg.padBits) / 8 →
    ∃ t u, exec .rsDeint s = .next t ∧ t = { s with cw := t.cw } ∧
      (∀ k < 255, t.cw.read k = s.frm.read (laneIndex s.cfg j k)) ∧
      (∀ k, 255 ≤ k → t.cw.read k = s.cw.read k) ∧
      exec .rsReint s = .next u ∧ u = { s with frm := u.frm } ∧
      (∀ k < 255, u.frm.read (laneIndex s.cfg j k) = s.cw.read k) ∧
      (∀ a, (∀ k < 255, a ≠ laneIndex s.cfg j k) → u.frm.read a = s.frm.read a) ∧
      exec .rsReint t = .next t

/-- R302: RS.SYND returns the NROOTS values at which Horner's rule ends at the code roots, and
changes no register. For RS_TYPE 0 and 3, which have no code, it completes with free parameters
(log 14). -/
def Obligations.SyndromesByHorner : Prop :=
  ∀ s : State,
    (s.cfg.rsType = 1#2 ∨ s.cfg.rsType = 2#2 →
      ∃ l, exec .rsSynd s = .next (answered s (.syndromes l)) ∧ l.length = roots s.cfg.rsType ∧
        ∀ i < roots s.cfg.rsType, ∀ y,
          hornerRun s.cw (beta (firstRoot s.cfg.rsType + i)) y → l[i]? = some (y 255)) ∧
    ∃ l, exec .rsSynd s = .next (answered s (.syndromes l))

/-- Soundness of RS.DEC (half of R303): it either returns -1 and leaves CW as received, or makes CW
a codeword and returns the number of byte positions changed, at most t, which is 0 only where CW
was a codeword already. From a codeword with any one byte changed it returns 1 and the codeword
(R310). For RS_TYPE 0 and 3 it completes too, the parameters of the code being free (log 14). -/
def Obligations.RsDecodeSound : Prop :=
  (∀ s : State, s.cw.wf → s.cfg.rsType = 1#2 ∨ s.cfg.rsType = 2#2 →
    ∃ t n, exec .rsDec s = .next (answered t (.count n)) ∧ t = { s with cw := t.cw } ∧
      (n = -1 ∧ t.cw = s.cw ∨
        0 ≤ n ∧ n ≤ roots s.cfg.rsType / 2 ∧ n = changed s.cw t.cw ∧
          isCode s.cfg.rsType t.cw ∧ ∀ a, 255 ≤ a → t.cw.read a = s.cw.read a) ∧
      (isCode s.cfg.rsType s.cw ↔ n = 0)) ∧
  (∀ (s : State) (e : Byte) (k : Nat), s.cw.wf → k < 255 → e ≠ 0 →
    s.cfg.rsType = 1#2 ∨ s.cfg.rsType = 2#2 → isCode s.cfg.rsType s.cw →
    exec .rsDec { s with cw := s.cw.write k (s.cw.read k ^^^ e) } = .next (answered s (.count 1))) ∧
  ∀ s : State, ∃ m n, exec .rsDec s = .next (answered { s with cw := m } (.count n))

/-- The other half of R303 (R293, R304, R310): RS.DEC decodes up to the bound. From any word that
differs from a codeword in `d` byte positions, `d` at most t (16 for RS_TYPE 1, 8 for RS_TYPE 2), it
restores the codeword and returns `d`. -/
def Obligations.RsDecodeRepairsErrors : Prop :=
  ∀ (s : State) (received : Memory 8), s.cw.wf → received.wf →
    s.cfg.rsType = 1#2 ∨ s.cfg.rsType = 2#2 → isCode s.cfg.rsType s.cw →
    changed s.cw received ≤ roots s.cfg.rsType / 2 →
    (∀ a, 255 ≤ a → received.read a = s.cw.read a) →
    exec .rsDec { s with cw := received } = .next (answered s (.count (changed s.cw received)))

/-- R307 on a legal configuration: each interleave is decoded by itself, as RS.DEINT, RS.TOCONV,
RS.DEC, RS.TODUAL and RS.REINT would; an uncorrectable one keeps its bytes and counts -1; counts
past RS_DEPTH are 0; bytes of FRM outside the interleaves stay. -/
def Obligations.RsFrameDecodesEachLane : Prop :=
  ∀ s : State, configError s.cfg = none → s.cfg.rsType ≠ 0#2 → s.frm.wf → s.cw.wf →
    ∃ t, exec .rsFrame s = .next t ∧
      t = { s with frm := t.frm, cw := t.cw, hRs := t.hRs } ∧
      (∀ j (h : j < 8), s.cfg.rsDepth ≤ j → t.hRs[j] = 0) ∧
      (∀ j (h : j < 8), j < s.cfg.rsDepth →
        ∃ a b n, exec .rsDeint (withArgs s fun g => { g with lane := BitVec.ofNat 3 j }) = .next a ∧
          (if s.cfg.rsDual then exec .rsToconv a = .next b else b = a) ∧
          (∃ c, exec .rsDec b = .next (answered c (.count n)) ∧
            (n < 0 → ∀ k < 255, t.frm.read (laneIndex s.cfg j k) =
              s.frm.read (laneIndex s.cfg j k)) ∧
            (0 ≤ n → ∃ d, (if s.cfg.rsDual then exec .rsTodual c = .next d else d = c) ∧
              ∀ k < 255, t.frm.read (laneIndex s.cfg j k) = d.cw.read k)) ∧
          t.hRs[j] = BitVec.ofInt 8 n) ∧
      ∀ i, (∀ j k, j < s.cfg.rsDepth → k < 255 → i ≠ laneIndex s.cfg j k) →
        t.frm.read i = s.frm.read i

/-! ## Controller -/

/-- R383, R384, R386: CTL.CHECK raises the first fault in the order of the codes, which records
code and info, moves to S_ERROR and changes nothing else; a configuration with no fault goes to
S_TOP. -/
def Obligations.ConfigCheckFirstFault : Prop :=
  ∀ s : State, exec .ctlCheck s =
    match firstFault s.cfg with
    | none => .next { s with ctl := { s.ctl with seq := .top } }
    | some e => .next { s with ctl := { s.ctl with
        errCode := BitVec.ofNat 8 e.2.1, errInfo := BitVec.ofNat 8 e.2.2, seq := .error } }

/-- R337: one entry of IN. The token sets `eos_seen` and ends the batch; a symbol is clamped,
stored at SYM[sym_n] and counted, and the BATCH-th ends the batch; with IN empty the core waits. -/
def Obligations.ReadOneEntry : Prop :=
  ∀ s : State,
    (s.inq = [] → exec .ctlRead s = .next s) ∧
    (∀ e r, s.inq = e :: r → e.getLsbD 8 = true → exec .ctlRead s = .next
      { s with inq := r, ctl := { s.ctl with eosSeen := true, seq := .corr } }) ∧
    (∀ e r, s.inq = e :: r → e.getLsbD 8 = false → s.sym.wf →
      s.ctl.symN.toNat < s.cfg.batchLen →
      ∃ t, exec .ctlRead s = .next t ∧
        t = { s with inq := r, sym := t.sym, ctl := { s.ctl with
          symN := s.ctl.symN + 1
          seq := if s.ctl.symN.toNat + 1 = s.cfg.batchLen then .corr else s.ctl.seq } } ∧
        (t.sym.read s.ctl.symN.toNat).toInt = max (-127) (e.extractLsb' 0 8).toInt ∧
        ∀ a, a ≠ s.ctl.symN.toNat → t.sym.read a = s.sym.read a)

/-- R338: the correlator step: only where a search is pending are CORR.SEARCH and CORR.APPLY
performed, after `acq_pending` is cleared; then S_DATA, or S_RESYNC after an empty batch. In a run
a pending search is ready (R150, R337, R381). -/
def Obligations.CorrelatorStep : Prop :=
  ∀ s : State,
    let q := if s.ctl.symN = 0 then Seq.resync else Seq.data
    (s.ctl.acqPending = false →
      exec .ctlCorr s = .next { s with ctl := { s.ctl with seq := q } }) ∧
    (s.ctl.acqPending = true → SearchReady s →
      let p := { s with ctl := { s.ctl with acqPending := false } }
      ∃ hit u, exec .corrSearch p = .next (answered p (.search hit)) ∧
        (match hit with
          | none => u = p
          | some h => exec .corrApply (withArgs p fun g =>
              { g with found := true, ph := h.ph, off := h.off }) = .next u) ∧
        exec .ctlCorr s =
          .next { u with env := s.env, ctl := { u.ctl with seq := q } }) ∧
    (RunInv s → s.ctl.seq = .corr → s.ctl.acqPending = true → SearchReady s)

/-- R340: while `skip` is not 0 a symbol of the batch is discarded: `skip` and `sym_i` move by one,
and the last symbol ends the batch; nothing else changes. In a run a data step completes whatever
the constellation, the rate and the symbol and advances `sym_i`, whatever OUT holds, unless it
would emit into a full OUT: then it is not enabled and changes nothing (R98, R334, R339). -/
def Obligations.DataStepTakesOneSymbol : Prop :=
  (∀ s : State, s.ph.skip ≠ 0 → s.ctl.symI.toNat < s.cfg.batchLen →
    exec .ctlData s = .next
      { s with
        ph := { s.ph with skip := s.ph.skip - 1 }
        ctl := { s.ctl with
          symI := s.ctl.symI + 1
          seq := if s.ctl.symI + 1 = s.ctl.symN then .resync else s.ctl.seq } }) ∧
  ∀ s : State, RunInv s → s.ctl.seq = .data →
    ∃ t, exec .ctlData (emptyOut s) = .next t ∧ t.ctl.symI = s.ctl.symI + 1 ∧
      behindOut s t (exec .ctlData s)

/-- R339: with `skip` 0 a data step is PH.PUSH, DP.PUSH for each symbol it returns, CC.INV and
VIT.STEP for each pair that returns and CTL.BIT for each bit decoded, as separate operations would
do them after `sym_i` has moved on; then the last symbol of the batch ends it. For both
constellations, every rate, either half of a channel symbol and of a pair, and whatever waits in
OUT while there is room. -/
def Obligations.DataStepRunsDatapath : Prop :=
  ∀ s : State, RunInv s → s.ctl.seq = .data → s.ph.skip = 0 → roomInOut s →
    ∃ u, batchSymbolThrough { s with ctl := { s.ctl with symI := s.ctl.symI + 1 } }
        (s.sym.read s.ctl.symI.toNat) = some u ∧
      exec .ctlData s = .next { u with env := s.env, ctl := { u.ctl with
        seq := if u.ctl.symI = u.ctl.symN then .resync else u.ctl.seq } }

/-- R341: DIFF.DEC where NRZM is set, DF.PUSH, the count of bits since SYNCED, and CTL.FRAME where
the bit completes a frame, on a legal configuration; a bit whose frame would be emitted into a full
OUT waits, changing nothing, and every other bit is routed whatever OUT holds (R98, R334). -/
def Obligations.BitRouted : Prop :=
  ∀ s : State, FramerReady s →
    ∃ p b u f, (if s.cfg.nrzm then exec .diffDec s = .next (answered { s with ph := p } (.bit b))
        else p = s.ph ∧ b = s.env.args.bit) ∧
      exec .dfPush (withArgs { s with ph := p } (latchBit b)) =
        .next (answered (withArgs u (latchBit b)) (.frame f)) ∧
      u = { s with ph := p, df := u.df, frm := u.frm } ∧
      let w := { u with ctl := { s.ctl with
        unsyncBits := BitVec.ofNat 32 (if u.df.dfState = .synced then 0
          else min (s.ctl.unsyncBits.toNat + 1) (2 ^ 32 - 1)) } }
      (f = none → exec .ctlBit s = .next w) ∧
      (f ≠ none → ∃ t, exec .ctlFrame (emptyOut w) = .next t ∧ behindOut s t (exec .ctlBit s))

/-- R342: CTL.FRAME on a legal configuration: DR.APPLY in mode 1, RS.FRAME or all counts 0,
DR.APPLY in mode 2, then CTL.EMIT where CTL.ACCEPT gives 1; with OUT full an accepted frame waits
before all of this, changing nothing (R98, R334). -/
def Obligations.FrameProcessed : Prop :=
  ∀ s : State, configError s.cfg = none →
    ∃ a b c r, (if s.cfg.derandMode = 1 then exec .drApply s = .next a else a = s) ∧
      (if s.cfg.rsType = 0#2 then b = { a with hRs := Vector.replicate 8 0 }
        else exec .rsFrame a = .next b) ∧
      (if s.cfg.derandMode = 2 then exec .drApply b = .next c else c = b) ∧
      exec .ctlAccept c = .next (answered c (.accept r)) ∧
      (r = false → exec .ctlFrame s = .next c) ∧
      (r = true → roomInOut s → ∃ t, exec .ctlEmit c = .next t ∧ exec .ctlFrame s = .next t) ∧
      (r = true → ¬ roomInOut s → exec .ctlFrame s = .next s)

/-- R343: CTL.ACCEPT by the accept policy, wherever the counts it reads exist (log 24: RS_DEPTH
above 8 with RS on, which CTL.CHECK refuses, reads free values). R344, R85, R98: CTL.EMIT appends
the FRAME_BYTES bytes of FRM to OUT as one entry; while OUT is full it waits and nothing changes.
-/
def Obligations.AcceptAndEmit : Prop :=
  (∀ s : State, ∃ r, exec .ctlAccept s = .next (answered s (.accept r)) ∧
    (s.cfg.rsDepth ≤ 8 ∨ s.cfg.rsType = 0#2 ∨ s.cfg.acceptAll = true →
      (r = true ↔ s.cfg.acceptAll = true ∨ s.cfg.rsType = 0#2 ∨
        ∀ j (h : j < 8), j < s.cfg.rsDepth → 0 ≤ s.hRs[j].toInt))) ∧
  ∀ s : State,
    (roomInOut s →
      exec .ctlEmit s = .next { s with outq := s.outq ++ [frameBytesOf s.cfg s.frm] }) ∧
    (¬ roomInOut s → exec .ctlEmit s = .next s)

/-- R336: the top of a cycle. R346: one resynchronisation attempt. R345: the end-of-cycle test:
CTL.RESYNC where RESYNC_N is not 0 and that many frame lengths have passed without SYNCED; then the
flush after the end of the stream, else the publish. -/
def Obligations.CycleTopAndEnd : Prop :=
  (∀ s : State,
    (s.ctl.cancelReq = true → exec .ctlTop s =
      .next { s with ctl := { s.ctl with finalRun := true, seq := .publish } }) ∧
    (s.ctl.cancelReq = false → exec .ctlTop s =
      .next { s with ctl := { s.ctl with symN := 0, symI := 0, seq := .read } })) ∧
  (∀ s : State,
    (s.cfg.useCorr = true → exec .ctlResync s =
      .next { s with ctl := { s.ctl with acqPending := true, unsyncBits := 0 } }) ∧
    (s.cfg.useCorr = false → ∃ u, exec .phNext s = .next u ∧
      exec .ctlResync s = exec .ctlClear u ∧ ∃ t, exec .ctlResync s = .next t)) ∧
  ∀ s : State, ∃ u,
    (if s.cfg.resyncN ≠ 0 ∧ s.cfg.resyncN * s.cfg.frameBits ≤ s.ctl.unsyncBits.toNat then
      exec .ctlResync s = .next u else u = s) ∧
    exec .ctlRschk s = .next (if s.ctl.eosSeen then
      { u with ctl := { u.ctl with flI := 0, seq := .flush } }
      else { u with ctl := { u.ctl with seq := .publish } })

/-- R347, R73, R76, R77, R349: CTL.PUBLISH writes the six health registers from the registers they
report, then halts after the last pass or goes on with the next cycle; CTL.HALT enters S_DONE. -/
def Obligations.PublishWritesRecord : Prop :=
  ∀ s : State, ∃ h : Health,
    exec .ctlPublish s = .next
      { s with health := h, ctl := { s.ctl with seq := if s.ctl.finalRun then .done else .top } } ∧
    h.hSeq = s.health.hSeq + 1 ∧
    h.hState.toNat = (match s.df.dfState with | .searching => 0 | .checking => 1 | .synced => 2) +
      16 * s.vit.vitLock.toNat + 256 * s.ph.hyp.toNat + 4096 * s.ctl.eosSeen.toNat ∧
    h.hBerErrs.toNat = s.vit.berErrsL.toNat ∧ h.hBerTotal.toNat = s.vit.berTotalL.toNat ∧
    (∀ j (hj : j < 4), h.hRsLo.extractLsb' (8 * j) 8 = s.hRs[j] ∧
      h.hRsHi.extractLsb' (8 * j) 8 = s.hRs[4 + j]) ∧
    exec .ctlHalt s = .next { s with ctl := { s.ctl with seq := .done } }

/-- R348: one flush bit is routed as CTL.BIT would and counted, or, when all are routed, the last
publish is next; in a run the step completes, and only a bit whose frame would be emitted into a
full OUT waits, changing nothing (R98, R334). -/
def Obligations.FlushStepRoutesBit : Prop :=
  ∀ s : State, RunInv s → s.ctl.seq = .flush →
    ∃ l, exec .vitFlush s = .next (answered s (.bits l)) ∧
      (∀ b, l[s.ctl.flI.toNat]? = some b →
        ∃ u, exec .ctlBit (withArgs (emptyOut s) (latchBit b)) = .next u ∧
          behindOut s { u with env := s.env, ctl := { u.ctl with flI := s.ctl.flI + 1 } }
            (exec .ctlFlush s)) ∧
      (l.length ≤ s.ctl.flI.toNat → exec .ctlFlush s =
        .next { s with ctl := { s.ctl with finalRun := true, seq := .publish } })

/-- R14, the model's choice (log 7): an index outside the space its rule names "cannot occur and
needs no meaning", so VIT.ACS, VIT.BER, VIT.STEP, VIT.FLUSH, DF.PUSH, CTL.READ, CTL.DATA,
CORR.SCORE, CORR.SEARCH, CTL.CORR, RS.DEINT, RS.REINT, RS.FRAME and DP.PUSH, handed where they
would make one, stop with the fault that names the space. -/
def Obligations.IndexOutsideSpaceStops : Prop :=
  ∀ s : State,
    let frameBytes := (s.cfg.frameBits + s.cfg.padBits) / 8
    let length := s.cfg.patLen s.env.args.pat.toNat
    (s.cfg.tbd ≤ s.vit.histWp.toNat →
      exec .vitAcs s = .fault (.outOfBounds .hist) ∧ exec .vitBer s = .fault (.outOfBounds .dly) ∧
      exec .vitStep s = .fault (.outOfBounds .hist)) ∧
    (s.cfg.tbd = 0 → 2 ≤ s.vit.vitN.toNat → exec .vitFlush s = .fault (.outOfBounds .hist)) ∧
    (s.df.dfState = .searching → matching s.cfg (shifted s.df s.env.args.bit) →
      (64 < s.cfg.asmLen → exec .dfPush s = .fault (.outOfBounds .dfSr)) ∧
      (s.cfg.asmLen ≤ 64 → 8 * frameBytes < s.cfg.asmLen →
        exec .dfPush s = .fault (.outOfBounds .frm))) ∧
    (s.df.dfState ≠ .searching → 8 * frameBytes ≤ s.df.dfCnt.toNat →
      exec .dfPush s = .fault (.outOfBounds .frm)) ∧
    (s.df.dfState = .synced → (s.df.dfCnt + 1).toNat = s.cfg.frameBits →
      s.cfg.asmLen ≠ s.cfg.frameBits → 8 * frameBytes < s.cfg.frameBits + s.cfg.padBits →
      exec .dfPush s = .fault (.outOfBounds .frm)) ∧
    (∀ e r, s.inq = e :: r → e.getLsbD 8 = false → s.cfg.batchLen ≤ s.ctl.symN.toNat →
      exec .ctlRead s = .fault (.outOfBounds .sym)) ∧
    (s.cfg.batchLen ≤ s.ctl.symI.toNat → exec .ctlData s = .fault (.outOfBounds .sym)) ∧
    (windowLength s < s.env.args.off.toNat + length ∨ s.cfg.batchLen < windowLength s →
      exec .corrScore s = .fault (.outOfBounds .sym)) ∧
    (s.env.args.off.toNat + length ≤ windowLength s → windowLength s ≤ s.cfg.batchLen →
      64 < length → exec .corrScore s = .fault (.outOfBounds .pattern)) ∧
    (s.cfg.batchLen < windowLength s → exec .corrSearch s = .fault (.outOfBounds .sym)) ∧
    (0 < windowLength s → windowLength s ≤ s.cfg.batchLen →
      (8 < s.cfg.npat ∨
        ∃ j < s.cfg.npat, 64 < s.cfg.patLen j ∧ s.cfg.patLen j ≤ windowLength s) →
      exec .corrSearch s = .fault (.outOfBounds .pattern)) ∧
    (∀ f, s.ctl.acqPending = true → exec .corrSearch s = .fault f → exec .ctlCorr s = .fault f) ∧
    (frameBytes ≤ laneIndex s.cfg s.env.args.lane.toNat 254 →
      exec .rsDeint s = .fault (.outOfBounds .frm) ∧
      exec .rsReint s = .fault (.outOfBounds .frm)) ∧
    (0 < s.cfg.rsDepth → frameBytes ≤ laneIndex s.cfg (min (s.cfg.rsDepth - 1) 8) 254 →
      exec .rsFrame s = .fault (.outOfBounds .frm)) ∧
    (8 < s.cfg.rsDepth → laneIndex s.cfg 8 254 < frameBytes →
      exec .rsFrame s = .fault (.outOfBounds .hrs)) ∧
    (5 ≤ s.cfg.rate ∨ s.dp.dpI = false ∧ period s.cfg.rate ≤ s.dp.dpK.toNat →
      exec .dpPush s = .fault (.outOfBounds .punc))
end

