-- ==== Sys2Proof/Laws/Memory.lean ====
section
/-! SUPPORT. The laws of an internal buffer: what a read gives after a write, and that every
operation keeps the canonical form. -/

namespace Sys2Proof.Machine

variable {w : Nat}

/-! ## Reads after writes -/

theorem Memory.read_nil (a : Nat) : Memory.read ([] : Memory w) a = Memory.unwritten w := rfl

/-- An index that is not listed reads as unwritten. -/
theorem Memory.read_of_ne (m : Memory w) (a : Nat) (h : ∀ p ∈ m, p.1 ≠ a) :
    m.read a = Memory.unwritten w := by
  induction m with
  | nil => rfl
  | cons p r ih =>
    obtain ⟨k, u⟩ := p
    have hk : k ≠ a := h (k, u) (by simp)
    simp only [Memory.read, hk, if_false]
    exact ih fun q hq => h q (by simp [hq])

/-- An index below every listed one reads as unwritten. -/
theorem Memory.read_of_lt (m : Memory w) (a : Nat) (h : ∀ p ∈ m, a < p.1) :
    m.read a = Memory.unwritten w :=
  m.read_of_ne a fun p hp => Nat.ne_of_gt (h p hp)

/-- A read at the index just written gives the value written. -/
theorem Memory.read_write_same (m : Memory w) (a : Nat) (v : BitVec w) (hm : m.wf) :
    (m.write a v).read a = v := by
  obtain ⟨hs, hn⟩ := hm
  induction m with
  | nil =>
    simp only [Memory.write]
    split
    · next h => rw [h]; rfl
    · simp [Memory.read]
  | cons p r ih =>
    obtain ⟨k, u⟩ := p
    rw [List.pairwise_cons] at hs
    have hr : ∀ q ∈ r, k < q.1 := fun q hq => hs.1 q hq
    simp only [Memory.write]
    split
    · next hak =>
      split
      · next h =>
        rw [h]
        refine Memory.read_of_lt _ _ fun q hq => ?_
        rcases List.mem_cons.1 hq with rfl | hq
        · exact hak
        · exact lt_trans hak (hr q hq)
      · simp [Memory.read]
    · split
      · next hak hk =>
        subst hk
        split
        · next h => rw [h]; exact Memory.read_of_lt _ _ hr
        · simp [Memory.read]
      · next hak hk =>
        have : k ≠ a := fun h => hk h.symm
        simp only [Memory.read, this, if_false]
        exact ih hs.2 fun q hq => hn q (by simp [hq])

/-- A read elsewhere is not changed by a write. -/
theorem Memory.read_write_ne (m : Memory w) (a b : Nat) (v : BitVec w) (h : b ≠ a) :
    (m.write a v).read b = m.read b := by
  induction m with
  | nil =>
    simp only [Memory.write]
    split
    · rfl
    · simp [Memory.read, h.symm]
  | cons p r ih =>
    obtain ⟨k, u⟩ := p
    simp only [Memory.write]
    split
    · split
      · rfl
      · simp [Memory.read, h.symm]
    · split
      · next hk =>
        subst hk
        split <;> simp [Memory.read, h.symm]
      · simp only [Memory.read]
        split
        · rfl
        · exact ih

/-- What any index reads as after a write. -/
theorem Memory.read_write (m : Memory w) (a b : Nat) (v : BitVec w) (hm : m.wf) :
    (m.write a v).read b = if b = a then v else m.read b := by
  split
  · next h => subst h; exact m.read_write_same b v hm
  · next h => exact m.read_write_ne a b v h

/-! ## The canonical form -/

theorem Memory.wf_nil : Memory.wf ([] : Memory w) := ⟨List.Pairwise.nil, by simp⟩

/-- Every entry of a written memory is an old one or the one written. -/
theorem Memory.mem_write (m : Memory w) (a : Nat) (v : BitVec w) (p : Nat × BitVec w)
    (h : p ∈ m.write a v) : p ∈ m ∨ (p = (a, v) ∧ v ≠ Memory.unwritten w) := by
  induction m with
  | nil =>
    simp only [Memory.write] at h
    split at h
    · simp at h
    · next hv => exact .inr ⟨by simpa using h, hv⟩
  | cons q r ih =>
    obtain ⟨k, u⟩ := q
    simp only [Memory.write] at h
    split at h
    · split at h
      · exact .inl h
      · next hv =>
        rcases List.mem_cons.1 h with h | h
        · exact .inr ⟨h, hv⟩
        · exact .inl h
    · split at h
      · split at h
        · exact .inl (by simp [h])
        · next hv =>
          rcases List.mem_cons.1 h with h | h
          · exact .inr ⟨h, hv⟩
          · exact .inl (by simp [h])
      · rcases List.mem_cons.1 h with h | h
        · exact .inl (by simp [h])
        · rcases ih h with h | h
          · exact .inl (by simp [h])
          · exact .inr h

/-- A write keeps the canonical form. -/
theorem Memory.wf_write (m : Memory w) (a : Nat) (v : BitVec w) (hm : m.wf) :
    (m.write a v).wf := by
  refine ⟨?_, fun p hp => ?_⟩
  · obtain ⟨hs, hn⟩ := hm
    induction m with
    | nil =>
      simp only [Memory.write]
      split <;> simp
    | cons q r ih =>
      obtain ⟨k, u⟩ := q
      have hs' := hs
      rw [List.pairwise_cons] at hs'
      simp only [Memory.write]
      split
      · next hak =>
        split
        · exact hs
        · refine List.pairwise_cons.2 ⟨fun p hp => ?_, hs⟩
          rcases List.mem_cons.1 hp with rfl | hp
          · exact hak
          · exact lt_trans hak (hs'.1 p hp)
      · split
        · next hk =>
          subst hk
          split
          · exact hs'.2
          · exact List.pairwise_cons.2 ⟨fun p hp => hs'.1 p hp, hs'.2⟩
        · next hak hk =>
          refine List.pairwise_cons.2 ⟨fun p hp => ?_, ih hs'.2 fun p hp => hn p (by simp [hp])⟩
          rcases Memory.mem_write r a v p hp with hp | ⟨rfl, -⟩
          · exact hs'.1 p hp
          · show k < a
            omega
  · rcases Memory.mem_write m a v p hp with h | ⟨rfl, hv⟩
    · exact hm.2 p h
    · exact hv

theorem Memory.wf_storeStride (l : List (BitVec w)) (m : Memory w) (base step : Nat)
    (hm : m.wf) : (m.storeStride base step l).wf := by
  induction l generalizing m base with
  | nil => exact hm
  | cons v r ih => exact ih _ _ (m.wf_write base v hm)

/-! ## Strided stores -/

/-- A strided store leaves every index it does not name alone. -/
theorem Memory.read_storeStride_ne (l : List (BitVec w)) (m : Memory w) (base step b : Nat)
    (h : ∀ k < l.length, b ≠ base + step * k) : (m.storeStride base step l).read b = m.read b := by
  induction l generalizing m base with
  | nil => rfl
  | cons v r ih =>
    rw [Memory.storeStride, ih, Memory.read_write_ne]
    · simpa using h 0 (by simp)
    · intro k hk
      have := h (k + 1) (by simpa using hk)
      rw [Nat.mul_add] at this
      omega

/-- A strided store with a positive stride puts its values at the indices it names. -/
theorem Memory.read_storeStride (l : List (BitVec w)) (m : Memory w) (base step k : Nat)
    (hm : m.wf) (hs : 0 < step) (hk : k < l.length) :
    (m.storeStride base step l).read (base + step * k) = l[k] := by
  induction l generalizing m base k with
  | nil => simp at hk
  | cons v r ih =>
    cases k with
    | zero =>
      rw [Memory.storeStride, Memory.read_storeStride_ne]
      · simpa using m.read_write_same base v hm
      · intro k _
        have := Nat.le_mul_of_pos_left k hs
        simp only [Nat.mul_zero]
        omega
    | succ k =>
      rw [Memory.storeStride]
      have := ih (m.write base v) (base + step) k (m.wf_write base v hm) (by simpa using hk)
      rw [Nat.mul_add, ← Nat.add_assoc, Nat.add_right_comm]
      simpa using this

theorem Memory.length_firstN (m : Memory w) (n : Nat) : (m.firstN n).length = n := by
  simp [Memory.firstN]

/-! ## CW as a list of 255 bytes -/

theorem length_codeword (cw : Memory 8) : (codeword cw).length = 255 := Memory.length_firstN _ _

/-- The codeword buffer after a 255-byte word is put into it is that word. -/
theorem codeword_setCodeword (cw : Memory 8) (l : List Byte) (hc : cw.wf) (hl : l.length = 255) :
    codeword (setCodeword cw l) = l := by
  apply List.ext_getElem
  · rw [length_codeword, hl]
  · intro i h1 h2
    have := Memory.read_storeStride l cw 0 1 i hc (by omega) h2
    simp only [codeword, Memory.firstN, List.getElem_map, List.getElem_range, setCodeword]
    simpa using this

theorem wf_setCodeword (cw : Memory 8) (l : List Byte) (h : cw.wf) : (setCodeword cw l).wf :=
  Memory.wf_storeStride l cw 0 1 h

/-! ## The frame buffer -/

theorem wf_storeBit {c : Cfg} {frm f : Memory 8} {k : Nat} {b : Bool} (hm : frm.wf)
    (h : storeBit c frm k b = .ok f) : f.wf := by
  unfold storeBit within at h
  split at h
  · cases h; exact Memory.wf_write _ _ _ hm
  · cases h

theorem wf_derandFrom (start : Nat) (frm : Memory 8) (i n : Nat) (h : frm.wf) :
    (derandFrom start frm i n).wf := by
  induction n generalizing frm i with
  | zero => exact h
  | succ n ih => exact ih _ _ (Memory.wf_write _ _ _ h)

theorem wf_derandomise (c : Cfg) (frm : Memory 8) (h : frm.wf) : (derandomise c frm).wf :=
  wf_derandFrom _ _ _ _ h

end Sys2Proof.Machine
end

