-- ==== Sys2Proof/Laws/Ops.lean ====
section
/-! SUPPORT. For each shared operation, what it can do when it answers: the bind of a computation
that may fault, the two outcomes, the trellis, the deframer, the Reed-Solomon lanes and the
routing of bits, pairs and symbols. -/

namespace Sys2Proof.Machine

/-! ## Computations that may fault -/

theorem ok_bind {α β : Type} (a : α) (f : α → Except Fault β) :
    ((Except.ok a : Except Fault α) >>= f) = f a := rfl

theorem error_bind {α β : Type} (e : Fault) (f : α → Except Fault β) :
    ((Except.error e : Except Fault α) >>= f) = .error e := rfl

theorem ok_map {α β : Type} (a : α) (f : α → β) :
    Except.map f (Except.ok a : Except Fault α) = .ok (f a) := rfl

/-- A sequence answers when its first part does and the rest does from there. -/
theorem bind_ok_iff {α β : Type} (x : Except Fault α) (f : α → Except Fault β) (r : β) :
    (x >>= f) = .ok r ↔ ∃ a, x = .ok a ∧ f a = .ok r := by
  cases x with
  | error e => constructor
               · intro h; cases h
               · rintro ⟨a, h, -⟩; cases h
  | ok a => constructor
            · intro h; exact ⟨a, rfl, h⟩
            · rintro ⟨b, h, hb⟩; cases h; exact hb

theorem map_ok_iff {α β : Type} (x : Except Fault α) (f : α → β) (r : β) :
    Except.map f x = .ok r ↔ ∃ a, x = .ok a ∧ f a = r := by
  cases x with
  | error e => constructor
               · intro h; cases h
               · rintro ⟨a, h, -⟩; cases h
  | ok a => constructor
            · intro h; cases h; exact ⟨a, rfl, rfl⟩
            · rintro ⟨b, h, hb⟩; cases h; rw [ok_map, hb]

theorem within_ok {sp : SpaceName} {n i : Nat} (h : i < n) : within sp n i = .ok () := by
  simp [within, h]

theorem within_ok_iff {sp : SpaceName} {n i : Nat} (u : Unit) :
    within sp n i = .ok u ↔ i < n := by
  unfold within
  split
  · next h => simp [h]
  · next h => simp [h]

theorem within_error {sp : SpaceName} {n i : Nat} (h : ¬ i < n) :
    within sp n i = .error (.outOfBounds sp) := by
  simp [within, h]

/-! ## The two outcomes -/

/-- A settled computation answers a next state exactly when it answers. -/
theorem settle_next_iff (r : Except Fault State) (t : State) :
    settle r = .next t ↔ r = .ok t := by
  cases r <;> simp [settle]

/-- An operation that may emit waits, or its computation answers. -/
theorem settleEmit_next_iff (s : State) (r : Except Fault State) (t : State) :
    settleEmit s r = .next t ↔
      ∃ u, r = .ok u ∧
        ((u.outq.length ≠ s.outq.length ∧ outFull s = true ∧ t = s) ∨
          (¬(u.outq.length ≠ s.outq.length ∧ outFull s = true) ∧ t = u)) := by
  cases r with
  | error e => simp [settleEmit]
  | ok u =>
    simp only [settleEmit, Except.ok.injEq, exists_eq_left']
    split
    · next h =>
      simp only [Host.Outcome.next.injEq]
      constructor
      · rintro rfl; exact .inl ⟨h.1, h.2, rfl⟩
      · rintro (⟨-, -, rfl⟩ | ⟨h', -⟩)
        · rfl
        · exact absurd h h'
    · next h =>
      simp only [Host.Outcome.next.injEq]
      constructor
      · rintro rfl; exact .inr ⟨h, rfl⟩
      · rintro (⟨h1, h2, -⟩ | ⟨-, rfl⟩)
        · exact absurd ⟨h1, h2⟩ h
        · rfl

/-! ## Add-compare-select -/

theorem mem_trellisStates (t : BitVec 6) : t ∈ trellisStates := by
  refine List.mem_map.2 ⟨t.toNat, List.mem_range.2 t.isLt, ?_⟩
  simp

theorem foldl_min_le (f : BitVec 6 → Nat) (l : List (BitVec 6)) (a : Nat) :
    l.foldl (fun a t => min a (f t)) a ≤ a ∧
      ∀ t ∈ l, l.foldl (fun a t => min a (f t)) a ≤ f t := by
  induction l generalizing a with
  | nil => simp
  | cons x r ih =>
    obtain ⟨h1, h2⟩ := ih (min a (f x))
    simp only [List.foldl_cons, List.mem_cons]
    refine ⟨le_trans h1 (min_le_left _ _), ?_⟩
    rintro t (rfl | ht)
    · exact le_trans h1 (min_le_right _ _)
    · exact h2 t ht

theorem foldl_min_mem (f : BitVec 6 → Nat) (l : List (BitVec 6)) (a : Nat) :
    l.foldl (fun a t => min a (f t)) a = a ∨
      ∃ t ∈ l, l.foldl (fun a t => min a (f t)) a = f t := by
  induction l generalizing a with
  | nil => exact .inl rfl
  | cons x r ih =>
    simp only [List.foldl_cons, List.mem_cons]
    rcases ih (min a (f x)) with h | ⟨t, ht, h⟩
    · rw [h]
      rcases min_choice a (f x) with h' | h'
      · exact .inl h'
      · exact .inr ⟨x, .inl rfl, h'⟩
    · exact .inr ⟨t, .inr ht, h⟩

/-- `minOver` is a lower bound. -/
theorem minOver_le (f : BitVec 6 → Nat) (t : BitVec 6) : minOver f ≤ f t :=
  (foldl_min_le f trellisStates (f 0#6)).2 t (mem_trellisStates t)

/-- `minOver` is attained. -/
theorem minOver_mem (f : BitVec 6 → Nat) : ∃ t, minOver f = f t := by
  rcases foldl_min_mem f trellisStates (f 0#6) with h | ⟨t, -, h⟩
  · exact ⟨0#6, h⟩
  · exact ⟨t, h⟩

/-- What an add-compare-select does where it answers (R214). -/
theorem addCompareSelect_ok {c : Cfg} {v u : Viterbi} {m : Metrics}
    (h : addCompareSelect c v m = .ok u) :
    v.histWp.toNat < c.tbd ∧
      u = { v with
        pm := Vector.ofFn fun t =>
          BitVec.ofNat 16 (newMetric v m (BitVec.ofNat 6 t.val) - minOver (newMetric v m))
        hist := v.hist.write v.histWp.toNat
          (BitVec.ofFnLE fun t : Fin 64 => decision v m (BitVec.ofNat 6 t.val)) } := by
  obtain ⟨_, h1, rfl⟩ := (map_ok_iff _ _ _).1 h
  exact ⟨(within_ok_iff _).1 h1, rfl⟩

/-- The path metrics after an add-compare-select (R214). -/
theorem metric_addCompareSelect {c : Cfg} {v u : Viterbi} {m : Metrics}
    (h : addCompareSelect c v m = .ok u) (t : BitVec 6) :
    u.metric t = (newMetric v m t - minOver (newMetric v m)) % 2 ^ 16 := by
  obtain ⟨-, rfl⟩ := addCompareSelect_ok h
  simp only [Viterbi.metric, Vector.getElem_ofFn, BitVec.toNat_ofNat, BitVec.ofNat_toNat,
    BitVec.setWidth_eq]

/-- Some path metric is 0 after an add-compare-select (R216). -/
theorem zero_addCompareSelect {c : Cfg} {v u : Viterbi} {m : Metrics}
    (h : addCompareSelect c v m = .ok u) : ∃ t, u.metric t = 0 := by
  obtain ⟨t, ht⟩ := minOver_mem (newMetric v m)
  exact ⟨t, by rw [metric_addCompareSelect h, ht]; simp⟩

theorem metric_of_pm_eq {v u : Viterbi} (h : u.pm = v.pm) : u.metric = v.metric := by
  funext t
  unfold Viterbi.metric
  simp only [h]

theorem metric_clearViterbi (v : Viterbi) (t : BitVec 6) : (clearViterbi v).metric t = 0 := by
  simp only [Viterbi.metric, clearViterbi, Vector.getElem_ofFn]
  rfl

/-! ## Error rate -/

theorem pm_lockDecision (c : Cfg) (v : Viterbi) : (lockDecision c v).pm = v.pm := by
  unfold lockDecision
  split
  · rfl
  · split
    · split <;> rfl
    · rfl
  · rfl

theorem hist_lockDecision (c : Cfg) (v : Viterbi) : (lockDecision c v).hist = v.hist := by
  unfold lockDecision
  split
  · rfl
  · split
    · split <;> rfl
    · rfl
  · rfl

theorem dly_lockDecision (c : Cfg) (v : Viterbi) : (lockDecision c v).dly = v.dly := by
  unfold lockDecision
  split
  · rfl
  · split
    · split <;> rfl
    · rfl
  · rfl

theorem histWp_lockDecision (c : Cfg) (v : Viterbi) : (lockDecision c v).histWp = v.histWp := by
  unfold lockDecision
  split
  · rfl
  · split
    · split <;> rfl
    · rfl
  · rfl

theorem vitN_lockDecision (c : Cfg) (v : Viterbi) : (lockDecision c v).vitN = v.vitN := by
  unfold lockDecision
  split
  · rfl
  · split
    · split <;> rfl
    · rfl
  · rfl

/-- Counting a symbol writes the two counts only. -/
theorem countSymbol_eq (e h s : Bool) (v : Viterbi) :
    ∃ a b, countSymbol e h s v = { v with berTotal := a, berErrs := b } := by
  unfold countSymbol
  split
  · exact ⟨v.berTotal, v.berErrs, rfl⟩
  · exact ⟨_, _, rfl⟩

/-- What a comparison with the re-encoded bit leaves alone. -/
theorem compareReencoded_keeps (c : Cfg) (v : Viterbi) (old : BitVec 4) (b : Bool) :
    (compareReencoded c v old b).pm = v.pm ∧ (compareReencoded c v old b).hist = v.hist ∧
      (compareReencoded c v old b).dly = v.dly ∧
      (compareReencoded c v old b).histWp = v.histWp ∧
      (compareReencoded c v old b).vitN = v.vitN := by
  unfold compareReencoded
  obtain ⟨a1, b1, h1⟩ := countSymbol_eq (old.getLsbD 2) (old.getLsbD 3)
    (convEncode v.reenc b).2.1 { v with reenc := (convEncode v.reenc b).1 }
  simp only [h1]
  obtain ⟨a2, b2, h2⟩ := countSymbol_eq (old.getLsbD 0) (old.getLsbD 1)
    (convEncode v.reenc b).2.2
    { v with reenc := (convEncode v.reenc b).1, berTotal := a1, berErrs := b1 }
  simp only [h2]
  split
  · refine ⟨?_, ?_, ?_, ?_, ?_⟩
    · rw [pm_lockDecision]
    · rw [hist_lockDecision]
    · rw [dly_lockDecision]
    · rw [histWp_lockDecision]
    · rw [vitN_lockDecision]
  · exact ⟨rfl, rfl, rfl, rfl, rfl⟩

/-- What VIT.BER does where it answers: the DLY entry written, path metrics, HIST, `hist_wp` and
`vit_n` as before (R226). -/
theorem errorRate_ok {c : Cfg} {v u : Viterbi} {r1 r2 : Soft} {b : Option Bool}
    (h : errorRate c v r1 r2 b = .ok u) :
    v.histWp.toNat < c.tbd ∧ u.pm = v.pm ∧ u.hist = v.hist ∧
      u.dly = v.dly.write v.histWp.toNat (delayEntry r1 r2) ∧
      u.histWp = v.histWp ∧ u.vitN = v.vitN := by
  obtain ⟨_, h1, rfl⟩ := (map_ok_iff _ _ _).1 h
  refine ⟨(within_ok_iff _).1 h1, ?_⟩
  cases b with
  | none => exact ⟨rfl, rfl, rfl, rfl, rfl⟩
  | some b => exact compareReencoded_keeps _ _ _ _

theorem errorRate_total {c : Cfg} {v : Viterbi} (h : v.histWp.toNat < c.tbd) (r1 r2 : Soft)
    (b : Option Bool) : ∃ u, errorRate c v r1 r2 b = .ok u := by
  unfold errorRate
  rw [within_ok h]
  exact ⟨_, rfl⟩

/-! ## The trellis step -/

theorem countStep_eq (c : Cfg) (v : Viterbi) : ∃ n, countStep c v = { v with vitN := n } ∧
    (v.vitN.toNat ≤ c.tbd + 1 → n.toNat ≤ c.tbd + 1) := by
  unfold countStep
  split
  · next h =>
    refine ⟨v.vitN + 1, rfl, fun _ => ?_⟩
    have := v.vitN.isLt
    rw [BitVec.toNat_add]
    show (v.vitN.toNat + 1) % 512 ≤ c.tbd + 1
    exact le_trans (Nat.mod_le _ _) (by omega)
  · exact ⟨v.vitN, rfl, id⟩

/-- What a trellis step leaves where it answers: some path metric 0, the canonical forms, the ring
pointer and the step count in their ranges (R230). -/
theorem trellisStep_ok {c : Cfg} {v : Viterbi} {r1 r2 : Soft} {r : Viterbi × Option Bool}
    (h : trellisStep c v r1 r2 = .ok r) :
    (∃ t, r.1.metric t = 0) ∧ (v.hist.wf → r.1.hist.wf) ∧ (v.dly.wf → r.1.dly.wf) ∧
      r.1.histWp.toNat < c.tbd ∧
      (v.vitN.toNat ≤ c.tbd + 1 → r.1.vitN.toNat ≤ c.tbd + 1) := by
  unfold trellisStep at h
  obtain ⟨v1, h1, h⟩ := (bind_ok_iff _ _ _).1 h
  obtain ⟨v3, h3, h⟩ := (bind_ok_iff _ _ _).1 h
  cases h
  obtain ⟨n, hn, hle⟩ := countStep_eq c v1
  rw [hn] at h3
  obtain ⟨h4, h5, h6, h7, h8, h9⟩ := errorRate_ok h3
  obtain ⟨hw, e1⟩ := addCompareSelect_ok h1
  obtain ⟨t, ht⟩ := zero_addCompareSelect h1
  have hhist : v1.hist = v.hist.write v.histWp.toNat
      (BitVec.ofFnLE fun t : Fin 64 =>
        decision v (branchMetrics r1 r2) (BitVec.ofNat 6 t.val)) := by rw [e1]
  have hdly : v1.dly = v.dly := by rw [e1]
  have hvn : v1.vitN = v.vitN := by rw [e1]
  refine ⟨⟨t, ?_⟩, fun hm => ?_, fun hm => ?_, ?_, fun hv => ?_⟩
  · rw [← ht]
    exact congrFun (metric_of_pm_eq (by simpa using h5)) t
  · simp only [h6, hhist]
    exact Memory.wf_write _ _ _ hm
  · simp only [h7, hdly]
    exact Memory.wf_write _ _ _ hm
  · simp only [BitVec.toNat_ofNat]
    exact lt_of_le_of_lt (Nat.mod_le _ _) (Nat.mod_lt _ (by omega))
  · simp only [h9]
    exact hle (by rw [hvn]; exact hv)

theorem trellisStep_total {c : Cfg} {v : Viterbi} (h : v.histWp.toNat < c.tbd) (r1 r2 : Soft) :
    ∃ r, trellisStep c v r1 r2 = .ok r := by
  unfold trellisStep addCompareSelect
  rw [within_ok h]
  simp only [ok_map, ok_bind]
  obtain ⟨n, hn, -⟩ := countStep_eq c { v with
    pm := Vector.ofFn fun t => BitVec.ofNat 16 (newMetric v (branchMetrics r1 r2)
      (BitVec.ofNat 6 t.val) - minOver (newMetric v (branchMetrics r1 r2)))
    hist := v.hist.write v.histWp.toNat (BitVec.ofFnLE fun t : Fin 64 =>
      decision v (branchMetrics r1 r2) (BitVec.ofNat 6 t.val)) }
  rw [hn]
  obtain ⟨u, hu⟩ := errorRate_total (c := c) (v := { v with
    pm := Vector.ofFn fun t => BitVec.ofNat 16 (newMetric v (branchMetrics r1 r2)
      (BitVec.ofNat 6 t.val) - minOver (newMetric v (branchMetrics r1 r2)))
    hist := v.hist.write v.histWp.toNat (BitVec.ofFnLE fun t : Fin 64 =>
      decision v (branchMetrics r1 r2) (BitVec.ofNat 6 t.val))
    vitN := n }) h r1 r2 _
  rw [hu]
  exact ⟨_, rfl⟩

/-- The bits of a flush, where the ring has an entry (R232). -/
theorem flushList_total {c : Cfg} (h : 0 < c.tbd) (v : Viterbi) : ∃ l, flushList c v = .ok l := by
  unfold flushList
  split
  · exact ⟨_, rfl⟩
  · have : c.tbd ≠ 0 := by omega
    simp only [this, false_and, if_false]
    exact ⟨_, rfl⟩

/-! ## The depuncturer -/

/-- The five rows of PUNC are what a RATE below 5 names. -/
theorem puncture_total {r : Nat} (h : r < 5) : ∃ p, puncture r = some p ∧ 0 < p.period := by
  interval_cases r <;> exact ⟨_, rfl, by decide⟩

theorem puncture_period {r : Nat} {p : Puncture} (h : puncture r = some p) :
    0 < p.period ∧ p.period ≤ 7 := by
  unfold puncture at h
  split at h <;> first
    | (cases h; decide)
    | cases h

theorem Puncture.place_dpK {p : Puncture} (hp : 0 < p.period) (d : Depunct) (v : Soft)
    (h : d.dpK.toNat < p.period) : (p.place d v).1.dpK.toNat < p.period := by
  unfold Puncture.place
  split
  · simp only [BitVec.toNat_ofNat]
    exact lt_of_le_of_lt (Nat.mod_le _ _) (Nat.mod_lt _ hp)
  · exact h

theorem Puncture.fill_dpK {p : Puncture} (hp : 0 < p.period) (n : Nat) (d : Depunct)
    (h : d.dpK.toNat < p.period) : (p.fill n d).1.dpK.toNat < p.period := by
  induction n generalizing d with
  | zero => exact h
  | succ n ih =>
    unfold Puncture.fill
    split
    · exact h
    · exact ih _ (p.place_dpK hp d 0#8 h)

/-- Depuncturing answers on a legal rate with the step index in the period, and keeps it there. -/
theorem depuncture_total {c : Cfg} {p : Puncture} (hp : puncture c.rate = some p) (d : Depunct)
    (h : d.dpK.toNat < p.period) (y : Soft) :
    ∃ r, depuncture c d y = .ok r ∧ r.1.dpK.toNat < p.period := by
  have hpos := (puncture_period hp).1
  unfold depuncture
  simp only [hp]
  have h1 := p.place_dpK hpos d y h
  simp only [h1, if_true]
  exact ⟨_, rfl, p.fill_dpK hpos _ _ h1⟩

/-! ## The deframer -/

theorem storeBit_total {c : Cfg} {k : Nat} (h : k / 8 < c.frameBytes) (frm : Memory 8) (b : Bool) :
    ∃ f, storeBit c frm k b = .ok f := by
  unfold storeBit
  rw [within_ok h]
  exact ⟨_, rfl⟩

theorem storeBits_total {c : Cfg} (bits : List Bool) (frm : Memory 8) (k : Nat)
    (h : ∀ i < bits.length, (k + i) / 8 < c.frameBytes) : ∃ f, storeBits c frm k bits = .ok f := by
  induction bits generalizing frm k with
  | nil => exact ⟨frm, rfl⟩
  | cons b r ih =>
    obtain ⟨f, hf⟩ := storeBit_total (c := c) (by simpa using h 0 (by simp)) frm b
    unfold storeBits
    rw [hf, ok_bind]
    refine ih f (k + 1) fun i hi => ?_
    have := h (i + 1) (by simpa using hi)
    rwa [show k + 1 + i = k + (i + 1) by omega]

theorem wf_storeBits {c : Cfg} {bits : List Bool} {frm f : Memory 8} {k : Nat} (hm : frm.wf)
    (h : storeBits c frm k bits = .ok f) : f.wf := by
  induction bits generalizing frm k with
  | nil => cases h; exact hm
  | cons b r ih =>
    obtain ⟨g, hg, h⟩ := (bind_ok_iff _ _ _).1 h
    exact ih (wf_storeBit hm hg) h

/-- A push keeps FRM's canonical form. -/
theorem wf_pushBit {c : Cfg} {d : Deframer} {frm : Memory 8} {b : Bool} {p : Pushed}
    (hm : frm.wf) (h : pushBit c d frm b = .ok p) : p.frm.wf := by
  unfold pushBit at h
  dsimp only at h
  split at h
  · split at h
    · unfold startChecking at h
      obtain ⟨_, -, h⟩ := (bind_ok_iff _ _ _).1 h
      obtain ⟨f, hf, h⟩ := (bind_ok_iff _ _ _).1 h
      cases h
      exact wf_storeBits hm hf
    · cases h; exact hm
  · obtain ⟨f, hf, h⟩ := (bind_ok_iff _ _ _).1 h
    have hw := wf_storeBit hm hf
    split at h
    · cases h; exact hw
    · split at h
      · unfold atFrameEnd at h
        split at h
        · obtain ⟨g, hg, rfl⟩ := (map_ok_iff _ _ _).1 h
          exact wf_storeBits hw hg
        · cases h; exact hw
      · cases h; exact hw

/-! ## Reed-Solomon -/

theorem wf_gather {c : Cfg} {frm cw m : Memory 8} {j : Nat} (hc : cw.wf)
    (h : gather c frm cw j = .ok m) : m.wf := by
  obtain ⟨_, -, rfl⟩ := (map_ok_iff _ _ _).1 h
  exact wf_setCodeword _ _ hc

theorem wf_scatter {c : Cfg} {frm cw m : Memory 8} {j : Nat} (hf : frm.wf)
    (h : scatter c frm cw j = .ok m) : m.wf := by
  obtain ⟨_, -, rfl⟩ := (map_ok_iff _ _ _).1 h
  exact Memory.wf_storeStride _ _ _ _ hf

theorem wf_correctCw (t : BitVec 2) (cw : Memory 8) (h : cw.wf) : (correctCw t cw).1.wf := by
  unfold correctCw
  split
  · exact wf_setCodeword _ _ h
  · exact h

theorem wf_toConventional (cw : Memory 8) (h : cw.wf) : (toConventional cw).wf :=
  wf_setCodeword _ _ h

theorem wf_toDual (cw : Memory 8) (h : cw.wf) : (toDual cw).wf := wf_setCodeword _ _ h

/-- A lane keeps both canonical forms. -/
theorem wf_decodeLane {c : Cfg} {l r : Lanes} {j : Nat} (hf : l.frm.wf) (hc : l.cw.wf)
    (h : decodeLane c l j = .ok r) : r.frm.wf ∧ r.cw.wf := by
  unfold decodeLane at h
  obtain ⟨cw0, h0, h⟩ := (bind_ok_iff _ _ _).1 h
  have w0 := wf_gather hc h0
  dsimp only at h
  obtain ⟨_, -, h⟩ := (bind_ok_iff _ _ _).1 h
  have w1 : (correctCw c.rsType (if c.rsDual then toConventional cw0 else cw0)).1.wf := by
    apply wf_correctCw
    split
    · exact wf_toConventional _ w0
    · exact w0
  revert w1 h
  generalize correctCw c.rsType (if c.rsDual then toConventional cw0 else cw0) = q
  intro h w1
  split at h
  · obtain ⟨f, h2, h⟩ := (bind_ok_iff _ _ _).1 h
    cases h
    refine ⟨wf_scatter hf h2, ?_⟩
    dsimp only
    split
    · exact wf_toDual _ w1
    · exact w1
  · cases h
    exact ⟨hf, w1⟩

theorem wf_decodeLanes {c : Cfg} {n : Nat} {l r : Lanes} {j : Nat} (hf : l.frm.wf) (hc : l.cw.wf)
    (h : decodeLanes c l j n = .ok r) : r.frm.wf ∧ r.cw.wf := by
  induction n generalizing l j with
  | zero => cases h; exact ⟨hf, hc⟩
  | succ n ih =>
    unfold decodeLanes at h
    obtain ⟨l', h1, h⟩ := (bind_ok_iff _ _ _).1 h
    obtain ⟨a, b⟩ := wf_decodeLane hf hc h1
    exact ih a b h

theorem decodeLane_total {c : Cfg} {j : Nat} (hj : j < 8)
    (hb : c.asmBytes + j + c.rsDepth * 254 < c.frameBytes) (l : Lanes) :
    ∃ r, decodeLane c l j = .ok r := by
  have hlb : laneBounds c j = .ok () := within_ok hb
  unfold decodeLane gather scatter
  rw [hlb, ok_map, ok_bind, within_ok hj]
  dsimp only
  rw [ok_bind]
  generalize correctCw c.rsType _ = q
  split
  · rw [ok_map, ok_bind]; exact ⟨_, rfl⟩
  · exact ⟨_, rfl⟩

/-- All lanes of a frame long enough for them are decoded. -/
theorem decodeLanes_total {c : Cfg} (n : Nat) (l : Lanes) (j : Nat) (h8 : j + n ≤ 8)
    (hb : ∀ i < j + n, c.asmBytes + i + c.rsDepth * 254 < c.frameBytes) :
    ∃ r, decodeLanes c l j n = .ok r := by
  induction n generalizing l j with
  | zero => exact ⟨l, rfl⟩
  | succ n ih =>
    obtain ⟨l', hl'⟩ := decodeLane_total (c := c) (j := j) (by omega) (hb j (by omega)) l
    unfold decodeLanes
    rw [hl', ok_bind]
    exact ih l' (j + 1) (by omega) fun i hi => hb i (by omega)

end Sys2Proof.Machine
end

