-- ==== Sys2Proof/Laws/PerInstr.lean ====
section
/-! SUPPORT. Per-instruction laws: the word of an instruction lies in its row of the opcode table. -/

namespace Sys2Proof.Laws

/-- A row of the opcode table: the interface, and the match and mask of a BUS or SYM row or the
identifier of an OP row. -/
inductive Row where
  | bus (pattern mask : BusWord)
  | sym (pattern mask : SymWord)
  | op (identifier : OpId)
  deriving DecidableEq, Repr

/-- The row of each constructor, from spec/opcode_table.json. -/
def row (i : Instr) : Row :=
  match i with
  | .hostCfgw _ _ => .bus 0x10000000000#41 0x10000000000#41
  | .hostRd _ => .bus 0x00000000000#41 0x10000000000#41
  | .hostStart => .bus 0x10000000001#41 0x1FF00000003#41
  | .hostCancel => .bus 0x10000000002#41 0x1FF00000003#41
  | .hostReset => .bus 0x10000000003#41 0x1FF00000003#41
  | .srcPush _ => .sym 0x000#9 0x100#9
  | .srcEos => .sym 0x100#9 0x100#9
  | .sinkPop => .op 0b00001000#8
  | .corrScore => .op 0b00010000#8
  | .corrSearch => .op 0b00010001#8
  | .corrApply => .op 0b00010010#8
  | .phClamp => .op 0b00100000#8
  | .phRot => .op 0b00100001#8
  | .phSwap => .op 0b00100010#8
  | .phPush => .op 0b00100011#8
  | .phNext => .op 0b00100100#8
  | .diffDec => .op 0b00100110#8
  | .ccEnc => .op 0b00110000#8
  | .dpPush => .op 0b00110010#8
  | .ccInv => .op 0b00110011#8
  | .vitBm => .op 0b01000000#8
  | .vitAcs => .op 0b01000001#8
  | .vitTb => .op 0b01000010#8
  | .vitBer => .op 0b01000011#8
  | .vitLock => .op 0b01000100#8
  | .vitStep => .op 0b01000101#8
  | .vitReset => .op 0b01000110#8
  | .vitFlush => .op 0b01000111#8
  | .dfPush => .op 0b01010000#8
  | .dfReset => .op 0b01010001#8
  | .drApply => .op 0b01100000#8
  | .rsDeint => .op 0b01110000#8
  | .rsToconv => .op 0b01110001#8
  | .rsSynd => .op 0b01110010#8
  | .rsDec => .op 0b01110011#8
  | .rsTodual => .op 0b01110100#8
  | .rsReint => .op 0b01110101#8
  | .rsFrame => .op 0b01110110#8
  | .ctlCheck => .op 0b10000000#8
  | .ctlRead => .op 0b10000001#8
  | .ctlData => .op 0b10000010#8
  | .ctlFrame => .op 0b10000011#8
  | .ctlAccept => .op 0b10000100#8
  | .ctlEmit => .op 0b10000101#8
  | .ctlResync => .op 0b10000110#8
  | .ctlPublish => .op 0b10000111#8
  | .ctlFlush => .op 0b10001000#8
  | .ctlHalt => .op 0b10001001#8
  | .ctlTop => .op 0b10001010#8
  | .ctlCorr => .op 0b10001011#8
  | .ctlBit => .op 0b10001100#8
  | .ctlRschk => .op 0b10001101#8
  | .ctlClear => .op 0b10001110#8

/-- A word lies in a row: it is of the row's interface and agrees with the row's fixed bits. -/
def fits (r : Row) (w : IfWord) : Prop :=
  match r, w with
  | .bus p m, .bus x => x &&& m = p
  | .sym p m, .sym x => x &&& m = p
  | .op p, .op x => x = p
  | _, _ => False

/-- The encoding of a well-formed instruction lies in its row (R112, R113, R115). -/
def TableRow.Statement (i : Instr) : Prop := i.wf = true → fits (row i) (encode i)

/-- The write bit of a write. -/
theorem busWord_write (addr : BitVec 8) (data : RegWord) :
    busWord true addr data &&& 0x10000000000#41 = 0x10000000000#41 := by
  apply BitVec.eq_of_getLsbD_eq
  intro i hi
  show ((BitVec.ofBool true ++ addr ++ data : BitVec (1 + 8 + 32)) &&&
    0x10000000000#(1 + 8 + 32)).getLsbD i = _
  rw [BitVec.getLsbD_and]
  by_cases h : i = 40
  · subst h
    rw [BitVec.getLsbD_append, BitVec.getLsbD_append]
    rfl
  · have h0 : (0x10000000000#41).getLsbD i = false := by
      have : 0x10000000000#41 = BitVec.twoPow 41 40 := rfl
      rw [this, BitVec.getLsbD_twoPow]
      simp [Ne.symm h]
    rw [h0, Bool.and_false]

/-- The write bit of a read. -/
theorem busWord_read (addr : BitVec 8) (data : RegWord) :
    busWord false addr data &&& 0x10000000000#41 = 0#41 := by
  apply BitVec.eq_of_getLsbD_eq
  intro i hi
  show ((BitVec.ofBool false ++ addr ++ data : BitVec (1 + 8 + 32)) &&&
    0x10000000000#(1 + 8 + 32)).getLsbD i = _
  rw [BitVec.getLsbD_and, BitVec.getLsbD_zero]
  by_cases h : i = 40
  · subst h
    rw [BitVec.getLsbD_append, BitVec.getLsbD_append]
    rfl
  · have h0 : (0x10000000000#41).getLsbD i = false := by
      have : 0x10000000000#41 = BitVec.twoPow 41 40 := rfl
      rw [this, BitVec.getLsbD_twoPow]
      simp [Ne.symm h]
    rw [show (0x10000000000#(1 + 8 + 32)).getLsbD i = false from h0, Bool.and_false]

/-- The token bit of a soft symbol's word. -/
theorem symWord_fits (x : Soft) : symWord x &&& 0x100#9 = 0x000#9 := by
  revert x
  decide

theorem TableRow.hostCfgw (addr : BitVec 8) (data : RegWord) : TableRow.Statement (.hostCfgw addr data) := fun _ => busWord_write addr data
theorem TableRow.hostRd (addr : BitVec 8) : TableRow.Statement (.hostRd addr) := fun _ => busWord_read addr 0#32
theorem TableRow.hostStart : TableRow.Statement .hostStart := fun _ => rfl
theorem TableRow.hostCancel : TableRow.Statement .hostCancel := fun _ => rfl
theorem TableRow.hostReset : TableRow.Statement .hostReset := fun _ => rfl
theorem TableRow.srcPush (sym : Soft) : TableRow.Statement (.srcPush sym) := fun _ => symWord_fits sym
theorem TableRow.srcEos : TableRow.Statement .srcEos := fun _ => rfl
theorem TableRow.sinkPop : TableRow.Statement .sinkPop := fun _ => rfl
theorem TableRow.corrScore : TableRow.Statement .corrScore := fun _ => rfl
theorem TableRow.corrSearch : TableRow.Statement .corrSearch := fun _ => rfl
theorem TableRow.corrApply : TableRow.Statement .corrApply := fun _ => rfl
theorem TableRow.phClamp : TableRow.Statement .phClamp := fun _ => rfl
theorem TableRow.phRot : TableRow.Statement .phRot := fun _ => rfl
theorem TableRow.phSwap : TableRow.Statement .phSwap := fun _ => rfl
theorem TableRow.phPush : TableRow.Statement .phPush := fun _ => rfl
theorem TableRow.phNext : TableRow.Statement .phNext := fun _ => rfl
theorem TableRow.diffDec : TableRow.Statement .diffDec := fun _ => rfl
theorem TableRow.ccEnc : TableRow.Statement .ccEnc := fun _ => rfl
theorem TableRow.dpPush : TableRow.Statement .dpPush := fun _ => rfl
theorem TableRow.ccInv : TableRow.Statement .ccInv := fun _ => rfl
theorem TableRow.vitBm : TableRow.Statement .vitBm := fun _ => rfl
theorem TableRow.vitAcs : TableRow.Statement .vitAcs := fun _ => rfl
theorem TableRow.vitTb : TableRow.Statement .vitTb := fun _ => rfl
theorem TableRow.vitBer : TableRow.Statement .vitBer := fun _ => rfl
theorem TableRow.vitLock : TableRow.Statement .vitLock := fun _ => rfl
theorem TableRow.vitStep : TableRow.Statement .vitStep := fun _ => rfl
theorem TableRow.vitReset : TableRow.Statement .vitReset := fun _ => rfl
theorem TableRow.vitFlush : TableRow.Statement .vitFlush := fun _ => rfl
theorem TableRow.dfPush : TableRow.Statement .dfPush := fun _ => rfl
theorem TableRow.dfReset : TableRow.Statement .dfReset := fun _ => rfl
theorem TableRow.drApply : TableRow.Statement .drApply := fun _ => rfl
theorem TableRow.rsDeint : TableRow.Statement .rsDeint := fun _ => rfl
theorem TableRow.rsToconv : TableRow.Statement .rsToconv := fun _ => rfl
theorem TableRow.rsSynd : TableRow.Statement .rsSynd := fun _ => rfl
theorem TableRow.rsDec : TableRow.Statement .rsDec := fun _ => rfl
theorem TableRow.rsTodual : TableRow.Statement .rsTodual := fun _ => rfl
theorem TableRow.rsReint : TableRow.Statement .rsReint := fun _ => rfl
theorem TableRow.rsFrame : TableRow.Statement .rsFrame := fun _ => rfl
theorem TableRow.ctlCheck : TableRow.Statement .ctlCheck := fun _ => rfl
theorem TableRow.ctlRead : TableRow.Statement .ctlRead := fun _ => rfl
theorem TableRow.ctlData : TableRow.Statement .ctlData := fun _ => rfl
theorem TableRow.ctlFrame : TableRow.Statement .ctlFrame := fun _ => rfl
theorem TableRow.ctlAccept : TableRow.Statement .ctlAccept := fun _ => rfl
theorem TableRow.ctlEmit : TableRow.Statement .ctlEmit := fun _ => rfl
theorem TableRow.ctlResync : TableRow.Statement .ctlResync := fun _ => rfl
theorem TableRow.ctlPublish : TableRow.Statement .ctlPublish := fun _ => rfl
theorem TableRow.ctlFlush : TableRow.Statement .ctlFlush := fun _ => rfl
theorem TableRow.ctlHalt : TableRow.Statement .ctlHalt := fun _ => rfl
theorem TableRow.ctlTop : TableRow.Statement .ctlTop := fun _ => rfl
theorem TableRow.ctlCorr : TableRow.Statement .ctlCorr := fun _ => rfl
theorem TableRow.ctlBit : TableRow.Statement .ctlBit := fun _ => rfl
theorem TableRow.ctlRschk : TableRow.Statement .ctlRschk := fun _ => rfl
theorem TableRow.ctlClear : TableRow.Statement .ctlClear := fun _ => rfl

end Sys2Proof.Laws
end

