-- ==== Sys2Proof/Laws/State.lean ====
section
/-! SUPPORT. The fields of a state after each named update, one lemma a field, and the bus word's
fields. -/

namespace Sys2Proof.Machine

/-! ## A result latched -/

@[simp] theorem State.setRes_cfg (s : State) (r : OpResult) :
    (s.setRes r).cfg = s.cfg := rfl
@[simp] theorem State.setRes_health (s : State) (r : OpResult) :
    (s.setRes r).health = s.health := rfl
@[simp] theorem State.setRes_ph (s : State) (r : OpResult) :
    (s.setRes r).ph = s.ph := rfl
@[simp] theorem State.setRes_dp (s : State) (r : OpResult) :
    (s.setRes r).dp = s.dp := rfl
@[simp] theorem State.setRes_vit (s : State) (r : OpResult) :
    (s.setRes r).vit = s.vit := rfl
@[simp] theorem State.setRes_df (s : State) (r : OpResult) :
    (s.setRes r).df = s.df := rfl
@[simp] theorem State.setRes_hRs (s : State) (r : OpResult) :
    (s.setRes r).hRs = s.hRs := rfl
@[simp] theorem State.setRes_ctl (s : State) (r : OpResult) :
    (s.setRes r).ctl = s.ctl := rfl
@[simp] theorem State.setRes_sym (s : State) (r : OpResult) :
    (s.setRes r).sym = s.sym := rfl
@[simp] theorem State.setRes_frm (s : State) (r : OpResult) :
    (s.setRes r).frm = s.frm := rfl
@[simp] theorem State.setRes_cw (s : State) (r : OpResult) :
    (s.setRes r).cw = s.cw := rfl
@[simp] theorem State.setRes_inq (s : State) (r : OpResult) :
    (s.setRes r).inq = s.inq := rfl
@[simp] theorem State.setRes_outq (s : State) (r : OpResult) :
    (s.setRes r).outq = s.outq := rfl
@[simp] theorem State.setRes_env_turns (s : State) (r : OpResult) :
    (s.setRes r).env.turns = s.env.turns := rfl
@[simp] theorem State.setRes_env_hostQ (s : State) (r : OpResult) :
    (s.setRes r).env.hostQ = s.env.hostQ := rfl
@[simp] theorem State.setRes_env_srcQ (s : State) (r : OpResult) :
    (s.setRes r).env.srcQ = s.env.srcQ := rfl
@[simp] theorem State.setRes_env_args (s : State) (r : OpResult) :
    (s.setRes r).env.args = s.env.args := rfl
@[simp] theorem State.setRes_env_res (s : State) (r : OpResult) :
    (s.setRes r).env.res = r := rfl
@[simp] theorem State.setRes_env_reads (s : State) (r : OpResult) :
    (s.setRes r).env.reads = s.env.reads := rfl
@[simp] theorem State.setRes_env_popped (s : State) (r : OpResult) :
    (s.setRes r).env.popped = s.env.popped := rfl

/-! ## The sequencer moved -/

@[simp] theorem State.goto_cfg (s : State) (q : Seq) :
    (s.goto q).cfg = s.cfg := rfl
@[simp] theorem State.goto_health (s : State) (q : Seq) :
    (s.goto q).health = s.health := rfl
@[simp] theorem State.goto_ph (s : State) (q : Seq) :
    (s.goto q).ph = s.ph := rfl
@[simp] theorem State.goto_dp (s : State) (q : Seq) :
    (s.goto q).dp = s.dp := rfl
@[simp] theorem State.goto_vit (s : State) (q : Seq) :
    (s.goto q).vit = s.vit := rfl
@[simp] theorem State.goto_df (s : State) (q : Seq) :
    (s.goto q).df = s.df := rfl
@[simp] theorem State.goto_hRs (s : State) (q : Seq) :
    (s.goto q).hRs = s.hRs := rfl
@[simp] theorem State.goto_sym (s : State) (q : Seq) :
    (s.goto q).sym = s.sym := rfl
@[simp] theorem State.goto_frm (s : State) (q : Seq) :
    (s.goto q).frm = s.frm := rfl
@[simp] theorem State.goto_cw (s : State) (q : Seq) :
    (s.goto q).cw = s.cw := rfl
@[simp] theorem State.goto_inq (s : State) (q : Seq) :
    (s.goto q).inq = s.inq := rfl
@[simp] theorem State.goto_outq (s : State) (q : Seq) :
    (s.goto q).outq = s.outq := rfl
@[simp] theorem State.goto_env (s : State) (q : Seq) :
    (s.goto q).env = s.env := rfl
@[simp] theorem State.goto_ctl_unsyncBits (s : State) (q : Seq) :
    (s.goto q).ctl.unsyncBits = s.ctl.unsyncBits := rfl
@[simp] theorem State.goto_ctl_acqPending (s : State) (q : Seq) :
    (s.goto q).ctl.acqPending = s.ctl.acqPending := rfl
@[simp] theorem State.goto_ctl_eosSeen (s : State) (q : Seq) :
    (s.goto q).ctl.eosSeen = s.ctl.eosSeen := rfl
@[simp] theorem State.goto_ctl_cancelReq (s : State) (q : Seq) :
    (s.goto q).ctl.cancelReq = s.ctl.cancelReq := rfl
@[simp] theorem State.goto_ctl_symN (s : State) (q : Seq) :
    (s.goto q).ctl.symN = s.ctl.symN := rfl
@[simp] theorem State.goto_ctl_symI (s : State) (q : Seq) :
    (s.goto q).ctl.symI = s.ctl.symI := rfl
@[simp] theorem State.goto_ctl_flI (s : State) (q : Seq) :
    (s.goto q).ctl.flI = s.ctl.flI := rfl
@[simp] theorem State.goto_ctl_seq (s : State) (q : Seq) :
    (s.goto q).ctl.seq = q := rfl
@[simp] theorem State.goto_ctl_finalRun (s : State) (q : Seq) :
    (s.goto q).ctl.finalRun = s.ctl.finalRun := rfl
@[simp] theorem State.goto_ctl_errCode (s : State) (q : Seq) :
    (s.goto q).ctl.errCode = s.ctl.errCode := rfl
@[simp] theorem State.goto_ctl_errInfo (s : State) (q : Seq) :
    (s.goto q).ctl.errInfo = s.ctl.errInfo := rfl

/-! ## The turns shortened -/

@[simp] theorem State.withTurns_cfg (s : State) (r : List Turn) :
    (s.withTurns r).cfg = s.cfg := rfl
@[simp] theorem State.withTurns_health (s : State) (r : List Turn) :
    (s.withTurns r).health = s.health := rfl
@[simp] theorem State.withTurns_ph (s : State) (r : List Turn) :
    (s.withTurns r).ph = s.ph := rfl
@[simp] theorem State.withTurns_dp (s : State) (r : List Turn) :
    (s.withTurns r).dp = s.dp := rfl
@[simp] theorem State.withTurns_vit (s : State) (r : List Turn) :
    (s.withTurns r).vit = s.vit := rfl
@[simp] theorem State.withTurns_df (s : State) (r : List Turn) :
    (s.withTurns r).df = s.df := rfl
@[simp] theorem State.withTurns_hRs (s : State) (r : List Turn) :
    (s.withTurns r).hRs = s.hRs := rfl
@[simp] theorem State.withTurns_ctl (s : State) (r : List Turn) :
    (s.withTurns r).ctl = s.ctl := rfl
@[simp] theorem State.withTurns_sym (s : State) (r : List Turn) :
    (s.withTurns r).sym = s.sym := rfl
@[simp] theorem State.withTurns_frm (s : State) (r : List Turn) :
    (s.withTurns r).frm = s.frm := rfl
@[simp] theorem State.withTurns_cw (s : State) (r : List Turn) :
    (s.withTurns r).cw = s.cw := rfl
@[simp] theorem State.withTurns_inq (s : State) (r : List Turn) :
    (s.withTurns r).inq = s.inq := rfl
@[simp] theorem State.withTurns_outq (s : State) (r : List Turn) :
    (s.withTurns r).outq = s.outq := rfl
@[simp] theorem State.withTurns_env_turns (s : State) (r : List Turn) :
    (s.withTurns r).env.turns = r := rfl
@[simp] theorem State.withTurns_env_hostQ (s : State) (r : List Turn) :
    (s.withTurns r).env.hostQ = s.env.hostQ := rfl
@[simp] theorem State.withTurns_env_srcQ (s : State) (r : List Turn) :
    (s.withTurns r).env.srcQ = s.env.srcQ := rfl
@[simp] theorem State.withTurns_env_args (s : State) (r : List Turn) :
    (s.withTurns r).env.args = s.env.args := rfl
@[simp] theorem State.withTurns_env_res (s : State) (r : List Turn) :
    (s.withTurns r).env.res = s.env.res := rfl
@[simp] theorem State.withTurns_env_reads (s : State) (r : List Turn) :
    (s.withTurns r).env.reads = s.env.reads := rfl
@[simp] theorem State.withTurns_env_popped (s : State) (r : List Turn) :
    (s.withTurns r).env.popped = s.env.popped := rfl

/-! ## A frame emitted (R344) -/

@[simp] theorem emit_cfg (s : State) :
    (emit s).cfg = s.cfg := rfl
@[simp] theorem emit_health (s : State) :
    (emit s).health = s.health := rfl
@[simp] theorem emit_ph (s : State) :
    (emit s).ph = s.ph := rfl
@[simp] theorem emit_dp (s : State) :
    (emit s).dp = s.dp := rfl
@[simp] theorem emit_vit (s : State) :
    (emit s).vit = s.vit := rfl
@[simp] theorem emit_df (s : State) :
    (emit s).df = s.df := rfl
@[simp] theorem emit_hRs (s : State) :
    (emit s).hRs = s.hRs := rfl
@[simp] theorem emit_ctl (s : State) :
    (emit s).ctl = s.ctl := rfl
@[simp] theorem emit_sym (s : State) :
    (emit s).sym = s.sym := rfl
@[simp] theorem emit_frm (s : State) :
    (emit s).frm = s.frm := rfl
@[simp] theorem emit_cw (s : State) :
    (emit s).cw = s.cw := rfl
@[simp] theorem emit_inq (s : State) :
    (emit s).inq = s.inq := rfl
@[simp] theorem emit_outq (s : State) :
    (emit s).outq = s.outq ++ [frameOf s.cfg s.frm] := rfl
@[simp] theorem emit_env (s : State) :
    (emit s).env = s.env := rfl

/-! ## The trap entered (R386) -/

@[simp] theorem raiseConfigError_cfg (c i : BitVec 8) (s : State) :
    (raiseConfigError c i s).cfg = s.cfg := rfl
@[simp] theorem raiseConfigError_health (c i : BitVec 8) (s : State) :
    (raiseConfigError c i s).health = s.health := rfl
@[simp] theorem raiseConfigError_ph (c i : BitVec 8) (s : State) :
    (raiseConfigError c i s).ph = s.ph := rfl
@[simp] theorem raiseConfigError_dp (c i : BitVec 8) (s : State) :
    (raiseConfigError c i s).dp = s.dp := rfl
@[simp] theorem raiseConfigError_vit (c i : BitVec 8) (s : State) :
    (raiseConfigError c i s).vit = s.vit := rfl
@[simp] theorem raiseConfigError_df (c i : BitVec 8) (s : State) :
    (raiseConfigError c i s).df = s.df := rfl
@[simp] theorem raiseConfigError_hRs (c i : BitVec 8) (s : State) :
    (raiseConfigError c i s).hRs = s.hRs := rfl
@[simp] theorem raiseConfigError_sym (c i : BitVec 8) (s : State) :
    (raiseConfigError c i s).sym = s.sym := rfl
@[simp] theorem raiseConfigError_frm (c i : BitVec 8) (s : State) :
    (raiseConfigError c i s).frm = s.frm := rfl
@[simp] theorem raiseConfigError_cw (c i : BitVec 8) (s : State) :
    (raiseConfigError c i s).cw = s.cw := rfl
@[simp] theorem raiseConfigError_inq (c i : BitVec 8) (s : State) :
    (raiseConfigError c i s).inq = s.inq := rfl
@[simp] theorem raiseConfigError_outq (c i : BitVec 8) (s : State) :
    (raiseConfigError c i s).outq = s.outq := rfl
@[simp] theorem raiseConfigError_env (c i : BitVec 8) (s : State) :
    (raiseConfigError c i s).env = s.env := rfl
@[simp] theorem raiseConfigError_ctl_unsyncBits (c i : BitVec 8) (s : State) :
    (raiseConfigError c i s).ctl.unsyncBits = s.ctl.unsyncBits := rfl
@[simp] theorem raiseConfigError_ctl_acqPending (c i : BitVec 8) (s : State) :
    (raiseConfigError c i s).ctl.acqPending = s.ctl.acqPending := rfl
@[simp] theorem raiseConfigError_ctl_eosSeen (c i : BitVec 8) (s : State) :
    (raiseConfigError c i s).ctl.eosSeen = s.ctl.eosSeen := rfl
@[simp] theorem raiseConfigError_ctl_cancelReq (c i : BitVec 8) (s : State) :
    (raiseConfigError c i s).ctl.cancelReq = s.ctl.cancelReq := rfl
@[simp] theorem raiseConfigError_ctl_symN (c i : BitVec 8) (s : State) :
    (raiseConfigError c i s).ctl.symN = s.ctl.symN := rfl
@[simp] theorem raiseConfigError_ctl_symI (c i : BitVec 8) (s : State) :
    (raiseConfigError c i s).ctl.symI = s.ctl.symI := rfl
@[simp] theorem raiseConfigError_ctl_flI (c i : BitVec 8) (s : State) :
    (raiseConfigError c i s).ctl.flI = s.ctl.flI := rfl
@[simp] theorem raiseConfigError_ctl_seq (c i : BitVec 8) (s : State) :
    (raiseConfigError c i s).ctl.seq = .error := rfl
@[simp] theorem raiseConfigError_ctl_finalRun (c i : BitVec 8) (s : State) :
    (raiseConfigError c i s).ctl.finalRun = s.ctl.finalRun := rfl
@[simp] theorem raiseConfigError_ctl_errCode (c i : BitVec 8) (s : State) :
    (raiseConfigError c i s).ctl.errCode = c := rfl
@[simp] theorem raiseConfigError_ctl_errInfo (c i : BitVec 8) (s : State) :
    (raiseConfigError c i s).ctl.errInfo = i := rfl

/-! ## The machine reset (R333) -/

@[simp] theorem resetMachine_cfg (s : State) :
    (resetMachine s).cfg = State.reset.cfg := rfl
@[simp] theorem resetMachine_health (s : State) :
    (resetMachine s).health = State.reset.health := rfl
@[simp] theorem resetMachine_ph (s : State) :
    (resetMachine s).ph = State.reset.ph := rfl
@[simp] theorem resetMachine_dp (s : State) :
    (resetMachine s).dp = State.reset.dp := rfl
@[simp] theorem resetMachine_vit (s : State) :
    (resetMachine s).vit = State.reset.vit := rfl
@[simp] theorem resetMachine_df (s : State) :
    (resetMachine s).df = State.reset.df := rfl
@[simp] theorem resetMachine_hRs (s : State) :
    (resetMachine s).hRs = State.reset.hRs := rfl
@[simp] theorem resetMachine_ctl (s : State) :
    (resetMachine s).ctl = State.reset.ctl := rfl
@[simp] theorem resetMachine_sym (s : State) :
    (resetMachine s).sym = State.reset.sym := rfl
@[simp] theorem resetMachine_frm (s : State) :
    (resetMachine s).frm = State.reset.frm := rfl
@[simp] theorem resetMachine_cw (s : State) :
    (resetMachine s).cw = State.reset.cw := rfl
@[simp] theorem resetMachine_inq (s : State) :
    (resetMachine s).inq = State.reset.inq := rfl
@[simp] theorem resetMachine_outq (s : State) :
    (resetMachine s).outq = State.reset.outq := rfl
@[simp] theorem resetMachine_env (s : State) :
    (resetMachine s).env = s.env := rfl

/-! ## The datapath cleared (R350) -/

@[simp] theorem clearDatapath_cfg (s : State) :
    (clearDatapath s).cfg = s.cfg := rfl
@[simp] theorem clearDatapath_health (s : State) :
    (clearDatapath s).health = s.health := rfl
@[simp] theorem clearDatapath_vit (s : State) :
    (clearDatapath s).vit = clearViterbi s.vit := rfl
@[simp] theorem clearDatapath_df (s : State) :
    (clearDatapath s).df = clearDeframer := rfl
@[simp] theorem clearDatapath_hRs (s : State) :
    (clearDatapath s).hRs = s.hRs := rfl
@[simp] theorem clearDatapath_sym (s : State) :
    (clearDatapath s).sym = s.sym := rfl
@[simp] theorem clearDatapath_frm (s : State) :
    (clearDatapath s).frm = s.frm := rfl
@[simp] theorem clearDatapath_cw (s : State) :
    (clearDatapath s).cw = s.cw := rfl
@[simp] theorem clearDatapath_inq (s : State) :
    (clearDatapath s).inq = s.inq := rfl
@[simp] theorem clearDatapath_outq (s : State) :
    (clearDatapath s).outq = s.outq := rfl
@[simp] theorem clearDatapath_env (s : State) :
    (clearDatapath s).env = s.env := rfl
@[simp] theorem clearDatapath_ph_hyp (s : State) :
    (clearDatapath s).ph.hyp = s.ph.hyp := rfl
@[simp] theorem clearDatapath_ph_skip (s : State) :
    (clearDatapath s).ph.skip = s.ph.skip := rfl
@[simp] theorem clearDatapath_ph_iHold (s : State) :
    (clearDatapath s).ph.iHold = s.ph.iHold := rfl
@[simp] theorem clearDatapath_ph_iHave (s : State) :
    (clearDatapath s).ph.iHave = false := rfl
@[simp] theorem clearDatapath_ph_nrzmPrev (s : State) :
    (clearDatapath s).ph.nrzmPrev = false := rfl
@[simp] theorem clearDatapath_dp_dpK (s : State) :
    (clearDatapath s).dp.dpK = 0 := rfl
@[simp] theorem clearDatapath_dp_dpI (s : State) :
    (clearDatapath s).dp.dpI = false := rfl
@[simp] theorem clearDatapath_dp_dpR1 (s : State) :
    (clearDatapath s).dp.dpR1 = s.dp.dpR1 := rfl
@[simp] theorem clearDatapath_ctl_unsyncBits (s : State) :
    (clearDatapath s).ctl.unsyncBits = 0 := rfl
@[simp] theorem clearDatapath_ctl_acqPending (s : State) :
    (clearDatapath s).ctl.acqPending = s.ctl.acqPending := rfl
@[simp] theorem clearDatapath_ctl_eosSeen (s : State) :
    (clearDatapath s).ctl.eosSeen = s.ctl.eosSeen := rfl
@[simp] theorem clearDatapath_ctl_cancelReq (s : State) :
    (clearDatapath s).ctl.cancelReq = s.ctl.cancelReq := rfl
@[simp] theorem clearDatapath_ctl_symN (s : State) :
    (clearDatapath s).ctl.symN = s.ctl.symN := rfl
@[simp] theorem clearDatapath_ctl_symI (s : State) :
    (clearDatapath s).ctl.symI = s.ctl.symI := rfl
@[simp] theorem clearDatapath_ctl_flI (s : State) :
    (clearDatapath s).ctl.flI = s.ctl.flI := rfl
@[simp] theorem clearDatapath_ctl_seq (s : State) :
    (clearDatapath s).ctl.seq = s.ctl.seq := rfl
@[simp] theorem clearDatapath_ctl_finalRun (s : State) :
    (clearDatapath s).ctl.finalRun = s.ctl.finalRun := rfl
@[simp] theorem clearDatapath_ctl_errCode (s : State) :
    (clearDatapath s).ctl.errCode = s.ctl.errCode := rfl
@[simp] theorem clearDatapath_ctl_errInfo (s : State) :
    (clearDatapath s).ctl.errInfo = s.ctl.errInfo := rfl
@[simp] theorem clearViterbi_hist (v : Viterbi) :
    (clearViterbi v).hist = v.hist := rfl
@[simp] theorem clearViterbi_dly (v : Viterbi) :
    (clearViterbi v).dly = v.dly := rfl
@[simp] theorem clearViterbi_histWp (v : Viterbi) :
    (clearViterbi v).histWp = 0 := rfl
@[simp] theorem clearViterbi_vitN (v : Viterbi) :
    (clearViterbi v).vitN = 0 := rfl
@[simp] theorem clearViterbi_reenc (v : Viterbi) :
    (clearViterbi v).reenc = 0 := rfl
@[simp] theorem clearViterbi_berErrs (v : Viterbi) :
    (clearViterbi v).berErrs = 0 := rfl
@[simp] theorem clearViterbi_berTotal (v : Viterbi) :
    (clearViterbi v).berTotal = 0 := rfl
@[simp] theorem clearViterbi_berSteps (v : Viterbi) :
    (clearViterbi v).berSteps = 0 := rfl
@[simp] theorem clearViterbi_berErrsL (v : Viterbi) :
    (clearViterbi v).berErrsL = 0 := rfl
@[simp] theorem clearViterbi_berTotalL (v : Viterbi) :
    (clearViterbi v).berTotalL = 0 := rfl
@[simp] theorem clearViterbi_badCnt (v : Viterbi) :
    (clearViterbi v).badCnt = 0 := rfl
@[simp] theorem clearViterbi_vitLock (v : Viterbi) :
    (clearViterbi v).vitLock = false := rfl

/-! ## The fields of a BUS word (R111) -/

@[simp] theorem busRw_busWord (rw : Bool) (addr : BitVec 8) (data : RegWord) :
    busRw (busWord rw addr data) = rw := by
  show (BitVec.ofBool rw ++ addr ++ data : BitVec (1 + 8 + 32)).getLsbD 40 = rw
  rw [BitVec.getLsbD_append, BitVec.getLsbD_append]
  cases rw <;> simp

@[simp] theorem busAddr_busWord (rw : Bool) (addr : BitVec 8) (data : RegWord) :
    busAddr (busWord rw addr data) = addr := by
  show (BitVec.ofBool rw ++ addr ++ data : BitVec (1 + 8 + 32)).extractLsb' 32 8 = addr
  ext i hi
  rw [BitVec.getElem_extractLsb', BitVec.getLsbD_append, BitVec.getLsbD_append]
  have h1 : ¬(32 + i < 32) := by omega
  have h2 : 32 + i - 32 = i := by omega
  simp [h1, h2, hi]

@[simp] theorem busData_busWord (rw : Bool) (addr : BitVec 8) (data : RegWord) :
    busData (busWord rw addr data) = data := by
  show (BitVec.ofBool rw ++ addr ++ data : BitVec (1 + 8 + 32)).extractLsb' 0 32 = data
  ext i hi
  rw [BitVec.getElem_extractLsb', BitVec.getLsbD_append]
  simp [hi]

/-- The symbol of a soft symbol's SYM word (R113). -/
@[simp] theorem symWord_sym (x : Soft) : (symWord x).extractLsb' 0 8 = x := by
  show (0#1 ++ x : BitVec (1 + 8)).extractLsb' 0 8 = x
  ext i hi
  rw [BitVec.getElem_extractLsb', BitVec.getLsbD_append]
  simp [hi]

@[simp] theorem symWord_eos (x : Soft) : (symWord x).getLsbD 8 = false := by
  show (0#1 ++ x : BitVec (1 + 8)).getLsbD 8 = false
  rw [BitVec.getLsbD_append]
  simp

/-! ## The FIFOs -/

theorem inFull_iff (s : State) : inFull s = true ↔ Config.inDepth ≤ s.inq.length := by
  unfold inFull Config.inDepth
  cases s.inq <;> simp

theorem outFull_iff (s : State) : outFull s = true ↔ Config.outDepth ≤ s.outq.length := by
  unfold outFull Config.outDepth
  cases s.outq <;> simp

end Sys2Proof.Machine
end

