-- ==== Sys2Proof/Laws/Run.lean ====
section
/-! SUPPORT. What a legal configuration says, and that each part of the datapath answers, inside its
ranges and touching nothing of the host's, on a legal configuration. -/

namespace Sys2Proof.Machine

/-! ## A legal configuration (R381, R383) -/

/-- The facts of R383's tests that the datapath relies on. -/
structure Cfg.Legal (c : Cfg) : Prop where
  const : c.const < 2
  rate : c.rate < 5
  tbd : 0 < c.tbd
  berWin : 0 < c.berWin
  asmLen : 8 ≤ c.asmLen ∧ c.asmLen ≤ 64 ∧ c.asmLen % 8 = 0
  frame : c.asmLen < c.frameBits ∧ (c.frameBits + c.padBits) % 8 = 0
  deframer : 0 < c.missThr ∧ 0 < c.confirm ∧ c.confirm ≤ 2
  rs : c.rsType ≠ 0#2 →
    1 ≤ c.rsDepth ∧ c.rsDepth ≤ 8 ∧ c.asmBytes + 255 * c.rsDepth ≤ c.frameBytes
  batch : 0 < c.batchLen
  corr : c.useCorr = true → 1 ≤ c.npat ∧ c.npat ≤ 8 ∧ ∀ j < c.npat, c.patLen j ≤ 64

theorem field_lt (r : RegWord) (lo w : Nat) : field r lo w < 2 ^ w := by
  unfold field
  exact BitVec.isLt _

theorem none_of_test {α : Type} {p : Prop} [Decidable p] {x : α} {y : Option α}
    (h : (if p then some x else y) = none) : ¬p ∧ y = none := by
  by_cases hp : p
  · rw [if_pos hp] at h; cases h
  · rw [if_neg hp] at h; exact ⟨hp, h⟩

/-- A configuration CTL.CHECK passes is legal. -/
theorem legal_of_configError {c : Cfg} (h : configError c = none) : c.Legal := by
  unfold configError at h
  obtain ⟨-, h⟩ := none_of_test h
  obtain ⟨hconst, h⟩ := none_of_test h
  obtain ⟨hrate, h⟩ := none_of_test h
  obtain ⟨htbd, h⟩ := none_of_test h
  obtain ⟨hwin, h⟩ := none_of_test h
  obtain ⟨hasm, h⟩ := none_of_test h
  obtain ⟨hframe, h⟩ := none_of_test h
  obtain ⟨hdf, h⟩ := none_of_test h
  obtain ⟨-, h⟩ := none_of_test h
  obtain ⟨hrs, h⟩ := none_of_test h
  obtain ⟨hbatch, h⟩ := none_of_test h
  have hasm' : c.asmLen = 8 ∨ c.asmLen = 16 ∨ c.asmLen = 24 ∨ c.asmLen = 32 ∨ c.asmLen = 40 ∨
      c.asmLen = 48 ∨ c.asmLen = 56 ∨ c.asmLen = 64 := by
    simp only [List.mem_cons, List.not_mem_nil, or_false, not_not] at hasm
    exact hasm
  have hconf : c.confirm < 2 ^ 2 := field_lt _ _ _
  refine ⟨by omega, by omega, by omega, by omega, by omega, by omega, by omega, fun hr => ?_,
    by omega, fun hu => ?_⟩
  · have h2 : ¬(c.rsDepth = 0 ∨ 8 < c.rsDepth ∨ c.frameBytes < c.asmBytes + 255 * c.rsDepth) :=
      fun hd => hrs (.inr ⟨hr, hd⟩)
    omega
  · unfold corrError at h
    rw [if_pos hu] at h
    obtain ⟨hn, h⟩ := none_of_test h
    split at h
    · cases h
    · next hf =>
      refine ⟨by omega, by omega, fun j hj => ?_⟩
      have := List.find?_eq_none.1 hf j (List.mem_range.2 hj)
      simp only [badPattern, decide_eq_true_eq] at this
      omega

theorem Cfg.Legal.frameBytes {c : Cfg} (h : c.Legal) :
    c.frameBits + c.padBits = 8 * c.frameBytes := by
  have := h.frame
  unfold Cfg.frameBytes
  omega

theorem Cfg.frameBits_lt (c : Cfg) : c.frameBits < 2 ^ 20 := field_lt _ _ _

theorem Cfg.tbd_lt (c : Cfg) : c.tbd < 2 ^ 8 := field_lt _ _ _

/-! ## The deframer -/

theorem modFree_lt {b : Nat} (hb : b ≠ 0) (a : Int) : modFree a b < b := by
  unfold modFree
  rw [if_neg hb]
  have h1 := Int.emod_nonneg a (b := (b : Int)) (by omega)
  have h2 := Int.emod_lt_of_pos a (b := (b : Int)) (by omega)
  omega

theorem shiftIn_bitctr {c : Cfg} (hc : c.Legal) (d : Deframer) (b : Bool) :
    (shiftIn c d b).dfBitctr.toNat < c.frameBits := by
  have h0 : c.frameBits ≠ 0 := by have := hc.frame; omega
  unfold shiftIn
  simp only [BitVec.toNat_ofNat]
  exact lt_of_le_of_lt (Nat.mod_le _ _) (modFree_lt h0 _)

/-- At a marker position the deframer keeps its ranges, its count below FRAME_BITS and not in
SEARCHING before (R254). -/
theorem atMarker_ranges {c : Cfg} (hc : c.Legal) {d : Deframer} (m : Bool)
    (hs : d.dfState ≠ .searching) (hcnt : d.dfCnt.toNat < c.frameBits)
    (hbc : d.dfBitctr.toNat < c.frameBits) (ho : d.dfOffset.toNat < c.frameBits)
    (hm : d.dfMiss.toNat ≤ c.missThr) (hms : d.dfState = .synced → d.dfMiss.toNat < c.missThr)
    (hf : d.dfConf.toNat ≤ c.confirm) (hfc : d.dfState = .checking → d.dfConf.toNat < c.confirm) :
    (atMarker c d m).Ranges c := by
  obtain ⟨hthr, hc1, hc2⟩ := hc.deframer
  have hthr2 : c.missThr < 2 ^ 8 := field_lt _ _ _
  cases hst : d.dfState with
  | searching => exact absurd hst hs
  | checking =>
    have hlt := hfc hst
    have hn : (d.dfConf + 1).toNat = d.dfConf.toNat + 1 := by
      rw [BitVec.toNat_add]
      show (d.dfConf.toNat + 1) % 2 ^ 2 = _
      exact Nat.mod_eq_of_lt (by omega)
    unfold atMarker
    rw [hst]
    dsimp only
    split
    · split
      · refine ⟨fun _ => hcnt, fun h => (by cases h), hbc, ho, Nat.zero_le _, fun _ => hthr, ?_,
          fun h => (by cases h)⟩
        dsimp only; omega
      · next h =>
        refine ⟨fun _ => hcnt, fun h => ?_, hbc, ho, hm, fun h => ?_, ?_, fun _ => ?_⟩
        · cases h
        · cases h
        · dsimp only at h ⊢; omega
        · dsimp only at h ⊢; omega
    · exact ⟨fun h => absurd rfl h, fun _ => rfl, hbc, ho, hm, fun h => (by cases h), hf,
        fun h => (by cases h)⟩
  | synced =>
    have hlt := hms hst
    have hn : (d.dfMiss + 1).toNat = d.dfMiss.toNat + 1 := by
      rw [BitVec.toNat_add]
      show (d.dfMiss.toNat + 1) % 2 ^ 8 = _
      exact Nat.mod_eq_of_lt (by omega)
    unfold atMarker
    rw [hst]
    dsimp only
    split
    · exact ⟨fun _ => hcnt, fun h => (by cases h), hbc, ho, Nat.zero_le _, fun _ => hthr, hf,
        fun h => (by cases h)⟩
    · split
      · refine ⟨fun h => absurd rfl h, fun _ => rfl, hbc, ho, ?_, fun h => (by cases h), hf,
          fun h => (by cases h)⟩
        dsimp only; omega
      · next h =>
        refine ⟨fun _ => hcnt, fun h => (by cases h), hbc, ho, ?_, fun _ => ?_, hf,
          fun h => (by cases h)⟩
        · dsimp only at h ⊢; omega
        · dsimp only at h ⊢; omega

/-- On a legal configuration a push answers and keeps the deframer's ranges (R254). -/
theorem pushBit_total {c : Cfg} (hc : c.Legal) {d : Deframer} (hd : d.Ranges c) (frm : Memory 8)
    (b : Bool) : ∃ p, pushBit c d frm b = .ok p ∧ p.df.Ranges c := by
  have hasm := hc.asmLen
  have hfr := hc.frame
  have hfb := hc.frameBytes
  have hlt := c.frameBits_lt
  have hbc := shiftIn_bitctr hc d b
  unfold pushBit
  dsimp only
  split
  · next hs =>
    split
    · unfold startChecking
      rw [within_ok (by omega), ok_bind]
      obtain ⟨f, hf⟩ := storeBits_total (c := c) (receivedMarker c (shiftIn c d b).dfSr) frm 0
        (fun i hi => by
          have : i < c.asmLen := by simpa [receivedMarker] using hi
          omega)
      rw [hf, ok_bind]
      refine ⟨_, rfl, ⟨fun _ => ?_, fun h => (by cases h), hbc, ?_, hd.miss, fun h => (by cases h),
        Nat.zero_le _, fun _ => hc.deframer.2.1⟩⟩
      · simp only [BitVec.toNat_ofNat]
        exact lt_of_le_of_lt (Nat.mod_le _ _) (by omega)
      · simp only [BitVec.toNat_ofNat]
        exact lt_of_le_of_lt (Nat.mod_le _ _) (modFree_lt (by omega) _)
    · exact ⟨_, rfl, ⟨fun h => absurd hs h, hd.cntSearching, hbc, hd.offset, hd.miss, hd.missSynced,
        hd.conf, hd.confChecking⟩⟩
  · next hs =>
    have hcnt := hd.cnt hs
    obtain ⟨f, hf⟩ := storeBit_total (c := c) (k := d.dfCnt.toNat) (by omega) frm b
    rw [hf, ok_bind]
    have hn : (d.dfCnt + 1).toNat = d.dfCnt.toNat + 1 := by
      rw [BitVec.toNat_add]
      show (d.dfCnt.toNat + 1) % 2 ^ 20 = _
      exact Nat.mod_eq_of_lt (by omega)
    split
    · next ha =>
      refine ⟨_, rfl, atMarker_ranges hc _ hs ?_ hbc hd.offset hd.miss hd.missSynced hd.conf
        hd.confChecking⟩
      dsimp only at ha ⊢
      omega
    · split
      · have hz : (0 : BitVec 20).toNat < c.frameBits := by show 0 < _; omega
        unfold atFrameEnd
        dsimp only
        split
        · obtain ⟨g, hg⟩ := storeBits_total (c := c) (List.replicate c.padBits false) f c.frameBits
            (fun i hi => by
              have : i < c.padBits := by simpa using hi
              omega)
          rw [hg, ok_map]
          exact ⟨_, rfl, ⟨fun _ => hz, fun _ => rfl, hbc, hd.offset, hd.miss, hd.missSynced,
            hd.conf, hd.confChecking⟩⟩
        · exact ⟨_, rfl, ⟨fun _ => hz, fun _ => rfl, hbc, hd.offset, hd.miss, hd.missSynced,
            hd.conf, hd.confChecking⟩⟩
      · next h1 h2 =>
        refine ⟨_, rfl, ⟨fun _ => ?_, fun h => absurd h hs, hbc, hd.offset, hd.miss, hd.missSynced,
          hd.conf, hd.confChecking⟩⟩
        dsimp only at h1 h2 ⊢
        omega

/-! ## Clamped symbols (R167) -/

/-- A memory none of whose entries is -128 reads -128 nowhere. -/
theorem Memory.read_clamped {m : Memory 8} (h : ∀ e ∈ m, e.2 ≠ 0x80#8) (a : Nat) :
    m.read a ≠ 0x80#8 := by
  induction m with
  | nil => exact (by decide : (0#8 : BitVec 8) ≠ 0x80#8)
  | cons p r ih =>
    unfold Memory.read
    split
    · exact h p (by simp)
    · exact ih fun e he => h e (by simp [he])

/-- Storing a clamped symbol keeps every entry clamped (R337). -/
theorem Memory.write_clamped {m : Memory 8} (h : ∀ e ∈ m, e.2 ≠ 0x80#8) (k : Nat) (x : Soft) :
    ∀ e ∈ m.write k (clampSoft x), e.2 ≠ 0x80#8 := by
  intro e he
  rcases Memory.mem_write m k _ e he with he | ⟨rfl, -⟩
  · exact h e he
  · show clampSoft x ≠ 0x80#8
    unfold clampSoft
    split
    · decide
    · assumption

theorem negSoft_clamped {x : Soft} (h : x ≠ 0x80#8) : negSoft x ≠ 0x80#8 := by
  unfold negSoft
  rw [if_neg h]
  revert x
  decide

/-- Normalising clamped symbols gives clamped symbols (R171). -/
theorem normalise_clamped (c : Cfg) (p : Phase) {x : Soft} (hx : x ≠ 0x80#8)
    (hp : p.iHold ≠ 0x80#8) :
    (normalise c p x).1.iHold ≠ 0x80#8 ∧ ∀ y ∈ (normalise c p x).2, y ≠ 0x80#8 := by
  unfold normalise
  split
  · next hb =>
    refine ⟨hp, fun y hy => ?_⟩
    rw [List.mem_singleton] at hy
    rw [hy]
    have hn : c.nph = 2 := by unfold Cfg.nph; rw [if_pos hb]
    unfold rotBpsk rotOf
    rw [hn]
    rcases Nat.mod_two_eq_zero_or_one p.hyp.toNat with e | e <;> rw [e]
    · exact hx
    · exact negSoft_clamped hx
  · split
    · refine ⟨hp, fun y hy => ?_⟩
      have hs : (swapIf (swapOf c p.hyp) (p.iHold, x)).1 ≠ 0x80#8 ∧
          (swapIf (swapOf c p.hyp) (p.iHold, x)).2 ≠ 0x80#8 := by
        unfold swapIf swapIq
        split
        · exact ⟨hx, hp⟩
        · exact ⟨hp, hx⟩
      revert hy
      generalize swapIf (swapOf c p.hyp) (p.iHold, x) = q at hs
      obtain ⟨h1, h2⟩ := hs
      unfold rotQpsk
      intro hy
      simp only [List.mem_cons, List.not_mem_nil, or_false] at hy
      split at hy
      · rcases hy with rfl | rfl
        · exact h1
        · exact h2
      · split at hy
        · rcases hy with rfl | rfl
          · exact negSoft_clamped h2
          · exact h1
        · split at hy
          · rcases hy with rfl | rfl
            · exact negSoft_clamped h1
            · exact negSoft_clamped h2
          · rcases hy with rfl | rfl
            · exact h2
            · exact negSoft_clamped h1
    · exact ⟨hx, fun y hy => (by cases hy)⟩

theorem invertPair_clamped (c : Cfg) {p : Soft × Soft} (h : p.1 ≠ 0x80#8 ∧ p.2 ≠ 0x80#8) :
    (invertPair c p).1 ≠ 0x80#8 ∧ (invertPair c p).2 ≠ 0x80#8 := by
  unfold invertPair
  constructor
  · dsimp only; split
    · exact negSoft_clamped h.1
    · exact h.1
  · dsimp only; split
    · exact negSoft_clamped h.2
    · exact h.2

theorem Puncture.place_clamped (p : Puncture) {d : Depunct} {v : Soft} (hd : d.dpR1 ≠ 0x80#8)
    (hv : v ≠ 0x80#8) : (p.place d v).1.dpR1 ≠ 0x80#8 ∧
      ∀ q ∈ (p.place d v).2, q.1 ≠ 0x80#8 ∧ q.2 ≠ 0x80#8 := by
  unfold Puncture.place
  split
  · refine ⟨hd, fun q hq => ?_⟩
    rw [List.mem_singleton] at hq
    rw [hq]
    exact ⟨hd, hv⟩
  · exact ⟨hv, fun q hq => (by cases hq)⟩

theorem Puncture.fill_clamped (p : Puncture) (n : Nat) {d : Depunct} (hd : d.dpR1 ≠ 0x80#8) :
    (p.fill n d).1.dpR1 ≠ 0x80#8 ∧
      ∀ q ∈ (p.fill n d).2, q.1 ≠ 0x80#8 ∧ q.2 ≠ 0x80#8 := by
  induction n generalizing d with
  | zero => exact ⟨hd, fun q hq => (by cases hq)⟩
  | succ n ih =>
    unfold Puncture.fill
    split
    · exact ⟨hd, fun q hq => (by cases hq)⟩
    · obtain ⟨h1, h2⟩ := p.place_clamped hd (v := 0#8) (by decide)
      obtain ⟨h3, h4⟩ := ih h1
      refine ⟨h3, fun q hq => ?_⟩
      rcases List.mem_append.1 hq with hq | hq
      · exact h2 q hq
      · exact h4 q hq

/-- Depuncturing clamped symbols gives clamped pairs: erasures are 0 (R198). -/
theorem depuncture_clamped {c : Cfg} {d : Depunct} {y : Soft} {r : Depunct × List (Soft × Soft)}
    (h : depuncture c d y = .ok r) (hd : d.dpR1 ≠ 0x80#8) (hy : y ≠ 0x80#8) :
    r.1.dpR1 ≠ 0x80#8 ∧ ∀ q ∈ r.2, q.1 ≠ 0x80#8 ∧ q.2 ≠ 0x80#8 := by
  unfold depuncture at h
  split at h
  · cases h
  · next p _ =>
    dsimp only at h
    split at h
    · cases h
      obtain ⟨h1, h2⟩ := p.place_clamped hd hy
      obtain ⟨h3, h4⟩ := p.fill_clamped (4 * p.period) h1
      refine ⟨h3, fun q hq => ?_⟩
      rcases List.mem_append.1 hq with hq | hq
      · exact h2 q hq
      · exact h4 q hq
    · cases h

/-! ## The decoder's ranges -/

theorem softCost_le {x : Soft} (hx : x ≠ 0x80#8) (b : Bool) : (softCost b x).toNat ≤ 254 := by
  unfold softCost
  rw [if_neg hx]
  revert x b
  decide

/-- The branch metrics of clamped symbols are at most 508 (R212). -/
theorem branchMetrics_le {r1 r2 : Soft} (h1 : r1 ≠ 0x80#8) (h2 : r2 ≠ 0x80#8) (a b : Bool) :
    ((branchMetrics r1 r2).get a b).toNat ≤ 508 := by
  have key : ∀ x y : BitVec 9, x.toNat ≤ 254 → y.toNat ≤ 254 → (x + y).toNat ≤ 508 := by
    intro x y hx hy
    rw [BitVec.toNat_add]
    exact le_trans (Nat.mod_le _ _) (by omega)
  cases a <;> cases b <;> exact key _ _ (softCost_le h1 _) (softCost_le h2 _)

theorem newMetric_le (v : Viterbi) (m : Metrics) (t : BitVec 6) (d : Bool) :
    newMetric v m t ≤ candidate v m t d := by
  have : newMetric v m t = if candidate v m t true < candidate v m t false
      then candidate v m t true else candidate v m t false := by
    unfold newMetric decision
    by_cases h : candidate v m t true < candidate v m t false <;> simp [h]
  rw [this]
  cases d <;> split <;> omega

theorem toNat_predecessor (t : BitVec 6) (d : Bool) :
    (predecessor t d).toNat = t.toNat / 2 + 32 * d.toNat := by
  revert t d
  decide

/-- Add-compare-select keeps the blocks of R216 growing from a state of metric 0. -/
theorem spread_addCompareSelect {c : Cfg} {v u : Viterbi} {m : Metrics}
    (h : addCompareSelect c v m = .ok u) (hm : ∀ a b, (m.get a b).toNat ≤ 508)
    (hv : ∀ k ≤ 6, ∃ z < 2 ^ (6 - k), ∀ t : BitVec 6, t.toNat / 2 ^ k = z → v.metric t ≤ 508 * k) :
    ∀ k ≤ 6, ∃ z < 2 ^ (6 - k), ∀ t : BitVec 6, t.toNat / 2 ^ k = z → u.metric t ≤ 508 * k := by
  intro k hk
  cases k with
  | zero =>
    obtain ⟨t, ht⟩ := zero_addCompareSelect h
    refine ⟨t.toNat, t.isLt, fun x hx => ?_⟩
    have : x = t := BitVec.eq_of_toNat_eq (by simpa using hx)
    rw [this, ht]
  | succ k =>
    obtain ⟨z, hz, hb⟩ := hv k (by omega)
    have hpos : 0 < 2 ^ (5 - k) := Nat.two_pow_pos _
    have hpow : 2 ^ (6 - k) = 2 * 2 ^ (5 - k) := by
      rw [show 6 - k = (5 - k) + 1 by omega, pow_succ, Nat.mul_comm]
    have hd : z / 2 ^ (5 - k) < 2 := (Nat.div_lt_iff_lt_mul hpos).2 (by omega)
    refine ⟨z % 2 ^ (5 - k), by rw [show 6 - (k + 1) = 5 - k by omega]; exact Nat.mod_lt _ hpos,
      fun t ht => ?_⟩
    have hdm := Nat.div_add_mod z (2 ^ (5 - k))
    obtain ⟨d, hd'⟩ : ∃ d : Bool, d.toNat = z / 2 ^ (5 - k) := by
      interval_cases hq : z / 2 ^ (5 - k)
      · exact ⟨false, rfl⟩
      · exact ⟨true, rfl⟩
    have h32 : 32 = 2 ^ (5 - k) * 2 ^ k := by
      rw [← pow_add, show 5 - k + k = 5 by omega]
      rfl
    have hp : (predecessor t d).toNat / 2 ^ k = z := by
      rw [toNat_predecessor, hd', h32]
      rw [show t.toNat / 2 + 2 ^ (5 - k) * 2 ^ k * (z / 2 ^ (5 - k)) =
        t.toNat / 2 + 2 ^ k * (2 ^ (5 - k) * (z / 2 ^ (5 - k))) by ring]
      rw [Nat.add_mul_div_left _ _ (Nat.two_pow_pos k), Nat.div_div_eq_div_mul,
        show 2 * 2 ^ k = 2 ^ (k + 1) by rw [pow_succ, Nat.mul_comm], ht]
      omega
    have h1 := hb _ hp
    have h2 := newMetric_le v m t d
    have h3 := hm (branchLabel t d).1 (branchLabel t d).2
    have h4 : candidate v m t d = v.metric (predecessor t d) +
        (m.get (branchLabel t d).1 (branchLabel t d).2).toNat := rfl
    rw [metric_addCompareSelect h]
    refine le_trans (Nat.mod_le _ _) ?_
    omega

/-- The counts of the error-rate window are in their ranges (R32, R35). -/
structure Viterbi.CountRanges (c : Cfg) (v : Viterbi) : Prop where
  berErrs : v.berErrs.toNat ≤ v.berTotal.toNat
  berTotal : v.berTotal.toNat ≤ 2 * v.berSteps.toNat
  berSteps : v.berSteps.toNat < c.berWin
  badCnt : v.badCnt.toNat ≤ c.outsyncAfter

theorem lockDecision_counts {c : Cfg} (hw : 0 < c.berWin) {v : Viterbi}
    (hb : v.badCnt.toNat ≤ c.outsyncAfter) : (lockDecision c v).CountRanges c := by
  have ho : c.outsyncAfter < 2 ^ 8 := field_lt _ _ _
  unfold lockDecision
  refine ⟨Nat.le_refl _, Nat.le_refl _, hw, ?_⟩
  dsimp only
  split
  · exact Nat.zero_le _
  · split
    · split
      · exact Nat.zero_le _
      · next h =>
        dsimp only
        rw [BitVec.toNat_add]
        exact le_trans (Nat.mod_le _ _) (by show _ + 1 ≤ _; omega)
    · exact hb
  · exact hb

theorem countSymbol_counts (e h s : Bool) {v : Viterbi} {n : Nat}
    (he : v.berErrs.toNat ≤ v.berTotal.toNat) (ht : v.berTotal.toNat ≤ n) (hn : n + 1 < 2 ^ 17) :
    (countSymbol e h s v).berErrs.toNat ≤ (countSymbol e h s v).berTotal.toNat ∧
      (countSymbol e h s v).berTotal.toNat ≤ n + 1 ∧
      (countSymbol e h s v).berSteps = v.berSteps ∧ (countSymbol e h s v).badCnt = v.badCnt := by
  have h1 : ∀ x : BitVec 17, x.toNat ≤ n → (x + 1).toNat = x.toNat + 1 := by
    intro x hx
    rw [BitVec.toNat_add]
    show (x.toNat + 1) % 2 ^ 17 = _
    exact Nat.mod_eq_of_lt (by omega)
  unfold countSymbol
  split
  · exact ⟨he, by omega, rfl, rfl⟩
  · refine ⟨?_, ?_, rfl, rfl⟩
    · dsimp only
      split
      · rw [h1 _ ht, h1 _ (by omega)]; omega
      · rw [h1 _ ht]; omega
    · dsimp only
      rw [h1 _ ht]; omega

theorem errorRate_counts {c : Cfg} (hw : 0 < c.berWin) {v u : Viterbi} {r1 r2 : Soft}
    {b : Option Bool} (h : errorRate c v r1 r2 b = .ok u) (hv : v.CountRanges c) :
    u.CountRanges c := by
  obtain ⟨_, -, rfl⟩ := (map_ok_iff _ _ _).1 h
  cases b with
  | none => exact ⟨hv.berErrs, hv.berTotal, hv.berSteps, hv.badCnt⟩
  | some b =>
    have hlt : c.berWin < 2 ^ 16 := field_lt _ _ _
    obtain ⟨e1, e2, e3, e4⟩ := hv
    dsimp only
    unfold compareReencoded
    dsimp only
    obtain ⟨a1, a2, a3, a4⟩ := countSymbol_counts
      ((v.dly.read v.histWp.toNat).getLsbD 2) ((v.dly.read v.histWp.toNat).getLsbD 3)
      (convEncode v.reenc b).2.1
      (v := { v with
        dly := v.dly.write v.histWp.toNat (delayEntry r1 r2), reenc := (convEncode v.reenc b).1 })
      (n := 2 * v.berSteps.toNat) e1 e2 (by omega)
    generalize countSymbol ((v.dly.read v.histWp.toNat).getLsbD 2)
      ((v.dly.read v.histWp.toNat).getLsbD 3) (convEncode v.reenc b).2.1 _ = x at a1 a2 a3 a4
    obtain ⟨b1, b2, b3, b4⟩ := countSymbol_counts
      ((v.dly.read v.histWp.toNat).getLsbD 0) ((v.dly.read v.histWp.toNat).getLsbD 1)
      (convEncode v.reenc b).2.2 (v := x) (n := 2 * v.berSteps.toNat + 1) a1 a2 (by omega)
    generalize countSymbol ((v.dly.read v.histWp.toNat).getLsbD 0)
      ((v.dly.read v.histWp.toNat).getLsbD 1) (convEncode v.reenc b).2.2 x = y at b1 b2 b3 b4
    have hbad : y.badCnt.toNat ≤ c.outsyncAfter := by rw [b4, a4]; exact e4
    have hst : (y.berSteps + 1).toNat = v.berSteps.toNat + 1 := by
      rw [b3, a3, BitVec.toNat_add]
      show (v.berSteps.toNat + 1) % 2 ^ 16 = _
      exact Nat.mod_eq_of_lt (by omega)
    split
    · exact lockDecision_counts hw hbad
    · next hne =>
      rw [hst] at hne
      refine ⟨b1, ?_, ?_, hbad⟩
      · dsimp only; rw [hst]; omega
      · dsimp only; rw [hst]; omega

theorem Viterbi.Ranges.counts {c : Cfg} {v : Viterbi} (h : v.Ranges c) : v.CountRanges c :=
  ⟨h.berErrs, h.berTotal, h.berSteps, h.badCnt⟩

/-- Ranges of a decoder whose path metrics are all 0 and whose counts are 0. -/
theorem Viterbi.Ranges.of_clear {c : Cfg} (hc : c.Legal) {v : Viterbi} (hp : v.histWp = 0)
    (hn : v.vitN = 0) (h1 : v.berErrs = 0) (h2 : v.berTotal = 0) (h3 : v.berSteps = 0)
    (h4 : v.badCnt = 0) (hm : ∀ t, v.metric t = 0) : v.Ranges c := by
  refine ⟨?_, ?_, ?_, ?_, ?_, ?_, ?_, ?_⟩
  · rw [hp]; exact hc.tbd
  · rw [hn]; exact Nat.zero_le _
  · rw [h1]; exact Nat.zero_le _
  · rw [h2]; exact Nat.zero_le _
  · rw [h3]; exact hc.berWin
  · rw [h4]; exact Nat.zero_le _
  · intro k _
    exact ⟨0, Nat.two_pow_pos _, fun t _ => by rw [hm]; exact Nat.zero_le _⟩
  · intro t; rw [hm]; exact Nat.zero_le _

/-- A trellis step on clamped symbols keeps the decoder's ranges (R216, R226, R229, R230). -/
theorem trellisStep_ranges {c : Cfg} (hw : 0 < c.berWin) {v : Viterbi} {r1 r2 : Soft}
    {r : Viterbi × Option Bool} (h : trellisStep c v r1 r2 = .ok r) (hv : v.Ranges c)
    (h1 : r1 ≠ 0x80#8) (h2 : r2 ≠ 0x80#8) : r.1.Ranges c := by
  obtain ⟨-, -, -, hwp, hvn⟩ := trellisStep_ok h
  have hvn := hvn hv.vitN
  unfold trellisStep at h
  obtain ⟨v1, ha, h⟩ := (bind_ok_iff _ _ _).1 h
  obtain ⟨v3, he, h⟩ := (bind_ok_iff _ _ _).1 h
  cases h
  obtain ⟨n, hn, -⟩ := countStep_eq c v1
  rw [hn] at he
  have hs := spread_addCompareSelect ha (branchMetrics_le h1 h2) hv.spread
  obtain ⟨-, e1⟩ := addCompareSelect_ok ha
  have hc1 : ({ v1 with vitN := n } : Viterbi).CountRanges c := by
    rw [e1]
    exact ⟨hv.berErrs, hv.berTotal, hv.berSteps, hv.badCnt⟩
  obtain ⟨q1, q2, q3, q4⟩ := errorRate_counts hw he hc1
  obtain ⟨-, hpm, -⟩ := errorRate_ok he
  have hm : ∀ t, v3.metric t = v1.metric t := fun t =>
    (congrFun (metric_of_pm_eq hpm) t).trans rfl
  have hs' : ∀ k ≤ 6, ∃ z < 2 ^ (6 - k), ∀ t : BitVec 6, t.toNat / 2 ^ k = z →
      v3.metric t ≤ 508 * k := by
    intro k hk
    obtain ⟨z, hz, hb⟩ := hs k hk
    exact ⟨z, hz, fun t ht => by rw [hm]; exact hb t ht⟩
  refine ⟨hwp, hvn, q1, q2, q3, q4, hs', fun t => ?_⟩
  obtain ⟨z, hz, hb⟩ := hs' 6 (Nat.le_refl _)
  refine hb t ?_
  have := t.isLt
  have : z = 0 := by simpa using hz
  rw [this]
  omega

/-- A flush returns at most TBD bits (R232). -/
theorem length_flushList {c : Cfg} {v : Viterbi} {l : List Bool} (h : flushList c v = .ok l)
    (hc : 0 < c.tbd) (hn : v.vitN.toNat ≤ c.tbd + 1) : l.length ≤ c.tbd := by
  have hf : ∀ last n k st, (flushBits c v last n k st).length = n := by
    intro last n
    induction n with
    | zero => intro k st; rfl
    | succ n ih => intro k st; unfold flushBits; simp [ih]
  unfold flushList at h
  split at h
  · cases h; exact Nat.zero_le _
  · next h0 =>
    split at h
    · cases h
    · cases h
      have : v.vitN.toNat ≠ 0 := fun e => h0 (BitVec.eq_of_toNat_eq e)
      simp only [List.length_reverse, List.length_cons, hf]
      unfold heldBits
      split <;> omega

/-! ## What the datapath leaves alone -/

/-- A part of the datapath touches nothing of the host's, of the batch, of the input FIFO, of the
surroundings and of the controller but `unsync_bits`. -/
structure Kept (s t : State) : Prop where
  cfg : t.cfg = s.cfg
  health : t.health = s.health
  sym : t.sym = s.sym
  inq : t.inq = s.inq
  env : t.env = s.env
  ctl : t.ctl = { s.ctl with unsyncBits := t.ctl.unsyncBits }
  hyp : t.ph.hyp = s.ph.hyp
  skip : t.ph.skip = s.ph.skip
  hold : t.ph.iHold = s.ph.iHold

theorem Kept.refl (s : State) : Kept s s := ⟨rfl, rfl, rfl, rfl, rfl, rfl, rfl, rfl, rfl⟩

theorem Kept.trans {s t u : State} (h : Kept s t) (k : Kept t u) : Kept s u := by
  refine ⟨k.cfg.trans h.cfg, k.health.trans h.health, k.sym.trans h.sym, k.inq.trans h.inq,
    k.env.trans h.env, ?_, k.hyp.trans h.hyp, k.skip.trans h.skip, k.hold.trans h.hold⟩
  rw [k.ctl, h.ctl]

/-- The registers the datapath's ranges speak of are as before. -/
theorem Bounds.of_eq {s t : State} (h : Bounds s) (h1 : t.cfg = s.cfg) (h2 : t.ph.hyp = s.ph.hyp)
    (h3 : t.vit = s.vit) (h4 : t.dp.dpK = s.dp.dpK) (h5 : t.df = s.df)
    (h6 : t.ctl.flI = s.ctl.flI) : Bounds t := by
  constructor
  · rw [h1, h2]; exact h.hyp
  · rw [h1, h4]; exact h.dpK
  · rw [h1, h3]; exact h.vit
  · rw [h1, h5]; exact h.df
  · rw [h1, h6]; exact h.flI

/-! ## One candidate frame -/

/-- What processing a frame can write: FRM, CW, the counts and OUT. -/
theorem processFrame_eq {s t : State} (h : processFrame s = .ok t) :
    ∃ f w r o, t = { s with frm := f, cw := w, hRs := r, outq := o } ∧
      (o = s.outq ∨ o = s.outq ++ [frameOf s.cfg f]) := by
  obtain ⟨u, hu, rfl⟩ := (map_ok_iff _ _ _).1 h
  have hd : ∀ (m : Nat) (x : State), ∃ g, derandAt m x = { x with frm := g } := by
    intro m x
    unfold derandAt
    split
    · exact ⟨_, rfl⟩
    · exact ⟨x.frm, rfl⟩
  obtain ⟨g1, e1⟩ := hd 1 s
  rw [e1] at hu
  have hu' : ∃ f w r, u = { s with frm := f, cw := w, hRs := r } := by
    unfold correctFrame decodeFrame at hu
    split at hu
    · obtain ⟨l, -, rfl⟩ := (map_ok_iff _ _ _).1 hu
      exact ⟨l.frm, l.cw, l.hRs, rfl⟩
    · cases hu
      exact ⟨g1, s.cw, noCounts, rfl⟩
  obtain ⟨f, w, r, rfl⟩ := hu'
  obtain ⟨g2, e2⟩ := hd 2 { s with frm := f, cw := w, hRs := r }
  simp only [e2]
  split
  · exact ⟨g2, w, r, s.outq ++ [frameOf s.cfg g2], rfl, .inr rfl⟩
  · exact ⟨g2, w, r, s.outq, rfl, .inl rfl⟩

theorem processFrame_total {s : State} (hc : s.cfg.Legal) : ∃ t, processFrame s = .ok t := by
  have hcfg : (derandAt 1 s).cfg = s.cfg := by unfold derandAt; split <;> rfl
  have : ∃ u, correctFrame (derandAt 1 s) = .ok u := by
    unfold correctFrame
    rw [hcfg]
    split
    · next hr =>
      obtain ⟨h1, h2, h3⟩ := hc.rs hr
      obtain ⟨l, hl⟩ := decodeLanes_total (c := s.cfg) s.cfg.rsDepth
        ⟨(derandAt 1 s).frm, (derandAt 1 s).cw, noCounts⟩ 0 (by omega) (fun i hi => by omega)
      unfold decodeFrame
      rw [hcfg, hl]
      exact ⟨_, rfl⟩
    · exact ⟨_, rfl⟩
  obtain ⟨u, hu⟩ := this
  unfold processFrame
  rw [hu]
  exact ⟨_, rfl⟩

/-! ## One decoded bit -/

/-- What routing a bit can write. -/
theorem routeBit_eq {s t : State} {b : Bool} (h : routeBit s b = .ok t) :
    ∃ p n, pushBit s.cfg s.df s.frm
        (if s.cfg.nrzm then Bool.xor b s.ph.nrzmPrev else b) = .ok p ∧
      n = countUnsync p.df.dfState s.ctl.unsyncBits ∧
      ∃ f w r o, t = { s with
        ph := { s.ph with nrzmPrev := if s.cfg.nrzm then b else s.ph.nrzmPrev }
        df := p.df
        ctl := { s.ctl with unsyncBits := n }
        frm := f, cw := w, hRs := r, outq := o } ∧
        (o = s.outq ∨ o = s.outq ++ [frameOf s.cfg f]) := by
  unfold routeBit diffDecode at h
  dsimp only at h
  obtain ⟨p, hp, h⟩ := (bind_ok_iff _ _ _).1 h
  refine ⟨p, _, ?_, rfl, ?_⟩
  · rw [← hp]
    split <;> rfl
  · split at h
    · obtain ⟨f, w, r, o, rfl, ho⟩ := processFrame_eq h
      refine ⟨f, w, r, o, ?_, ho⟩
      split <;> rfl
    · cases h
      refine ⟨p.frm, s.cw, s.hRs, s.outq, ?_, .inl rfl⟩
      split <;> rfl

theorem routeBit_kept {s t : State} {b : Bool} (h : routeBit s b = .ok t) :
    Kept s t ∧ t.vit = s.vit ∧ t.dp = s.dp ∧
      ∃ p, pushBit s.cfg s.df s.frm (if s.cfg.nrzm then Bool.xor b s.ph.nrzmPrev else b) = .ok p ∧
        t.df = p.df := by
  obtain ⟨p, n, hp, -, f, w, r, o, rfl, -⟩ := routeBit_eq h
  exact ⟨⟨rfl, rfl, rfl, rfl, rfl, rfl, rfl, rfl, rfl⟩, rfl, rfl, p, hp, rfl⟩

theorem routeBit_bounds {s t : State} {b : Bool} (hc : s.cfg.Legal) (hb : Bounds s)
    (h : routeBit s b = .ok t) : Bounds t := by
  obtain ⟨k, h1, h2, p, hp, h3⟩ := routeBit_kept h
  obtain ⟨q, hq, hr⟩ := pushBit_total hc hb.df s.frm
    (if s.cfg.nrzm then Bool.xor b s.ph.nrzmPrev else b)
  rw [hp] at hq
  cases hq
  constructor
  · rw [k.cfg, k.hyp]; exact hb.hyp
  · rw [k.cfg, h2]; exact hb.dpK
  · rw [k.cfg, h1]; exact hb.vit
  · rw [k.cfg, h3]; exact hr
  · rw [k.cfg, k.ctl]; exact hb.flI

theorem routeBit_total {s : State} (hc : s.cfg.Legal) (hb : Bounds s) (b : Bool) :
    ∃ t, routeBit s b = .ok t := by
  obtain ⟨p, hp, -⟩ := pushBit_total hc hb.df s.frm
    (if s.cfg.nrzm then diffDecode s.ph b else (s.ph, b)).2
  unfold routeBit
  dsimp only
  rw [hp, ok_bind]
  split
  · exact processFrame_total hc
  · exact ⟨_, rfl⟩

/-! ## Pairs and symbols -/

theorem routePair_spec {s : State} (hc : s.cfg.Legal) (hb : Bounds s) {p : Soft × Soft}
    (hp : p.1 ≠ 0x80#8 ∧ p.2 ≠ 0x80#8) :
    ∃ t, routePair s p = .ok t ∧ Kept s t ∧ Bounds t ∧ t.dp = s.dp := by
  obtain ⟨r, hr⟩ := trellisStep_total hb.vit.histWp (invertPair s.cfg p).1 (invertPair s.cfg p).2
  have hq := invertPair_clamped s.cfg hp
  have hb' : Bounds { s with vit := r.1 } :=
    ⟨hb.hyp, hb.dpK, trellisStep_ranges hc.berWin hr hb.vit hq.1 hq.2, hb.df, hb.flI⟩
  unfold routePair
  dsimp only
  rw [hr, ok_bind]
  split
  · exact ⟨_, rfl, ⟨rfl, rfl, rfl, rfl, rfl, rfl, rfl, rfl, rfl⟩, hb', rfl⟩
  · next b _ =>
    obtain ⟨t, ht⟩ := routeBit_total (s := { s with vit := r.1 }) hc hb' b
    obtain ⟨k, -, hdp, -⟩ := routeBit_kept ht
    have k' : Kept s { s with vit := r.1 } := ⟨rfl, rfl, rfl, rfl, rfl, rfl, rfl, rfl, rfl⟩
    exact ⟨t, ht, k'.trans k, routeBit_bounds (s := { s with vit := r.1 }) hc hb' ht, hdp⟩

theorem routePairs_spec (l : List (Soft × Soft)) {s : State} (hc : s.cfg.Legal) (hb : Bounds s)
    (hl : ∀ p ∈ l, p.1 ≠ 0x80#8 ∧ p.2 ≠ 0x80#8) :
    ∃ t, routePairs s l = .ok t ∧ Kept s t ∧ Bounds t ∧ t.dp = s.dp := by
  induction l generalizing s with
  | nil => exact ⟨s, rfl, Kept.refl s, hb, rfl⟩
  | cons p r ih =>
    obtain ⟨t, ht, k, bt, dt⟩ := routePair_spec hc hb (hl p (by simp))
    unfold routePairs
    rw [ht, ok_bind]
    obtain ⟨u, hu, ku, bu, du⟩ := ih (s := t) (by rw [k.cfg]; exact hc) bt
      (fun q hq => hl q (by simp [hq]))
    exact ⟨u, hu, k.trans ku, bu, du.trans dt⟩

theorem routeSymbol_spec {s : State} (hc : s.cfg.Legal) (hb : Bounds s) {y : Soft}
    (hd : s.dp.dpR1 ≠ 0x80#8) (hy : y ≠ 0x80#8) :
    ∃ t, routeSymbol s y = .ok t ∧ Kept s t ∧ Bounds t ∧ t.dp.dpR1 ≠ 0x80#8 := by
  obtain ⟨p, hp, hk⟩ := hb.dpK
  obtain ⟨r, hr, hk'⟩ := depuncture_total hp s.dp hk y
  obtain ⟨hd', hl⟩ := depuncture_clamped hr hd hy
  have hb' : Bounds { s with dp := r.1 } := ⟨hb.hyp, ⟨p, hp, hk'⟩, hb.vit, hb.df, hb.flI⟩
  unfold routeSymbol
  rw [hr, ok_bind]
  obtain ⟨t, ht, k, bt, dt⟩ := routePairs_spec r.2 (s := { s with dp := r.1 }) hc hb' hl
  have k' : Kept s { s with dp := r.1 } := ⟨rfl, rfl, rfl, rfl, rfl, rfl, rfl, rfl, rfl⟩
  exact ⟨t, ht, k'.trans k, bt, by rw [dt]; exact hd'⟩

theorem routeSymbols_spec (l : List Soft) {s : State} (hc : s.cfg.Legal) (hb : Bounds s)
    (hd : s.dp.dpR1 ≠ 0x80#8) (hl : ∀ y ∈ l, y ≠ 0x80#8) :
    ∃ t, routeSymbols s l = .ok t ∧ Kept s t ∧ Bounds t ∧ t.dp.dpR1 ≠ 0x80#8 := by
  induction l generalizing s with
  | nil => exact ⟨s, rfl, Kept.refl s, hb, hd⟩
  | cons y r ih =>
    obtain ⟨t, ht, k, bt, dt⟩ := routeSymbol_spec hc hb hd (hl y (by simp))
    unfold routeSymbols
    rw [ht, ok_bind]
    obtain ⟨u, hu, ku, bu, du⟩ := ih (s := t) (by rw [k.cfg]; exact hc) bt dt
      (fun q hq => hl q (by simp [hq]))
    exact ⟨u, hu, k.trans ku, bu, du⟩

/-- Normalising a symbol writes `have_i` and `hold_i` only. -/
theorem normalise_eq (c : Cfg) (p : Phase) (x : Soft) :
    ∃ a b, (normalise c p x).1 = { p with iHave := a, iHold := b } := by
  unfold normalise
  split
  · exact ⟨p.iHave, p.iHold, rfl⟩
  · split
    · exact ⟨false, p.iHold, rfl⟩
    · exact ⟨true, x, rfl⟩

/-- What taking one symbol of the batch leaves alone, `skip` aside (R339, R340). -/
structure KeptButSkip (s t : State) : Prop where
  cfg : t.cfg = s.cfg
  health : t.health = s.health
  sym : t.sym = s.sym
  inq : t.inq = s.inq
  env : t.env = s.env
  ctl : t.ctl = { s.ctl with unsyncBits := t.ctl.unsyncBits }
  hyp : t.ph.hyp = s.ph.hyp

theorem takeSymbol_spec {s : State} (hc : s.cfg.Legal) (hb : Bounds s) (hs : Clamped s) {x : Soft}
    (hx : x ≠ 0x80#8) :
    ∃ t, takeSymbol s x = .ok t ∧ KeptButSkip s t ∧ Bounds t ∧ Clamped t := by
  unfold takeSymbol
  split
  · exact ⟨_, rfl, ⟨rfl, rfl, rfl, rfl, rfl, rfl, rfl⟩, ⟨hb.hyp, hb.dpK, hb.vit, hb.df, hb.flI⟩,
      ⟨hs.sym, hs.hold, hs.first⟩⟩
  · obtain ⟨a, b, hn⟩ := normalise_eq s.cfg s.ph x
    obtain ⟨hh, hl⟩ := normalise_clamped s.cfg s.ph hx hs.hold
    have hb' : Bounds { s with ph := (normalise s.cfg s.ph x).1 } := by
      rw [hn]
      exact ⟨hb.hyp, hb.dpK, hb.vit, hb.df, hb.flI⟩
    obtain ⟨t, ht, k, bt, dt⟩ := routeSymbols_spec (normalise s.cfg s.ph x).2
      (s := { s with ph := (normalise s.cfg s.ph x).1 }) hc hb' hs.first hl
    have kh : t.ph.hyp = s.ph.hyp := by rw [k.hyp, hn]
    refine ⟨t, ht, ⟨k.cfg, k.health, k.sym, k.inq, k.env, k.ctl, kh⟩, bt, ?_, ?_, dt⟩
    · rw [k.sym]; exact hs.sym
    · rw [k.hold]; exact hh

/-! ## The steps of the loop -/

/-- One symbol of the batch (R339): the step answers; the sequencer moves on when the batch is
used up. -/
theorem dataStep_spec {s : State} (hc : s.cfg.Legal) (hb : Bounds s) (hs : Clamped s)
    (hi : s.ctl.symI.toNat < s.cfg.batchLen) :
    ∃ t, dataStep s = .ok t ∧ t.cfg = s.cfg ∧ t.health = s.health ∧ t.sym = s.sym ∧
      t.inq = s.inq ∧ t.env = s.env ∧ Bounds t ∧ Clamped t ∧
      t.ctl = { s.ctl with
        unsyncBits := t.ctl.unsyncBits
        symI := s.ctl.symI + 1
        seq := if s.ctl.symI + 1 = s.ctl.symN then .resync else s.ctl.seq } := by
  have hb' : Bounds { s with ctl := { s.ctl with symI := s.ctl.symI + 1 } } :=
    ⟨hb.hyp, hb.dpK, hb.vit, hb.df, hb.flI⟩
  obtain ⟨t, ht, k, bt, ct⟩ := takeSymbol_spec
    (s := { s with ctl := { s.ctl with symI := s.ctl.symI + 1 } }) hc hb'
    ⟨hs.sym, hs.hold, hs.first⟩ (Memory.read_clamped hs.sym s.ctl.symI.toNat)
  unfold dataStep
  rw [within_ok hi, ok_bind]
  dsimp only at ht ⊢
  rw [ht, ok_bind]
  have hI : t.ctl.symI = s.ctl.symI + 1 := by rw [k.ctl]
  have hN : t.ctl.symN = s.ctl.symN := by rw [k.ctl]
  have hctl := k.ctl
  rw [hI, hN]
  split
  · refine ⟨_, rfl, k.cfg, k.health, k.sym, k.inq, k.env,
      bt.of_eq rfl rfl rfl rfl rfl rfl, ⟨ct.sym, ct.hold, ct.first⟩, ?_⟩
    show { t.ctl with seq := .resync } = _
    rw [hctl]
    rfl
  · refine ⟨_, rfl, k.cfg, k.health, k.sym, k.inq, k.env, bt, ct, ?_⟩
    rw [hctl]

/-- One flush bit (R348): the step answers, and either a bit was routed or the last publish
follows. -/
theorem flushStep_spec {s : State} (hc : s.cfg.Legal) (hb : Bounds s) (hs : Clamped s) :
    ∃ t, flushStep s = .ok t ∧ t.cfg = s.cfg ∧ t.health = s.health ∧ t.sym = s.sym ∧
      t.inq = s.inq ∧ t.env = s.env ∧ Bounds t ∧ Clamped t ∧
      (t.ctl = { s.ctl with unsyncBits := t.ctl.unsyncBits, flI := s.ctl.flI + 1 } ∨
        t = { s with ctl := { s.ctl with finalRun := true, seq := .publish } }) := by
  obtain ⟨l, hl⟩ := flushList_total hc.tbd s.vit
  unfold flushStep
  rw [hl, ok_bind]
  split
  · next b hbit =>
    obtain ⟨t, ht⟩ := routeBit_total hc hb b
    obtain ⟨k, -, hdp, -⟩ := routeBit_kept ht
    have bt := routeBit_bounds hc hb ht
    rw [ht, ok_bind]
    have hf : t.ctl.flI = s.ctl.flI := by rw [k.ctl]
    have hlen := length_flushList hl hc.tbd hb.vit.vitN
    have hlt : s.ctl.flI.toNat < l.length := by
      by_contra h
      rw [List.getElem?_eq_none (by omega)] at hbit
      cases hbit
    have hn : (t.ctl.flI + 1).toNat ≤ t.cfg.tbd := by
      rw [hf, k.cfg, BitVec.toNat_add]
      exact le_trans (Nat.mod_le _ _) (by show _ + 1 ≤ _; omega)
    refine ⟨_, rfl, k.cfg, k.health, k.sym, k.inq, k.env,
      ⟨bt.hyp, bt.dpK, bt.vit, bt.df, hn⟩, ⟨?_, ?_, ?_⟩, .inl ?_⟩
    · dsimp only; rw [k.sym]; exact hs.sym
    · dsimp only; rw [k.hold]; exact hs.hold
    · dsimp only; rw [hdp]; exact hs.first
    · have hctl := k.ctl
      dsimp only
      rw [hf, hctl]
  · exact ⟨_, rfl, rfl, rfl, rfl, rfl, rfl, hb.of_eq rfl rfl rfl rfl rfl rfl,
      ⟨hs.sym, hs.hold, hs.first⟩, .inr rfl⟩

/-! ## Hypotheses and the cleared datapath -/

theorem Cfg.nph_pos (c : Cfg) : 0 < c.nph := by unfold Cfg.nph; split <;> omega

theorem Cfg.nhyp_pos (c : Cfg) : 0 < c.nhyp := by
  have := c.nph_pos
  unfold Cfg.nhyp
  split <;> omega

theorem Cfg.nhyp_le (c : Cfg) : c.nhyp ≤ 8 := by
  unfold Cfg.nhyp Cfg.nph
  cases c.isBpsk <;> cases c.swapSearch <;> simp

theorem nextHyp_hyp (c : Cfg) (p : Phase) : (nextHyp c p).hyp.toNat < c.nhyp := by
  unfold nextHyp
  simp only [BitVec.toNat_ofNat]
  exact lt_of_le_of_lt (Nat.mod_le _ _) (Nat.mod_lt _ c.nhyp_pos)

/-- The ranges of a deframer that searches with every other register 0. -/
theorem Deframer.Ranges.of_clear {c : Cfg} (hc : c.Legal) :
    (⟨.searching, 0, 0, 0, 0, 0, 0⟩ : Deframer).Ranges c := by
  have hf : 0 < c.frameBits := by have := hc.frame; omega
  exact ⟨fun h => absurd rfl h, fun _ => rfl, hf, hf, Nat.zero_le _, fun h => (by cases h),
    Nat.zero_le _, fun h => (by cases h)⟩

/-- The cleared datapath is in its ranges on a legal configuration (R350). -/
theorem clearDatapath_bounds {s : State} (hc : s.cfg.Legal)
    (hh : s.ph.hyp.toNat < s.cfg.nhyp) (hf : s.ctl.flI.toNat ≤ s.cfg.tbd) :
    Bounds (clearDatapath s) := by
  obtain ⟨p, hp, hpos⟩ := puncture_total hc.rate
  exact ⟨hh, ⟨p, hp, hpos⟩,
    .of_clear hc rfl rfl rfl rfl rfl rfl (metric_clearViterbi s.vit), .of_clear hc, hf⟩

/-- Clearing the datapath keeps `hold_i`, `dp_r1` and SYM (R350, log 5). -/
theorem clearDatapath_clamped {s : State} (h : Clamped s) : Clamped (clearDatapath s) :=
  ⟨h.sym, h.hold, h.first⟩

/-- The number of hypotheses is the number of rotations or twice that. -/
theorem Cfg.nhyp_cases (c : Cfg) : c.nhyp = c.nph ∨ c.nhyp = c.nph * 2 := by
  unfold Cfg.nhyp
  split
  · exact .inr rfl
  · exact .inl rfl

/-- Replacing the rotation keeps the hypothesis in its range (R156). -/
theorem replaced_hyp_lt {c : Cfg} {h p : Nat} (hh : h < c.nhyp) (hp : p < c.nph) :
    h / c.nph * c.nph + p < c.nhyp := by
  have h0 := c.nph_pos
  rcases c.nhyp_cases with e | e
  · rw [e] at hh ⊢
    rw [Nat.div_eq_of_lt hh]
    omega
  · rw [e] at hh ⊢
    have : h / c.nph < 2 := (Nat.div_lt_iff_lt_mul h0).2 (by omega)
    interval_cases h / c.nph <;> omega

/-! ## The correlator in a run -/

/-- CORR.APPLY keeps held symbols clamped (R156, log 5). -/
theorem applySearch_clamped {s : State} (h : Clamped s) (f : Bool) (p : BitVec 2)
    (o : BitVec 16) : Clamped (applySearch s f p o) := by
  unfold applySearch
  split
  · exact ⟨h.sym, h.hold, h.first⟩
  · exact h

/-- In a batch of a legal configuration a search makes no index outside its spaces (R150, R381). -/
theorem searchBounds_total {s : State} (hc : s.cfg.Legal) (hu : s.cfg.useCorr = true)
    (hn : s.ctl.symN.toNat ≤ s.cfg.batchLen) : searchBounds s = .ok () := by
  obtain ⟨h1, h2, h3⟩ := hc.corr hu
  have hwl : windowLen s ≤ s.cfg.batchLen := by
    unfold windowLen
    exact le_trans (Nat.div_mul_le_self _ _) (le_trans (min_le_left _ _) hn)
  unfold searchBounds
  split
  · rfl
  · rw [within_ok (by omega), ok_bind, within_ok (by omega), ok_bind, if_pos]
    rw [List.all_eq_true]
    intro j hj
    simp [h3 j (List.mem_range.1 hj)]

/-- A candidate's phase is a rotation (R155). -/
theorem mem_candidates_ph {s : State} {x : Hit} (h : x ∈ candidates s) :
    x.ph.toNat < s.cfg.nph := by
  unfold candidates at h
  simp only [List.mem_flatMap, List.mem_map] at h
  obtain ⟨ph, hph, o, ho, j, hj, rfl⟩ := h
  have hph := List.mem_range.1 hph
  have h4 : s.cfg.nph ≤ 4 := by unfold Cfg.nph; split <;> omega
  show (BitVec.ofNat 2 ph).toNat < _
  rw [BitVec.toNat_ofNat]
  exact lt_of_le_of_lt (Nat.mod_le _ _) hph

/-- The best of a list is one of it (R155). -/
theorem foldl_better_mem (l : List Hit) (b : Option Hit) (x : Hit) (h : l.foldl better b = some x) :
    x ∈ l ∨ b = some x := by
  induction l generalizing b with
  | nil => exact .inr h
  | cons y r ih =>
    rcases ih _ h with h | h
    · exact .inl (by simp [h])
    · unfold better at h
      split at h
      · cases h; exact .inl (by simp)
      · split at h
        · cases h; exact .inl (by simp)
        · exact .inr h

/-- What a search finds is a rotation (R155). -/
theorem search_ph {s : State} {x : Hit} (h : search s = some x) : x.ph.toNat < s.cfg.nph := by
  unfold search at h
  split at h
  · cases h
  · next b hb =>
    split at h
    · cases h
      rcases foldl_better_mem _ _ _ hb with h | h
      · exact mem_candidates_ph h
      · cases h
    · cases h

/-- CORR.APPLY leaves the configuration, the surroundings and the controller but `unsync_bits`
(R156). -/
theorem applySearch_keeps (s : State) (f : Bool) (p : BitVec 2) (o : BitVec 16) :
    (applySearch s f p o).cfg = s.cfg ∧ (applySearch s f p o).env = s.env ∧
    ∃ n, (applySearch s f p o).ctl = { s.ctl with unsyncBits := n } := by
  unfold applySearch
  split
  · exact ⟨rfl, rfl, 0, rfl⟩
  · exact ⟨rfl, rfl, _, rfl⟩

/-- CORR.APPLY keeps the ranges (R156, R350). -/
theorem applySearch_bounds {s : State} (hc : s.cfg.Legal) (hb : Bounds s) (f : Bool)
    {p : BitVec 2} (o : BitVec 16)
    (hp : f = true → p.toNat < s.cfg.nph) : Bounds (applySearch s f p o) := by
  unfold applySearch
  split
  · next h =>
    have hf : f = true := by
      revert h; cases f <;> simp
    have := replaced_hyp_lt hb.hyp (hp hf)
    refine clearDatapath_bounds (s := { s with ph := { s.ph with
      hyp := BitVec.ofNat 3 (s.ph.hyp.toNat / s.cfg.nph * s.cfg.nph + p.toNat)
      skip := s.ph.skip + o.zeroExtend 32 } }) hc ?_ hb.flI
    show (BitVec.ofNat 3 _).toNat < _
    rw [BitVec.toNat_ofNat]
    exact lt_of_le_of_lt (Nat.mod_le _ _) this
  · exact hb

end Sys2Proof.Machine
end

