-- ==== Sys2Proof/Tests/Slice0.lean ====
section
/-! SUPPORT. Tests: the well-formedness smoke test, a word written out for every operation, one small
step for the operations (expected values from the examples of the rules and from 95_test_vectors),
and a state that meets the hypotheses of each statement that has any. -/

namespace Sys2Proof.Tests
open Sys2Proof.Machine

-- One theorem after another: checked at once, the kernel evaluations below hold too many threads.
set_option Elab.async false

/-! ## Well-formedness -/

/-- A write to CTRL with a command in its low bits is that command, not HOST.CFGW (R112). -/
theorem test_wf_refuses_start : (Instr.hostCfgw 0x00#8 0x00000001#32).wf = false := by decide
theorem test_wf_refuses_cancel : (Instr.hostCfgw 0x00#8 0xFFFFFFF2#32).wf = false := by decide
theorem test_wf_refuses_reset : (Instr.hostCfgw 0x00#8 0x00000003#32).wf = false := by decide
theorem test_wf_admits_no_command : (Instr.hostCfgw 0x00#8 0x00000004#32).wf = true := by decide
theorem test_wf_admits_other_address : (Instr.hostCfgw 0x01#8 0x00000003#32).wf = true := by decide

/-! ## A word written out for every operation (R111 to R115) -/

/-- `wr 0x14, 0x00002000`: rw 1, address 0001_0100, data (R122's example). -/
theorem test_decode_bus :
    decode (.bus 0b1_00010100_00000000000000000010000000000000#41) =
      .ok (.hostCfgw 0x14#8 0x2000#32) ∧
    decode (.bus 0b0_00010101_00000000000000000000000000000000#41) = .ok (.hostRd 0x15#8) ∧
    decode (.bus 0b1_00000000_00000000000000000000000000000001#41) = .ok .hostStart ∧
    decode (.bus 0b1_00000000_11110000000000000000000000000110#41) = .ok .hostCancel ∧
    decode (.bus 0b1_00000000_00000000000000000000000000000111#41) = .ok .hostReset ∧
    decode (.bus 0b1_00000000_00000000000000000000000000000100#41) =
      .ok (.hostCfgw 0x00#8 0x4#32) := by decide

/-- `push -64` is 0x0C0 (R124); the token's low bits are ignored (R118). -/
theorem test_decode_stream :
    decode (.sym 0b0_11000000#9) = .ok (.srcPush 0xC0#8) ∧
    decode (.sym 0b1_00000000#9) = .ok .srcEos ∧ decode (.sym 0b1_01010101#9) = .ok .srcEos ∧
    decode (.op 0b0000_1000#8) = .ok .sinkPop := by decide

theorem test_decode_correlator :
    decode (.op 0b0001_0000#8) = .ok .corrScore ∧ decode (.op 0b0001_0001#8) = .ok .corrSearch ∧
    decode (.op 0b0001_0010#8) = .ok .corrApply := by decide

theorem test_decode_phase :
    decode (.op 0b0010_0000#8) = .ok .phClamp ∧ decode (.op 0b0010_0001#8) = .ok .phRot ∧
    decode (.op 0b0010_0010#8) = .ok .phSwap ∧ decode (.op 0b0010_0011#8) = .ok .phPush ∧
    decode (.op 0b0010_0100#8) = .ok .phNext ∧ decode (.op 0b0010_0110#8) = .ok .diffDec := by
  decide

theorem test_decode_code :
    decode (.op 0b0011_0000#8) = .ok .ccEnc ∧ decode (.op 0b0011_0010#8) = .ok .dpPush ∧
    decode (.op 0b0011_0011#8) = .ok .ccInv := by decide

theorem test_decode_viterbi :
    decode (.op 0b0100_0000#8) = .ok .vitBm ∧ decode (.op 0b0100_0001#8) = .ok .vitAcs ∧
    decode (.op 0b0100_0010#8) = .ok .vitTb ∧ decode (.op 0b0100_0011#8) = .ok .vitBer ∧
    decode (.op 0b0100_0100#8) = .ok .vitLock ∧ decode (.op 0b0100_0101#8) = .ok .vitStep ∧
    decode (.op 0b0100_0110#8) = .ok .vitReset ∧ decode (.op 0b0100_0111#8) = .ok .vitFlush := by
  decide

theorem test_decode_deframer_derandomiser :
    decode (.op 0b0101_0000#8) = .ok .dfPush ∧ decode (.op 0b0101_0001#8) = .ok .dfReset ∧
    decode (.op 0b0110_0000#8) = .ok .drApply := by decide

theorem test_decode_reed_solomon :
    decode (.op 0b0111_0000#8) = .ok .rsDeint ∧ decode (.op 0b0111_0001#8) = .ok .rsToconv ∧
    decode (.op 0b0111_0010#8) = .ok .rsSynd ∧ decode (.op 0b0111_0011#8) = .ok .rsDec ∧
    decode (.op 0b0111_0100#8) = .ok .rsTodual ∧ decode (.op 0b0111_0101#8) = .ok .rsReint ∧
    decode (.op 0b0111_0110#8) = .ok .rsFrame := by decide

theorem test_decode_controller :
    decode (.op 0b1000_0000#8) = .ok .ctlCheck ∧ decode (.op 0b1000_0001#8) = .ok .ctlRead ∧
    decode (.op 0b1000_0010#8) = .ok .ctlData ∧ decode (.op 0b1000_0011#8) = .ok .ctlFrame ∧
    decode (.op 0b1000_0100#8) = .ok .ctlAccept ∧ decode (.op 0b1000_0101#8) = .ok .ctlEmit ∧
    decode (.op 0b1000_0110#8) = .ok .ctlResync ∧ decode (.op 0b1000_0111#8) = .ok .ctlPublish ∧
    decode (.op 0b1000_1000#8) = .ok .ctlFlush ∧ decode (.op 0b1000_1001#8) = .ok .ctlHalt ∧
    decode (.op 0b1000_1010#8) = .ok .ctlTop ∧ decode (.op 0b1000_1011#8) = .ok .ctlCorr ∧
    decode (.op 0b1000_1100#8) = .ok .ctlBit ∧ decode (.op 0b1000_1101#8) = .ok .ctlRschk ∧
    decode (.op 0b1000_1110#8) = .ok .ctlClear := by decide

/-- Values R115 lists as naming no operation, and an identifier of a bus operation. -/
theorem test_decode_refuses :
    decode (.op 0x00#8) = .error .noSuchOperation ∧ decode (.op 0x25#8) = .error .noSuchOperation ∧
    decode (.op 0x8F#8) = .error .noSuchOperation ∧
    decode (.op 0x03#8) = .error .interfaceWordNeeded := by decide

/-! ## States -/

/-- A legal BPSK configuration: RATE 0, TBD 8, frames of 64 bits with the default marker, one
confirmation, one miss, no Reed-Solomon. -/
def legalCfg : Cfg :=
  { Cfg.reset with
    code := 0x00000800, frame := 64, deframer := 0x00000101, written := 0x0517 }

/-- A legal configuration with a marker of 8 bits, 0x9C, frames of 16 bits, no derandomiser. -/
def smallCfg : Cfg :=
  { legalCfg with asmLo := 0x9C, asmctl := 8, frame := 16, derand := 0 }

/-- A legal configuration with one interleave of RS(255,223) behind the default marker. -/
def rsCfg : Cfg := { legalCfg with rs := 0x11, frame := 2072 }

/-- A BPSK correlator configuration: one pattern, the two bits 10, window 3, minimum 1. -/
def corrCfg : Cfg :=
  { legalCfg with
    modem := 0x200, corr := 0x00030101
    pats := Vector.ofFn fun i => if i.val = 0 then ⟨2, 0, 2⟩ else Pattern.reset }

/-- The machine with a configuration, the sequencer at `q`, two symbols read when it is S_DATA. -/
def at_ (c : Cfg) (q : Seq) : State :=
  { State.reset with
    cfg := c
    ctl := { Ctl.reset with seq := q, symN := if q = .data then 2 else 0 } }

/-- The operand latches set. -/
def given_ (s : State) (f : Args → Args) : State := Claims.withArgs s f

/-- A part of the next state of an operation. -/
def after {α : Type} (i : Instr) (s : State) (f : State → α) : Option α :=
  match exec i s with
  | .next t => some (f t)
  | .fault _ => none
  | .refused _ => none

/-- The result an operation leaves. -/
def result (i : Instr) (s : State) : Option OpResult := after i s fun t => t.env.res

theorem legalCfg_legal : configError legalCfg = none := by decide
theorem smallCfg_legal : configError smallCfg = none := by decide
theorem rsCfg_legal : configError rsCfg = none := by decide
theorem corrCfg_legal : configError corrCfg = none := by decide

/-! ## One step of the operations -/

/-- R122's example: FRAME_BITS 8192, PAD_BITS 0, CFG_WRITTEN bit 4. -/
theorem test_hostCfgw : after (.hostCfgw 0x14 0x2000) State.reset
    (fun t => (t.cfg.frameBits, t.cfg.padBits, t.cfg.written)) = some (8192, 0, 0x10) := by decide
/-- Reserved bits are dropped (R54); outside IDLE the write is ignored (R99). -/
theorem test_hostCfgw_reserved : after (.hostCfgw 0x17 0xFFFFFFFF) State.reset
      (fun t => t.cfg.asmctl) = some 0x3F7F ∧
    after (.hostCfgw 0x17 0) (at_ legalCfg .top) (fun t => t.cfg.asmctl) = some 0x20 := by decide
/-- R123's example; STATUS of R383's example. -/
theorem test_hostRd : after (.hostRd 0x15) State.reset (fun t => t.env.reads) =
      some [0x1ACFFC1D] ∧
    readReg { State.reset with ctl := ⟨0, false, false, false, 0, 0, 0, .error, false, 1, 0x10⟩ }
      (regAt 0x01) = 0x00100103 := by decide
theorem test_hostStart : after .hostStart State.reset (fun t => t.ctl.seq) = some .check ∧
    after .hostStart (at_ legalCfg .done) (fun t => t.ctl.seq) = some .done := by decide
theorem test_hostCancel : after .hostCancel (at_ legalCfg .read) (fun t => t.ctl.cancelReq) =
      some true ∧ after .hostCancel State.reset (fun t => t.ctl.cancelReq) = some false := by decide
theorem test_hostReset : after .hostReset (at_ legalCfg .error) (fun t => (t.cfg.written, t.mode)) =
    some (0, .idle) := by decide
theorem test_srcPush : after (.srcPush 0xC0) State.reset (fun t => t.inq) = some [0x0C0] := by
  decide
theorem test_srcEos : after .srcEos State.reset (fun t => t.inq) = some [0x100] := by decide
theorem test_sinkPop : after .sinkPop { State.reset with outq := [[1, 2], [3]] }
    (fun t => (t.outq, t.env.popped)) = some ([[3]], [[1, 2]]) := by decide

/-- The symbols 5, -6, 7 hold the pattern 10 at offsets 0 (score 2) and the inverse at 1. -/
def corrState : State :=
  { at_ corrCfg .corr with
    sym := [(0, 5), (1, 0xFA), (2, 7)], ctl := { Ctl.reset with seq := .corr, symN := 3 } }

theorem test_corrScore : result .corrScore (given_ corrState fun a => { a with off := 1 }) =
    some (.score 0) := by decide
/-- Equal scores go to the lowest phase, then the lowest offset (R155). -/
theorem test_corrSearch : result .corrSearch corrState = some (.search (some ⟨2, 0, 0, 0⟩)) := by
  decide
theorem test_corrApply : after .corrApply
    (given_ corrState fun a => { a with found := true, ph := 1, off := 3 })
    (fun t => (t.ph.hyp, t.ph.skip)) = some (1, 3) := by decide

/-- R167's examples. -/
theorem test_phClamp : result .phClamp (given_ State.reset fun a => { a with x := 0x80 }) =
    some (.symbol 0x81) := by decide
/-- R168's example: PH.ROT((10, -20), 3) = (-20, -10). -/
theorem test_phRot : result .phRot (given_ (at_ { legalCfg with modem := 1 } .data)
    fun a => { a with x := 10, y := 0xEC, ph := 3 }) = some (.pair 0xEC 0xF6) := by decide
theorem test_phSwap : result .phSwap (given_ (at_ { legalCfg with modem := 1 } .data)
    fun a => { a with x := 10, y := 0xEC }) = some (.pair 0xEC 10) := by decide
/-- R171's example: the second push returns [-10, -20]. -/
theorem test_phPush : result .phPush
    { given_ (at_ { legalCfg with modem := 0x11 } .data) fun a => { a with x := 0xEC } with
      ph := ⟨1, 0, true, 10, false⟩ } = some (.symbols [0xF6, 0xEC]) := by decide
/-- R173's example. -/
theorem test_phNext : after .phNext
    { at_ { legalCfg with modem := 1 } .data with ph := ⟨3, 0, false, 0, false⟩ }
    (fun t => (t.ph.hyp, t.ph.skip)) = some (0, 2) := by decide
/-- R175's example: inputs 1 1 0 1 0 0 1 give 1 0 1 1 1 0 1. -/
theorem test_diffDec : (Claims.feed .diffDec Claims.latchBit
      [true, true, false, true, false, false, true] State.reset).map (fun r => r.1) =
    some [.bit true, .bit false, .bit true, .bit true, .bit true, .bit false, .bit true] := by
  decide

/-- R193: from state 63 with u = 1 the outputs are (1, 1) and the state stays. -/
theorem test_ccEnc : result .ccEnc (given_ State.reset fun a => { a with enc := 63, bit := true }) =
    some (.encoded 63 true true) := by decide
/-- R198's example, calls 1 to 5 of rate 3/4. -/
theorem test_dpPush : (Claims.feed .dpPush (fun x a => { a with x := x }) [1, 2, 3, 4, 5]
      (at_ { legalCfg with code := 0x802 } .data)).map (fun r => r.1) =
    some [.pairs [], .pairs [(1, 2)], .pairs [(0, 3)], .pairs [(4, 0)], .pairs []] := by decide
/-- R200's example. -/
theorem test_ccInv : result .ccInv (given_ (at_ { legalCfg with modem := 0x40 } .data)
    fun a => { a with x := 64, y := 64 }) = some (.pair 64 0xC0) := by decide

/-- R212's examples. -/
theorem test_vitBm : result .vitBm (given_ State.reset fun a => { a with x := 64, y := 64 }) =
      some (.metrics ⟨382, 254, 254, 126⟩) ∧
    result .vitBm (given_ State.reset fun a => { a with x := 0xC0, y := 64 }) =
      some (.metrics ⟨254, 126, 382, 254⟩) := by decide
/-- R214's example: from reset with (64, 64). -/
theorem test_vitAcs : after .vitAcs
    (given_ (at_ legalCfg .data) fun a => { a with bm := ⟨382, 254, 254, 126⟩ })
    (fun t => (t.vit.metric 1, t.vit.metric 2, t.vit.metric 32, t.vit.metric 34,
      (t.vit.hist.read 0).getLsbD 5, (t.vit.hist.read 0).getLsbD 4)) =
    some (0, 128, 128, 0, true, false) := by decide +kernel
/-- From all zero decisions the path stays in state 0; a metric of 0 in state 1 only starts there. -/
theorem test_vitTb : result .vitTb (at_ legalCfg .data) = some (.bit false) ∧
    result .vitTb { at_ { legalCfg with code := 0x100 } .data with vit := { Viterbi.reset with
      pm := Vector.ofFn fun i => if i.val = 5 then 0 else 9, hist := [(0, 0x20)] } } =
      some (.bit false) := by decide +kernel
/-- R226: both symbols of the delayed step disagree with the re-encoded pair (1, 1). -/
theorem test_vitBer : after .vitBer
    { given_ (at_ legalCfg .data) fun a => { a with x := 3, y := 0, bit := true, bitGiven := true }
      with vit := { Viterbi.reset with dly := [(0, 0b0010)] } }
    (fun t => ((t.vit.reenc, t.vit.berErrs), (t.vit.berTotal, t.vit.berSteps), t.vit.dly)) =
    some ((1, 1), (2, 1), [(0, 0b1001)]) := by decide +kernel
/-- R229's example: (1, 16) locks, (2, 16) is neutral with H = 0x2000. -/
theorem test_vitLock : after .vitLock
      { at_ { legalCfg with vitlock := 0x22000 } .data with
        vit := { Viterbi.reset with berErrs := 1, berTotal := 16 } }
      (fun t => (t.vit.vitLock, t.vit.berErrsL)) = some (true, 1) ∧
    after .vitLock
      { at_ { legalCfg with vitlock := 0x22000 } .data with
        vit := { Viterbi.reset with berErrs := 2, berTotal := 16 } }
      (fun t => t.vit.vitLock) = some false := by decide
theorem test_vitStep : after .vitStep
    (given_ (at_ legalCfg .data) fun a => { a with x := 64, y := 64 })
    (fun t => (t.env.res, (t.vit.vitN, t.vit.histWp), t.vit.metric 3, t.vit.dly)) =
    some (.bitOpt none, (1, 1), 128, [(0, 0b1010)]) := by decide +kernel
theorem test_vitReset : after .vitReset
    { State.reset with vit := { Viterbi.reset with vitN := 9, vitLock := true, hist := [(2, 7)] } }
    (fun t => (t.vit.vitN, t.vit.vitLock, t.vit.hist)) = some (0, false, [(2, 7)]) := by decide
/-- One step performed: one bit held, that of the best state. -/
theorem test_vitFlush : result .vitFlush
    { at_ legalCfg .flush with vit := { Viterbi.reset with
      vitN := 1, histWp := 1, pm := Vector.ofFn fun i => if i.val = 3 then 0 else 9 } } =
    some (.bits [true]) := by decide +kernel

/-- R255: the last bit of the marker in SEARCHING; the marker bits are stored as received. -/
theorem test_dfPush : after .dfPush
    { given_ (at_ smallCfg .data) fun a => { a with bit := false } with
      df := ⟨.searching, 0x4E, 0, 0, 0, 7, 0⟩ }
    (fun t => ((t.df.dfState, t.df.dfCnt), (t.df.dfBitctr, t.df.dfOffset), t.frm)) =
    some ((.checking, 8), (8, 0), [(0, 0x9C)]) := by decide +kernel
/-- R257: the last bit of a frame in SYNCED returns it. -/
theorem test_dfPush_frame : after .dfPush
    { given_ (at_ smallCfg .data) fun a => { a with bit := true } with
      df := ⟨.synced, 0, 15, 0, 0, 3, 0⟩, frm := [(0, 0x9C), (1, 0x40)] }
    (fun t => (t.df.dfState, t.df.dfCnt, t.env.res)) =
    some (.synced, 0, .frame (some [0x9C, 0x41])) := by decide +kernel
theorem test_dfReset : after .dfReset { State.reset with df := ⟨.synced, 9, 8, 7, 1, 5, 4⟩ }
    (fun t => t.df) = some ⟨.searching, 0, 0, 0, 0, 0, 0⟩ := by decide
/-- R283's example: bytes 4 to 7 become FF 48 0E C0. -/
theorem test_drApply : after .drApply (at_ legalCfg .data) (fun t => t.frm) =
    some [(4, 0xFF), (5, 0x48), (6, 0x0E), (7, 0xC0)] := by decide +kernel

/-- R300 with depth 1: CW[k] = FRM[4 + k]. -/
theorem test_rsDeint : after .rsDeint { at_ rsCfg .data with frm := [(5, 7), (258, 9)] }
    (fun t => t.cw) = some [(1, 7), (254, 9)] := by decide +kernel
/-- R301's and R305's examples: 0x7B and 0x01. -/
theorem test_rsToconv : after .rsToconv { State.reset with cw := [(3, 0x7B)] } (fun t => t.cw) =
    some [(3, 0x01)] := by decide +kernel
theorem test_rsTodual : after .rsTodual { State.reset with cw := [(3, 0x01)] } (fun t => t.cw) =
    some [(3, 0x7B)] := by decide +kernel
theorem test_rsReint : after .rsReint { at_ rsCfg .data with cw := [(0, 8)], frm := [(5, 7)] }
    (fun t => t.frm) = some [(4, 8)] := by decide +kernel
/-- R290, R291, R292: xtime(0x80) = 0x87, α^8, β = 0xAD. -/
theorem test_field : xtime 0x80 = 0x87 ∧ gfexp 8 = 0x87 ∧ betaPow 1 = 0xAD ∧
    gmul 0xAD (ginv 0xAD) = 1 ∧ gdiv 0x87 0x80 = 0x02 := by decide +kernel

/-- One error of value 1 in CW[254]: every syndrome is 1 (R302). -/
theorem test_rsSynd : result .rsSynd
    { at_ { rsCfg with rs := 0x12 } .data with cw := [(254, 1)] } =
    some (.syndromes (List.replicate 16 1)) := by
  set_option maxRecDepth 100000 in decide +kernel
/-- From those syndromes the locator is 1 + x, and the byte at position 254 becomes 0 (R304). -/
theorem test_rsDec : polyTrim (locator (List.replicate 16 1)).c = [1, 1] ∧
    (correctAt 2#2 [1, 1] (evaluator (List.replicate 16 1) [1, 1])
      (List.replicate 254 7 ++ [1]) 254).map (fun w => (w.getD 254 9, w.getD 253 9)) =
      some (0, 7) := by decide +kernel

/-- R383's example: nothing written. -/
theorem test_ctlCheck : after .ctlCheck (at_ Cfg.reset .check)
    (fun t => (t.ctl.seq, t.ctl.errCode, t.ctl.errInfo)) = some (.error, 1, 0x10) := by decide
theorem test_ctlCheck_legal : after .ctlCheck (at_ legalCfg .check) (fun t => t.ctl.seq) =
    some .top := by decide
theorem test_ctlTop : after .ctlTop (at_ legalCfg .top) (fun t => t.ctl.seq) = some .read := by
  decide
/-- R337's example: -128 is stored as -127. -/
theorem test_ctlRead : after .ctlRead { at_ legalCfg .read with inq := [0x080, 0x007] }
    (fun t => (t.sym, t.ctl.symN, t.inq, t.ctl.seq)) = some ([(0, 0x81)], 1, [0x007], .read) := by
  decide
theorem test_ctlCorr : after .ctlCorr
    { corrState with ctl := { corrState.ctl with acqPending := true } }
    (fun t => (t.ctl.seq, t.ctl.acqPending, t.ph.skip)) = some (.data, false, 0) := by decide
theorem test_ctlData : after .ctlData { at_ legalCfg .data with ph := ⟨0, 1, false, 0, false⟩ }
    (fun t => (t.ph.skip, t.ctl.symI, t.ctl.seq)) = some (0, 1, .data) := by decide
theorem test_ctlBit : after .ctlBit (given_ (at_ legalCfg .data) fun a => { a with bit := true })
    (fun t => (t.df.dfSr, t.ctl.unsyncBits)) = some (1, 1) := by decide
theorem test_ctlFrame : after .ctlFrame { at_ smallCfg .data with frm := [(0, 0x9C), (1, 5)] }
    (fun t => t.outq) = some [[0x9C, 5]] := by decide
/-- R343's example: depth 4, counts (0, 3, -1, 0). -/
theorem test_ctlAccept : result .ctlAccept { at_ { rsCfg with rs := 0x41 } .data with
    hRs := Vector.ofFn fun i => if i.val = 1 then 3 else if i.val = 2 then 0xFF else 0 } =
    some (.accept false) := by decide
theorem test_ctlEmit : after .ctlEmit (at_ smallCfg .data) (fun t => t.outq) = some [[0, 0]] := by
  decide
/-- R346's example. -/
theorem test_ctlResync : after .ctlResync
    { at_ { legalCfg with modem := 1 } .resync with ph := ⟨1, 0, true, 0, true⟩ }
    (fun t => (t.ph.hyp, t.ph.skip, t.ph.iHave)) = some (2, 0, false) := by decide
theorem test_ctlRschk : after .ctlRschk (at_ legalCfg .resync) (fun t => t.ctl.seq) =
    some .publish := by decide
theorem test_ctlPublish : after .ctlPublish
    { at_ legalCfg .publish with hRs := Vector.ofFn fun i => if i.val = 1 then 0xFF else 2 }
    (fun t => (t.health.hSeq, t.health.hRsLo, t.ctl.seq)) = some (1, 0x0202FF02, .top) := by decide
theorem test_ctlFlush : after .ctlFlush (at_ legalCfg .flush)
    (fun t => (t.ctl.seq, t.ctl.finalRun)) = some (.publish, true) := by decide
theorem test_ctlHalt : after .ctlHalt (at_ legalCfg .publish) (fun t => t.mode) = some .done := by
  decide
theorem test_ctlClear : after .ctlClear
    { State.reset with ph := ⟨3, 7, true, 1, true⟩, dp := ⟨2, true, 5⟩ }
    (fun t => (t.ph, t.dp)) = some (⟨3, 7, false, 1, false⟩, ⟨0, false, 5⟩) := by decide

/-! ## Witnesses: states and operands that meet the hypotheses of the statements -/

/-- No reserved bit of the configuration is set. -/
theorem reservedClear_of (c : Cfg)
    (h : (c.modem &&& ~~~0x3F3#32 = 0 ∧ c.code &&& ~~~0xFF07#32 = 0 ∧
        c.vitlock &&& ~~~0xFFFFFF#32 = 0 ∧ c.vitwin &&& ~~~0xFFFF#32 = 0 ∧
        c.frame &&& ~~~0x70FFFFF#32 = 0 ∧ c.asmctl &&& ~~~0x3F7F#32 = 0) ∧
      (c.deframer &&& ~~~0xFF03FF#32 = 0 ∧ c.derand &&& ~~~0xFFFF0003#32 = 0 ∧
        c.rs &&& ~~~0x3F3#32 = 0 ∧ c.batch &&& ~~~0xFFFF#32 = 0 ∧
        c.corr &&& ~~~0xFFFF7F0F#32 = 0)) : c.ReservedClear :=
  ⟨h.1.1, h.1.2.1, h.1.2.2.1, h.1.2.2.2.1, h.1.2.2.2.2.1, h.1.2.2.2.2.2, h.2.1, h.2.2.1, h.2.2.2.1,
    h.2.2.2.2.1, h.2.2.2.2.2⟩

/-- `Inv` from its parts, before anything has been published. -/
theorem inv_of (s : State)
    (h1 : s.sym.wf ∧ s.frm.wf ∧ s.cw.wf ∧ s.vit.hist.wf ∧ s.vit.dly.wf)
    (h2 : s.cfg.ReservedClear) (h3 : s.health = Health.reset) (h4 : ∃ t, s.vit.metric t = 0) :
    Inv s :=
  ⟨⟨h1.1, h1.2.1, h1.2.2.1, h1.2.2.2.1, h1.2.2.2.2⟩, h2, by rw [h3]; exact ⟨rfl, rfl, rfl⟩, h4⟩

theorem legalCfg_reserved : legalCfg.ReservedClear := reservedClear_of _ (by decide)
theorem smallCfg_reserved : smallCfg.ReservedClear := reservedClear_of _ (by decide)

/-- `RunInv` of a state of the loop from its parts; the decoder as reset but for its step count. -/
theorem runInv_of (s : State)
    (h1 : s.env.turns = [] ∧ s.ctl.seq.working = true ∧ s.ctl.errCode = 0 ∧ s.ctl.errInfo = 0)
    (h2 : s.ctl.acqPending = true → s.cfg.useCorr = true) (h3 : configError s.cfg = none)
    (h4 : s.vit = { Viterbi.reset with vitN := s.vit.vitN } ∧ s.vit.vitN.toNat ≤ s.cfg.tbd + 1 ∧
      s.ph.hyp.toNat < s.cfg.nhyp ∧ s.dp.dpK = 0 ∧ s.ctl.flI.toNat ≤ s.cfg.tbd)
    (h5 : s.df.Ranges s.cfg)
    (h6 : s.ctl.symI = 0 ∧ s.ctl.symN.toNat < s.cfg.batchLen ∧
      (s.ctl.seq = .data → 0 < s.ctl.symN.toNat))
    (h7 : (∀ e ∈ s.sym, e.2 ≠ 0x80#8) ∧ s.ph.iHold ≠ 0x80#8 ∧ s.dp.dpR1 ≠ 0x80#8) :
    RunInv s := by
  obtain ⟨t1, t2, t3, t4⟩ := h1
  have hl := legal_of_configError h3
  obtain ⟨hv, hn, hh, hk, hf⟩ := h4
  refine ⟨?_, ⟨h7.1, h7.2.1, h7.2.2⟩, ?_, ?_, fun _ => h2, fun _ => ⟨t3, t4⟩, fun _ => ⟨h3, ?_⟩, ?_⟩
  · intro w h; rw [t1] at h; cases h
  · rintro (h | h | h) <;> rw [h] at t2 <;> cases t2
  · intro h; rw [h] at t2; cases t2
  · obtain ⟨p, hp, hpos⟩ := puncture_total hl.rate
    refine ⟨hh, ⟨p, hp, by rw [hk]; exact hpos⟩, ?_, h5, hf⟩
    have r0 : Viterbi.reset.Ranges s.cfg :=
      .of_clear hl rfl rfl rfl rfl rfl rfl (by decide +kernel)
    have hr : ({ Viterbi.reset with vitN := s.vit.vitN } : Viterbi).Ranges s.cfg :=
      ⟨r0.histWp, hn, r0.berErrs, r0.berTotal, r0.berSteps, r0.badCnt, r0.spread, r0.pm⟩
    rw [← hv] at hr
    exact hr
  · refine ⟨fun _ => ⟨h6.2.1, h6.1⟩, fun _ => ⟨Nat.le_of_lt h6.2.1, h6.1⟩,
      fun h => ⟨?_, Nat.le_of_lt h6.2.1⟩⟩
    rw [h6.1]; exact h6.2.2 h

theorem searching_ranges {c : Cfg} (hc : configError c = none) :
    (⟨.searching, 0, 0, 0, 0, 0, 0⟩ : Deframer).Ranges c := .of_clear (legal_of_configError hc)

theorem at_runInv (c : Cfg) (q : Seq) (hq : q.working = true) (hc : configError c = none)
    (h : 0 < c.nhyp ∧ 2 < c.batchLen) : RunInv (at_ c q) := by
  refine runInv_of _ ⟨rfl, hq, rfl, rfl⟩ (fun h => by cases h) hc
    ⟨rfl, Nat.zero_le _, h.1, rfl, Nat.zero_le _⟩ (searching_ranges hc) ⟨rfl, ?_, ?_⟩
    ⟨(by intro e he; cases he), (by decide : (0#8 : Soft) ≠ 0x80#8),
      (by decide : (0#8 : Soft) ≠ 0x80#8)⟩
  · show (if q = .data then (2 : BitVec 16) else 0).toNat < c.batchLen
    split
    · exact h.2
    · exact Nat.lt_of_le_of_lt (Nat.zero_le _) h.2
  · intro hd
    have hd : q = .data := hd
    subst hd; exact Nat.zero_lt_two

/-- A data step's state on a legal configuration with the phase normaliser, the slot of the
depuncturer and the step count chosen. -/
theorem data_runInv (c : Cfg) (ph : Phase) (i : Bool) (n : BitVec 9) (hc : configError c = none)
    (h : n.toNat ≤ c.tbd + 1 ∧ ph.hyp.toNat < c.nhyp ∧ 2 < c.batchLen ∧ ph.iHold ≠ 0x80#8) :
    RunInv { at_ c .data with
      ph := ph, dp := ⟨0, i, 0⟩, vit := { Viterbi.reset with vitN := n } } :=
  runInv_of _ ⟨rfl, rfl, rfl, rfl⟩ (fun h => by cases h) hc
    ⟨rfl, h.1, h.2.1, rfl, Nat.zero_le _⟩ (searching_ranges hc)
    ⟨rfl, h.2.2.1, fun _ => Nat.zero_lt_two⟩
    ⟨(by intro e he; cases he), h.2.2.2, (by decide : (0#8 : Soft) ≠ 0x80#8)⟩

theorem legal_runInv (q : Seq) (hq : q.working = true) : RunInv (at_ legalCfg q) :=
  at_runInv legalCfg q hq legalCfg_legal (by decide)

theorem small_runInv (q : Seq) (hq : q.working = true) : RunInv (at_ smallCfg q) :=
  at_runInv smallCfg q hq smallCfg_legal (by decide)

/-- Nothing stored, `hold_i` and `dp_r1` 0. -/
theorem reset_clamped {c : Cfg} {q : Ctl} : Clamped { State.reset with cfg := c, ctl := q } :=
  ⟨(by intro e he; cases he), (by decide : (0#8 : Soft) ≠ 0x80#8),
    (by decide : (0#8 : Soft) ≠ 0x80#8)⟩

/-- Before the loop and in ERROR: everything untouched. -/
theorem early_runInv (c : Cfg) (q : Seq) (n : BitVec 8)
    (hq : q = .check ∧ n = 0 ∨ q = .error) :
    RunInv { State.reset with
      cfg := c, ctl := ⟨0, false, false, false, 0, 0, 0, q, false, n, n⟩ } := by
  refine ⟨(by intro w h; cases h), reset_clamped,
    fun _ => ⟨⟨rfl, rfl, rfl, rfl, rfl, rfl, rfl, rfl, rfl, rfl⟩, rfl⟩,
    ?_, (by intro _ h; cases h), ?_, ?_, ?_⟩
  · intro h
    have h : q = .idle := h
    subst h; rcases hq with ⟨h, -⟩ | h <;> cases h
  · intro h
    rcases hq with ⟨-, rfl⟩ | rfl
    · exact ⟨rfl, rfl⟩
    · exact absurd rfl h
  · intro h
    rcases hq with ⟨rfl, -⟩ | rfl <;> cases h
  · rcases hq with ⟨rfl, -⟩ | rfl <;>
      exact ⟨(by intro h; cases h), (by intro h; cases h), (by intro h; cases h)⟩

theorem done_runInv : RunInv (at_ legalCfg .done) := by
  refine ⟨(by intro w h; cases h), reset_clamped, ?_, (by intro h; cases h),
    (by intro _ h; cases h),
    fun _ => ⟨rfl, rfl⟩, (by intro h; cases h),
    ⟨(by intro h; cases h), (by intro h; cases h), (by intro h; cases h)⟩⟩
  rintro (h | h | h) <;> cases h

theorem reset_runInv : RunInv State.reset :=
  ⟨(by intro w h; cases h), reset_clamped,
    fun _ => ⟨⟨rfl, rfl, rfl, rfl, rfl, rfl, rfl, rfl, rfl, rfl⟩, rfl⟩,
    fun _ => rfl, (by intro _ h; cases h), fun _ => ⟨rfl, rfl⟩, (by intro h; cases h),
    ⟨(by intro h; cases h), (by intro h; cases h), (by intro h; cases h)⟩⟩

theorem at_inv (c : Cfg) (hc : c.ReservedClear) (q : Seq) (f : Args → Args) :
    Inv (given_ (at_ c q) f) :=
  inv_of _ ⟨Memory.wf_nil, Memory.wf_nil, Memory.wf_nil, Memory.wf_nil, Memory.wf_nil⟩ hc rfl ⟨0, rfl⟩

theorem reset_inv : Inv State.reset :=
  inv_of _ (by decide) (reservedClear_of _ (by decide)) rfl ⟨0, by decide⟩

/-! ### Words and turns -/

theorem witness_DecodeOfEncode : (Instr.hostCfgw 0x14 1).wf = true ∧
    decode (.bus 0x000000000F0#41) = .ok (.hostRd 0x00#8) := by decide

theorem witness_BusWordRowsInOrder :
    (0x00000000000#41 : BusWord) &&& 0x10000000000#41 ≠ 0x10000000000#41 ∧
    (0xFFFFFFFC#32 : RegWord).extractLsb' 0 2 = 0#2 ∧ (0#32 : RegWord).extractLsb' 0 2 = 0#2 := by
  decide

theorem witness_SymAndIdentifierWords :
    (0x0FF#9 : SymWord) &&& 0x100#9 = 0x000#9 ∧ (0x1FF#9 : SymWord) &&& 0x100#9 = 0x100#9 ∧
    Claims.unlisted 0x00#8 = true ∧ Claims.unlisted 0x09#8 = true ∧ Claims.unlisted 0xFF#8 = true ∧
    Claims.unlisted 0x08#8 = false ∧ Claims.unlisted 0x8E#8 = false ∧
    (State.reset.presentWord (.op 0x25)).env.turns = .op 0x25 :: [] ∧
    decode (.op 0x25) = .error .noSuchOperation := by decide

theorem witness_StepRunsDecodedInstruction :
    (State.reset.withFetchWord 48 0x1FF00000001).env.hostQ = [0x1FF00000001#41] ∧
    (State.reset.withFetchWord 48 0x10000000001).env.turns = [.host] ∧
    decodeTableWord 48 0x10000000001 = some .hostStart ∧
    (State.reset.withFetchWord 16 0x0C0).env.turns = [.source] ∧
    decodeTableWord 16 0x0C0 = some (.srcPush 0xC0) ∧
    (State.reset.withFetchWord 8 0x10).env.turns = [.op 0x10] ∧
    decodeTableWord 8 0x10 = some .corrScore ∧
    (State.reset.withTurns [.sink, .core, .host, .source]).env.turns =
      [.sink, .core, .host, .source] ∧
    Seq.idle.opWord = none ∧ Seq.check.opWord = some 0x80 ∧ decode (.op 0x80) = .ok .ctlCheck := by
  decide

/-- A state whose next data symbol, or whose first flush bit, completes a frame. -/
def lastBit (q : Seq) (out : List Frame) : State :=
  { at_ smallCfg q with
    vit := { Viterbi.reset with vitN := if q = .flush then 1 else 9 }
    dp := ⟨0, true, 0⟩
    df := ⟨.synced, 0, 15, 0, 0, 3, 0⟩
    outq := out }

theorem lastBit_push : pushBit smallCfg ⟨.synced, 0, 15, 0, 0, 3, 0⟩ [] false =
    .ok ⟨⟨.synced, 0, 0, 0, 0, 4, 0⟩, [], true⟩ := by decide +kernel

/-- A bit that completes a frame appends it, whatever OUT holds; here without NRZ-M, derandomiser
and Reed-Solomon. -/
theorem routeBit_appends (s : State) (b : Bool) (p : Pushed) (h1 : s.cfg.nrzm = false)
    (h2 : s.cfg.rsType = 0#2) (h3 : s.cfg.derandMode = 0)
    (hp : pushBit s.cfg s.df s.frm b = .ok p) (hf : p.frame = true) :
    ∃ u, routeBit s b = .ok u ∧ u.outq.length ≠ s.outq.length := by
  simp [routeBit, h1, hp, hf, ok_bind, processFrame, correctFrame, derandAt, h2, h3, ok_map,
    accepts, emit]

theorem lastBit_route (s : State) (hc : s.cfg = smallCfg) (hf : s.frm = [])
    (hd : s.df = ⟨.synced, 0, 15, 0, 0, 3, 0⟩) :
    ∃ u, routeBit s false = .ok u ∧ u.outq.length ≠ s.outq.length :=
  routeBit_appends s false _ (hc ▸ rfl) (hc ▸ rfl) (hc ▸ rfl)
    (by rw [hc, hd, hf]; exact lastBit_push) rfl

/-- The symbol step on one symbol that completes a pair and decodes a bit. -/
theorem dataStep_of (s u : State) (y : Soft) (ph : Phase) (d : Depunct) (p : Soft × Soft)
    (v : Viterbi) (b : Bool) (h0 : s.ctl.symI.toNat < s.cfg.batchLen) (h1 : s.ph.skip = 0)
    (h2 : normalise s.cfg s.ph (s.sym.read s.ctl.symI.toNat) = (ph, [y]))
    (h3 : depuncture s.cfg s.dp y = .ok (d, [p]))
    (h4 : trellisStep s.cfg s.vit (invertPair s.cfg p).1 (invertPair s.cfg p).2 = .ok (v, some b))
    (h5 : routeBit { s with
      ctl := { s.ctl with symI := s.ctl.symI + 1 }, ph := ph, dp := d, vit := v } b = .ok u) :
    dataStep s = .ok (if u.ctl.symI = u.ctl.symN then u.goto .resync else u) := by
  simp only [dataStep, within_ok h0, ok_bind, takeSymbol, h1, h2, routeSymbols, routeSymbol, h3,
    routePairs, routePair, h4, h5, ne_eq, not_true_eq_false, if_false]
  rfl

theorem witness_CoreStepFollowsSequencer :
    (at_ legalCfg .read).env.turns = [] ∧ (at_ legalCfg .read).inq = [] ∧
    (∀ q, q = .data ∨ q = .flush →
      let s := lastBit q (List.replicate Config.outDepth [])
      s.env.turns = [] ∧ s.ctl.seq = q ∧ ¬ Claims.roomInOut s ∧ s.outq ≠ []) ∧
    (∃ u, flushStep (lastBit .flush (List.replicate Config.outDepth [])) = .ok u ∧
      u.outq.length ≠ (lastBit .flush (List.replicate Config.outDepth [])).outq.length) ∧
    (∃ u, dataStep (lastBit .data (List.replicate Config.outDepth [])) = .ok u ∧
      u.outq.length ≠ (lastBit .data (List.replicate Config.outDepth [])).outq.length) := by
  refine ⟨rfl, rfl, ?_, ?_, ?_⟩
  · intro q hq
    refine ⟨rfl, rfl, ?_, ?_⟩
    · show ¬ (List.replicate Config.outDepth []).length < Config.outDepth
      rw [List.length_replicate]; exact Nat.lt_irrefl _
    · show List.replicate Config.outDepth [] ≠ []
      simp [Config.outDepth]
  · have h : flushList smallCfg (lastBit .flush []).vit = .ok [false] := by decide +kernel
    obtain ⟨u, hu, hl⟩ := lastBit_route (lastBit .flush (List.replicate Config.outDepth [])) rfl rfl rfl
    refine ⟨{ u with ctl := { u.ctl with flI := u.ctl.flI + 1 } }, ?_, hl⟩
    show (flushList smallCfg (lastBit .flush []).vit >>= _) = _
    rw [h, ok_bind]
    show (routeBit _ false >>= _) = _
    rw [hu]; rfl
  · have h : ∃ v, trellisStep smallCfg (lastBit .data []).vit 0 0 = .ok (v, some false) := by
      obtain ⟨⟨v, b⟩, h⟩ := trellisStep_total (c := smallCfg) (v := (lastBit .data []).vit)
        (by decide) 0 0
      have hb : (trellisStep smallCfg (lastBit .data []).vit 0 0).map (fun r => r.2) =
        .ok (some false) := by decide +kernel
      rw [h] at hb
      cases hb
      exact ⟨v, h⟩
    obtain ⟨v, hv⟩ := h
    have hd : depuncture smallCfg ⟨0, true, 0⟩ 0 = .ok (⟨0, false, 0⟩, [(0, 0)]) := by
      decide +kernel
    obtain ⟨u, hu, hl⟩ := lastBit_route
      { lastBit .data (List.replicate Config.outDepth []) with
        ctl := { (lastBit .data []).ctl with symI := 1 }, dp := ⟨0, false, 0⟩, vit := v } rfl rfl rfl
    refine ⟨_, dataStep_of _ u 0 _ _ _ v false (by decide) rfl rfl hd hv hu, ?_⟩
    split <;> exact hl

/-! ### The whole machine -/

/-- Every value of `seq` has a state of a run. -/
theorem witness_RunNeverStops : ∀ q, ∃ s, RunInv s ∧ s.ctl.seq = q ∧ s.env.turns = [] := by
  intro q
  cases q with
  | idle => exact ⟨_, reset_runInv, rfl, rfl⟩
  | check => exact ⟨_, early_runInv legalCfg .check 0 (.inl ⟨rfl, rfl⟩), rfl, rfl⟩
  | error => exact ⟨_, early_runInv Cfg.reset .error 0x10 (.inr rfl), rfl, rfl⟩
  | done => exact ⟨_, done_runInv, rfl, rfl⟩
  | top => exact ⟨_, legal_runInv .top rfl, rfl, rfl⟩
  | read => exact ⟨_, legal_runInv .read rfl, rfl, rfl⟩
  | corr => exact ⟨_, legal_runInv .corr rfl, rfl, rfl⟩
  | data => exact ⟨_, legal_runInv .data rfl, rfl, rfl⟩
  | resync => exact ⟨_, legal_runInv .resync rfl, rfl, rfl⟩
  | flush => exact ⟨_, legal_runInv .flush rfl, rfl, rfl⟩
  | publish => exact ⟨_, legal_runInv .publish rfl, rfl, rfl⟩

/-- Every value of `seq` has a state with the invariant and a next state. -/
theorem witness_EveryStepKeepsInvariant :
    ∀ q, q ≠ .data → Inv (given_ (at_ legalCfg q) id) ∧ ∃ t, step (given_ (at_ legalCfg q) id) = .next t := by
  intro q hq
  refine ⟨at_inv _ legalCfg_reserved q id, ?_⟩
  cases q with
  | data => exact absurd rfl hq
  | _ => exact ⟨_, rfl⟩

theorem witness_ResetMeetsInvariants :
    ∀ w, Turn.op w ∉ ({ Env.reset with turns := [.host, .source, .core, .sink] } : Env).turns := by
  intro w h
  simp at h

theorem witness_ResetRegisterValues : after .hostReset (at_ legalCfg .data) (fun t => t.ctl.seq) =
    some .idle := by decide

theorem witness_SequencerSuccessors : ∀ q, q ≠ .data →
    ∃ s t, RunInv s ∧ s.ctl.seq = q ∧ s.env.turns = [] ∧ step s = .next t := by
  intro q hq
  cases q with
  | idle => exact ⟨_, _, reset_runInv, rfl, rfl, rfl⟩
  | check => exact ⟨_, _, early_runInv legalCfg .check 0 (.inl ⟨rfl, rfl⟩), rfl, rfl, rfl⟩
  | error => exact ⟨_, _, early_runInv Cfg.reset .error 0x10 (.inr rfl), rfl, rfl, rfl⟩
  | done => exact ⟨_, _, done_runInv, rfl, rfl, rfl⟩
  | top => exact ⟨_, _, legal_runInv .top rfl, rfl, rfl, rfl⟩
  | read => exact ⟨_, _, legal_runInv .read rfl, rfl, rfl, rfl⟩
  | corr => exact ⟨_, _, legal_runInv .corr rfl, rfl, rfl, rfl⟩
  | data => exact absurd rfl hq
  | resync => exact ⟨_, _, legal_runInv .resync rfl, rfl, rfl, rfl⟩
  | flush => exact ⟨_, _, legal_runInv .flush rfl, rfl, rfl, rfl⟩
  | publish => exact ⟨_, _, legal_runInv .publish rfl, rfl, rfl, rfl⟩

/-- The data step: in a run, taken from a state with the invariant. -/
theorem witness_SequencerSuccessors_data :
    ∃ t, step { at_ legalCfg .data with ph := ⟨0, 1, false, 0, false⟩ } = .next t ∧
      RunInv { at_ legalCfg .data with ph := ⟨0, 1, false, 0, false⟩ } ∧
      Inv { at_ legalCfg .data with ph := ⟨0, 1, false, 0, false⟩ } :=
  ⟨_, rfl, data_runInv legalCfg ⟨0, 1, false, 0, false⟩ false 0 legalCfg_legal (by decide),
    inv_of _ (by decide) legalCfg_reserved rfl ⟨0, rfl⟩⟩

/-- Each register does change under its writer. -/
theorem witness_RegistersHaveOneWriter :
    after (.hostCfgw 0x15 7) State.reset (fun t => decide (t.cfg ≠ Cfg.reset)) = some true ∧
    after .ctlPublish (at_ legalCfg .publish) (fun t => decide (t.health ≠ Health.reset)) =
      some true ∧
    after .ctlCheck (at_ Cfg.reset .check) (fun t => decide (t.ctl.errCode ≠ 0)) = some true ∧
    after .hostCancel (at_ legalCfg .read) (fun t => t.ctl.cancelReq) = some true ∧
    after .ctlRead { at_ legalCfg .read with inq := [0x100] } (fun t => t.ctl.eosSeen) = some true ∧
    after .phNext (at_ legalCfg .data) (fun t => decide (t.ph.hyp ≠ 0)) = some true ∧
    after .hostStart State.reset (fun t => decide (t.ctl.seq ≠ .idle)) = some true := by
  decide +kernel

theorem witness_StreamsKeepTheirOrder :
    after .ctlRead { at_ legalCfg .read with inq := [0x005, 0x100] } (fun t => t.inq) =
      some [0x100] ∧
    after .ctlEmit { at_ smallCfg .data with outq := [] } (fun t => t.outq) = some [[0, 0]] := by
  decide

/-! ### Host, source and sink -/

/-- Each clause at the ends of its address range; an out of range address, and an address in range
outside IDLE. -/
theorem witness_ConfigurationWrite :
    (at_ legalCfg .read).ctl.seq ≠ .idle ∧ (0x0F#8).toNat < 0x10 ∧ 0x3F < (0x40#8).toNat ∧
    State.reset.ctl.seq = .idle ∧ 0x10 ≤ (0x10#8).toNat ∧ (0x10#8).toNat ≤ 0x3F ∧
    0x10 ≤ (0x3F#8).toNat ∧ (0x3F#8).toNat ≤ 0x3F ∧ 0x10 ≤ (0x1F#8).toNat ∧
    after (.hostCfgw 0x1F 9) State.reset (fun t => t.cfg.written) = some 0x8000 ∧
    after (.hostCfgw 0x20 9) State.reset (fun t => t.cfg.written) = some 0 := by decide

theorem witness_RegisterReadValue : Inv State.reset := reset_inv

theorem witness_HostStartAndCancel :
    State.reset.ctl.seq = .idle ∧ RunInv State.reset ∧ (at_ legalCfg .done).ctl.seq ≠ .idle ∧
    Claims.modeNumber (at_ legalCfg .check).ctl.seq = 1 ∧
    Claims.modeNumber (at_ legalCfg .publish).ctl.seq = 1 ∧
    Claims.modeNumber (at_ legalCfg .idle).ctl.seq ≠ 1 ∧
    Claims.modeNumber (at_ legalCfg .done).ctl.seq ≠ 1 :=
  ⟨rfl, reset_runInv, by decide, rfl, rfl, by decide, by decide⟩

/-- IN with room and full, OUT empty and not. -/
theorem witness_StreamEndsAppendTakeOrWait :
    State.reset.inq.length < Config.inDepth ∧
    Config.inDepth ≤ { State.reset with inq := List.replicate Config.inDepth 0x005 }.inq.length ∧
    { State.reset with outq := [[1], [2]] }.outq = [1] :: [[2]] ∧ State.reset.outq = [] := by
  refine ⟨Nat.succ_pos _, ?_, rfl, rfl⟩
  show Config.inDepth ≤ (List.replicate Config.inDepth _).length
  rw [List.length_replicate]

/-! ### Correlator, phase, code -/

theorem corrState_ready : Claims.SearchReady corrState where
  const := by decide
  window := by decide
  symbols := by unfold Claims.clamped; decide
  npat := by decide
  lengths := by decide

/-- A search that finds nothing: the minimum score is that of the best candidate. -/
def corrMiss : State := { corrState with cfg := { corrCfg with corr := 0x00030201 } }

theorem corrMiss_ready : Claims.SearchReady corrMiss where
  const := by decide
  window := by decide
  symbols := by unfold Claims.clamped; decide
  npat := by decide
  lengths := by decide

/-- The last offset that fits, and no symbol of the span is 0. -/
theorem witness_CorrScoreCountsAgreements :
    let s := given_ corrState fun a => { a with ph := 1, off := 1 }
    Claims.SearchReady s ∧ s.env.args.ph.toNat = 1 ∧ s.env.args.off.toNat = 1 ∧
    s.env.args.pat.toNat = 0 ∧ 1 < Claims.phases s.cfg ∧ 1 % Claims.unit s.cfg = 0 ∧
    s.cfg.patLen 0 ≤ 64 ∧ 1 + s.cfg.patLen 0 ≤ Claims.windowLength s ∧ s.cfg.const = 0 ∧
    ∀ i < s.cfg.patLen 0, s.sym.read (1 + i) ≠ 0 := by
  refine ⟨⟨by decide, by decide, by unfold Claims.clamped; decide, by decide, by decide⟩, ?_⟩
  decide

theorem witness_CorrSearchFindsFirstBest :
    Claims.SearchReady corrState ∧ Claims.SearchReady corrMiss ∧
    Claims.Candidate corrState 0 0 0 ∧ Claims.Candidate corrState 1 1 0 ∧
    result .corrSearch corrMiss = some (.search none) :=
  ⟨corrState_ready, corrMiss_ready, ⟨by decide, by decide, by decide, by decide, by decide⟩,
    ⟨by decide, by decide, by decide, by decide, by decide⟩, by decide +kernel⟩

/-- Nothing found; found in place; found at another phase, at an offset. -/
theorem witness_CorrApplyMovesPhase :
    let s := corrState
    let t := given_ corrState fun a => { a with found := true }
    let u := given_ corrState fun a => { a with found := true, ph := 1 }
    let v := given_ corrState fun a => { a with found := true, off := 0xFFFF }
    s.env.args.ph.toNat < Claims.phases s.cfg ∧ s.env.args.found = false ∧
    (t.env.args.ph.toNat = t.ph.hyp.toNat % Claims.phases t.cfg ∧ t.env.args.off = 0) ∧
    u.env.args.found = true ∧ u.env.args.ph.toNat < Claims.phases u.cfg ∧
    u.env.args.ph.toNat ≠ u.ph.hyp.toNat % Claims.phases u.cfg ∧
    v.env.args.found = true ∧ v.env.args.off ≠ 0 := by decide

theorem witness_SymbolOperations :
    (0x80#8).toInt = -128 ∧ (at_ { legalCfg with modem := 1 } .data).cfg.const = 1 ∧
    Claims.clamped 0x81#8 ∧ Claims.clamped 0x7F#8 ∧ Claims.clamped 0#8 := by
  unfold Claims.clamped; decide

theorem witness_RotationTable :
    (at_ { legalCfg with modem := 1 } .data).cfg.const = 1 ∧ (at_ legalCfg .data).cfg.const = 0 ∧
    Claims.clamped 0x81#8 ∧ State.reset.env.args.ph = 0#2 ∧
    (given_ State.reset fun a => { a with ph := 1 }).env.args.ph = 1#2 := by
  unfold Claims.clamped; decide

theorem witness_PhPushNormalises :
    Claims.clamped (given_ State.reset fun a => { a with x := 0x81 }).env.args.x ∧
    Claims.clamped State.reset.ph.iHold ∧ (at_ legalCfg .data).cfg.const = 0 ∧
    (at_ { legalCfg with modem := 1 } .data).cfg.const = 1 ∧
    (at_ { legalCfg with modem := 1 } .data).ph.iHave = false ∧
    ({ at_ { legalCfg with modem := 1 } .data with ph := ⟨7, 0, true, 0x7F, false⟩ } : State).ph.iHave
      = true := by
  unfold Claims.clamped; decide

/-- The last hypothesis of QPSK with the swap search, one slip. -/
theorem witness_SearchReachesHypothesis :
    let s := at_ { legalCfg with modem := 0x81 } .data
    s.cfg.const < 2 ∧ s.ph.hyp = 0 ∧ 7 < Claims.hypotheses s.cfg ∧
    (Claims.times .phNext (1 * Claims.hypotheses s.cfg + 7) s).map (fun t => (t.ph.hyp, t.ph.skip)) =
      some (7, 2) := by decide

theorem witness_EncoderStep :
    result .ccEnc (given_ State.reset fun a => { a with enc := 0x2A, bit := true }) =
      some (.encoded 0x15 true true) ∧
    result .ccEnc (given_ State.reset fun a => { a with enc := ~~~0x2A, bit := false }) =
      some (.encoded 0x2A false false) := by decide

/-- A kept slot of every rate; two whole periods. -/
theorem witness_DepunctureRestoresPairs :
    (∀ n < 5, n < 5 ∧ Claims.slotKept n ⟨0, false, 0⟩ ∧ 0 < Claims.period n) ∧
    (at_ { legalCfg with code := 0x804 } .data).cfg.rate = 4 ∧
    (at_ { legalCfg with code := 0x804 } .data).dp.dpK = 0 ∧
    (List.replicate 14 ((1 : Soft), (2 : Soft))).length % Claims.period 4 = 0 ∧
    Claims.slotKept 4 ⟨6, false, 0⟩ ∧ Claims.slotKept 4 ⟨1, true, 0⟩ := by
  unfold Claims.slotKept; decide

/-! ### Viterbi decoder -/

theorem witness_BranchMetricValues :
    Claims.clamped 0x81#8 ∧ Claims.clamped 0x7F#8 := by unfold Claims.clamped; decide

theorem witness_AddCompareSelect :
    let s := given_ (at_ legalCfg .data) fun a => { a with bm := ⟨508, 254, 254, 0⟩ }
    Inv s ∧ s.vit.histWp.toNat < s.cfg.tbd ∧ (∀ x, s.vit.metric x ≤ 60000) ∧
    Claims.smallMetrics s.env.args.bm :=
  ⟨at_inv _ legalCfg_reserved _ _, by decide, by decide +kernel,
    by unfold Claims.smallMetrics; decide⟩

theorem witness_PathMetricsStaySmall :
    let ms := List.replicate 6 (⟨508, 254, 254, 0⟩ : Metrics)
    let s := at_ legalCfg .data
    s.vit.histWp.toNat < s.cfg.tbd ∧ (∀ m ∈ ms, Claims.smallMetrics m) ∧
    (∀ x, s.vit.metric x = 0) ∧ (∀ x, s.vit.metric x ≤ 60000) ∧ 6 ≤ ms.length ∧ ms ≠ [] := by
  refine ⟨by decide, ?_, by decide +kernel, by decide +kernel, by decide, by decide⟩
  intro m hm
  rw [List.eq_of_mem_replicate hm]
  unfold Claims.smallMetrics; decide

/-- From all-zero decisions the survivor of state 0 stays in state 0. -/
theorem witness_TracebackFollowsDecisions :
    let s := at_ legalCfg .data
    Claims.lowest (fun x => s.vit.metric x = 0) 0 ∧
    Claims.survivorPath s.cfg s.vit s.vit.histWp.toNat s.cfg.tbd 0 (fun _ => 0) :=
  ⟨⟨by decide, fun _ _ => Nat.zero_le _⟩, rfl, fun _ _ => by
      simp [Claims.historyAt, Claims.pred, at_, State.reset, Viterbi.reset, Memory.read,
        Memory.unwritten]⟩

theorem witness_ErrorRateStep :
    let s := given_ (at_ legalCfg .data) fun a => { a with bitGiven := true }
    Inv s ∧ s.vit.histWp.toNat < s.cfg.tbd ∧ s.env.args.bitGiven = true ∧
    Inv (given_ (at_ legalCfg .data) id) ∧
    (given_ (at_ legalCfg .data) id).env.args.bitGiven = false :=
  ⟨at_inv _ legalCfg_reserved _ _, by decide, rfl, at_inv _ legalCfg_reserved _ _, rfl⟩

/-- H = 0x2000, OUTSYNC_AFTER = 2. -/
def lockCfg : Cfg := { legalCfg with vitlock := 0x22000 }

/-- The classes of a window: 1 of 16 good, 2 of 16 neutral, 3 of 16 and 0 of 0 bad; windows enough
to leave the locked state. -/
theorem witness_LockDecision :
    Claims.goodWindow lockCfg 1 16 ∧ Claims.badWindow lockCfg 3 16 ∧ Claims.badWindow lockCfg 0 0 ∧
    ¬ Claims.goodWindow lockCfg 2 16 ∧ ¬ Claims.badWindow lockCfg 2 16 ∧
    (∀ w ∈ List.replicate 3 ((3 : BitVec 17), (16 : BitVec 17)),
      Claims.badWindow lockCfg w.1.toNat w.2.toNat) ∧
    lockCfg.outsyncAfter < 3 ∧ 1 + 1 ≤ lockCfg.outsyncAfter ∧ lockCfg.outsyncAfter < 2 + 1 := by
  have hb : Claims.badWindow lockCfg 3 16 := by unfold Claims.badWindow; decide +kernel
  refine ⟨?_, hb, .inl rfl, ?_, ?_, ?_, by decide, by decide, by decide⟩
  · unfold Claims.goodWindow; decide +kernel
  · unfold Claims.goodWindow; decide +kernel
  · unfold Claims.badWindow; decide +kernel
  · intro w hw
    rw [List.eq_of_mem_replicate hw]
    exact hb

theorem witness_TrellisStepComposite :
    (at_ legalCfg .data).vit.histWp.toNat < (at_ legalCfg .data).cfg.tbd := by decide

theorem witness_FlushReadsSurvivor :
    let s := { at_ legalCfg .flush with vit := { Viterbi.reset with vitN := 9 } }
    0 < s.cfg.tbd ∧ s.vit.vitN.toNat ≤ s.cfg.tbd + 1 ∧
    Claims.lowest (fun x => ∀ y, s.vit.metric x ≤ s.vit.metric y) 0 ∧
    Claims.survivorPath s.cfg s.vit ((s.vit.histWp.toNat + s.cfg.tbd - 1) % s.cfg.tbd) 7 0
      (fun _ => 0) :=
  ⟨by decide, by decide, ⟨by decide +kernel, fun _ _ => Nat.zero_le _⟩, rfl,
    fun _ _ => by
      simp [Claims.historyAt, Claims.pred, at_, State.reset, Viterbi.reset, Memory.read,
        Memory.unwritten]⟩

theorem witness_DecoderReturnsMessage :
    let s := given_ (at_ legalCfg .data) id
    Inv s ∧ Claims.cleared s.vit ∧ 0 < (64 : Soft).toInt ∧ 63 < 64 ∧ 5 ≤ s.cfg.tbd ∧
    s.cfg.tbd < (List.replicate 9 true).length :=
  ⟨at_inv _ legalCfg_reserved _ _, ⟨by decide +kernel, rfl, rfl⟩, by decide, by decide, by decide,
    by decide⟩

/-! ### Deframer and derandomiser -/

/-- A state of the deframer with a marker of 8 bits and frames of 16, a bit waiting. -/
def framer (d : Deframer) (b : Bool) : State :=
  { given_ (at_ smallCfg .data) fun a => { a with bit := b } with df := d }

theorem framer_ready (d : Deframer) (b : Bool)
    (h : d.dfCnt.toNat < 16 ∧ d.dfBitctr.toNat < 16) : Claims.FramerReady (framer d b) :=
  ⟨smallCfg_legal, fun _ => h.1, h.2⟩

theorem framer_inv (d : Deframer) (b : Bool) : Inv (framer d b) :=
  inv_of _ ⟨Memory.wf_nil, Memory.wf_nil, Memory.wf_nil, Memory.wf_nil, Memory.wf_nil⟩
    smallCfg_reserved rfl ⟨0, rfl⟩

/-- Each transition: SEARCHING with and without a match, and in CHECKING and SYNCED the marker's
last bit with and without a match, the frame's last bit, and a bit between. -/
theorem witness_DeframerTransitions :
    Claims.FramerReady (framer ⟨.searching, 0x4E, 0, 0, 0, 15, 0⟩ false) ∧
    Claims.FramerReady (framer ⟨.checking, 0x4E, 7, 0, 0, 0, 0⟩ false) ∧
    Claims.FramerReady (framer ⟨.synced, 0x4E, 15, 0, 0, 0, 0⟩ true) ∧
    Claims.FramerReady (framer ⟨.synced, 0x4E, 0, 0, 0, 0, 0⟩ true) ∧
    Claims.matching smallCfg (Claims.shifted ⟨.searching, 0x4E, 0, 0, 0, 15, 0⟩ false) ∧
    ¬ Claims.matching smallCfg (Claims.shifted ⟨.searching, 0x4E, 0, 0, 0, 15, 0⟩ true) :=
  ⟨framer_ready _ _ (by decide), framer_ready _ _ (by decide), framer_ready _ _ (by decide),
    framer_ready _ _ (by decide), by decide +kernel, by decide +kernel⟩

/-- The same pushes complete: at the marker in CHECKING and SYNCED, with and without a match. -/
theorem witness_DeframerTransitions_marker :
    after .dfPush (framer ⟨.checking, 0x4E, 7, 0, 0, 0, 0⟩ false) (fun t => t.df.dfState) =
      some .synced ∧
    after .dfPush (framer ⟨.checking, 0x4E, 7, 0, 0, 0, 0⟩ true) (fun t => t.df.dfState) =
      some .searching ∧
    after .dfPush (framer ⟨.synced, 0x4E, 7, 3, 0, 0, 0⟩ false) (fun t => t.df.dfMiss) = some 0 ∧
    after .dfPush (framer ⟨.synced, 0x4E, 7, 0, 0, 0, 0⟩ true) (fun t => t.df.dfState) =
      some .searching := by decide +kernel

theorem witness_DeframerStoresBits :
    Claims.FramerReady (framer ⟨.synced, 0, 15, 0, 0, 0, 0⟩ true) ∧
    Inv (framer ⟨.synced, 0, 15, 0, 0, 0, 0⟩ true) ∧
    after .dfPush (framer ⟨.synced, 0, 15, 0, 0, 0, 0⟩ true) (fun t => t.frm) = some [(1, 1)] ∧
    Claims.FramerReady (framer ⟨.searching, 0x4E, 0, 0, 0, 0, 0⟩ false) ∧
    Inv (framer ⟨.searching, 0x4E, 0, 0, 0, 0, 0⟩ false) ∧
    after .dfPush (framer ⟨.searching, 0x4E, 0, 0, 0, 0, 0⟩ false) (fun t => t.frm) =
      some [(0, 0x9C)] :=
  ⟨framer_ready _ _ (by decide), framer_inv _ _, by decide +kernel, framer_ready _ _ (by decide),
    framer_inv _ _, by decide +kernel⟩

/-- Two frames 9C 00, from place 0. -/
def twoFrames : List Bool :=
  let m := [true, false, false, true, true, true, false, false]
  m ++ List.replicate 8 false ++ m ++ List.replicate 8 false

theorem witness_DeframerLocksInTwoFrames :
    let s := framer ⟨.searching, 0, 0, 0, 0, 0, 0⟩ false
    Inv s ∧ configError s.cfg = none ∧ s.cfg.confirm = 1 ∧
    s.df = ⟨.searching, 0, 0, 0, 0, 0, 0⟩ ∧ twoFrames.length = 0 + 2 * s.cfg.frameBits ∧
    (∀ n, n < 0 + s.cfg.asmLen - 1 → ¬ Claims.matchingAt s.cfg twoFrames n) ∧
    Claims.matchingAt s.cfg twoFrames (0 + s.cfg.asmLen - 1) ∧
    Claims.matchingAt s.cfg twoFrames (0 + s.cfg.frameBits + s.cfg.asmLen - 1) := by
  refine ⟨framer_inv _ _, smallCfg_legal, by decide, rfl, by decide, ?_, ?_, ?_⟩
  all_goals unfold Claims.matchingAt; decide +kernel

theorem witness_DerandomiserXorsPayload :
    let s := given_ (at_ legalCfg .data) id
    Inv s ∧ s.frm.wf ∧ s.cfg.derandStart ≤ 4 ∧ 7 < (s.cfg.frameBits + s.cfg.padBits) / 8 ∧
    ¬ s.cfg.derandStart ≤ 3 :=
  ⟨at_inv _ legalCfg_reserved _ _, Memory.wf_nil, by decide, by decide, by decide⟩

/-! ### Reed-Solomon -/

theorem witness_DualBasisTransforms :
    Memory.wf ([(0, 0xFF), (254, 0x01), (255, 0x02)] : Memory 8) := by decide

theorem witness_InterleaveGatherScatter :
    let s := { at_ rsCfg .data with frm := [(4, 0xFF), (258, 0x01)], cw := [(254, 0x80)] }
    s.frm.wf ∧ s.cw.wf ∧ s.env.args.lane.toNat < s.cfg.rsDepth ∧
    Claims.laneIndex s.cfg s.env.args.lane.toNat 254 < (s.cfg.frameBits + s.cfg.padBits) / 8 := by
  decide

theorem product_zero (x : Byte) : Claims.product 0 x = 0 := by revert x; decide +kernel

theorem zero_horner (x : Byte) : Claims.hornerRun [] x fun _ => 0 :=
  ⟨rfl, fun _ _ => by rw [product_zero]; exact (BitVec.xor_self (x := 0#8)).symm⟩

/-- The field written a second time: R290's 0x02 × 0x80 = 0x87, R291's α^255 = 1. -/
theorem test_field_product : Claims.product 0x02 0x80 = 0x87 ∧ Claims.alphaPow 255 = 1 ∧
    Claims.alphaPow 8 = 0x87 ∧ Claims.alphaPow 9 = 0x89 ∧ gfexp 9 = 0x89 ∧
    gmul 0x80 0x80 = Claims.product 0x80 0x80 := by decide +kernel

/-- The word of zeros is a codeword of both codes. -/
theorem zero_isCode (t : BitVec 2) : Claims.isCode t [] := fun _ _ => ⟨_, zero_horner _, rfl⟩

theorem witness_SyndromesByHorner :
    rsCfg.rsType = 1#2 ∧ ({ rsCfg with rs := 0x12 } : Cfg).rsType = 2#2 ∧
    Claims.hornerRun [] (Claims.beta (Claims.firstRoot 1#2 + 31)) (fun _ => 0) ∧
    31 < Claims.roots 1#2 ∧ 15 < Claims.roots 2#2 :=
  ⟨by decide, by decide, zero_horner _, by decide, by decide⟩

/-- A codeword of each code, and a byte to change. -/
theorem witness_RsDecodeSound :
    Memory.wf ([] : Memory 8) ∧ Claims.isCode 1#2 [] ∧
    ((at_ rsCfg .data).cfg.rsType = 1#2 ∨ (at_ rsCfg .data).cfg.rsType = 2#2) ∧
    Claims.isCode 2#2 [] ∧ (at_ { rsCfg with rs := 0x12 } .data).cfg.rsType = 2#2 ∧
    254 < 255 ∧ (0x80 : Byte) ≠ 0 :=
  ⟨Memory.wf_nil, zero_isCode _, by decide, zero_isCode _, by decide, by decide, by decide⟩

/-- A received word with its last `n` bytes wrong. -/
def wrongBytes (n : Nat) : Memory 8 := (List.range n).map fun k => (255 - n + k, 0x80)

/-- No wrong byte, and as many as each code corrects. -/
theorem witness_RsDecodeRepairsErrors :
    (at_ rsCfg .data).cw.wf ∧ (wrongBytes 0).wf ∧ (wrongBytes 16).wf ∧
    (at_ rsCfg .data).cfg.rsType = 1#2 ∧
    Claims.isCode (at_ rsCfg .data).cfg.rsType (at_ rsCfg .data).cw ∧
    Claims.changed [] (wrongBytes 0) = 0 ∧
    Claims.changed [] (wrongBytes 16) = Claims.roots 1#2 / 2 ∧
    Claims.changed [] (wrongBytes 8) = Claims.roots 2#2 / 2 ∧
    ∀ n ≤ 16, ∀ a, 255 ≤ a → (wrongBytes n).read a = (at_ rsCfg .data).cw.read a := by
  refine ⟨Memory.wf_nil, Memory.wf_nil, by decide +kernel, by decide, zero_isCode _,
    by decide +kernel, by decide +kernel, by decide +kernel, ?_⟩
  intro n hn a ha
  refine Memory.read_of_ne _ a fun p hp => ?_
  obtain ⟨k, hk, rfl⟩ := List.mem_map.1 hp
  have := List.mem_range.1 hk
  show 255 - n + k ≠ a
  omega

theorem witness_RsFrameDecodesEachLane :
    let s := at_ rsCfg .data
    configError s.cfg = none ∧ s.cfg.rsType ≠ 0#2 ∧ s.frm.wf ∧ s.cw.wf ∧
    s.cfg.rsDepth ≤ 1 ∧ 0 < s.cfg.rsDepth := by decide +kernel

/-! ### Controller -/

theorem witness_ConfigCheckFirstFault :
    Claims.firstFault legalCfg = none ∧ Claims.firstFault Cfg.reset = some (true, 1, 0x10) ∧
    Claims.firstFault { legalCfg with modem := 2 } = some (true, 2, 0x10) ∧
    Claims.firstFault { corrCfg with corr := 0x00010101 } = some (true, 12, 0) := by decide +kernel

/-- IN empty, the token, a symbol that is and one that is not the batch's last. -/
theorem witness_ReadOneEntry :
    (at_ legalCfg .read).inq = [] ∧ (0x1FF#9).getLsbD 8 = true ∧ (0x0FF#9).getLsbD 8 = false ∧
    (at_ legalCfg .read).sym.wf ∧
    (at_ legalCfg .read).ctl.symN.toNat < (at_ legalCfg .read).cfg.batchLen ∧
    (at_ { legalCfg with batch := 1 } .read).ctl.symN.toNat + 1 =
      (at_ { legalCfg with batch := 1 } .read).cfg.batchLen := by decide

/-- A search is pending: in a run, and ready; and none is. -/
theorem witness_CorrelatorStep :
    let s := { corrState with ctl := { corrState.ctl with acqPending := true } }
    s.ctl.acqPending = true ∧ Claims.SearchReady s ∧ RunInv s ∧ s.ctl.seq = .corr ∧
    corrState.ctl.acqPending = false :=
  ⟨rfl, ⟨by decide, by decide, by unfold Claims.clamped; decide, by decide, by decide⟩,
    runInv_of _ ⟨rfl, rfl, rfl, rfl⟩ (fun _ => rfl) corrCfg_legal
      ⟨rfl, by decide, by decide, rfl, by decide⟩ (searching_ranges corrCfg_legal)
      ⟨rfl, by decide, fun h => by cases h⟩ ⟨by decide, by decide, by decide⟩, rfl, rfl⟩

theorem outEmpty_room (s : State) (h : s.outq = []) : Claims.roomInOut s := by
  unfold Claims.roomInOut; rw [h]; exact Nat.succ_pos _

/-- OUT with every place taken. -/
def fullOut : List Frame := List.replicate Config.outDepth []

theorem fullOut_noRoom (s : State) (h : s.outq = fullOut) : ¬ Claims.roomInOut s := by
  unfold Claims.roomInOut fullOut at *
  rw [h, List.length_replicate]
  exact Nat.lt_irrefl _

/-- What waits in OUT does not matter to a working state of a run. -/
theorem runInv_outq {s : State} (h : RunInv s) (hw : s.ctl.seq.working = true) (l : List Frame) :
    RunInv { s with outq := l } := by
  refine ⟨h.agents, ⟨h.clamped.sym, h.clamped.hold, h.clamped.first⟩, ?_, h.idle, h.acq, h.noError,
    fun hq => ⟨(h.legal hq).1, (h.legal hq).2.of_eq rfl rfl rfl rfl rfl rfl⟩,
    ⟨h.batch.read, h.batch.corr, h.batch.data⟩⟩
  rintro (e | e | e) <;>
    · have e : s.ctl.seq = _ := e
      rw [e] at hw
      cases hw

theorem lastBit_ranges : (⟨.synced, 0, 15, 0, 0, 3, 0⟩ : Deframer).Ranges smallCfg :=
  ⟨fun _ => by decide, fun h => (by cases h), by decide, by decide, by decide,
    fun _ => by decide, by decide, fun h => (by cases h)⟩

theorem lastBit_runInv (q : Seq) (out : List Frame) (hq : q = .data ∨ q = .flush) :
    RunInv (lastBit q out) := by
  rcases hq with rfl | rfl
  · exact runInv_outq (s := lastBit .data []) (runInv_of _ ⟨rfl, rfl, rfl, rfl⟩
      (fun h => by cases h) smallCfg_legal ⟨rfl, by decide, by decide, rfl, by decide⟩
      lastBit_ranges ⟨rfl, by decide, fun _ => by decide⟩
      ⟨(by intro e he; cases he), by decide, by decide⟩) rfl out
  · exact runInv_outq (s := lastBit .flush []) (runInv_of _ ⟨rfl, rfl, rfl, rfl⟩
      (fun h => by cases h) smallCfg_legal ⟨rfl, by decide, by decide, rfl, by decide⟩
      lastBit_ranges ⟨rfl, by decide, fun h => (by cases h)⟩
      ⟨(by intro e he; cases he), by decide, by decide⟩) rfl out

/-- A symbol to skip, the batch's last included; with OUT full, a data step of a run that emits
nothing and one that would emit. -/
theorem witness_DataStepTakesOneSymbol :
    (let s := { at_ legalCfg .data with ph := ⟨0, 1, false, 0, false⟩ }
     s.ph.skip ≠ 0 ∧ s.ctl.symI.toNat < s.cfg.batchLen) ∧
    RunInv (at_ legalCfg .data) ∧ (at_ legalCfg .data).ctl.seq = .data ∧
    after .ctlData (Claims.emptyOut (at_ legalCfg .data)) (fun t => t.outq) = some [] ∧
    RunInv (lastBit .data fullOut) ∧ ¬ Claims.roomInOut (lastBit .data fullOut) ∧
    after .ctlData (Claims.emptyOut (lastBit .data fullOut)) (fun t => t.outq) = some [[0, 0]] :=
  ⟨by decide, legal_runInv .data rfl, rfl, by decide +kernel, lastBit_runInv .data _ (.inl rfl),
    fullOut_noRoom _ rfl, by decide +kernel⟩

/-- BPSK: the first slot of a pair, at rates 1/2 and 7/8, and a step that decodes a bit. QPSK: an I,
and a Q that completes the channel symbol. -/
theorem witness_DataStepRunsDatapath :
    (∀ c ∈ [legalCfg, { legalCfg with code := 0x804 }, { legalCfg with modem := 1 }],
      RunInv (at_ c .data) ∧ (at_ c .data).ctl.seq = .data ∧ (at_ c .data).ph.skip = 0 ∧
      Claims.roomInOut (at_ c .data)) ∧
    (RunInv (lastBit .data []) ∧ Claims.roomInOut (lastBit .data [])) ∧
    RunInv { at_ { legalCfg with modem := 1 } .data with
      ph := ⟨0, 0, true, 0x81, false⟩, dp := ⟨0, true, 0⟩ } := by
  refine ⟨fun c hc => ?_, ⟨lastBit_runInv .data _ (.inl rfl), outEmpty_room _ rfl⟩,
    data_runInv { legalCfg with modem := 1 } ⟨0, 0, true, 0x81, false⟩ true 0 (by decide)
      (by decide)⟩
  have hl : configError c = none ∧ 0 < c.nhyp ∧ 2 < c.batchLen := by
    simp only [List.mem_cons, List.not_mem_nil, or_false] at hc
    rcases hc with rfl | rfl | rfl <;> decide
  exact ⟨at_runInv c .data rfl hl.1 hl.2, rfl, rfl, outEmpty_room _ rfl⟩

/-- R339 as separate operations on a step that decodes a bit and completes a frame. -/
theorem test_batchSymbolThrough :
    (Claims.batchSymbolThrough (lastBit .data []) 0).map (fun u => (u.dp, u.vit.vitN, u.outq)) =
      some (⟨0, false, 0⟩, 9, [[0, 0]]) := by decide +kernel

/-- A bit that completes a frame, with room in OUT and without, and one that does not. -/
theorem witness_BitRouted :
    Claims.FramerReady (framer ⟨.synced, 0, 15, 0, 0, 3, 0⟩ true) ∧
    Claims.roomInOut (framer ⟨.synced, 0, 15, 0, 0, 3, 0⟩ true) ∧
    after .ctlBit (framer ⟨.synced, 0, 15, 0, 0, 3, 0⟩ true) (fun t => t.outq) = some [[0, 1]] ∧
    ¬ Claims.roomInOut { framer ⟨.synced, 0, 15, 0, 0, 3, 0⟩ true with outq := fullOut } ∧
    Claims.FramerReady (framer ⟨.synced, 0, 0, 0, 0, 4, 0⟩ true) ∧
    after .ctlBit (framer ⟨.synced, 0, 0, 0, 0, 4, 0⟩ true) (fun t => t.outq) = some [] :=
  ⟨framer_ready _ _ (by decide), outEmpty_room _ rfl, by decide +kernel, fullOut_noRoom _ rfl,
    framer_ready _ _ (by decide), by decide +kernel⟩

theorem witness_FrameProcessed :
    ∀ c ∈ [legalCfg, smallCfg, rsCfg], configError (at_ c .data).cfg = none ∧
      Claims.roomInOut (at_ c .data) ∧
      ¬ Claims.roomInOut { at_ c .data with outq := fullOut } := by
  intro c hc
  refine ⟨?_, outEmpty_room _ rfl, fullOut_noRoom _ rfl⟩
  simp only [List.mem_cons, List.not_mem_nil, or_false] at hc
  rcases hc with rfl | rfl | rfl
  · exact legalCfg_legal
  · exact smallCfg_legal
  · exact rsCfg_legal

/-- Depth 8 with RS on, depth 15 with RS off (a legal configuration), and accept-all. -/
theorem witness_AcceptAndEmit :
    ({ rsCfg with rs := 0x81 } : Cfg).rsDepth ≤ 8 ∧
    configError { legalCfg with rs := 0xF0 } = none ∧
    ({ legalCfg with rs := 0xF0 } : Cfg).rsType = 0#2 ∧
    ({ legalCfg with rs := 0xF0 } : Cfg).rsDepth = 15 ∧
    ({ rsCfg with rs := 0x2F1 } : Cfg).acceptAll = true ∧
    Claims.roomInOut (at_ rsCfg .data) ∧
    ¬ Claims.roomInOut { at_ rsCfg .data with outq := fullOut } :=
  ⟨by decide, by decide, by decide, by decide, by decide, outEmpty_room _ rfl,
    fullOut_noRoom _ rfl⟩

theorem witness_CycleTopAndEnd :
    (at_ legalCfg .top).ctl.cancelReq = false ∧
    ({ at_ legalCfg .top with ctl := { Ctl.reset with seq := .top, cancelReq := true } } : State).ctl.cancelReq
      = true ∧
    (at_ corrCfg .resync).cfg.useCorr = true ∧ (at_ legalCfg .resync).cfg.useCorr = false ∧
    (let s := { at_ { legalCfg with deframer := 0x10101 } .resync with
        ctl := { Ctl.reset with seq := .resync, unsyncBits := 64 } }
     s.cfg.resyncN ≠ 0 ∧ s.cfg.resyncN * s.cfg.frameBits ≤ s.ctl.unsyncBits.toNat) := by decide

/-- One step performed: one bit to flush, `i` of them routed. -/
def flushing (i : BitVec 8) : State :=
  { at_ smallCfg .flush with
    vit := { Viterbi.reset with vitN := 1 }
    ctl := { Ctl.reset with seq := .flush, flI := i } }

theorem flushing_runInv (i : BitVec 8) (h : i.toNat ≤ smallCfg.tbd) : RunInv (flushing i) :=
  runInv_of _ ⟨rfl, rfl, rfl, rfl⟩ (fun h => by cases h) smallCfg_legal
    ⟨rfl, (by decide : (1#9).toNat ≤ smallCfg.tbd + 1),
      (by decide : (0#3).toNat < smallCfg.nhyp), rfl, h⟩
    (searching_ranges smallCfg_legal)
    ⟨rfl, (by decide : (0#16).toNat < smallCfg.batchLen), fun h => by cases h⟩
    ⟨(by intro e he; cases he), (by decide : (0#8 : Soft) ≠ 0x80#8),
      (by decide : (0#8 : Soft) ≠ 0x80#8)⟩

/-- A bit to route, none left, and a bit that would complete a frame with OUT full. -/
theorem witness_FlushStepRoutesBit :
    RunInv (flushing 0) ∧ (flushing 0).ctl.seq = .flush ∧ Claims.roomInOut (flushing 0) ∧
    RunInv (flushing 1) ∧ result .vitFlush (flushing 0) = some (.bits [false]) ∧
    result .vitFlush (flushing 1) = some (.bits [false]) ∧
    RunInv (lastBit .flush fullOut) ∧ ¬ Claims.roomInOut (lastBit .flush fullOut) ∧
    after .ctlFlush (lastBit .flush []) (fun t => t.outq) = some [[0, 0]] :=
  ⟨flushing_runInv 0 (by decide), rfl, outEmpty_room _ rfl, flushing_runInv 1 (by decide),
    by decide +kernel, by decide +kernel, lastBit_runInv .flush _ (.inr rfl), fullOut_noRoom _ rfl,
    by decide +kernel⟩

/-! ### Handed operations outside their spaces, clause by clause -/

theorem witness_IndexOutsideSpaceStops :
    State.reset.cfg.tbd ≤ State.reset.vit.histWp.toNat ∧
    legalCfg.tbd ≤ ({ Viterbi.reset with histWp := 8 } : Viterbi).histWp.toNat ∧
    Cfg.reset.tbd = 0 ∧ 2 ≤ ({ Viterbi.reset with vitN := 2 } : Viterbi).vitN.toNat ∧
    (State.reset.cfg.frameBits + State.reset.cfg.padBits) / 8 ≤
      Claims.laneIndex State.reset.cfg State.reset.env.args.lane.toNat 254 ∧
    5 ≤ (at_ { legalCfg with code := 0x805 } .data).cfg.rate ∧
    Claims.period legalCfg.rate ≤ (1#3).toNat ∧ State.reset.dp.dpI = false := by decide

/-- The deframer: a marker of 65 bits, a marker of 9 bits in a frame of 8, a bit past the frame, and
the padding of a frame of 11 bits, which FRM holds one byte of. -/
theorem witness_IndexOutsideSpaceStops_deframer :
    (let c := { smallCfg with asmLo := 0, asmctl := 65 }
     Claims.matching c (Claims.shifted Deframer.reset false) ∧ 64 < c.asmLen) ∧
    (let c := { smallCfg with asmLo := 0, asmctl := 9, frame := 8 }
     Claims.matching c (Claims.shifted Deframer.reset false) ∧ c.asmLen ≤ 64 ∧
       8 * ((c.frameBits + c.padBits) / 8) < c.asmLen) ∧
    8 * ((smallCfg.frameBits + smallCfg.padBits) / 8) ≤ (16#20).toNat ∧
    (let c := { smallCfg with frame := 0x0100000A }
     (9#20 + 1).toNat = c.frameBits ∧ c.asmLen ≠ c.frameBits ∧
       8 * ((c.frameBits + c.padBits) / 8) < c.frameBits + c.padBits) := by decide +kernel

/-- SYM and the pattern table: a full batch to read and to take, a span one symbol too long, a
window longer than the batch, a pattern of 65 bits in a window of 65, nine patterns. -/
theorem witness_IndexOutsideSpaceStops_symbols :
    (0x0FF#9).getLsbD 8 = false ∧
    ({ legalCfg with batch := 0 } : Cfg).batchLen ≤ State.reset.ctl.symN.toNat ∧
    ({ legalCfg with batch := 0 } : Cfg).batchLen ≤ State.reset.ctl.symI.toNat ∧
    Claims.windowLength corrState < 2 + corrState.cfg.patLen 0 ∧
    (let s := { corrState with cfg := { corrCfg with batch := 2 } }
     s.cfg.batchLen < Claims.windowLength s) ∧
    (let s := { corrState with
        cfg := { corrCfg with
          corr := 0x00410101
          pats := Vector.ofFn fun i => if i.val = 0 then ⟨0, 0, 65⟩ else Pattern.reset }
        ctl := { Ctl.reset with symN := 65 } }
     0 + s.cfg.patLen 0 ≤ Claims.windowLength s ∧ 0 < Claims.windowLength s ∧
       Claims.windowLength s ≤ s.cfg.batchLen ∧ 64 < s.cfg.patLen 0 ∧ 0 < s.cfg.npat) ∧
    8 < ({ corrCfg with corr := 0x00030109 } : Cfg).npat := by decide +kernel

/-- RS.FRAME: an interleave outside the frame, a ninth one inside it and one outside. -/
theorem witness_IndexOutsideSpaceStops_frame :
    (let c := { rsCfg with frame := 2064 }
     0 < c.rsDepth ∧
       (c.frameBits + c.padBits) / 8 ≤ Claims.laneIndex c (min (c.rsDepth - 1) 8) 254) ∧
    (let c := { rsCfg with rs := 0x91, frame := 18392 }
     8 < c.rsDepth ∧ Claims.laneIndex c 8 254 < (c.frameBits + c.padBits) / 8) ∧
    (let c := { rsCfg with rs := 0x91, frame := 18384 }
     0 < c.rsDepth ∧
       (c.frameBits + c.padBits) / 8 ≤ Claims.laneIndex c (min (c.rsDepth - 1) 8) 254) := by
  decide +kernel

end Sys2Proof.Tests
end

section
/-! SUPPORT. Words joined from fields; BUS words put together and taken apart (R111), and the masks
of R112 by their fields. -/

namespace Sys2Proof.Machine

/-! ## Words joined from fields -/

theorem toNat_append_eq_add {m n : Nat} (x : BitVec m) (y : BitVec n) :
    (x ++ y).toNat = x.toNat * 2 ^ n + y.toNat := by
  rw [BitVec.toNat_append, ← Nat.shiftLeft_add_eq_or_of_lt y.isLt, Nat.shiftLeft_eq]

theorem zero_append_eq_ofNat {m n : Nat} (x : BitVec n) :
    0#m ++ x = BitVec.ofNat (m + n) x.toNat := by
  apply BitVec.eq_of_toNat_eq
  have hx : x.toNat < 2 ^ (m + n) :=
    Nat.lt_of_lt_of_le x.isLt (Nat.pow_le_pow_right Nat.zero_lt_two (Nat.le_add_left n m))
  rw [toNat_append_eq_add, BitVec.toNat_ofNat, BitVec.toNat_ofNat, Nat.mod_eq_of_lt hx,
    Nat.zero_mod, Nat.zero_mul, Nat.zero_add]

theorem zero_append_and_append_zero {m n : Nat} (x : BitVec n) (y : BitVec m) :
    (0#m ++ x) &&& (y ++ 0#n) = 0#(m + n) := by
  rw [BitVec.and_append, BitVec.zero_and, BitVec.and_zero, BitVec.zero_append_zero]

theorem zero_append_low7 (x : RegWord) : 0#25 ++ x.extractLsb' 0 7 = x &&& 0x7F#32 := by
  have hmask : (x &&& 0x7F#32).toNat = x.toNat % 2 ^ 7 := Nat.and_two_pow_sub_one_eq_mod x.toNat 7
  apply BitVec.eq_of_toNat_eq
  rw [hmask, toNat_append_eq_add]
  simp

end Sys2Proof.Machine

namespace Sys2Proof

/-! ## A BUS word is its three fields -/

/-- Every BUS word is made of its fields. -/
theorem busWord_fields (w : BusWord) : busWord (busRw w) (busAddr w) (busData w) = w := by
  apply BitVec.eq_of_getLsbD_eq
  intro i hi
  show ((BitVec.ofBool (w.getLsbD 40) ++ w.extractLsb' 32 8 ++ w.extractLsb' 0 32 :
    BitVec (1 + 8 + 32))).getLsbD i = w.getLsbD i
  rw [BitVec.getLsbD_append, BitVec.getLsbD_append]
  by_cases hdata : i < 32
  · simp [hdata]
  by_cases haddr : i < 40
  · simp [hdata, show i - 32 < 8 by omega, show 32 + (i - 32) = i by omega]
  · obtain rfl : i = 40 := by omega
    simp

theorem busWord_inj {r r' : Bool} {a a' : BitVec 8} {d d' : RegWord} :
    busWord r a d = busWord r' a' d' ↔ r = r' ∧ a = a' ∧ d = d' := by
  constructor
  · intro h
    have hr := congrArg busRw h
    have ha := congrArg busAddr h
    have hd := congrArg busData h
    simp only [Machine.busRw_busWord, Machine.busAddr_busWord, Machine.busData_busWord] at hr ha hd
    exact ⟨hr, ha, hd⟩
  · rintro ⟨rfl, rfl, rfl⟩
    rfl

/-- A mask acts on each field by itself. -/
theorem busWord_and (r r' : Bool) (a a' : BitVec 8) (d d' : RegWord) :
    busWord r a d &&& busWord r' a' d' = busWord (r && r') (a &&& a') (d &&& d') := by
  unfold busWord
  rw [BitVec.and_append, BitVec.and_append, BitVec.ofBool_and_ofBool]

/-! ## The masks of R112 -/

/-- `data[1:0]` by a mask. -/
theorem lowBits_iff (d : RegWord) (k : BitVec 2) :
    d &&& 3#32 = k.setWidth 32 ↔ d.extractLsb' 0 2 = k := by
  have hmask : (d &&& 3#32).toNat = d.toNat % 4 := Nat.and_two_pow_sub_one_eq_mod d.toNat 2
  have hk : (k.setWidth 32).toNat = k.toNat := by simp; omega
  rw [← BitVec.toNat_inj, ← BitVec.toNat_inj, hmask, hk]
  simp

/-- Rows 1 to 3: a write to CTRL with the command `k` in `data[1:0]`. -/
theorem commandRow_iff (w : BusWord) (k : BitVec 2) :
    w &&& 0x1FF00000003#41 = busWord true 0x00#8 (k.setWidth 32) ↔
      busRw w = true ∧ busAddr w = 0x00#8 ∧ (busData w).extractLsb' 0 2 = k := by
  have hmask : 0x1FF00000003#41 = busWord true 0xFF#8 3#32 := by decide
  have haddr : busAddr w &&& 0xFF#8 = busAddr w := BitVec.and_allOnes
  conv_lhs => rw [← busWord_fields w, hmask, busWord_and, busWord_inj]
  rw [haddr, Bool.and_true, lowBits_iff]

/-- Row 4 tells a write from a read. -/
theorem writeRow_iff (w : BusWord) :
    w &&& 0x10000000000#41 = 0x10000000000#41 ↔ busRw w = true := by
  rw [← busWord_fields w, Machine.busRw_busWord]
  cases busRw w with
  | true => simp [Laws.busWord_write]
  | false => simp [Laws.busWord_read]

/-- Row 5: the words that are no write. -/
theorem readRow_of_not_write (w : BusWord) (h : busRw w = false) :
    w &&& 0x10000000000#41 = 0#41 := by
  rw [← busWord_fields w, h]
  exact Laws.busWord_read _ _

/-- R112 as the table writes it. -/
theorem decodeBus_eq_rows (w : BusWord) :
    decodeBus w =
      if w &&& 0x1FF00000003#41 = 0x10000000001#41 then .hostStart
      else if w &&& 0x1FF00000003#41 = 0x10000000002#41 then .hostCancel
      else if w &&& 0x1FF00000003#41 = 0x10000000003#41 then .hostReset
      else if w &&& 0x10000000000#41 = 0x10000000000#41 then .hostCfgw (busAddr w) (busData w)
      else .hostRd (busAddr w) := by
  have hstart : _ = 0x10000000001#41 ↔ _ := commandRow_iff w 1#2
  have hcancel : _ = 0x10000000002#41 ↔ _ := commandRow_iff w 2#2
  have hreset : _ = 0x10000000003#41 ↔ _ := commandRow_iff w 3#2
  simp only [hstart, hcancel, hreset, writeRow_iff, decodeBus]
  cases busRw w with
  | true => simp
  | false => simp

end Sys2Proof
end

section
/-! SUPPORT. The register map (10_state section 4): names and addresses, and what HOST.CFGW stores
in each register (R54, R122). -/

namespace Sys2Proof.Machine

/-! ## Names and addresses -/

/-- The address of a register, `regAt` read backwards; of the two names that stand for many
addresses, one of them. -/
def RegName.address (r : RegName) : BitVec 8 :=
  match r with
  | .ctrl => 0x00
  | .status => 0x01
  | .cfgWritten => 0x02
  | .modem => 0x10
  | .code => 0x11
  | .vitlock => 0x12
  | .vitwin => 0x13
  | .frame => 0x14
  | .asmLo => 0x15
  | .asmHi => 0x16
  | .asmctl => 0x17
  | .deframer => 0x18
  | .derand => 0x19
  | .rs => 0x1A
  | .batch => 0x1B
  | .corr => 0x1C
  | .patLo j => 1#3 ++ j ++ 0#2
  | .patHi j => 1#3 ++ j ++ 1#2
  | .patLen j => 1#3 ++ j ++ 2#2
  | .hSeq => 0x40
  | .hState => 0x41
  | .hBerErrs => 0x42
  | .hBerTotal => 0x43
  | .hRsLo => 0x44
  | .hRsHi => 0x45
  | .reserved => 0x1D
  | .unmapped => 0x03

/-- The names that stand for no register. -/
def RegName.blank (r : RegName) : Prop := r = .reserved ∨ r = .unmapped

theorem address_regAt (a : BitVec 8) : (regAt a).blank ∨ (regAt a).address = a := by
  unfold RegName.blank
  revert a
  decide

theorem eq_of_regAt_eq {a b : BitVec 8} (h : regAt a = regAt b) (hb : ¬(regAt a).blank) : a = b :=
  calc a = (regAt a).address := ((address_regAt a).resolve_left hb).symm
    _ = (regAt b).address := congrArg RegName.address h
    _ = b := (address_regAt b).resolve_left (h ▸ hb)

/-- The registers that a write to the block 0x10 to 0x3F can address (R122). -/
def RegName.inConfigBlock (r : RegName) : Bool :=
  match r with
  | .ctrl | .status | .cfgWritten | .hSeq | .hState | .hBerErrs | .hBerTotal | .hRsLo | .hRsHi
  | .unmapped => false
  | _ => true

theorem regAt_inConfigBlock (a : BitVec 8) :
    0x10 ≤ a.toNat → a.toNat ≤ 0x3F → (regAt a).inConfigBlock = true := by
  revert a
  decide

theorem regAt_cfgWritten (a : BitVec 8) : regAt a = .cfgWritten → a = 0x02#8 := by
  revert a
  decide

theorem fieldMask_regAt (a : BitVec 8) : (regAt a).fieldMask = Claims.stored a := by
  revert a
  decide

/-! ## The value of a register, by address and by name -/

theorem mode_code_toNat (s : State) : s.mode.code.toNat = Claims.modeNumber s.ctl.seq := by
  unfold State.mode
  cases s.ctl.seq <;> rfl

theorem statusWord_eq (s : State) :
    statusWord s = BitVec.ofNat 32 (Claims.modeNumber s.ctl.seq + s.ctl.errCode.toNat * 2 ^ 8 +
      s.ctl.errInfo.toNat * 2 ^ 16) := by
  unfold statusWord
  rw [← mode_code_toNat]
  apply BitVec.eq_of_toNat_eq
  simp only [toNat_append_eq_add, BitVec.toNat_ofNat]
  omega

theorem getD_pats (c : Cfg) {j : Nat} (h : j < 8) :
    c.pats.toList.getD j ⟨0, 0, 0⟩ = c.pattern j := by
  unfold Cfg.pattern
  rw [dif_pos h, List.getD_eq_getElem _ _ (by simpa using h), Vector.getElem_toList]

/-- The word at place `k` of pattern `j` (R71). -/
def Pattern.word (p : Pattern) (k : Nat) : RegWord :=
  if k = 0 then p.lo
  else if k = 1 then p.hi
  else if k = 2 then BitVec.ofNat 32 p.len.toNat
  else 0

theorem registerValue_pattern (s : State) (a : BitVec 8) (hlo : 0x20 ≤ a.toNat)
    (hhi : a.toNat ≤ 0x3F) :
    Claims.registerValue s a =
      (s.cfg.pattern ((a.toNat - 0x20) / 4)).word (a.toNat % 4) := by
  unfold Claims.registerValue
  split
  case h_22 =>
    rw [if_pos ⟨hlo, hhi⟩, getD_pats _ (by omega)]
    rfl
  all_goals omega

theorem registerValue_patternAddress (s : State) (j : BitVec 3) (k : BitVec 2) :
    Claims.registerValue s (1#3 ++ j ++ k : BitVec (3 + 3 + 2)) =
      (s.cfg.pattern j.toNat).word k.toNat := by
  have ha : (1#3 ++ j ++ k : BitVec (3 + 3 + 2)).toNat = 0x20 + 4 * j.toNat + k.toNat := by
    simp only [toNat_append_eq_add, BitVec.toNat_ofNat]
    omega
  rw [registerValue_pattern s _ (by omega) (by omega)]
  congr 2 <;> omega

/-- R123: the value at a register's address is what a read of the register gives. -/
theorem registerValue_address (s : State) (r : RegName) :
    Claims.registerValue s r.address = readReg s r := by
  cases r with
  | status => exact (statusWord_eq s).symm
  | cfgWritten => exact (zero_append_eq_ofNat _).symm
  | patLo j => exact registerValue_patternAddress s j 0#2
  | patHi j => exact registerValue_patternAddress s j 1#2
  | patLen j =>
    exact (registerValue_patternAddress s j 2#2).trans (zero_append_eq_ofNat _).symm
  | _ => rfl

/-- Where a blank address can stand: at no register's, and in the pattern table at a fourth word. -/
theorem blank_place (a : BitVec 8) : (regAt a).blank →
    (0x20 ≤ a.toNat ∧ a.toNat ≤ 0x3F → a.toNat % 4 = 3) ∧
    a.toNat ∉ [0x01, 0x02, 0x10, 0x11, 0x12, 0x13, 0x14, 0x15, 0x16, 0x17, 0x18, 0x19, 0x1A, 0x1B,
      0x1C, 0x40, 0x41, 0x42, 0x43, 0x44, 0x45] := by
  unfold RegName.blank
  revert a
  decide

theorem registerValue_blank (s : State) (a : BitVec 8) (h : (regAt a).blank) :
    Claims.registerValue s a = 0 := by
  obtain ⟨hpat, hlist⟩ := blank_place a h
  by_cases hblock : 0x20 ≤ a.toNat ∧ a.toNat ≤ 0x3F
  · rw [registerValue_pattern s a hblock.1 hblock.2, hpat hblock]
    rfl
  · unfold Claims.registerValue
    split
    case h_22 => exact if_neg hblock
    all_goals simp_all

theorem readReg_blank (s : State) {r : RegName} (h : r.blank) : readReg s r = 0 := by
  rcases h with rfl | rfl <;> rfl

theorem registerValue_eq_readReg (s : State) (a : BitVec 8) :
    Claims.registerValue s a = readReg s (regAt a) := by
  rcases address_regAt a with hblank | haddr
  · rw [registerValue_blank s a hblank, readReg_blank s hblank]
  · rw [← registerValue_address, haddr]

/-! ## Reserved bits (R54, R73 to R75) -/

theorem readable_patLo (j : BitVec 3) :
    Claims.readable (RegName.patLo j).address = BitVec.allOnes 32 := by
  revert j
  decide

theorem readable_patHi (j : BitVec 3) :
    Claims.readable (RegName.patHi j).address = BitVec.allOnes 32 := by
  revert j
  decide

theorem readable_patLen (j : BitVec 3) : Claims.readable (RegName.patLen j).address = 0x7F := by
  revert j
  decide

theorem statusWord_reserved (s : State) : statusWord s &&& ~~~0x00FFFF03#32 = 0 := by
  have hmask : ~~~0x00FFFF03#32 = 0xFF#8 ++ 0#8 ++ 0#8 ++ 0x3F#6 ++ 0#2 := by decide
  rw [hmask]
  unfold statusWord
  rw [BitVec.and_append, BitVec.and_append, BitVec.and_append, BitVec.and_append]
  simp only [BitVec.zero_and, BitVec.and_zero]
  rfl

/-- R54: the bits of a register that belong to no field read 0. -/
theorem readReg_reserved {s : State} (h : Inv s) (r : RegName) :
    readReg s r &&& ~~~Claims.readable r.address = 0 := by
  cases r with
  | status => exact statusWord_reserved s
  | cfgWritten => exact zero_append_and_append_zero s.cfg.written (BitVec.allOnes 16)
  | modem => exact h.cfg.modem
  | code => exact h.cfg.code
  | vitlock => exact h.cfg.vitlock
  | vitwin => exact h.cfg.vitwin
  | frame => exact h.cfg.frame
  | asmctl => exact h.cfg.asmctl
  | deframer => exact h.cfg.deframer
  | derand => exact h.cfg.derand
  | rs => exact h.cfg.rs
  | batch => exact h.cfg.batch
  | corr => exact h.cfg.corr
  | hState => exact h.health.hState
  | hBerErrs => exact h.health.hBerErrs
  | hBerTotal => exact h.health.hBerTotal
  | patLo j =>
    rw [readable_patLo j]
    exact BitVec.and_zero
  | patHi j =>
    rw [readable_patHi j]
    exact BitVec.and_zero
  | patLen j =>
    rw [readable_patLen j]
    exact zero_append_and_append_zero (s.cfg.pattern j.toNat).len (BitVec.allOnes 25)
  | asmLo | asmHi | hSeq | hRsLo | hRsHi => exact BitVec.and_zero
  | ctrl | reserved | unmapped => exact BitVec.zero_and

theorem registerValue_reserved {s : State} (h : Inv s) (a : BitVec 8) :
    Claims.registerValue s a &&& ~~~Claims.readable a = 0 := by
  rcases address_regAt a with hblank | haddr
  · rw [registerValue_blank s a hblank]
    exact BitVec.zero_and
  · rw [← haddr, registerValue_address]
    exact readReg_reserved h _

/-! ## What a write stores (R122) -/

@[simp] theorem Cfg.pattern_setPattern (c : Cfg) (j : BitVec 3) (f : Pattern → Pattern)
    (i : Nat) :
    (c.setPattern j f).pattern i = if i = j.toNat then f (c.pattern i) else c.pattern i := by
  unfold Cfg.pattern Cfg.setPattern
  by_cases hi : i < 8
  · simp [hi]
  · simp [hi, show i ≠ j.toNat by omega]

@[simp] theorem Cfg.store_modem (c : Cfg) (r : RegName) (d : RegWord) :
    (c.store r d).modem = if r = .modem then d &&& RegName.modem.fieldMask else c.modem := by
  cases r <;> rfl
@[simp] theorem Cfg.store_code (c : Cfg) (r : RegName) (d : RegWord) :
    (c.store r d).code = if r = .code then d &&& RegName.code.fieldMask else c.code := by
  cases r <;> rfl
@[simp] theorem Cfg.store_vitlock (c : Cfg) (r : RegName) (d : RegWord) :
    (c.store r d).vitlock =
      if r = .vitlock then d &&& RegName.vitlock.fieldMask else c.vitlock := by
  cases r <;> rfl
@[simp] theorem Cfg.store_vitwin (c : Cfg) (r : RegName) (d : RegWord) :
    (c.store r d).vitwin = if r = .vitwin then d &&& RegName.vitwin.fieldMask else c.vitwin := by
  cases r <;> rfl
@[simp] theorem Cfg.store_frame (c : Cfg) (r : RegName) (d : RegWord) :
    (c.store r d).frame = if r = .frame then d &&& RegName.frame.fieldMask else c.frame := by
  cases r <;> rfl
@[simp] theorem Cfg.store_asmLo (c : Cfg) (r : RegName) (d : RegWord) :
    (c.store r d).asmLo = if r = .asmLo then d &&& RegName.asmLo.fieldMask else c.asmLo := by
  cases r <;> rfl
@[simp] theorem Cfg.store_asmHi (c : Cfg) (r : RegName) (d : RegWord) :
    (c.store r d).asmHi = if r = .asmHi then d &&& RegName.asmHi.fieldMask else c.asmHi := by
  cases r <;> rfl
@[simp] theorem Cfg.store_asmctl (c : Cfg) (r : RegName) (d : RegWord) :
    (c.store r d).asmctl = if r = .asmctl then d &&& RegName.asmctl.fieldMask else c.asmctl := by
  cases r <;> rfl
@[simp] theorem Cfg.store_deframer (c : Cfg) (r : RegName) (d : RegWord) :
    (c.store r d).deframer =
      if r = .deframer then d &&& RegName.deframer.fieldMask else c.deframer := by
  cases r <;> rfl
@[simp] theorem Cfg.store_derand (c : Cfg) (r : RegName) (d : RegWord) :
    (c.store r d).derand = if r = .derand then d &&& RegName.derand.fieldMask else c.derand := by
  cases r <;> rfl
@[simp] theorem Cfg.store_rs (c : Cfg) (r : RegName) (d : RegWord) :
    (c.store r d).rs = if r = .rs then d &&& RegName.rs.fieldMask else c.rs := by
  cases r <;> rfl
@[simp] theorem Cfg.store_batch (c : Cfg) (r : RegName) (d : RegWord) :
    (c.store r d).batch = if r = .batch then d &&& RegName.batch.fieldMask else c.batch := by
  cases r <;> rfl
@[simp] theorem Cfg.store_corr (c : Cfg) (r : RegName) (d : RegWord) :
    (c.store r d).corr = if r = .corr then d &&& RegName.corr.fieldMask else c.corr := by
  cases r <;> rfl
@[simp] theorem Cfg.store_pattern (c : Cfg) (r : RegName) (d : RegWord) (j : BitVec 3) :
    (c.store r d).pattern j.toNat =
      { lo := if r = .patLo j then d &&& (RegName.patLo j).fieldMask
          else (c.pattern j.toNat).lo
        hi := if r = .patHi j then d &&& (RegName.patHi j).fieldMask
          else (c.pattern j.toNat).hi
        len := if r = .patLen j then (d &&& (RegName.patLen j).fieldMask).extractLsb' 0 7
          else (c.pattern j.toNat).len } := by
  cases r with
  | patLo i | patHi i | patLen i =>
    by_cases hij : i = j
    · simp [Cfg.store, hij, RegName.fieldMask]
    · simp [Cfg.store, BitVec.toNat_inj, hij, Ne.symm hij]
  | _ => rfl
@[simp] theorem Cfg.store_written (c : Cfg) (r : RegName) (d : RegWord) :
    (c.store r d).written = c.written := by
  cases r <;> rfl

/-- A stored register reads as its fields of the data (R54). -/
theorem readReg_store_same (s : State) (c : Cfg) {r : RegName} (h : r.inConfigBlock = true)
    (d : RegWord) : readReg { s with cfg := c.store r d } r = d &&& r.fieldMask := by
  cases r with
  | patLen j =>
    simp only [readReg, Cfg.store_pattern, if_true, zero_append_low7]
    exact (BitVec.and_assoc ..).trans (congrArg (d &&& ·) BitVec.and_self)
  | reserved => exact BitVec.and_zero.symm
  | ctrl | status | cfgWritten | hSeq | hState | hBerErrs | hBerTotal | hRsLo | hRsHi | unmapped =>
    cases h
  | _ => simp [readReg]

/-- A store changes the value of no other register. -/
theorem readReg_store_ne (s : State) (c : Cfg) {r r' : RegName} (h : r' ≠ r) (d : RegWord) :
    readReg { s with cfg := c.store r d } r' = readReg { s with cfg := c } r' := by
  have h' := h.symm
  cases r' <;> simp [readReg, statusWord, State.mode, h']

theorem readReg_markWritten (s : State) (c : Cfg) (a : BitVec 8) {r : RegName}
    (h : r ≠ .cfgWritten) :
    readReg { s with cfg := c.markWritten a } r = readReg { s with cfg := c } r := by
  unfold Cfg.markWritten
  split
  · cases r with
    | cfgWritten => exact absurd rfl h
    | _ => rfl
  · rfl

theorem getLsbD_markWritten (c : Cfg) {a : BitVec 8} (ha : 0x10 ≤ a.toNat) {k : Nat}
    (hk : k < 16) :
    (c.markWritten a).written.getLsbD k =
      (c.written.getLsbD k || decide (a.toNat = 0x10 + k)) := by
  unfold Cfg.markWritten
  by_cases hle : a.toNat ≤ 0x1F
  · have hbit : k = a.toNat - 0x10 ↔ a.toNat = 0x10 + k := by omega
    rw [if_pos hle]
    show (c.written ||| BitVec.twoPow 16 (a.toNat - 0x10)).getLsbD k = _
    rw [BitVec.getLsbD_or, BitVec.getLsbD_twoPow]
    simp [hk, ← hbit, eq_comm, show a.toNat - 0x10 < 16 by omega]
  · rw [if_neg hle]
    simp only [show a.toNat ≠ 0x10 + k by omega, decide_false, Bool.or_false]

/-! ## HOST.CFGW (R122) -/

theorem mode_eq_idle_iff (s : State) : s.mode = .idle ↔ s.ctl.seq = .idle := by
  unfold State.mode
  cases s.ctl.seq <;> simp [Seq.mode]

theorem exec_hostCfgw_idle (a : BitVec 8) (d : RegWord) {s : State} (h : s.ctl.seq = .idle) :
    exec (.hostCfgw a d) s = .next { s with cfg := s.cfg.hostWrite a d } :=
  if_pos ((mode_eq_idle_iff s).2 h)

theorem exec_hostCfgw_notIdle (a : BitVec 8) (d : RegWord) {s : State} (h : s.ctl.seq ≠ .idle) :
    exec (.hostCfgw a d) s = .next s :=
  if_neg fun hm => h ((mode_eq_idle_iff s).1 hm)

/-- A write outside the block 0x10 to 0x3F does nothing. -/
theorem exec_hostCfgw_outside {a : BitVec 8} (d : RegWord) (s : State)
    (h : ¬(0x10 ≤ a.toNat ∧ a.toNat ≤ 0x3F)) : exec (.hostCfgw a d) s = .next s := by
  by_cases hs : s.ctl.seq = .idle
  · rw [exec_hostCfgw_idle a d hs, Cfg.hostWrite, if_neg h]
  · exact exec_hostCfgw_notIdle a d hs

theorem Cfg.hostWrite_inside (c : Cfg) {a : BitVec 8} (d : RegWord)
    (h : 0x10 ≤ a.toNat ∧ a.toNat ≤ 0x3F) :
    c.hostWrite a d = (c.markWritten a).store (regAt a) d := if_pos h

/-- A write to a configuration address changes what a read of that address returns, and of no other
but CFG_WRITTEN's. -/
theorem registerValue_hostWrite (s : State) {addr : BitVec 8} (d : RegWord)
    (h : 0x10 ≤ addr.toNat ∧ addr.toNat ≤ 0x3F) {a : BitVec 8} (ha : a ≠ 0x02#8) :
    Claims.registerValue { s with cfg := s.cfg.hostWrite addr d } a =
      if a = addr then d &&& Claims.stored addr else Claims.registerValue s a := by
  rw [Cfg.hostWrite_inside s.cfg d h]
  by_cases heq : a = addr
  · rw [if_pos heq, heq, registerValue_eq_readReg, ← fieldMask_regAt]
    exact readReg_store_same s _ (regAt_inConfigBlock addr h.1 h.2) d
  · rw [if_neg heq]
    by_cases hblank : (regAt a).blank
    · rw [registerValue_blank _ a hblank, registerValue_blank _ a hblank]
    · have hne : regAt a ≠ regAt addr := fun hreg => heq (eq_of_regAt_eq hreg hblank)
      have hmark : regAt a ≠ .cfgWritten := fun hreg => ha (regAt_cfgWritten a hreg)
      rw [registerValue_eq_readReg, registerValue_eq_readReg, readReg_store_ne s _ hne,
        readReg_markWritten s _ _ hmark]

end Sys2Proof.Machine

namespace Sys2Proof

/-- Settles O2: the rows of `decodeBus_eq_rows`. -/
theorem busWordRowsInOrder : Obligations.BusWordRowsInOrder := by
  refine ⟨fun w => congrArg Except.ok (decodeBus_eq_rows w), fun w h => ?_,
    fun data s h => ⟨?_, ?_⟩⟩
  · rw [Ne, writeRow_iff, Bool.not_eq_true] at h
    exact readRow_of_not_write w h
  · simp [decode, decodeBus, h]
  · exact Machine.exec_hostCfgw_outside data s (by decide)

/-- Settles O15, by name and address of the registers. -/
theorem configurationWrite : Obligations.ConfigurationWrite := by
  refine fun addr data s => ⟨fun h => ?_, fun hidle hlo hhi => ?_⟩
  · rcases h with hmode | haddr
    · exact Machine.exec_hostCfgw_notIdle addr data hmode
    · exact Machine.exec_hostCfgw_outside data s (by omega)
  · refine ⟨_, Machine.exec_hostCfgw_idle addr data hidle, rfl,
      fun a ha => Machine.registerValue_hostWrite s data ⟨hlo, hhi⟩ ha, fun k hk => ?_⟩
    rw [Machine.Cfg.hostWrite_inside s.cfg data ⟨hlo, hhi⟩, Machine.Cfg.store_written]
    exact Machine.getLsbD_markWritten s.cfg hlo hk

/-- Settles O16: the value by address is the value by name, and a read is the record's only. -/
theorem registerReadValue : Obligations.RegisterReadValue := by
  refine fun addr s => ⟨?_, fun h => Machine.registerValue_reserved h addr⟩
  rw [Machine.registerValue_eq_readReg]
  rfl

end Sys2Proof
end

section
/-! SUPPORT. The correlator (40_correlator): the stream of R152 and the score of R153 over integers,
the candidates of R155 in their order, and the first of the best. -/

namespace Sys2Proof.Machine

/-! ## Quantities by CONST (R10, R150) -/

theorem Cfg.isBpsk_iff (c : Cfg) : c.isBpsk = true ↔ c.const = 0 := beq_iff_eq

theorem Cfg.u_eq_unit (c : Cfg) : c.u = Claims.unit c := by
  simp only [Cfg.u, Claims.unit, Cfg.isBpsk_iff]

theorem Cfg.nph_eq_phases (c : Cfg) : c.nph = Claims.phases c := by
  simp only [Cfg.nph, Claims.phases, Cfg.isBpsk_iff]

theorem phases_le (c : Cfg) : Claims.phases c ≤ 4 := by
  unfold Claims.phases
  split <;> omega

theorem windowLen_eq_windowLength (s : State) : windowLen s = Claims.windowLength s := by
  rw [windowLen, Claims.windowLength, Cfg.u_eq_unit]

/-- A QPSK window holds whole channel symbols. -/
theorem windowLength_qpsk {s : State} (h : s.cfg.const ≠ 0) :
    Claims.windowLength s = 2 * (min s.ctl.symN.toNat s.cfg.corrWin / 2) := by
  rw [Claims.windowLength, Claims.unit, if_neg h, Nat.mul_comm]

theorem windowLength_lt (s : State) : Claims.windowLength s < 2 ^ 16 :=
  calc Claims.windowLength s ≤ min s.ctl.symN.toNat s.cfg.corrWin := Nat.div_mul_le_self _ _
    _ ≤ s.cfg.corrWin := Nat.min_le_right _ _
    _ < 2 ^ 16 := field_lt _ _ _

/-- The swap in force under QPSK (R170). -/
theorem swapOf_eq_swapping {c : Cfg} (hc : c.const ≠ 0) (hyp : BitVec 3) :
    swapOf c hyp = Claims.swapping c hyp := by
  have htoggle : (hyp.toNat / 4 % 2 == 1) = decide (4 ≤ hyp.toNat) := by
    revert hyp
    decide
  rw [swapOf, Claims.swapping, Cfg.nph_eq_phases, Claims.phases, if_neg hc, htoggle, Bool.xor]

/-! ## Rotations over integers (R168, R169) -/

theorem toInt_negSoft {x : Soft} (h : Claims.clamped x) : (negSoft x).toInt = -x.toInt := by
  rw [negSoft, if_neg h]
  unfold Claims.clamped at h
  revert x
  decide

theorem toInt_rotBpsk {r : BitVec 2} (hr : r.toNat < 2) {x : Soft} (hx : Claims.clamped x) :
    (rotBpsk r x).toInt = if r.toNat = 0 then x.toInt else -x.toInt := by
  have hcases : r = 0#2 ∨ r = 1#2 := by bv_omega
  rcases hcases with rfl | rfl
  · rfl
  · exact toInt_negSoft hx

/-- The soft symbols of a pair as numbers. -/
def toIntPair (p : Soft × Soft) : Int × Int := (p.1.toInt, p.2.toInt)

theorem toIntPair_swapIf (sw : Bool) (p : Soft × Soft) :
    toIntPair (swapIf sw p) = Claims.swappedIf sw (toIntPair p) := by
  cases sw <;> rfl

theorem swapIf_clamped (sw : Bool) {p : Soft × Soft}
    (h : Claims.clamped p.1 ∧ Claims.clamped p.2) :
    Claims.clamped (swapIf sw p).1 ∧ Claims.clamped (swapIf sw p).2 := by
  cases sw with
  | false => exact h
  | true => exact h.symm

theorem toIntPair_rotQpsk (r : BitVec 2) {p : Soft × Soft}
    (h : Claims.clamped p.1 ∧ Claims.clamped p.2) :
    toIntPair (rotQpsk r p) = Claims.turned r.toNat (toIntPair p) := by
  obtain ⟨h1, h2⟩ := h
  have hcases : r = 0#2 ∨ r = 1#2 ∨ r = 2#2 ∨ r = 3#2 := by bv_omega
  rcases hcases with rfl | rfl | rfl | rfl
  · rfl
  · exact Prod.ext (toInt_negSoft h2) rfl
  · exact Prod.ext (toInt_negSoft h1) (toInt_negSoft h2)
  · exact Prod.ext rfl (toInt_negSoft h1)

/-! ## The stream of a phase candidate (R152) -/

/-- `y[n]` of R152 under QPSK, the window given as a function: the half of the transformed pair
that `n` lies in. -/
def pairSymbol (sw : Bool) (r : BitVec 2) (f : Nat → Soft) (n : Nat) : Soft :=
  let y := rotQpsk r (swapIf sw (f (n / 2 * 2), f (n / 2 * 2 + 1)))
  if n % 2 = 0 then y.1 else y.2

theorem pairSymbol_shift (sw : Bool) (r : BitVec 2) (f : Nat → Soft) (n : Nat) :
    pairSymbol sw r (fun k => f (k + 2)) n = pairSymbol sw r f (n + 2) := by
  have hpair : (n + 2) / 2 * 2 = n / 2 * 2 + 2 := by omega
  simp only [pairSymbol, hpair, Nat.add_mod_right, Nat.add_right_comm]

theorem map_range_add_two {α : Type} (f : Nat → α) (n : Nat) :
    (List.range (n + 2)).map f = f 0 :: f 1 :: (List.range n).map fun k => f (k + 2) := by
  simp [List.range_succ_eq_map, Function.comp_def]

/-- R152 pair by pair is R152 symbol by symbol. -/
theorem transformPairs_map_range (sw : Bool) (r : BitVec 2) (f : Nat → Soft) (k : Nat) :
    transformPairs sw r ((List.range (2 * k)).map f) =
      (List.range (2 * k)).map (pairSymbol sw r f) := by
  induction k generalizing f with
  | zero => rfl
  | succ k ih =>
    rw [Nat.mul_succ, map_range_add_two, map_range_add_two, transformPairs, ih,
      funext (pairSymbol_shift sw r f)]
    rfl

theorem toInt_pairSymbol (sw : Bool) (r : BitVec 2) {f : Nat → Soft} {n : Nat}
    (h : Claims.clamped (f (n / 2 * 2)) ∧ Claims.clamped (f (n / 2 * 2 + 1))) :
    (pairSymbol sw r f n).toInt =
      let y := Claims.turned r.toNat
        (Claims.swappedIf sw ((f (n / 2 * 2)).toInt, (f (n / 2 * 2 + 1)).toInt))
      if n % 2 = 0 then y.1 else y.2 := by
  have hy := toIntPair_rotQpsk r
    (swapIf_clamped sw (p := (f (n / 2 * 2), f (n / 2 * 2 + 1))) h)
  rw [toIntPair_swapIf] at hy
  rw [pairSymbol, apply_ite BitVec.toInt]
  exact congrArg (fun y : Int × Int => if n % 2 = 0 then y.1 else y.2) hy

/-- The stream of a candidate is the signs of `y[n]`. -/
theorem hardStream_eq {s : State} (hs : Claims.SearchReady s) {r : BitVec 2}
    (hr : r.toNat < Claims.phases s.cfg) :
    hardStream s r = (List.range (Claims.windowLength s)).map fun n =>
      decide (0 < Claims.windowSymbol s r.toNat n) := by
  rw [hardStream, windowLen_eq_windowLength, Memory.firstN]
  by_cases hc : s.cfg.const = 0
  · rw [if_pos ((Cfg.isBpsk_iff _).2 hc), List.map_map, List.map_map]
    refine List.map_congr_left fun n hn => ?_
    have hclamped := hs.symbols n (List.mem_range.1 hn)
    rw [Claims.phases, if_pos hc] at hr
    simp only [Function.comp, hardBit, toInt_rotBpsk hr hclamped, Claims.windowSymbol, if_pos hc]
  · rw [if_neg (mt (Cfg.isBpsk_iff _).1 hc), swapOf_eq_swapping hc, windowLength_qpsk hc,
      transformPairs_map_range, List.map_map]
    refine List.map_congr_left fun n hn => ?_
    have hlt := List.mem_range.1 hn
    have hwl := windowLength_qpsk hc
    have hclamped : Claims.clamped (s.sym.read (n / 2 * 2)) ∧
        Claims.clamped (s.sym.read (n / 2 * 2 + 1)) :=
      ⟨hs.symbols _ (by omega), hs.symbols _ (by omega)⟩
    simp only [Function.comp, hardBit, toInt_pairSymbol _ _ hclamped, Claims.windowSymbol,
      if_neg hc]

/-! ## The score (R153) -/

/-- The model's score is R153's count. -/
theorem scoreAt_hardStream {s : State} (hs : Claims.SearchReady s) {r : BitVec 2}
    (hr : r.toNat < Claims.phases s.cfg) {o j : Nat}
    (hfits : o + s.cfg.patLen j ≤ Claims.windowLength s) :
    scoreAt (hardStream s r) (s.cfg.pattern j) o = Claims.score s r.toNat o j := by
  rw [hardStream_eq hs hr]
  refine List.countP_congr fun i hi => ?_
  have hlt : i < s.cfg.patLen j := List.mem_range.1 hi
  have hin : o + i < Claims.windowLength s := by omega
  rw [List.getD_eq_getElem _ _ (by simpa using hin), List.getElem_map, List.getElem_range]
  rfl

theorem score_le_patLen (s : State) (ph o j : Nat) : Claims.score s ph o j ≤ s.cfg.patLen j :=
  List.countP_le_length.trans_eq List.length_range

/-- Symbol `o + i` of the stream agrees with bit `i` of the pattern: what R153 counts. -/
def agrees (s : State) (ph o j i : Nat) : Bool :=
  decide (0 < Claims.windowSymbol s ph (o + i)) == Claims.patternBitAt s.cfg j i

theorem score_eq_countP_agrees (s : State) (ph o j : Nat) :
    Claims.score s ph o j = (List.range (s.cfg.patLen j)).countP (agrees s ph o j) := rfl

/-- Negation flips every hard decision but that of an erasure (R153). -/
theorem agrees_bpsk_inverted {s : State} (hc : s.cfg.const = 0) {o i : Nat} (j : Nat)
    (hne : s.sym.read (o + i) ≠ 0) : agrees s 1 o j i = !agrees s 0 o j i := by
  have hzero : (s.sym.read (o + i)).toInt ≠ 0 := fun h => hne (BitVec.eq_of_toInt_eq h)
  have hsign : decide (0 < Claims.windowSymbol s 1 (o + i)) =
      !decide (0 < Claims.windowSymbol s 0 (o + i)) := by
    have h0 : Claims.windowSymbol s 0 (o + i) = (s.sym.read (o + i)).toInt := if_pos hc
    have h1 : Claims.windowSymbol s 1 (o + i) = -(s.sym.read (o + i)).toInt := if_pos hc
    rw [← decide_not, decide_eq_decide]
    omega
  unfold agrees
  rw [hsign]
  cases decide (0 < Claims.windowSymbol s 0 (o + i)) <;> simp

/-- The inverted phase agrees exactly where the other does not. -/
theorem score_bpsk_inverted {s : State} (hc : s.cfg.const = 0) {o j : Nat}
    (hne : ∀ i < s.cfg.patLen j, s.sym.read (o + i) ≠ 0) :
    Claims.score s 1 o j = s.cfg.patLen j - Claims.score s 0 o j := by
  have hflip : Claims.score s 1 o j =
      (List.range (s.cfg.patLen j)).countP fun i => !agrees s 0 o j i :=
    List.countP_congr fun i hi => iff_of_eq
      (congrArg (· = true) (agrees_bpsk_inverted hc j (hne i (List.mem_range.1 hi))))
  have hsum := List.length_eq_countP_add_countP (agrees s 0 o j)
    (l := List.range (s.cfg.patLen j))
  simp only [decide_not, Bool.decide_eq_true, List.length_range] at hsum
  rw [hflip, score_eq_countP_agrees]
  omega

/-- CORR.SCORE answers where the span lies in the window, the window in SYM and the pattern in its
64 bits. -/
theorem exec_corrScore {s : State}
    (hspan : s.env.args.off.toNat + s.cfg.patLen s.env.args.pat.toNat ≤ windowLen s)
    (hwindow : windowLen s ≤ s.cfg.batchLen)
    (hlen : s.cfg.patLen s.env.args.pat.toNat ≤ 64) :
    exec .corrScore s = .next (s.setRes (.score (scoreAt (hardStream s s.env.args.ph)
      (s.cfg.pattern s.env.args.pat.toNat) s.env.args.off.toNat))) := by
  show execCorrScore s = _
  rw [execCorrScore, within_ok (Nat.lt_succ_of_le hspan), within_ok (Nat.lt_succ_of_le hwindow),
    within_ok (Nat.lt_succ_of_le hlen)]
  rfl

/-! ## The candidates in their order (R154, R155) -/

/-- The order in which the loops of R155 meet the triples of phase, offset and pattern. -/
def Before (p q : Nat × Nat × Nat) : Prop :=
  p.1 < q.1 ∨ p.1 = q.1 ∧ (p.2.1 < q.2.1 ∨ p.2.1 = q.2.1 ∧ p.2.2 < q.2.2)

theorem first_of_eq_or_before {p q : Nat × Nat × Nat} (h : p = q ∨ Before p q) :
    p.1 < q.1 ∨ p.1 = q.1 ∧ (p.2.1 < q.2.1 ∨ p.2.1 = q.2.1 ∧ p.2.2 ≤ q.2.2) := by
  unfold Before at h
  rcases h with rfl | h <;> omega

/-- The triples that the loops of R155 score, in their order. -/
def places (s : State) : List (Nat × Nat × Nat) :=
  (List.range s.cfg.nph).flatMap fun ph =>
    ((List.range (windowLen s)).filter fun o => o % s.cfg.u == 0).flatMap fun o =>
      ((List.range s.cfg.npat).filter fun j =>
        decide (o + s.cfg.patLen j ≤ windowLen s)).map fun j => (ph, o, j)

theorem mem_places (s : State) (ph o j : Nat) :
    (ph, o, j) ∈ places s ↔ Claims.Candidate s ph o j := by
  simp only [places, List.mem_flatMap, List.mem_map, List.mem_filter, List.mem_range, beq_iff_eq,
    decide_eq_true_eq, Prod.mk.injEq, Cfg.nph_eq_phases, Cfg.u_eq_unit, windowLen_eq_windowLength]
  constructor
  · rintro ⟨ph, hph, o, ⟨hin, halign⟩, j, ⟨hj, hfits⟩, rfl, rfl, rfl⟩
    exact ⟨hph, halign, hin, hj, hfits⟩
  · rintro ⟨hph, halign, hin, hj, hfits⟩
    exact ⟨ph, hph, o, ⟨hin, halign⟩, j, ⟨hj, hfits⟩, rfl, rfl, rfl⟩

theorem places_pairwise_before (s : State) : (places s).Pairwise Before := by
  refine List.pairwise_flatMap.2
    ⟨fun ph _ => List.pairwise_flatMap.2 ⟨fun o _ => ?_, ?_⟩, ?_⟩
  · refine List.pairwise_map.2 ((List.pairwise_lt_range.filter _).imp fun hj => ?_)
    exact .inr ⟨rfl, .inr ⟨rfl, hj⟩⟩
  · refine (List.pairwise_lt_range.filter _).imp fun ho x hx y hy => ?_
    obtain ⟨_, -, rfl⟩ := List.mem_map.1 hx
    obtain ⟨_, -, rfl⟩ := List.mem_map.1 hy
    exact .inr ⟨rfl, .inl ho⟩
  · refine List.pairwise_lt_range.imp fun hph x hx y hy => ?_
    obtain ⟨_, -, hx⟩ := List.mem_flatMap.1 hx
    obtain ⟨_, -, hy⟩ := List.mem_flatMap.1 hy
    obtain ⟨_, -, rfl⟩ := List.mem_map.1 hx
    obtain ⟨_, -, rfl⟩ := List.mem_map.1 hy
    exact .inl hph

/-- The hit that a search makes at a triple. -/
def hitAt (s : State) (p : Nat × Nat × Nat) : Hit :=
  { score := scoreAt (hardStream s (BitVec.ofNat 2 p.1)) (s.cfg.pattern p.2.2) p.2.1
    ph := BitVec.ofNat 2 p.1
    off := BitVec.ofNat 16 p.2.1
    pat := BitVec.ofNat 3 p.2.2 }

theorem candidates_eq_map (s : State) : candidates s = (places s).map (hitAt s) := by
  simp [candidates, places, List.map_flatMap, hitAt, Function.comp_def]

/-- Where a hit was made. -/
def Hit.place (h : Hit) : Nat × Nat × Nat := (h.ph.toNat, h.off.toNat, h.pat.toNat)

/-- The fields of a hit hold the numbers of a candidate. -/
theorem place_hitAt {s : State} (hs : Claims.SearchReady s) {ph o j : Nat}
    (h : Claims.Candidate s ph o j) : (hitAt s (ph, o, j)).place = (ph, o, j) := by
  have hph := h.ph.trans_le (phases_le s.cfg)
  have ho := h.inside.trans (windowLength_lt s)
  have hj := h.pat.trans_le hs.npat
  simp only [Hit.place, hitAt, BitVec.toNat_ofNat, Nat.mod_eq_of_lt hph, Nat.mod_eq_of_lt ho,
    Nat.mod_eq_of_lt hj]

theorem score_hitAt {s : State} (hs : Claims.SearchReady s) {ph o j : Nat}
    (h : Claims.Candidate s ph o j) : (hitAt s (ph, o, j)).score = Claims.score s ph o j := by
  have hph : (BitVec.ofNat 2 ph).toNat = ph :=
    Nat.mod_eq_of_lt (h.ph.trans_le (phases_le s.cfg))
  have hscore := scoreAt_hardStream hs (hph.symm ▸ h.ph) h.fits
  rwa [hph] at hscore

theorem mem_candidates {s : State} {x : Hit} :
    x ∈ candidates s ↔ ∃ ph o j, Claims.Candidate s ph o j ∧ hitAt s (ph, o, j) = x := by
  simp only [candidates_eq_map, List.mem_map, Prod.exists, mem_places]

/-- What a search meets is a candidate with its score. -/
theorem candidate_of_mem_candidates {s : State} (hs : Claims.SearchReady s) {x : Hit}
    (hx : x ∈ candidates s) :
    Claims.Candidate s x.ph.toNat x.off.toNat x.pat.toNat ∧
      x.score = Claims.score s x.ph.toNat x.off.toNat x.pat.toNat := by
  obtain ⟨ph, o, j, hc, rfl⟩ := mem_candidates.1 hx
  obtain ⟨hph, hrest⟩ := Prod.mk.inj (place_hitAt hs hc)
  obtain ⟨ho, hj⟩ := Prod.mk.inj hrest
  rw [hph, ho, hj]
  exact ⟨hc, score_hitAt hs hc⟩

theorem candidates_pairwise_before {s : State} (hs : Claims.SearchReady s) :
    (candidates s).Pairwise fun x y => Before x.place y.place := by
  rw [candidates_eq_map, List.pairwise_map]
  refine (places_pairwise_before s).imp_of_mem fun {p q} hp hq hpq => ?_
  rwa [place_hitAt hs ((mem_places ..).1 hp), place_hitAt hs ((mem_places ..).1 hq)]

/-! ## The first of the best (R155) -/

/-- In a list in the order `R`, what stands no later is the same or comes before. -/
theorem eq_or_rel_of_idxOf_le {α : Type} [DecidableEq α] {R : α → α → Prop} {l : List α}
    (hl : l.Pairwise R) {a b : α} (ha : a ∈ l) (hb : b ∈ l) (h : l.idxOf a ≤ l.idxOf b) :
    a = b ∨ R a b := by
  rcases h.eq_or_lt with heq | hlt
  · exact .inl ((List.idxOf_inj ha).1 heq)
  · have hrel := List.pairwise_iff_getElem.1 hl _ _ (List.idxOf_lt_length_of_mem ha)
      (List.idxOf_lt_length_of_mem hb) hlt
    rw [List.getElem_idxOf, List.getElem_idxOf] at hrel
    exact .inr hrel

/-- A search keeps the earliest hit of the highest score. -/
theorem foldl_better_eq_argmax (l : List Hit) : l.foldl better none = l.argmax Hit.score := by
  refine congrArg (fun f => l.foldl f none) (funext fun best => funext fun h => ?_)
  cases best <;> rfl

/-- R155: the first of the best, if its score is greater than CORR_MIN. -/
theorem search_eq (s : State) : search s =
    ((candidates s).argmax Hit.score).filter fun h => decide (s.cfg.corrMin < h.score) := by
  rw [search, foldl_better_eq_argmax]
  cases (candidates s).argmax Hit.score with
  | none => rfl
  | some h => simp [Option.filter]

theorem search_eq_none {s : State} (h : search s = none) {x : Hit} (hx : x ∈ candidates s) :
    x.score ≤ s.cfg.corrMin := by
  rw [search_eq, Option.filter_eq_none_iff] at h
  obtain ⟨b, hb⟩ := Option.ne_none_iff_exists'.1 fun hnone =>
    List.ne_nil_of_mem hx ((List.argmax_eq_none (f := Hit.score)).1 hnone)
  have hmin := h b hb
  have hle := List.le_of_mem_argmax hx hb
  rw [decide_eq_true_eq] at hmin
  omega

theorem search_eq_some {s : State} (hs : Claims.SearchReady s) {b : Hit} (h : search s = some b) :
    b ∈ candidates s ∧ s.cfg.corrMin < b.score ∧
      ∀ x ∈ candidates s, x.score ≤ b.score ∧
        (x.score = b.score → b.place = x.place ∨ Before b.place x.place) := by
  rw [search_eq, Option.filter_eq_some_iff, decide_eq_true_eq] at h
  obtain ⟨hbest, hmin⟩ := h
  obtain ⟨hmem, hmax, hfirst⟩ := List.mem_argmax_iff.1 hbest
  refine ⟨hmem, hmin, fun x hx => ⟨hmax x hx, fun heq => ?_⟩⟩
  exact (eq_or_rel_of_idxOf_le (candidates_pairwise_before hs) hmem hx
    (hfirst x hx heq.ge)).imp_left (congrArg Hit.place)

/-! ## CORR.SEARCH -/

theorem searchBounds_of_ready {s : State} (hs : Claims.SearchReady s) :
    searchBounds s = .ok () := by
  have hwindow := hs.window
  have hnpat := hs.npat
  rw [searchBounds, windowLen_eq_windowLength]
  split
  · rfl
  · rw [within_ok (by omega), ok_bind, within_ok (by omega), ok_bind, if_pos]
    refine List.all_eq_true.2 fun j hj => ?_
    rw [decide_eq_true (hs.lengths j (List.mem_range.1 hj)), Bool.true_or]

theorem exec_corrSearch {s : State} (hs : Claims.SearchReady s) :
    exec .corrSearch s = .next (s.setRes (.search (search s))) := by
  show execCorrSearch s = _
  rw [execCorrSearch, searchBounds_of_ready hs]
  rfl

end Sys2Proof.Machine

namespace Sys2Proof

/-- Settles O19: the stream is the signs of `y[n]`, and negation flips each that is not 0. -/
theorem corrScoreCountsAgreements : Obligations.CorrScoreCountsAgreements := by
  rintro s hs _ _ _ rfl rfl rfl hph - hlen hfits
  have hwl := Machine.windowLen_eq_windowLength s
  refine ⟨?_, Machine.score_le_patLen .., fun hc hne => Machine.score_bpsk_inverted hc hne⟩
  rw [Machine.exec_corrScore (hwl ▸ hfits) (hwl ▸ hs.window) hlen,
    Machine.scoreAt_hardStream hs hph hfits]
  rfl

/-- Settles O20: the candidates stand in the order of phase, offset and pattern, and a search keeps
the earliest of the best. -/
theorem corrSearchFindsFirstBest : Obligations.CorrSearchFindsFirstBest := by
  refine fun s hs => ⟨Machine.search s, Machine.exec_corrSearch hs, ?_⟩
  cases hfound : Machine.search s with
  | none =>
    intro ph o j hc
    rw [← Machine.score_hitAt hs hc]
    exact Machine.search_eq_none hfound (Machine.mem_candidates.2 ⟨ph, o, j, hc, rfl⟩)
  | some h =>
    obtain ⟨hmem, hmin, hbest⟩ := Machine.search_eq_some hs hfound
    obtain ⟨hcand, hscore⟩ := Machine.candidate_of_mem_candidates hs hmem
    refine ⟨hcand, hscore, hmin, fun ph o j hc => ?_⟩
    have hx := hbest _ (Machine.mem_candidates.2 ⟨ph, o, j, hc, rfl⟩)
    rw [Machine.score_hitAt hs hc, Machine.place_hitAt hs hc] at hx
    obtain ⟨hmax, hfirst⟩ := hx
    exact ⟨hmax, fun heq => Machine.first_of_eq_or_before (hfirst heq)⟩

end Sys2Proof
end

section
/-! SUPPORT. The encoder (42_convolutional_code): R193 over numbers, and why generators of odd
weight make the code transparent to inversion. -/

namespace Sys2Proof.Machine

/-! ## Parity under a mask (R12) -/

theorem popcount_and {w : Nat} (x m : BitVec w) :
    popcount (x &&& m) =
      ((List.range w).filter fun i => m.getLsbD i).countP fun i => x.getLsbD i := by
  simp only [popcount, BitVec.getLsbD_and, List.countP_filter]

/-- The ones of a mask, shared between a word and its complement. -/
theorem popcount_and_add_popcount_not_and {w : Nat} (x m : BitVec w) :
    popcount (x &&& m) + popcount (~~~x &&& m) = popcount m := by
  have hnot : popcount (~~~x &&& m) = ((List.range w).filter fun i => m.getLsbD i).countP
      fun i => decide ¬x.getLsbD i = true := by
    rw [popcount_and]
    refine List.countP_congr fun i hi => ?_
    have hlt : i < w := List.mem_range.1 (List.mem_filter.1 hi).1
    simp [hlt]
  rw [hnot, popcount_and, ← List.length_eq_countP_add_countP, ← List.countP_eq_length_filter,
    popcount]

theorem parity_not_and {w : Nat} (x : BitVec w) {m : BitVec w} (hm : parity m = true) :
    parity (~~~x &&& m) = !parity (x &&& m) := by
  have hsum := popcount_and_add_popcount_not_and x m
  rw [parity, beq_iff_eq] at hm
  rw [Bool.eq_not, parity, parity, Ne, Bool.eq_iff_iff, beq_iff_eq, beq_iff_eq]
  omega

theorem parity_eq_oddOnes (v : BitVec 7) : parity v = Claims.oddOnes v.toNat := rfl

/-! ## The encoder (R193) -/

theorem convEncode_eq_encoder (st : BitVec 6) (u : Bool) :
    convEncode st u =
      (BitVec.ofNat 6 (Claims.encoder st.toNat u).1, (Claims.encoder st.toNat u).2) := by
  have hsr : (st ++ BitVec.ofBool u : BitVec 7).toNat = 2 * st.toNat + u.toNat := by
    rw [toNat_append_eq_add, BitVec.toNat_ofBool, pow_one, Nat.mul_comm]
  refine Prod.ext (BitVec.eq_of_toNat_eq ?_) (Prod.ext ?_ ?_)
  · simp [convEncode, Claims.encoder, hsr]
  all_goals
    simp only [convEncode, Claims.encoder, parity_eq_oddOnes, BitVec.toNat_and, hsr]
    rfl

/-- Both generators have odd weight, so the code is transparent to inversion (R192, R193). -/
theorem convEncode_not (st : BitVec 6) (u : Bool) :
    convEncode (~~~st) (!u) =
      (~~~(convEncode st u).1, !(convEncode st u).2.1, !(convEncode st u).2.2) := by
  have hsr : (~~~st ++ BitVec.ofBool (!u) : BitVec 7) = ~~~(st ++ BitVec.ofBool u) := by
    rw [BitVec.not_append, BitVec.not_ofBool]
  have hG1 : parity 0x4F#7 = true := by decide
  have hG2 : parity 0x6D#7 = true := by decide
  simp only [convEncode, hsr, parity_not_and _ hG1, parity_not_and _ hG2,
    BitVec.extractLsb'_not_of_lt (show 0 + 6 < 7 by decide)]

/-! ## CC.ENC -/

theorem exec_ccEnc (s : State) :
    exec .ccEnc s = .next (s.setRes
      (.encoded (convEncode s.env.args.enc s.env.args.bit).1
        (convEncode s.env.args.enc s.env.args.bit).2.1
        (convEncode s.env.args.enc s.env.args.bit).2.2)) := rfl

theorem convEncode_of_exec_ccEnc {s u : State} {a : BitVec 6} {c1 c2 : Bool}
    (hnext : exec .ccEnc s = .next u) (hres : u.env.res = .encoded a c1 c2) :
    convEncode s.env.args.enc s.env.args.bit = (a, c1, c2) := by
  rw [exec_ccEnc] at hnext
  obtain rfl := Host.Outcome.next.inj hnext
  rw [State.setRes_env_res] at hres
  obtain ⟨ha, h1, h2⟩ := OpResult.encoded.inj hres
  exact Prod.ext ha (Prod.ext h1 h2)

end Sys2Proof.Machine

namespace Sys2Proof

/-- Settles O27: the encoder over numbers, and the odd weight of its two generators. -/
theorem encoderStep : Obligations.EncoderStep := by
  refine ⟨fun s => ?_, fun s u v a b c1 c2 d1 d2 hu hru hv hrv => ?_, by decide, by decide⟩
  · rw [Machine.exec_ccEnc, Machine.convEncode_eq_encoder]
    rfl
  · have hs := Machine.convEncode_of_exec_ccEnc hu hru
    have hnot := Machine.convEncode_of_exec_ccEnc hv hrv
    simp only [Claims.withArgs] at hnot
    rw [Machine.convEncode_not, hs] at hnot
    simpa only [Prod.mk.injEq] using hnot.symm

end Sys2Proof
end

section
/-! SUPPORT. The Viterbi decoder (43_viterbi): the trellis of R213 over numbers, what VIT.ACS
stores, the counts of the error-rate estimate, and the lock decision over a list of windows. -/

namespace Sys2Proof.Machine

/-! ## Add-compare-select (R213, R214) -/

theorem predecessor_eq_pred (t : BitVec 6) (d : Bool) : predecessor t d = Claims.pred t d := by
  rw [Claims.pred, ← toNat_predecessor, BitVec.ofNat_toNat, BitVec.setWidth_eq]

theorem candidate_eq_cand (v : Viterbi) (m : Metrics) (t : BitVec 6) (d : Bool) :
    candidate v m t d = Claims.cand v m t d := by
  rw [candidate, branchLabel, convEncode_eq_encoder, predecessor_eq_pred]
  rfl

theorem decision_eq (v : Viterbi) (m : Metrics) (t : BitVec 6) :
    decision v m t = decide (Claims.cand v m t true < Claims.cand v m t false) := by
  rw [decision, candidate_eq_cand, candidate_eq_cand]

theorem newMetric_eq_survivor (v : Viterbi) (m : Metrics) (t : BitVec 6) :
    newMetric v m t = Claims.survivor v m t := by
  rw [newMetric, candidate_eq_cand, decision_eq, Claims.survivor]
  by_cases h : Claims.cand v m t true < Claims.cand v m t false
  · rw [if_pos h, decide_eq_true h]
  · rw [if_neg h, decide_eq_false h]

theorem addCompareSelect_total {c : Cfg} {v : Viterbi} (h : v.histWp.toNat < c.tbd)
    (m : Metrics) : ∃ u, addCompareSelect c v m = .ok u := by
  rw [addCompareSelect, within_ok h]
  exact ⟨_, rfl⟩

/-- Metrics this small do not wrap in 16 bits (R216). -/
theorem metric_addCompareSelect_add {c : Cfg} {v u : Viterbi} {m : Metrics}
    (h : addCompareSelect c v m = .ok u) (hv : ∀ x, v.metric x ≤ 60000)
    (hm : Claims.smallMetrics m) (t : BitVec 6) :
    u.metric t + minOver (newMetric v m) = newMetric v m t := by
  have hle : newMetric v m t ≤ 60000 + 508 := Nat.add_le_add (hv _) (hm _ _)
  have hmin := minOver_le (newMetric v m) t
  rw [metric_addCompareSelect h, Nat.mod_eq_of_lt (by omega)]
  omega

theorem getLsbD_read_hist_addCompareSelect {c : Cfg} {v u : Viterbi} {m : Metrics}
    (h : addCompareSelect c v m = .ok u) (hw : v.hist.wf) (t : BitVec 6) :
    (u.hist.read v.histWp.toNat).getLsbD t.toNat = decision v m t := by
  obtain ⟨-, rfl⟩ := addCompareSelect_ok h
  rw [Memory.read_write_same _ _ _ hw, BitVec.getLsbD_ofFnLE, dif_pos t.isLt,
    BitVec.ofNat_toNat, BitVec.setWidth_eq]

theorem read_hist_addCompareSelect_ne {c : Cfg} {v u : Viterbi} {m : Metrics}
    (h : addCompareSelect c v m = .ok u) {a : Nat} (ha : a ≠ v.histWp.toNat) :
    u.hist.read a = v.hist.read a := by
  obtain ⟨-, rfl⟩ := addCompareSelect_ok h
  exact Memory.read_write_ne _ _ _ _ ha

theorem exec_vitAcs {s : State} {u : Viterbi}
    (h : addCompareSelect s.cfg s.vit s.env.args.bm = .ok u) :
    exec .vitAcs s = .next { s with vit := u } := by
  show execVitAcs s = _
  rw [execVitAcs, h]
  rfl

/-! ## Error rate (R221, R226) -/

theorem isErasure_eq_decide (x : Soft) : isErasure x = decide (x.toInt = 0) := by
  rw [isErasure, Bool.beq_eq_decide_eq, decide_eq_decide, ← BitVec.toInt_inj]
  rfl

/-- R28: the four bits of a DLY entry, `h1` highest. -/
theorem toNat_delayEntry (x y : Soft) :
    (delayEntry x y).toNat =
      8 * (decide (0 < x.toInt)).toNat + 4 * (decide (x.toInt = 0)).toNat +
      2 * (decide (0 < y.toInt)).toNat + (decide (y.toInt = 0)).toNat := by
  rw [← isErasure_eq_decide, ← isErasure_eq_decide, delayEntry, toNat_append_eq_add,
    toNat_append_eq_add, toNat_append_eq_add]
  simp only [BitVec.toNat_ofBool, hardBit]
  omega

/-- A symbol counts once if it was not erased, and as an error if it also differs (R226). -/
theorem countSymbol_eq_add (erased hard sent : Bool) (v : Viterbi) :
    countSymbol erased hard sent v = { v with
      berTotal := v.berTotal + BitVec.ofNat 17 (!erased).toNat
      berErrs := v.berErrs + BitVec.ofNat 17 (!erased && (hard != sent)).toNat } := by
  rw [countSymbol]
  cases erased with
  | true => simp
  | false => cases hard != sent <;> simp

/-- The decoder after one comparison of R226 and before the window's end is looked for. -/
def compared (v : Viterbi) (old : BitVec 4) (b : Bool) : Viterbi :=
  let e := Claims.encoder v.reenc.toNat b
  let n1 := !old.getLsbD 2
  let n2 := !old.getLsbD 0
  { v with
    reenc := BitVec.ofNat 6 e.1
    berTotal := v.berTotal + BitVec.ofNat 17 (n1.toNat + n2.toNat)
    berErrs := v.berErrs + BitVec.ofNat 17
      ((n1 && (old.getLsbD 3 != e.2.1)).toNat + (n2 && (old.getLsbD 1 != e.2.2)).toNat)
    berSteps := v.berSteps + 1 }

theorem compareReencoded_eq (c : Cfg) (v : Viterbi) (old : BitVec 4) (b : Bool) :
    compareReencoded c v old b =
      if (compared v old b).berSteps.toNat = c.berWin then lockDecision c (compared v old b)
      else compared v old b := by
  simp only [compareReencoded, compared, convEncode_eq_encoder, countSymbol_eq_add,
    BitVec.ofNat_add, BitVec.add_assoc]

theorem exec_vitLock (s : State) :
    exec .vitLock s = .next { s with vit := lockDecision s.cfg s.vit } := rfl

/-- The window's end is VIT.LOCK on the decoder just compared (R226). -/
theorem next_compareReencoded (s : State) (v : Viterbi) (old : BitVec 4) (b : Bool) :
    (Host.Outcome.next { s with vit := compareReencoded s.cfg v old b } :
        Host.Outcome State Fault Refusal) =
      if (compared v old b).berSteps.toNat = s.cfg.berWin
      then exec .vitLock { s with vit := compared v old b }
      else .next { s with vit := compared v old b } := by
  rw [compareReencoded_eq, exec_vitLock]
  exact apply_ite (fun u => Host.Outcome.next { s with vit := u }) (_ = s.cfg.berWin) _ _

theorem errorRate_none {c : Cfg} {v : Viterbi} (h : v.histWp.toNat < c.tbd) (x y : Soft) :
    errorRate c v x y none =
      .ok { v with dly := v.dly.write v.histWp.toNat (delayEntry x y) } := by
  rw [errorRate, within_ok h]
  rfl

theorem errorRate_some {c : Cfg} {v : Viterbi} (h : v.histWp.toNat < c.tbd) (x y : Soft)
    (b : Bool) :
    errorRate c v x y (some b) =
      .ok (compareReencoded c { v with dly := v.dly.write v.histWp.toNat (delayEntry x y) }
        (v.dly.read v.histWp.toNat) b) := by
  rw [errorRate, within_ok h]
  rfl

theorem exec_vitBer {s : State} {b : Option Bool} {u : Viterbi}
    (hb : (if s.env.args.bitGiven then some s.env.args.bit else none) = b)
    (h : errorRate s.cfg s.vit s.env.args.x s.env.args.y b = .ok u) :
    exec .vitBer s = .next { s with vit := u } := by
  show execVitBer s = _
  rw [execVitBer, hb, h]
  rfl

/-! ## The lock decision (R228, R229) -/

section
variable {c : Cfg} {e t : Nat}

theorem windowClass_of_good (h : Claims.goodWindow c e t) :
    windowClass e t c.berThr = .good := if_pos h

theorem not_goodWindow_of_badWindow (h : Claims.badWindow c e t) :
    ¬ Claims.goodWindow c e t := by
  rintro ⟨hpos, hlt⟩
  rcases h with h | h <;> omega

theorem windowClass_of_bad (h : Claims.badWindow c e t) :
    windowClass e t c.berThr = .bad :=
  (if_neg (not_goodWindow_of_badWindow h)).trans (if_pos h)

theorem windowClass_of_neither (hg : ¬ Claims.goodWindow c e t)
    (hb : ¬ Claims.badWindow c e t) : windowClass e t c.berThr = .neutral :=
  (if_neg hg).trans (if_neg hb)

end

/-- What every window's end does (R229): the counts latched and cleared. -/
def latchWindow (v : Viterbi) : Viterbi :=
  { v with
    berErrsL := v.berErrs
    berTotalL := v.berTotal
    berErrs := 0
    berTotal := 0
    berSteps := 0 }

section
variable {c : Cfg} {v : Viterbi}

theorem lockDecision_of_good (h : Claims.goodWindow c v.berErrs.toNat v.berTotal.toNat) :
    lockDecision c v = { latchWindow v with vitLock := true, badCnt := 0 } := by
  rw [lockDecision, windowClass_of_good h]
  rfl

theorem lockDecision_of_neither (hg : ¬ Claims.goodWindow c v.berErrs.toNat v.berTotal.toNat)
    (hb : ¬ Claims.badWindow c v.berErrs.toNat v.berTotal.toNat) :
    lockDecision c v = latchWindow v := by
  rw [lockDecision, windowClass_of_neither hg hb]
  rfl

theorem lockDecision_of_bad_unlocked
    (hb : Claims.badWindow c v.berErrs.toNat v.berTotal.toNat) (hl : v.vitLock = false) :
    lockDecision c v = latchWindow v := by
  simp only [lockDecision, windowClass_of_bad hb, hl]
  rfl

theorem lockDecision_of_bad_past
    (hb : Claims.badWindow c v.berErrs.toNat v.berTotal.toNat) (hl : v.vitLock = true)
    (hk : c.outsyncAfter < v.badCnt.toNat + 1) :
    lockDecision c v = { latchWindow v with vitLock := false, badCnt := 0 } := by
  simp only [lockDecision, windowClass_of_bad hb, if_pos hl, if_pos hk]
  rfl

theorem lockDecision_of_bad_within
    (hb : Claims.badWindow c v.berErrs.toNat v.berTotal.toNat) (hl : v.vitLock = true)
    (hk : v.badCnt.toNat + 1 ≤ c.outsyncAfter) :
    lockDecision c v = { latchWindow v with badCnt := v.badCnt + 1 } := by
  simp only [lockDecision, windowClass_of_bad hb, if_pos hl, if_neg (Nat.not_lt.2 hk)]
  rfl

end

/-! ## Windows one after another (R229) -/

/-- The decoder with the counts `w` of a window, errors first. -/
def withCounts (v : Viterbi) (w : BitVec 17 × BitVec 17) : Viterbi :=
  { v with berErrs := w.1, berTotal := w.2 }

/-- The decoder after a window with the counts `w` has ended. -/
def endWindow (c : Cfg) (v : Viterbi) (w : BitVec 17 × BitVec 17) : Viterbi :=
  lockDecision c (withCounts v w)

theorem endWindows_eq_foldl (l : List (BitVec 17 × BitVec 17)) (s : State) :
    Claims.endWindows l s = some { s with vit := l.foldl (endWindow s.cfg) s.vit } := by
  induction l generalizing s with
  | nil => rfl
  | cons w r ih => exact ih { s with vit := endWindow s.cfg s.vit w }

section
variable {c : Cfg} {v : Viterbi} {w : BitVec 17 × BitVec 17}

theorem vitLock_endWindow_of_good (h : Claims.goodWindow c w.1.toNat w.2.toNat) :
    (endWindow c v w).vitLock = true := by
  rw [endWindow, lockDecision_of_good (v := withCounts v w) h]

theorem endWindow_of_bad_unlocked (hb : Claims.badWindow c w.1.toNat w.2.toNat)
    (hl : v.vitLock = false) :
    (endWindow c v w).vitLock = false ∧ (endWindow c v w).badCnt = v.badCnt := by
  rw [endWindow, lockDecision_of_bad_unlocked (v := withCounts v w) hb hl]
  exact ⟨hl, rfl⟩

theorem endWindow_of_bad_past (hb : Claims.badWindow c w.1.toNat w.2.toNat)
    (hl : v.vitLock = true) (hk : c.outsyncAfter < v.badCnt.toNat + 1) :
    (endWindow c v w).vitLock = false ∧ (endWindow c v w).badCnt = 0 := by
  rw [endWindow, lockDecision_of_bad_past (v := withCounts v w) hb hl hk]
  exact ⟨rfl, rfl⟩

/-- OUTSYNC_AFTER has 8 bits and `bad_cnt` 9, so the count does not wrap. -/
theorem endWindow_of_bad_within (hb : Claims.badWindow c w.1.toNat w.2.toNat)
    (hl : v.vitLock = true) (hk : v.badCnt.toNat + 1 ≤ c.outsyncAfter) :
    (endWindow c v w).vitLock = true ∧
      (endWindow c v w).badCnt.toNat = v.badCnt.toNat + 1 := by
  have hmax : c.outsyncAfter < 2 ^ 8 := field_lt _ _ _
  rw [endWindow, lockDecision_of_bad_within (v := withCounts v w) hb hl hk]
  exact ⟨hl, BitVec.toNat_add_of_lt (show v.badCnt.toNat + 1 < 2 ^ 9 by omega)⟩

end

section
variable {c : Cfg} {l : List (BitVec 17 × BitVec 17)}

theorem foldl_endWindow_unlocked (hbad : ∀ w ∈ l, Claims.badWindow c w.1.toNat w.2.toNat)
    {v : Viterbi} (hl : v.vitLock = false) :
    (l.foldl (endWindow c) v).vitLock = false ∧
      (l.foldl (endWindow c) v).badCnt = v.badCnt := by
  induction l generalizing v with
  | nil => exact ⟨hl, rfl⟩
  | cons w r ih =>
    obtain ⟨hw, hr⟩ := List.forall_mem_cons.1 hbad
    obtain ⟨hlock, hcnt⟩ := endWindow_of_bad_unlocked hw hl
    rw [List.foldl_cons, ← hcnt]
    exact ih hr hlock

/-- Bad windows while locked: the lock holds up to OUTSYNC_AFTER of them and falls on the next. -/
theorem foldl_endWindow_locked (hbad : ∀ w ∈ l, Claims.badWindow c w.1.toNat w.2.toNat)
    {v : Viterbi} (hl : v.vitLock = true) (hk : v.badCnt.toNat ≤ c.outsyncAfter) :
    (v.badCnt.toNat + l.length ≤ c.outsyncAfter →
      (l.foldl (endWindow c) v).vitLock = true ∧
        (l.foldl (endWindow c) v).badCnt.toNat = v.badCnt.toNat + l.length) ∧
    (c.outsyncAfter < v.badCnt.toNat + l.length →
      (l.foldl (endWindow c) v).vitLock = false ∧ (l.foldl (endWindow c) v).badCnt = 0) := by
  induction l generalizing v with
  | nil => exact ⟨fun _ => ⟨hl, rfl⟩, fun h => absurd hk (Nat.not_le.2 h)⟩
  | cons w r ih =>
    obtain ⟨hw, hr⟩ := List.forall_mem_cons.1 hbad
    rw [List.foldl_cons, List.length_cons]
    by_cases hpast : c.outsyncAfter < v.badCnt.toNat + 1
    · obtain ⟨hlock, hcnt⟩ := endWindow_of_bad_past hw hl hpast
      rw [← hcnt]
      exact ⟨fun h => by omega, fun _ => foldl_endWindow_unlocked hr hlock⟩
    · have hwithin := Nat.not_lt.1 hpast
      obtain ⟨hlock, hcnt⟩ := endWindow_of_bad_within hw hl hwithin
      have hrest := ih hr hlock (hcnt.trans_le hwithin)
      rwa [hcnt, Nat.add_assoc, Nat.add_comm 1] at hrest

end

end Sys2Proof.Machine

namespace Sys2Proof
open Sys2Proof.Machine

/-- Settles O30: candidates over numbers, and metrics too small to wrap when the minimum is taken
off. -/
theorem addCompareSelect : Obligations.AddCompareSelect := by
  intro s hs hwp hpm hbm
  obtain ⟨v, hv⟩ := addCompareSelect_total hwp s.env.args.bm
  obtain ⟨x, hx⟩ := minOver_mem (newMetric s.vit s.env.args.bm)
  refine ⟨{ s with vit := v }, minOver (newMetric s.vit s.env.args.bm), exec_vitAcs hv, ?_,
    ⟨x, ?_⟩, fun x => ?_, fun x => ?_, fun a ha => read_hist_addCompareSelect_ne hv ha⟩
  · obtain ⟨-, rfl⟩ := addCompareSelect_ok hv
    rfl
  · rw [← newMetric_eq_survivor, hx]
  · rw [← newMetric_eq_survivor, ← metric_addCompareSelect_add hv hpm hbm]
  · rw [← decision_eq]
    exact getLsbD_read_hist_addCompareSelect hv hs.canonical.hist x

/-- Settles O33: the entry written is the four bits of the pair, and the comparison adds up the two
symbols that were not erased. -/
theorem errorRateStep : Obligations.ErrorRateStep := by
  intro s hs hwp
  have hdly := hs.canonical.dly
  refine ⟨s.vit.dly.write s.vit.histWp.toNat (delayEntry s.env.args.x s.env.args.y),
    Memory.wf_write _ _ _ hdly, ?_, fun a ha => Memory.read_write_ne _ _ _ _ ha,
    fun hb => exec_vitBer (by rw [hb]; rfl) (errorRate_none hwp _ _), fun hb => ?_⟩
  · rw [Memory.read_write_same _ _ _ hdly, toNat_delayEntry]
  · rw [exec_vitBer (if_pos hb) (errorRate_some hwp _ _ _)]
    exact next_compareReencoded s _ _ _

/-- Settles O34: the classes exclude each other, and a run of bad windows counts up to
OUTSYNC_AFTER and then unlocks once. -/
theorem lockDecision : Obligations.LockDecision := by
  refine ⟨fun s => ⟨fun hg => ?_, fun hb hl hk => ?_, fun hb hl hk => ?_, fun hb hl => ?_,
    fun hg hb => ?_⟩, fun s l hbad hl hcnt => ?_⟩
  · rw [exec_vitLock, lockDecision_of_good hg]
    rfl
  · rw [exec_vitLock, lockDecision_of_bad_past hb hl hk]
    rfl
  · rw [exec_vitLock, lockDecision_of_bad_within hb hl hk]
    rfl
  · rw [exec_vitLock, lockDecision_of_bad_unlocked hb hl]
    rfl
  · rw [exec_vitLock, lockDecision_of_neither hg hb]
    rfl
  · have hzero : s.vit.badCnt.toNat = 0 := by rw [hcnt]; rfl
    have hrun := foldl_endWindow_locked hbad hl (hzero.trans_le (Nat.zero_le _))
    rw [hzero, Nat.zero_add] at hrun
    obtain ⟨hshort, hlong⟩ := hrun
    exact ⟨_, endWindows_eq_foldl l s, hshort, hlong,
      fun w hw => ⟨_, endWindows_eq_foldl [w] _, vitLock_endWindow_of_good hw⟩⟩

end Sys2Proof
end

section
/-! SUPPORT. The derandomiser (45_derandomizer): the table PRN as the bit sequence of R281, what the
loop of R283 leaves at each byte, and that a canonical buffer is known by its reads. -/

namespace Sys2Proof.Machine

/-! ## A buffer by its reads -/

/-- The entries of a canonical buffer are the indices that read as something written. -/
theorem Memory.mem_iff_read {w : Nat} {m : Memory w} (hm : m.wf) (a : Nat) (v : BitVec w) :
    (a, v) ∈ m ↔ m.read a = v ∧ v ≠ Memory.unwritten w := by
  induction m with
  | nil =>
    rw [Memory.read_nil]
    exact ⟨fun h => absurd h List.not_mem_nil, fun ⟨h, hv⟩ => absurd h.symm hv⟩
  | cons p r ih =>
    obtain ⟨k, u⟩ := p
    obtain ⟨hs, hn⟩ := hm
    obtain ⟨hk, hs⟩ := List.pairwise_cons.1 hs
    have hu : u ≠ Memory.unwritten w := hn (k, u) List.mem_cons_self
    have ih := ih ⟨hs, fun q hq => hn q (List.mem_cons_of_mem _ hq)⟩
    rw [List.mem_cons, Prod.mk.injEq, Memory.read]
    split
    · next hka =>
      subst hka
      have hr : (k, v) ∉ r := fun h => Nat.lt_irrefl k (hk _ h)
      constructor
      · rintro (⟨-, rfl⟩ | h)
        · exact ⟨rfl, hu⟩
        · exact absurd h hr
      · rintro ⟨rfl, -⟩
        exact .inl ⟨rfl, rfl⟩
    · next hka =>
      rw [← ih]
      exact or_iff_right fun h => hka h.1.symm

/-- Two canonical buffers that read alike are the same list. -/
theorem Memory.eq_of_read_eq {w : Nat} {m n : Memory w} (hm : m.wf) (hn : n.wf)
    (h : ∀ a, m.read a = n.read a) : m = n := by
  have hnodup {l : Memory w} (hl : l.wf) : l.Nodup :=
    hl.1.imp fun hlt heq => Nat.ne_of_lt hlt (congrArg Prod.fst heq)
  have hperm : List.Perm m n := (List.perm_ext_iff_of_nodup (hnodup hm) (hnodup hn)).2
    fun ⟨a, v⟩ => by rw [Memory.mem_iff_read hm, Memory.mem_iff_read hn, h]
  exact hperm.eq_of_pairwise (fun _ _ _ _ hlt hgt => absurd hgt (Nat.lt_asymm hlt)) hm.1 hn.1

/-! ## The sequence (R281) -/

theorem getLsbD_lfsrStep_succ (r : Byte) {i : Nat} (hi : i < 7) :
    (lfsrStep r).getLsbD (i + 1) = r.getLsbD i := by
  rw [lfsrStep, BitVec.getLsbD_append, if_neg (by omega), BitVec.getLsbD_extractLsb']
  simp [hi]

theorem getLsbD_lfsrStep_zero (r : Byte) :
    (lfsrStep r).getLsbD 0 =
      (((r.getLsbD 7 != r.getLsbD 4) != r.getLsbD 2) != r.getLsbD 0) := by
  rw [lfsrStep, BitVec.getLsbD_append, if_pos Nat.zero_lt_one]
  simp

/-- The bits of the generator's register are the next eight it shifts out, the highest first. -/
theorem getLsbD_lfsrStep_iterate (r : Byte) {k : Nat} (hk : k < 8) :
    (lfsrStep^[k] r).getLsbD 7 = r.getLsbD (7 - k) := by
  induction k generalizing r with
  | zero => rfl
  | succ k ih =>
    rw [Function.iterate_succ_apply, ih _ (by omega), show 7 - k = 7 - (k + 1) + 1 by omega,
      getLsbD_lfsrStep_succ _ (by omega)]

/-- The sequence a(0), a(1), ... of R281: what the register started with eight ones shifts out. -/
def prnBit (n : Nat) : Bool := (lfsrStep^[n] 0xFF#8).getLsbD 7

theorem prnBit_add (n : Nat) {k : Nat} (hk : k < 8) :
    prnBit (n + k) = (lfsrStep^[n] 0xFF#8).getLsbD (7 - k) := by
  rw [prnBit, Nat.add_comm, Function.iterate_add_apply, getLsbD_lfsrStep_iterate _ hk]

theorem prnBit_of_lt {n : Nat} (hn : n < 8) : prnBit n = true := by
  rw [← Nat.zero_add n, prnBit_add 0 hn]
  interval_cases n <;> rfl

/-- The recurrence of R281. -/
theorem prnBit_add_eight (n : Nat) :
    prnBit (n + 8) =
      (((prnBit n != prnBit (n + 3)) != prnBit (n + 5)) != prnBit (n + 7)) := by
  have hnew : prnBit (n + 8) = (lfsrStep (lfsrStep^[n] 0xFF#8)).getLsbD 0 := by
    rw [show n + 8 = n + 1 + 7 by rfl, prnBit_add _ (by decide), Function.iterate_succ_apply']
  rw [hnew, getLsbD_lfsrStep_zero, prnBit_add n (by decide : 3 < 8),
    prnBit_add n (by decide : 5 < 8), prnBit_add n (by decide : 7 < 8)]
  rfl

/-! ## The table (R282) -/

theorem getD_prnFrom {n i : Nat} (hi : i < n) (r : Byte) :
    (prnFrom n r).getD i 0 = lfsrByte^[i] r := by
  induction n generalizing i r with
  | zero => omega
  | succ n ih =>
    cases i with
    | zero => rfl
    | succ i => exact ih (by omega) (lfsrByte r)

theorem lfsrByte_eq_iterate : lfsrByte = lfsrStep^[8] := rfl

/-- `PRN[i]` holds a(8i) to a(8i + 7), the first most significant. -/
theorem getLsbD_prn {i k : Nat} (hi : i < 255) (hk : k < 8) :
    (prn i).getLsbD (7 - k) = prnBit (8 * i + k) := by
  rw [prn, prnTable, getD_prnFrom hi, lfsrByte_eq_iterate, ← Function.iterate_mul, prnBit_add _ hk]

/-! ## The loop (R283) -/

theorem read_derandFrom (start : Nat) (frm : Memory 8) (i n a : Nat) (h : frm.wf) :
    (derandFrom start frm i n).read a =
      if i ≤ a ∧ a < i + n then frm.read a ^^^ prn ((a - start) % 255) else frm.read a := by
  induction n generalizing frm i with
  | zero => rw [derandFrom, if_neg (by omega)]
  | succ n ih =>
    rw [derandFrom, ih _ _ (Memory.wf_write _ _ _ h)]
    by_cases ha : a = i
    · subst ha
      rw [if_neg (by omega), if_pos (by omega), Memory.read_write_same _ _ _ h]
    · rw [Memory.read_write_ne _ _ _ _ ha]
      exact if_congr (by omega) rfl rfl

theorem read_derandomise (c : Cfg) (frm : Memory 8) (a : Nat) (h : frm.wf) :
    (derandomise c frm).read a =
      if c.derandStart ≤ a ∧ a < c.frameBytes then
        frm.read a ^^^ prn ((a - c.derandStart) % 255)
      else frm.read a := by
  rw [derandomise, read_derandFrom _ _ _ _ _ h]
  exact if_congr (by omega) rfl rfl

/-- R284: `x ^ k ^ k = x` at every byte. -/
theorem derandomise_derandomise (c : Cfg) (frm : Memory 8) (h : frm.wf) :
    derandomise c (derandomise c frm) = frm := by
  have honce := wf_derandomise c frm h
  refine Memory.eq_of_read_eq (wf_derandomise c _ honce) h fun a => ?_
  rw [read_derandomise c _ a honce, read_derandomise c frm a h]
  split
  · rw [BitVec.xor_assoc, BitVec.xor_self, BitVec.xor_zero]
  · rfl

theorem exec_drApply (s : State) :
    exec .drApply s = .next { s with frm := derandomise s.cfg s.frm } := rfl

end Sys2Proof.Machine

namespace Sys2Proof
open Sys2Proof.Machine

/-- Settles O42: the sequence is what the generator shifts out, and two passes cancel at every
byte. -/
theorem derandomiserXorsPayload : Obligations.DerandomiserXorsPayload := by
  refine ⟨⟨prnBit, fun _ => prnBit_of_lt, prnBit_add_eight, fun s hs =>
    ⟨_, exec_drApply s, rfl, fun i => ?_⟩⟩, fun s hs => ?_⟩
  · rw [read_derandomise _ _ i hs.canonical.frm, Cfg.frameBytes]
    split
    · intro k hk
      rw [← BitVec.xor_assoc, BitVec.xor_self, BitVec.zero_xor,
        getLsbD_prn (Nat.mod_lt _ (by decide)) hk]
    · rfl
  · show some { s with frm := derandomise s.cfg (derandomise s.cfg s.frm) } = some s
    rw [derandomise_derandomise _ _ hs]

end Sys2Proof
end

section
/-! SUPPORT. The end of a cycle (47_pipeline_controller R347, R349): the words of the health record
as CTL.PUBLISH packs them, read back field by field. -/

namespace Sys2Proof.Machine

/-! ## The words of the record (R73 to R77) -/

theorem toNat_zero_append {m n : Nat} (x : BitVec n) : (0#m ++ x).toNat = x.toNat := by
  rw [toNat_append_eq_add, BitVec.toNat_ofNat, Nat.zero_mod, Nat.zero_mul, Nat.zero_add]

/-- H_STATE is the sum of its fields, each at the weight of its lowest bit (R73). -/
theorem healthState_toNat (s : State) :
    (healthState s).toNat = s.df.dfState.code.toNat + 16 * s.vit.vitLock.toNat +
      256 * s.ph.hyp.toNat + 4096 * s.ctl.eosSeen.toNat := by
  simp only [healthState, toNat_append_eq_add, BitVec.toNat_ofBool, BitVec.toNat_ofNat]
  omega

/-- Byte lane `j` of a word of four counts is count number `j` (R76, R77). -/
theorem extractLsb'_lanesWord (f : Fin 4 → BitVec 8) (j : Fin 4) :
    (lanesWord (f 0) (f 1) (f 2) (f 3)).extractLsb' (8 * j) 8 = f j := by
  rw [lanesWord]
  match j with
  | 0 => exact BitVec.extractLsb'_append_eq_right
  | 1 =>
    rw [BitVec.extractLsb'_append_eq_of_le (by decide)]
    exact BitVec.extractLsb'_append_eq_right
  | 2 =>
    rw [BitVec.extractLsb'_append_eq_of_le (by decide),
      BitVec.extractLsb'_append_eq_of_le (by decide)]
    exact BitVec.extractLsb'_append_eq_right
  | 3 =>
    rw [BitVec.extractLsb'_append_eq_of_le (by decide),
      BitVec.extractLsb'_append_eq_of_le (by decide),
      BitVec.extractLsb'_append_eq_of_le (by decide)]
    exact BitVec.extractLsb'_eq_self

/-! ## The two operations -/

theorem exec_ctlPublish (s : State) :
    exec .ctlPublish s =
      .next ({ s with health := healthRecord s }.goto (if s.ctl.finalRun then .done else .top)) :=
  rfl

theorem exec_ctlHalt (s : State) : exec .ctlHalt s = .next (s.goto .done) := rfl

end Sys2Proof.Machine

namespace Sys2Proof
open Sys2Proof.Machine

/-- Settles O58: the record CTL.PUBLISH writes is `healthRecord`, read back field by field. -/
theorem publishWritesRecord : Obligations.PublishWritesRecord := by
  intro s
  refine ⟨healthRecord s, exec_ctlPublish s, rfl, ?hState, toNat_zero_append _, toNat_zero_append _,
    fun j hj => ⟨?hRsLo, ?hRsHi⟩, exec_ctlHalt s⟩
  case hState =>
    refine (healthState_toNat s).trans ?_
    cases s.df.dfState <;> rfl
  case hRsLo => exact extractLsb'_lanesWord (fun i => s.hRs[i.val]) ⟨j, hj⟩
  case hRsHi => exact extractLsb'_lanesWord (fun i => s.hRs[4 + i.val]) ⟨j, hj⟩

end Sys2Proof
end

section
/-! SUPPORT. The configuration check (60_exceptions R381, R383): the tests of R383 as a list, and
what the first that holds records. -/

namespace Sys2Proof.Machine

/-! ## The first test that holds -/

/-- The words `err_code` and `err_info` that a test of R383 records (R386). -/
def trapWords (e : Bool × Nat × Nat) : BitVec 8 × BitVec 8 :=
  (BitVec.ofNat 8 e.2.1, BitVec.ofNat 8 e.2.2)

/-- What the first test of a list that holds records. -/
def firstTrap (l : List (Bool × Nat × Nat)) : Option (BitVec 8 × BitVec 8) :=
  (l.find? fun e => e.1).map trapWords

theorem firstTrap_append (l m : List (Bool × Nat × Nat)) :
    firstTrap (l ++ m) = (firstTrap l).or (firstTrap m) := by
  rw [firstTrap, List.find?_append, Option.map_or]
  rfl

theorem firstTrap_cons (p : Prop) [Decidable p] (code info : Nat) (l : List (Bool × Nat × Nat)) :
    firstTrap ((decide p, code, info) :: l) =
      if p then some (BitVec.ofNat 8 code, BitVec.ofNat 8 info) else firstTrap l := by
  by_cases hp : p
  · rw [firstTrap, List.find?_cons_of_pos (by simpa using hp), if_pos hp]
    rfl
  · rw [firstTrap, List.find?_cons_of_neg (by simpa using hp), if_neg hp]
    rfl

theorem firstTrap_eq_none {l : List (Bool × Nat × Nat)} (h : ∀ e ∈ l, e.1 = false) :
    firstTrap l = none := by
  rw [firstTrap, List.find?_eq_none.2 fun e he => Bool.eq_false_iff.1 (h e he)]
  rfl

/-- Tests given by a family over a list of indices: the first index whose test holds. -/
theorem firstTrap_map {α : Type} (l : List α) (f : α → Bool × Nat × Nat) :
    firstTrap (l.map f) = (l.find? fun a => (f a).1).map fun a => trapWords (f a) := by
  rw [firstTrap, List.find?_map, Option.map_map]
  rfl

/-! ## The required registers (E_MISSING) -/

/-- The 1 bits of 0x0517 are the required registers, so the lowest 1 bit of `missing` is the first
of them never written. -/
theorem find?_missing (c : Cfg) :
    (List.range 16).find? (fun i => (missing c).getLsbD i) =
      [0, 1, 2, 4, 8, 10].find? fun i => !c.written.getLsbD i := by
  have hbits : (List.range 16).filter (0x0517#16).getLsbD = [0, 1, 2, 4, 8, 10] := by decide
  rw [← hbits, List.find?_filter]
  refine List.find?_congr fun i hi => ?_
  have hlt : i < 16 := List.mem_range.1 hi
  simp [missing, hlt]

theorem eq_zero_iff_find?_bits (v : BitVec 16) :
    v = 0 ↔ (List.range 16).find? (fun i => v.getLsbD i) = none := by
  constructor
  · rintro rfl
    decide
  · intro h
    refine BitVec.eq_of_getLsbD_eq fun i hi => ?_
    simpa using List.find?_eq_none.1 h i (List.mem_range.2 hi)

theorem firstTrap_missing (c : Cfg) :
    firstTrap ([0x10, 0x11, 0x12, 0x14, 0x18, 0x1A].map fun a =>
        (!c.written.getLsbD (a - 0x10), 1, a)) =
      if missing c ≠ 0 then some (1, BitVec.ofNat 8 (0x10 + lowestBit (missing c))) else none := by
  have haddr : [0x10, 0x11, 0x12, 0x14, 0x18, 0x1A] = [0, 1, 2, 4, 8, 10].map (0x10 + ·) := rfl
  have hfind : firstTrap ([0x10, 0x11, 0x12, 0x14, 0x18, 0x1A].map fun a =>
        (!c.written.getLsbD (a - 0x10), 1, a)) =
      ((List.range 16).find? fun i => (missing c).getLsbD i).map
        fun i => (1, BitVec.ofNat 8 (0x10 + i)) := by
    rw [haddr, List.map_map, firstTrap_map, find?_missing]
    simp only [Function.comp_apply, Nat.add_sub_cancel_left]
    rfl
  have hzero := eq_zero_iff_find?_bits (missing c)
  rw [hfind, lowestBit]
  cases hlow : (List.range 16).find? fun i => (missing c).getLsbD i with
  | none => exact (if_neg (not_not.2 (hzero.2 hlow))).symm
  | some i => exact (if_pos fun h => Option.some_ne_none i (hlow.symm.trans (hzero.1 h))).symm

/-! ## The fields (R381) -/

/-- The eight legal values of ASM_LEN are the multiples of 8 from 8 to 64. -/
theorem asmLen_illegal_iff (c : Cfg) :
    c.asmLen ∉ [8, 16, 24, 32, 40, 48, 56, 64] ↔
      c.asmLen = 0 ∨ c.asmLen % 8 ≠ 0 ∨ 64 < c.asmLen := by
  simp only [List.mem_cons, List.not_mem_nil, or_false]
  omega

/-- The two tests made when USE_CORR = 1: the window's, then each pattern's. -/
theorem firstTrap_corr (c : Cfg) :
    firstTrap ((c.useCorr && decide (c.npat = 0 ∨ 8 < c.npat ∨ c.corrWin = 0 ∨
          c.batchLen < c.corrWin), 12, 0xFF) ::
        (List.range c.npat).map fun j => (c.useCorr && badPattern c j, 12, j)) =
      corrError c := by
  rw [corrError]
  cases c.useCorr with
  | false =>
    refine firstTrap_eq_none fun e he => ?_
    obtain rfl | he := List.mem_cons.1 he
    · rfl
    · obtain ⟨j, -, rfl⟩ := List.mem_map.1 he
      rfl
  | true =>
    simp only [Bool.true_and]
    rw [firstTrap_cons, firstTrap_map, if_pos trivial]
    congr 1
    cases (List.range c.npat).find? (badPattern c) with
    | none => rfl
    | some j => rfl

/-! ## The check -/

/-- The tests of R383 made one after another raise what the first of the list that holds does. -/
theorem configError_eq_firstFault (c : Cfg) :
    configError c = (Claims.firstFault c).map trapWords := by
  show _ = firstTrap (Claims.faultTests c)
  rw [Claims.faultTests, List.append_assoc, firstTrap_append, firstTrap_missing, configError]
  by_cases hmissing : missing c ≠ 0
  · rw [if_pos hmissing, if_pos hmissing, Option.some_or]
  · rw [if_neg hmissing, if_neg hmissing, Option.none_or]
    have htype (t : BitVec 2) : c.rsType = t ↔ c.rsType.toNat = t.toNat := BitVec.toNat_inj.symm
    simp only [List.cons_append, List.nil_append, firstTrap_cons, asmLen_illegal_iff, htype, ne_eq]
    rw [← firstTrap_corr]
    rfl

theorem exec_ctlCheck_of_none {s : State} (h : configError s.cfg = none) :
    exec .ctlCheck s = .next (s.goto .top) := by
  show execCtlCheck s = _
  rw [execCtlCheck, h]

theorem exec_ctlCheck_of_some {s : State} {e : BitVec 8 × BitVec 8}
    (h : configError s.cfg = some e) :
    exec .ctlCheck s = .next (raiseConfigError e.1 e.2 s) := by
  show execCtlCheck s = _
  rw [execCtlCheck, h]

end Sys2Proof.Machine

namespace Sys2Proof
open Sys2Proof.Machine

/-- Settles O49: the check's error is the words of the first test of R383 that holds. -/
theorem configCheckFirstFault : Obligations.ConfigCheckFirstFault := by
  intro s
  have herr := configError_eq_firstFault s.cfg
  cases hfault : Claims.firstFault s.cfg with
  | none =>
    rw [hfault] at herr
    exact exec_ctlCheck_of_none herr
  | some e =>
    rw [hfault] at herr
    exact exec_ctlCheck_of_some herr

end Sys2Proof
end

section
/-! SUPPORT. Decoding and presenting words (30_encoding sections 1, 2 and 4; 00_scope section 4):
the decoder after the encoder, the identifiers by the table, and what a step makes of a presented
word. -/

namespace Sys2Proof

/-! ## The decoder after the encoder (R111 to R115) -/

theorem decodeBus_busWord_read (addr : BitVec 8) (data : RegWord) :
    decodeBus (busWord false addr data) = .hostRd addr := by
  simp [decodeBus]

/-- A plain write is none of the commands of rows 1 to 3 (R112). -/
theorem isPlainWrite_iff (addr : BitVec 8) (data : RegWord) :
    Instr.isPlainWrite addr data = true ↔ addr ≠ 0x00#8 ∨ data.extractLsb' 0 2 = 0#2 := by
  simp [Instr.isPlainWrite]

theorem decodeBus_busWord_write {addr : BitVec 8} {data : RegWord}
    (h : Instr.isPlainWrite addr data = true) :
    decodeBus (busWord true addr data) = .hostCfgw addr data := by
  rcases (isPlainWrite_iff addr data).1 h with h | h <;> simp [decodeBus, h]

theorem decodeSym_symWord (x : Soft) : decodeSym (symWord x) = .srcPush x := by
  rw [decodeSym, Machine.symWord_eos, Machine.symWord_sym]
  rfl

/-- Only the words of HOST.CFGW, HOST.RD and SRC.PUSH have operand fields. -/
theorem decode_encode {i : Instr} (h : i.wf = true) : decode (encode i) = .ok i := by
  cases i with
  | hostCfgw addr data => exact congrArg Except.ok (decodeBus_busWord_write h)
  | hostRd addr => exact congrArg Except.ok (decodeBus_busWord_read addr 0#32)
  | srcPush x => exact congrArg Except.ok (decodeSym_symWord x)
  | _ => rfl

/-! ## The decoder gives well-formed operations -/

/-- A HOST.CFGW is what rows 1 to 3 leave (R112). -/
theorem wf_decodeBus (w : BusWord) : (decodeBus w).wf = true := by
  unfold decodeBus
  split
  · split
    · rfl
    split
    · rfl
    split
    · rfl
    next h1 h2 h3 =>
    refine (isPlainWrite_iff _ _).2 (Classical.or_iff_not_imp_left.2 fun haddr => ?_)
    have haddr := not_not.1 haddr
    simp only [haddr, true_and] at h1 h2 h3
    bv_omega
  · rfl

theorem wf_decodeSym (w : SymWord) : (decodeSym w).wf = true := by
  unfold decodeSym
  split <;> rfl

theorem wf_of_mem_opTable : ∀ row ∈ opTable, row.2.wf = true := by decide

theorem wf_decodeOp {w : OpId} {i : Instr} (h : decodeOp w = .ok i) : i.wf = true := by
  unfold decodeOp at h
  split at h
  · next row hrow =>
    cases h
    exact wf_of_mem_opTable row (List.mem_of_find?_eq_some hrow)
  · split at h <;> cases h

/-! ## Symbols and identifiers (R113 to R115, R118) -/

/-- Bit 8 of a SYM word by a mask. -/
theorem symMask_iff : ∀ w : SymWord,
    (w &&& 0x100#9 = 0x000#9 ↔ w.getLsbD 8 = false) ∧
    (w &&& 0x100#9 = 0x100#9 ↔ w.getLsbD 8 = true) := by
  decide

theorem decodeOp_unlisted : ∀ w, Claims.unlisted w = true →
    decodeOp w = .error .noSuchOperation := by
  decide

theorem decodeOp_interface : ∀ w : OpId, 1 ≤ w.toNat → w.toNat ≤ 7 →
    decodeOp w = .error .interfaceWordNeeded := by
  decide

/-- From 0x08 on, every value that is not listed as naming none stands in the table. -/
theorem decodeOp_listed : ∀ w : OpId, Claims.unlisted w = false → 8 ≤ w.toNat →
    ∃ row ∈ opTable, decodeOp w = .ok row.2 ∧ encode row.2 = .op w := by
  decide +kernel

end Sys2Proof

namespace Sys2Proof.Machine

/-! ## Presented words (R6, logs 1 to 3) -/

/-- A step once the word is fetched. -/
theorem step_of_word {s t : State} {w : IfWord} {i : Instr} (hf : fetch s = .word w t)
    (hd : decode w = .ok i) : step s = exec i t := by
  rw [step, hf]
  simp only [hd]

theorem step_of_nothing {s t : State} (hf : fetch s = .nothing t) : step s = .next t := by
  rw [step, hf]

/-- A word put in front is the next one performed, on the state as it was. -/
theorem step_presentWord (s : State) {w : IfWord} {i : Instr} (hd : decode w = .ok i) :
    step (s.presentWord w) = exec i s := by
  cases w <;> exact step_of_word rfl hd

theorem tableWord_of_decodeTableWord {nbits w : Nat} {i : Instr}
    (h : decodeTableWord nbits w = some i) :
    ∃ x, tableWord nbits w = some x ∧ decode x = .ok i := by
  unfold decodeTableWord at h
  split at h
  · cases h
  · next x hx =>
    split at h
    · next j hj =>
      cases h
      exact ⟨x, hx, hj⟩
    · cases h

theorem step_withFetchWord (s : State) {nbits w : Nat} {i : Instr}
    (h : decodeTableWord nbits w = some i) : step (s.withFetchWord nbits w) = exec i s := by
  obtain ⟨x, hx, hd⟩ := tableWord_of_decodeTableWord h
  rw [State.withFetchWord, hx]
  exact step_presentWord s hd

theorem fetchCore_of_some {s : State} {w : OpId} (h : s.ctl.seq.opWord = some w) :
    fetchCore s = .word (.op w) s := by
  rw [fetchCore, h]

theorem fetchCore_of_none {s : State} (h : s.ctl.seq.opWord = none) : fetchCore s = .nothing s := by
  rw [fetchCore, h]

theorem fetch_of_nil {s : State} (h : s.env.turns = []) : fetch s = fetchCore s := by
  rw [fetch, h]

theorem fetch_of_core {s : State} {r : List Turn} (h : s.env.turns = .core :: r) :
    fetch s = fetchCore (s.withTurns r) := by
  rw [fetch, h]

theorem fetch_of_sink {s : State} {r : List Turn} (h : s.env.turns = .sink :: r) :
    fetch s = .word (.op 0x08) (s.withTurns r) := by
  rw [fetch, h]

theorem fetch_of_op {s : State} {w : OpId} {r : List Turn} (h : s.env.turns = .op w :: r) :
    fetch s = .word (.op w) (s.withTurns r) := by
  rw [fetch, h]

theorem fetch_of_host {s : State} {w : BusWord} {q : List BusWord} {r : List Turn}
    (h : s.env.turns = .host :: r) (hq : s.env.hostQ = w :: q) :
    fetch s = .word (.bus w) { s with env := { s.env with turns := r, hostQ := q } } := by
  simp only [fetch, h, hq]

theorem fetch_of_host_nil {s : State} {r : List Turn} (h : s.env.turns = .host :: r)
    (hq : s.env.hostQ = []) : fetch s = .nothing (s.withTurns r) := by
  simp only [fetch, h, hq]

theorem fetch_of_source {s : State} {w : SymWord} {q : List SymWord} {r : List Turn}
    (h : s.env.turns = .source :: r) (hq : s.env.srcQ = w :: q) :
    fetch s = .word (.sym w) { s with env := { s.env with turns := r, srcQ := q } } := by
  simp only [fetch, h, hq]

theorem fetch_of_source_nil {s : State} {r : List Turn} (h : s.env.turns = .source :: r)
    (hq : s.env.srcQ = []) : fetch s = .nothing (s.withTurns r) := by
  simp only [fetch, h, hq]

/-- An identifier that decodes to nothing is refused by name (R118). -/
theorem step_of_rejected {s : State} {w : OpId} {r : List Turn} {e : Reject}
    (h : s.env.turns = .op w :: r) (hd : decode (.op w) = .error e) :
    step s = .refused (.undecodable e w) := by
  rw [step, fetch_of_op h]
  simp only [hd]
  rfl

end Sys2Proof.Machine

namespace Sys2Proof
open Sys2Proof.Machine

/-- Settles O1: the fields come back from a word, and rows 1 to 3 take the writes that are no
HOST.CFGW. -/
theorem decodeOfEncode : Obligations.DecodeOfEncode := by
  refine ⟨fun i hi => decode_encode hi, fun w i h => ?_⟩
  cases w with
  | bus b =>
    cases h
    exact wf_decodeBus b
  | sym x =>
    cases h
    exact wf_decodeSym x
  | op o => exact wf_decodeOp h

/-- Settles O3: bit 8 of a SYM word, and the 256 identifiers against the table. -/
theorem symAndIdentifierWords : Obligations.SymAndIdentifierWords := by
  refine ⟨fun w => ⟨fun h => ?_, fun h => ?_⟩, decodeOp_unlisted, decodeOp_interface,
    fun w hw hge => ?_, fun s w r e hturn hd => step_of_rejected hturn hd⟩
  · have hbit := (symMask_iff w).1.1 h
    simp only [decode, decodeSym, hbit, Bool.false_eq_true, if_false]
  · have hbit := (symMask_iff w).2.1 h
    simp only [decode, decodeSym, hbit, if_true]
  · obtain ⟨row, -, hdec, henc⟩ := decodeOp_listed w hw hge
    exact ⟨row.2, hdec, henc⟩

/-- Settles O4, word by word. -/
theorem writtenWordsDecode : Obligations.WrittenWordsDecode := by
  unfold Obligations.WrittenWordsDecode
  decide

/-- Settles O5: what each agent's turn fetches, and a word put in front. -/
theorem stepRunsDecodedInstruction : Obligations.StepRunsDecodedInstruction := by
  refine ⟨fun s i r => ⟨fun w q h hq hd => step_of_word (fetch_of_host h hq) hd,
    fun w q h hq hd => step_of_word (fetch_of_source h hq) hd,
    fun h => step_of_word (fetch_of_sink h) rfl,
    fun w h hd => step_of_word (fetch_of_op h) hd,
    fun w h hop hd => step_of_word ((fetch_of_core h).trans (fetchCore_of_some hop)) hd,
    fun w h hop hd => step_of_word ((fetch_of_nil h).trans (fetchCore_of_some hop)) hd,
    fun h => ?_,
    fun h hop => step_of_nothing ((fetch_of_nil h).trans (fetchCore_of_none hop))⟩,
    fun s nbits w i h => step_withFetchWord s h⟩
  rcases h with ⟨h, hq⟩ | ⟨h, hq⟩ | ⟨h, hop⟩
  · exact step_of_nothing (fetch_of_host_nil h hq)
  · exact step_of_nothing (fetch_of_source_nil h hq)
  · exact step_of_nothing ((fetch_of_core h).trans (fetchCore_of_none hop))

end Sys2Proof
end

section
/-! SUPPORT. The core's turn (47_pipeline_controller R330, R334): the operation that `seq` names,
and the wait of a step that would emit into a full OUT. -/

namespace Sys2Proof.Machine

/-! ## Room in OUT (R85) -/

theorem outFull_iff_noRoom (s : State) : outFull s = true ↔ ¬ Claims.roomInOut s := by
  rw [outFull_iff, Claims.roomInOut, Nat.not_lt]

/-- A step that would emit into a full OUT waits (R98, R334). -/
theorem settleEmit_wait {s u : State} {r : Except Fault State} (hr : r = .ok u)
    (hlen : u.outq.length ≠ s.outq.length) (hfull : ¬ Claims.roomInOut s) :
    settleEmit s r = .next s := by
  rw [hr, settleEmit, if_pos ⟨hlen, (outFull_iff_noRoom s).2 hfull⟩]

/-- A step that emits nothing, or has room, completes. -/
theorem settleEmit_done {s u : State} {r : Except Fault State} (hr : r = .ok u)
    (h : u.outq.length = s.outq.length ∨ Claims.roomInOut s) :
    settleEmit s r = .next u := by
  rw [hr, settleEmit, if_neg]
  rintro ⟨hlen, hfull⟩
  exact h.elim hlen fun hroom => (outFull_iff_noRoom s).1 hfull hroom

/-! ## The operation that `seq` names (R330) -/

/-- The core's operation by the value of `seq`. -/
def Seq.instr (q : Seq) : Option Instr :=
  match q with
  | .idle | .done | .error => none
  | .check => some .ctlCheck
  | .top => some .ctlTop
  | .read => some .ctlRead
  | .corr => some .ctlCorr
  | .data => some .ctlData
  | .resync => some .ctlRschk
  | .flush => some .ctlFlush
  | .publish => some .ctlPublish

/-- What the core does in its turn. -/
def coreStep (s : State) : Host.Outcome State Fault Refusal :=
  match s.ctl.seq.instr with
  | none => .next s
  | some i => exec i s

theorem opWord_eq_map_opId (q : Seq) : q.opWord = q.instr.map opId := by
  cases q <;> rfl

theorem decode_opId_of_instr {q : Seq} {i : Instr} (h : q.instr = some i) :
    decode (.op (opId i)) = .ok i := by
  cases q <;> cases h <;> rfl

/-- A core's turn is `coreStep` on the state without the turn. -/
theorem step_of_fetchCore {s t : State} (hf : fetch s = fetchCore t) : step s = coreStep t := by
  have hw := opWord_eq_map_opId t.ctl.seq
  unfold coreStep
  cases hi : t.ctl.seq.instr with
  | none =>
    rw [hi] at hw
    exact step_of_nothing (hf.trans (fetchCore_of_none hw))
  | some i =>
    rw [hi] at hw
    exact step_of_word (hf.trans (fetchCore_of_some hw)) (decode_opId_of_instr hi)

theorem step_of_noTurns {s : State} (h : s.env.turns = []) : step s = coreStep s :=
  step_of_fetchCore (fetch_of_nil h)

/-- The state from which a turn has been taken. -/
def Fetched.state (f : Fetched) : State :=
  match f with
  | .nothing s => s
  | .word _ s => s

theorem fetchCore_state (s : State) : (fetchCore s).state = s := by
  unfold fetchCore
  split <;> rfl

/-- A turn taken touches the surroundings only, and no turn joins. -/
theorem fetch_state (s : State) :
    ∃ e, (fetch s).state = { s with env := e } ∧ ∀ x ∈ e.turns, x ∈ s.env.turns := by
  unfold fetch
  split
  · exact ⟨s.env, fetchCore_state s, fun _ => id⟩
  · next r hr =>
    exact ⟨_, fetchCore_state (s.withTurns r), fun x hx => hr ▸ List.mem_cons_of_mem _ hx⟩
  · next r hr =>
    split <;> exact ⟨_, rfl, fun x hx => hr ▸ List.mem_cons_of_mem _ hx⟩
  · next r hr =>
    split <;> exact ⟨_, rfl, fun x hx => hr ▸ List.mem_cons_of_mem _ hx⟩
  · next r hr => exact ⟨_, rfl, fun x hx => hr ▸ List.mem_cons_of_mem _ hx⟩
  · next r hr => exact ⟨_, rfl, fun x hx => hr ▸ List.mem_cons_of_mem _ hx⟩

/-! ## Single operations -/

/-- The state after the test of R345. -/
def resyncTested (s : State) : State := if resyncDue s then resyncAttempt s else s

theorem exec_ctlRschk (s : State) :
    exec .ctlRschk s =
      if (resyncTested s).ctl.eosSeen then
        .next { resyncTested s with ctl := { (resyncTested s).ctl with flI := 0, seq := .flush } }
      else .next ((resyncTested s).goto .publish) := rfl

theorem exec_ctlRead_nil {s : State} (h : s.inq = []) : exec .ctlRead s = .next s := by
  show execCtlRead s = _
  rw [execCtlRead, h]

theorem exec_ctlData (s : State) : exec .ctlData s = settleEmit s (dataStep s) := rfl

theorem exec_ctlFlush (s : State) : exec .ctlFlush s = settleEmit s (flushStep s) := rfl

end Sys2Proof.Machine

namespace Sys2Proof
open Sys2Proof.Machine

/-- Settles O6: the table of `seq`, and the steps that are not enabled. -/
theorem coreStepFollowsSequencer : Obligations.CoreStepFollowsSequencer := by
  intro s hturns
  have hstep := step_of_noTurns hturns
  refine ⟨?_, fun hseq hin => ?_, fun u hseq hu hlen hfull _ => ?_,
    fun u hseq hu hlen hfull _ => ?_⟩
  · rw [hstep, coreStep]
    cases s.ctl.seq <;> rfl
  · rw [hstep, coreStep, hseq]
    exact exec_ctlRead_nil hin
  · rw [hstep, coreStep, hseq]
    exact settleEmit_wait hu hlen hfull
  · rw [hstep, coreStep, hseq]
    exact settleEmit_wait hu hlen hfull

end Sys2Proof
end

section
/-! SUPPORT. What the datapath may do between two states (47_pipeline_controller R339 to R342), and
that every operation keeps the invariant of R54, R73 to R75 and R216. -/

namespace Sys2Proof.Machine

/-! ## Frames and bits as equations (R341, R342) -/

theorem derandAt_eq (m : Nat) (s : State) :
    derandAt m s =
      { s with frm := if s.cfg.derandMode = m then derandomise s.cfg s.frm else s.frm } := by
  unfold derandAt
  split <;> rfl

theorem wf_derandAt (m : Nat) {s : State} (h : s.frm.wf) : (derandAt m s).frm.wf := by
  unfold derandAt
  split
  · exact wf_derandomise _ _ h
  · exact h

theorem decodeFrame_ok {s t : State} (h : decodeFrame s = .ok t) :
    ∃ l, decodeLanes s.cfg ⟨s.frm, s.cw, noCounts⟩ 0 s.cfg.rsDepth = .ok l ∧
      t = { s with frm := l.frm, cw := l.cw, hRs := l.hRs } := by
  obtain ⟨l, hl, rfl⟩ := (map_ok_iff _ _ _).1 h
  exact ⟨l, hl, rfl⟩

theorem wf_decodeFrame {s t : State} (hf : s.frm.wf) (hc : s.cw.wf) (h : decodeFrame s = .ok t) :
    t.frm.wf ∧ t.cw.wf := by
  obtain ⟨l, hl, rfl⟩ := decodeFrame_ok h
  exact wf_decodeLanes hf hc hl

theorem wf_correctFrame {s t : State} (hf : s.frm.wf) (hc : s.cw.wf)
    (h : correctFrame s = .ok t) : t.frm.wf ∧ t.cw.wf := by
  unfold correctFrame at h
  split at h
  · exact wf_decodeFrame hf hc h
  · cases h
    exact ⟨hf, hc⟩

/-- Processing a frame keeps the canonical form of FRM and CW. -/
theorem wf_processFrame {s t : State} (hf : s.frm.wf) (hc : s.cw.wf)
    (h : processFrame s = .ok t) : t.frm.wf ∧ t.cw.wf := by
  obtain ⟨u, hu, rfl⟩ := (map_ok_iff _ _ _).1 h
  have hcw : (derandAt 1 s).cw = s.cw := by rw [derandAt_eq]
  obtain ⟨huf, huc⟩ := wf_correctFrame (wf_derandAt 1 hf) (hcw ▸ hc) hu
  have hcw2 : (derandAt 2 u).cw = u.cw := by rw [derandAt_eq]
  dsimp only
  split
  · exact ⟨wf_derandAt 2 huf, hcw2.symm ▸ huc⟩
  · exact ⟨wf_derandAt 2 huf, hcw2.symm ▸ huc⟩

/-- The bit that reaches the deframer (R175, R341). -/
def diffBit (s : State) (b : Bool) : Bool :=
  if s.cfg.nrzm then Bool.xor b s.ph.nrzmPrev else b

/-- The state between DF.PUSH and CTL.FRAME of R341. -/
def bitPushed (s : State) (b : Bool) (p : Pushed) : State :=
  { s with
    ph := { s.ph with nrzmPrev := if s.cfg.nrzm then b else s.ph.nrzmPrev }
    df := p.df
    frm := p.frm
    ctl := { s.ctl with unsyncBits := countUnsync p.df.dfState s.ctl.unsyncBits } }

theorem routeBit_eq_bind (s : State) (b : Bool) :
    routeBit s b = pushBit s.cfg s.df s.frm (diffBit s b) >>= fun p =>
      if p.frame then processFrame (bitPushed s b p) else .ok (bitPushed s b p) := by
  unfold routeBit diffBit bitPushed diffDecode
  cases s.cfg.nrzm <;> rfl

theorem routeBit_ok {s t : State} {b : Bool} (h : routeBit s b = .ok t) :
    ∃ p, pushBit s.cfg s.df s.frm (diffBit s b) = .ok p ∧
      (p.frame = true ∧ processFrame (bitPushed s b p) = .ok t ∨
        p.frame = false ∧ t = bitPushed s b p) := by
  rw [routeBit_eq_bind] at h
  obtain ⟨p, hp, h⟩ := (bind_ok_iff _ _ _).1 h
  refine ⟨p, hp, ?_⟩
  cases hf : p.frame with
  | true =>
    rw [hf, if_pos rfl] at h
    exact .inl ⟨rfl, h⟩
  | false =>
    rw [hf] at h
    cases h
    exact .inr ⟨rfl, rfl⟩

theorem wf_routeBit {s t : State} {b : Bool} (hf : s.frm.wf) (hc : s.cw.wf)
    (h : routeBit s b = .ok t) : t.frm.wf ∧ t.cw.wf := by
  obtain ⟨p, hp, ⟨-, h⟩ | ⟨-, rfl⟩⟩ := routeBit_ok h
  · exact wf_processFrame (s := bitPushed s b p) (wf_pushBit hf hp) hc h
  · exact ⟨wf_pushBit hf hp, hc⟩

/-! ## The flow of the datapath -/

theorem Kept.keptButSkip {s t : State} (k : Kept s t) : KeptButSkip s t :=
  ⟨k.cfg, k.health, k.sym, k.inq, k.env, k.ctl, k.hyp⟩

/-- What the datapath may do: leave the host's side, the batch and the controller alone, add frames
behind those in OUT, and keep the invariant's share of the buffers and of the path metrics. -/
structure Flow (s t : State) : Prop extends KeptButSkip s t where
  out : ∃ l, t.outq = s.outq ++ l
  canonical : Canonical s → Canonical t
  zeroMetric : (∃ x, s.vit.metric x = 0) → ∃ x, t.vit.metric x = 0

theorem Flow.refl (s : State) : Flow s s :=
  ⟨(Kept.refl s).keptButSkip, ⟨[], (List.append_nil _).symm⟩, id, id⟩

theorem Flow.trans {s t u : State} (h : Flow s t) (k : Flow t u) : Flow s u := by
  refine ⟨⟨k.cfg.trans h.cfg, k.health.trans h.health, k.sym.trans h.sym, k.inq.trans h.inq,
    k.env.trans h.env, ?_, k.hyp.trans h.hyp⟩, ?_, k.canonical ∘ h.canonical,
    k.zeroMetric ∘ h.zeroMetric⟩
  · rw [k.ctl, h.ctl]
  · obtain ⟨l, hl⟩ := h.out
    obtain ⟨m, hm⟩ := k.out
    exact ⟨l ++ m, by rw [hm, hl, List.append_assoc]⟩

/-- The sequencer moved at both ends. -/
theorem Flow.goto {s t : State} (h : Flow s t) (q : Seq) : Flow (s.goto q) (t.goto q) := by
  refine ⟨⟨h.cfg, h.health, h.sym, h.inq, h.env, ?_, h.hyp⟩, h.out,
    fun c => ⟨?_, ?_, ?_, ?_, ?_⟩, h.zeroMetric⟩
  · simp only [State.goto]
    rw [h.ctl]
  all_goals obtain ⟨h1, h2, h3, h4, h5⟩ := h.canonical ⟨c.sym, c.frm, c.cw, c.hist, c.dly⟩
  all_goals assumption

theorem flow_routeBit {s t : State} {b : Bool} (h : routeBit s b = .ok t) : Flow s t := by
  obtain ⟨k, hvit, -, -⟩ := routeBit_kept h
  obtain ⟨_, _, -, -, f, w, r, o, ht, ho⟩ := routeBit_eq h
  refine ⟨k.keptButSkip, ?_, fun c => ?_, fun hz => by rw [hvit]; exact hz⟩
  · rw [ht]
    exact ho.elim (fun e => ⟨[], e.trans (List.append_nil _).symm⟩) fun e => ⟨_, e⟩
  · obtain ⟨hf, hc⟩ := wf_routeBit c.frm c.cw h
    exact ⟨k.sym ▸ c.sym, hf, hc, hvit ▸ c.hist, hvit ▸ c.dly⟩

theorem flow_trellisStep {s : State} {c : Cfg} {r1 r2 : Soft} {r : Viterbi × Option Bool}
    (h : trellisStep c s.vit r1 r2 = .ok r) : Flow s { s with vit := r.1 } := by
  obtain ⟨hz, hh, hd, -, -⟩ := trellisStep_ok h
  exact ⟨⟨rfl, rfl, rfl, rfl, rfl, rfl, rfl⟩, ⟨[], (List.append_nil _).symm⟩,
    fun c => ⟨c.sym, c.frm, c.cw, hh c.hist, hd c.dly⟩, fun _ => hz⟩

theorem flow_routePair {s t : State} {p : Soft × Soft} (h : routePair s p = .ok t) :
    Flow s t := by
  unfold routePair at h
  obtain ⟨r, hr, h⟩ := (bind_ok_iff _ _ _).1 h
  have hflow := flow_trellisStep hr
  dsimp only at h
  split at h
  · cases h
    exact hflow
  · exact hflow.trans (flow_routeBit h)

theorem flow_routePairs {l : List (Soft × Soft)} {s t : State} (h : routePairs s l = .ok t) :
    Flow s t := by
  induction l generalizing s with
  | nil =>
    cases h
    exact .refl _
  | cons p r ih =>
    obtain ⟨u, hu, h⟩ := (bind_ok_iff _ _ _).1 h
    exact (flow_routePair hu).trans (ih h)

/-- Writing the depuncturer's registers or the phase normaliser's but `hyp` is a flow. -/
theorem flow_dp (s : State) (d : Depunct) : Flow s { s with dp := d } :=
  ⟨⟨rfl, rfl, rfl, rfl, rfl, rfl, rfl⟩, ⟨[], (List.append_nil _).symm⟩,
    fun c => ⟨c.sym, c.frm, c.cw, c.hist, c.dly⟩, id⟩

theorem flow_ph (s : State) {p : Phase} (h : p.hyp = s.ph.hyp) : Flow s { s with ph := p } :=
  ⟨⟨rfl, rfl, rfl, rfl, rfl, rfl, h⟩, ⟨[], (List.append_nil _).symm⟩,
    fun c => ⟨c.sym, c.frm, c.cw, c.hist, c.dly⟩, id⟩

theorem flow_routeSymbol {s t : State} {y : Soft} (h : routeSymbol s y = .ok t) : Flow s t := by
  obtain ⟨r, -, h⟩ := (bind_ok_iff _ _ _).1 h
  exact (flow_dp s r.1).trans (flow_routePairs h)

theorem flow_routeSymbols {l : List Soft} {s t : State} (h : routeSymbols s l = .ok t) :
    Flow s t := by
  induction l generalizing s with
  | nil =>
    cases h
    exact .refl _
  | cons y r ih =>
    obtain ⟨u, hu, h⟩ := (bind_ok_iff _ _ _).1 h
    exact (flow_routeSymbol hu).trans (ih h)

theorem normalise_hyp (c : Cfg) (p : Phase) (x : Soft) : (normalise c p x).1.hyp = p.hyp := by
  obtain ⟨a, b, h⟩ := normalise_eq c p x
  rw [h]

theorem flow_takeSymbol {s t : State} {x : Soft} (h : takeSymbol s x = .ok t) : Flow s t := by
  unfold takeSymbol at h
  split at h
  · cases h
    exact flow_ph s rfl
  · exact (flow_ph s (normalise_hyp _ _ _)).trans (flow_routeSymbols h)

/-- A data step is a flow once `sym_i` has moved on and the sequencer stands where it leaves it. -/
theorem flow_dataStep {s t : State} (h : dataStep s = .ok t) :
    ∃ q, (q = s.ctl.seq ∨ q = .resync) ∧
      Flow { s with ctl := { s.ctl with symI := s.ctl.symI + 1, seq := q } } t := by
  obtain ⟨_, -, h⟩ := (bind_ok_iff _ _ _).1 h
  obtain ⟨u, hu, h⟩ := (bind_ok_iff _ _ _).1 h
  have hflow := flow_takeSymbol hu
  split at h
  · cases h
    exact ⟨.resync, .inr rfl, hflow.goto .resync⟩
  · cases h
    exact ⟨s.ctl.seq, .inl rfl, hflow⟩

/-- A flow says nothing of `fl_i` but that the datapath leaves it. -/
theorem Flow.withFlI {s t : State} (h : Flow s t) (n : BitVec 8) :
    Flow { s with ctl := { s.ctl with flI := n } } { t with ctl := { t.ctl with flI := n } } := by
  refine ⟨⟨h.cfg, h.health, h.sym, h.inq, h.env, ?_, h.hyp⟩, h.out,
    fun c => ⟨?_, ?_, ?_, ?_, ?_⟩, h.zeroMetric⟩
  · dsimp only
    rw [h.ctl]
  all_goals obtain ⟨h1, h2, h3, h4, h5⟩ := h.canonical ⟨c.sym, c.frm, c.cw, c.hist, c.dly⟩
  all_goals assumption

/-- A flush step is a flow once the controller stands where it leaves it. -/
theorem flow_flushStep {s t : State} (h : flushStep s = .ok t) :
    ∃ n f q, (q = s.ctl.seq ∨ q = .publish) ∧
      Flow { s with ctl := { s.ctl with flI := n, finalRun := f, seq := q } } t := by
  obtain ⟨l, -, h⟩ := (bind_ok_iff _ _ _).1 h
  split at h
  · obtain ⟨u, hu, h⟩ := (bind_ok_iff _ _ _).1 h
    cases h
    exact ⟨_, s.ctl.finalRun, s.ctl.seq, .inl rfl, (flow_routeBit hu).withFlI _⟩
  · cases h
    exact ⟨s.ctl.flI, true, .publish, .inr rfl, .refl _⟩

theorem flow_processFrame {s t : State} (h : processFrame s = .ok t) : Flow s t := by
  obtain ⟨f, w, r, o, rfl, ho⟩ := processFrame_eq h
  refine ⟨⟨rfl, rfl, rfl, rfl, rfl, rfl, rfl⟩,
    ho.elim (fun e => ⟨[], e.trans (List.append_nil _).symm⟩) fun e => ⟨_, e⟩, fun c => ?_, id⟩
  obtain ⟨hf, hc⟩ := wf_processFrame c.frm c.cw h
  exact ⟨c.sym, hf, hc, c.hist, c.dly⟩

end Sys2Proof.Machine
end

section
/-! SUPPORT. Every operation keeps `Inv` (R54, R73 to R75, R216), from any state that has it. -/

namespace Sys2Proof.Machine

/-! ## Reserved bits (R54, R73 to R75) -/

theorem and_mask_and_not (d m : RegWord) : d &&& m &&& ~~~m = 0 := by
  rw [BitVec.and_assoc, BitVec.and_not_self]
  exact BitVec.and_zero

/-- A register that a store writes or leaves has its reserved bits 0 either way. -/
theorem ite_and_mask_reserved {p : Prop} [Decidable p] {d m x : RegWord}
    (h : x &&& ~~~m = 0) : (if p then d &&& m else x) &&& ~~~m = 0 := by
  split
  · exact and_mask_and_not d m
  · exact h

theorem reservedClear_store {c : Cfg} (h : c.ReservedClear) (r : RegName) (d : RegWord) :
    (c.store r d).ReservedClear where
  modem := (Cfg.store_modem c r d).symm ▸ ite_and_mask_reserved h.modem
  code := (Cfg.store_code c r d).symm ▸ ite_and_mask_reserved h.code
  vitlock := (Cfg.store_vitlock c r d).symm ▸ ite_and_mask_reserved h.vitlock
  vitwin := (Cfg.store_vitwin c r d).symm ▸ ite_and_mask_reserved h.vitwin
  frame := (Cfg.store_frame c r d).symm ▸ ite_and_mask_reserved h.frame
  asmctl := (Cfg.store_asmctl c r d).symm ▸ ite_and_mask_reserved h.asmctl
  deframer := (Cfg.store_deframer c r d).symm ▸ ite_and_mask_reserved h.deframer
  derand := (Cfg.store_derand c r d).symm ▸ ite_and_mask_reserved h.derand
  rs := (Cfg.store_rs c r d).symm ▸ ite_and_mask_reserved h.rs
  batch := (Cfg.store_batch c r d).symm ▸ ite_and_mask_reserved h.batch
  corr := (Cfg.store_corr c r d).symm ▸ ite_and_mask_reserved h.corr

theorem reservedClear_markWritten {c : Cfg} (h : c.ReservedClear) (a : BitVec 8) :
    (c.markWritten a).ReservedClear := by
  obtain ⟨h1, h2, h3, h4, h5, h6, h7, h8, h9, h10, h11⟩ := h
  unfold Cfg.markWritten
  split <;> exact ⟨h1, h2, h3, h4, h5, h6, h7, h8, h9, h10, h11⟩

theorem reservedClear_hostWrite {c : Cfg} (h : c.ReservedClear) (a : BitVec 8) (d : RegWord) :
    (c.hostWrite a d).ReservedClear := by
  unfold Cfg.hostWrite
  split
  · exact reservedClear_store (reservedClear_markWritten h a) _ _
  · exact h

/-- The gaps of H_STATE are 0 (R73). -/
theorem healthState_reserved (s : State) : healthState s &&& ~~~0x00001713#32 = 0 := by
  have hmask : ~~~0x00001713#32 =
      0x7FFFF#19 ++ 0#1 ++ 1#1 ++ 0#3 ++ 7#3 ++ 0#1 ++ 3#2 ++ 0#2 := by decide
  rw [hmask]
  unfold healthState
  rw [BitVec.and_append, BitVec.and_append, BitVec.and_append, BitVec.and_append,
    BitVec.and_append, BitVec.and_append, BitVec.and_append]
  simp only [BitVec.zero_and, BitVec.and_zero]
  rfl

theorem reservedClear_healthRecord (s : State) : (healthRecord s).ReservedClear :=
  ⟨healthState_reserved s, zero_append_and_append_zero s.vit.berErrsL (BitVec.allOnes 15),
    zero_append_and_append_zero s.vit.berTotalL (BitVec.allOnes 15)⟩

/-! ## The invariant by its parts -/

section
variable {s t : State}

/-- `Inv` speaks of the buffers, the decoder, the configuration and the health record only. -/
theorem Inv.congr (h : Inv s) (hsym : t.sym = s.sym) (hfrm : t.frm = s.frm) (hcw : t.cw = s.cw)
    (hvit : t.vit = s.vit) (hcfg : t.cfg = s.cfg) (hhealth : t.health = s.health) : Inv t := by
  obtain ⟨⟨h1, h2, h3, h4, h5⟩, h6, h7, h8⟩ := h
  refine ⟨⟨hsym ▸ h1, hfrm ▸ h2, hcw ▸ h3, ?_, ?_⟩, hcfg ▸ h6, hhealth ▸ h7, ?_⟩
  all_goals rw [hvit]
  all_goals assumption

theorem Inv.of_flow (h : Inv s) (f : Flow s t) : Inv t :=
  ⟨f.canonical h.canonical, f.cfg.symm ▸ h.cfg, f.health.symm ▸ h.health,
    f.zeroMetric h.zeroMetric⟩

theorem Inv.of_ctl (h : Inv s) (c : Ctl) : Inv { s with ctl := c } :=
  h.congr rfl rfl rfl rfl rfl rfl

theorem Inv.goto (h : Inv s) (q : Seq) : Inv (s.goto q) := h.of_ctl _

theorem Inv.withCfg (h : Inv s) {c : Cfg} (hc : c.ReservedClear) : Inv { s with cfg := c } :=
  ⟨⟨h.canonical.sym, h.canonical.frm, h.canonical.cw, h.canonical.hist, h.canonical.dly⟩, hc,
    h.health, h.zeroMetric⟩

theorem Inv.withHealth (h : Inv s) {r : Health} (hr : r.ReservedClear) :
    Inv { s with health := r } :=
  ⟨⟨h.canonical.sym, h.canonical.frm, h.canonical.cw, h.canonical.hist, h.canonical.dly⟩, h.cfg,
    hr, h.zeroMetric⟩

theorem Inv.withFrm (h : Inv s) {m : Memory 8} (hm : m.wf) : Inv { s with frm := m } :=
  ⟨⟨h.canonical.sym, hm, h.canonical.cw, h.canonical.hist, h.canonical.dly⟩, h.cfg, h.health,
    h.zeroMetric⟩

theorem Inv.withCw (h : Inv s) {m : Memory 8} (hm : m.wf) : Inv { s with cw := m } :=
  ⟨⟨h.canonical.sym, h.canonical.frm, hm, h.canonical.hist, h.canonical.dly⟩, h.cfg, h.health,
    h.zeroMetric⟩

theorem Inv.withVit (h : Inv s) {v : Viterbi} (hh : v.hist.wf) (hd : v.dly.wf)
    (hz : ∃ x, v.metric x = 0) : Inv { s with vit := v } :=
  ⟨⟨h.canonical.sym, h.canonical.frm, h.canonical.cw, hh, hd⟩, h.cfg, h.health, hz⟩

theorem Inv.withPh (h : Inv s) (p : Phase) : Inv { s with ph := p } :=
  h.congr rfl rfl rfl rfl rfl rfl

/-- A cleared datapath has metrics of 0 only. -/
theorem Inv.clearDatapath (h : Inv s) : Inv (clearDatapath s) :=
  ⟨⟨h.canonical.sym, h.canonical.frm, h.canonical.cw, h.canonical.hist, h.canonical.dly⟩, h.cfg,
    h.health, ⟨0, metric_clearViterbi s.vit 0⟩⟩

theorem inv_reset : Inv State.reset :=
  ⟨⟨Memory.wf_nil, Memory.wf_nil, Memory.wf_nil, Memory.wf_nil, Memory.wf_nil⟩,
    ⟨by decide, by decide, by decide, by decide, by decide, by decide, by decide, by decide,
      by decide, by decide, by decide⟩, ⟨by decide, by decide, by decide⟩, ⟨0, by decide⟩⟩

theorem inv_resetMachine (s : State) : Inv (resetMachine s) :=
  inv_reset.congr rfl rfl rfl rfl rfl rfl

theorem Inv.applySearch (h : Inv s) (f : Bool) (p : BitVec 2) (o : BitVec 16) :
    Inv (applySearch s f p o) := by
  unfold Machine.applySearch
  split
  · exact (h.withPh _).clearDatapath
  · exact h

theorem Inv.applyHit (h : Inv s) (x : Option Hit) : Inv (applyHit s x) := by
  cases x with
  | none => exact h.applySearch _ _ _
  | some x => exact h.applySearch _ _ _

theorem Inv.resyncAttempt (h : Inv s) : Inv (resyncAttempt s) := by
  unfold Machine.resyncAttempt
  split
  · exact h.of_ctl _
  · exact (h.withPh _).clearDatapath

theorem Inv.resyncTested (h : Inv s) : Inv (resyncTested s) := by
  unfold Machine.resyncTested
  split
  · exact h.resyncAttempt
  · exact h

theorem Inv.present (h : Inv s) (w : SymWord) : Inv (present s w) := by
  unfold Machine.present
  split <;> exact h.congr rfl rfl rfl rfl rfl rfl

theorem Inv.readEntry {e : SymWord} {r : List SymWord} (h : Inv s)
    (ht : readEntry s e r = .ok t) : Inv t := by
  unfold Machine.readEntry at ht
  split at ht
  · cases ht
    exact h.congr rfl rfl rfl rfl rfl rfl
  · obtain ⟨_, -, rfl⟩ := (map_ok_iff _ _ _).1 ht
    have hsym := Memory.wf_write s.sym s.ctl.symN.toNat (clampSoft (e.extractLsb' 0 8))
      h.canonical.sym
    dsimp only
    split <;> exact ⟨⟨hsym, h.canonical.frm, h.canonical.cw, h.canonical.hist, h.canonical.dly⟩,
      h.cfg, h.health, h.zeroMetric⟩

/-- What waits is as it was, and what completes is what the computation gives. -/
theorem Inv.of_settleEmit {r : Except Fault State} (h : Inv s)
    (hr : ∀ u, r = .ok u → Inv u) (ht : settleEmit s r = .next t) : Inv t := by
  obtain ⟨u, hu, ⟨-, -, rfl⟩ | ⟨-, rfl⟩⟩ := (settleEmit_next_iff s r t).1 ht
  · exact h
  · exact hr _ hu

end

/-! ## Operation by operation -/

theorem inv_dataStep {s t : State} (h : Inv s) (ht : dataStep s = .ok t) : Inv t := by
  obtain ⟨_, -, hf⟩ := flow_dataStep ht
  exact (h.of_ctl _).of_flow hf

theorem inv_flushStep {s t : State} (h : Inv s) (ht : flushStep s = .ok t) : Inv t := by
  obtain ⟨_, _, _, -, hf⟩ := flow_flushStep ht
  exact (h.of_ctl _).of_flow hf

/-- The decoder's operations. -/
theorem inv_addCompareSelect {s : State} {c : Cfg} {m : Metrics} {v : Viterbi} (h : Inv s)
    (hv : addCompareSelect c s.vit m = .ok v) : Inv { s with vit := v } := by
  have hz := zero_addCompareSelect hv
  obtain ⟨-, rfl⟩ := addCompareSelect_ok hv
  exact h.withVit (Memory.wf_write _ _ _ h.canonical.hist) h.canonical.dly hz

theorem inv_errorRate {s : State} {c : Cfg} {r1 r2 : Soft} {b : Option Bool} {v : Viterbi}
    (h : Inv s) (hv : errorRate c s.vit r1 r2 b = .ok v) : Inv { s with vit := v } := by
  obtain ⟨-, hpm, hhist, hdly, -, -⟩ := errorRate_ok hv
  refine h.withVit (hhist ▸ h.canonical.hist)
    (hdly ▸ Memory.wf_write _ _ _ h.canonical.dly) ?_
  rw [metric_of_pm_eq hpm]
  exact h.zeroMetric

theorem inv_lockDecision {s : State} (c : Cfg) (h : Inv s) :
    Inv { s with vit := lockDecision c s.vit } := by
  refine h.withVit (by rw [hist_lockDecision]; exact h.canonical.hist)
    (by rw [dly_lockDecision]; exact h.canonical.dly) ?_
  rw [metric_of_pm_eq (pm_lockDecision c s.vit)]
  exact h.zeroMetric

/-- Every operation keeps the invariant. -/
theorem inv_exec {i : Instr} {s t : State} (h : Inv s) (ht : exec i s = .next t) : Inv t := by
  cases i with
  | hostCfgw a d =>
    by_cases hs : s.ctl.seq = .idle
    · rw [exec_hostCfgw_idle a d hs] at ht
      cases ht
      exact h.withCfg (reservedClear_hostWrite h.cfg a d)
    · rw [exec_hostCfgw_notIdle a d hs] at ht
      cases ht
      exact h
  | hostStart =>
    change execHostStart s = _ at ht
    unfold execHostStart at ht
    split at ht <;> cases ht
    · exact h.of_ctl _
    · exact h
  | hostCancel =>
    change execHostCancel s = _ at ht
    unfold execHostCancel at ht
    split at ht <;> cases ht
    · exact h.of_ctl _
    · exact h
  | hostReset =>
    cases ht
    exact inv_resetMachine s
  | srcPush x =>
    cases ht
    exact h.present _
  | srcEos =>
    cases ht
    exact h.present _
  | sinkPop =>
    change execSinkPop s = _ at ht
    unfold execSinkPop at ht
    split at ht <;> cases ht
    · exact h
    · exact h.congr rfl rfl rfl rfl rfl rfl
  | corrScore =>
    obtain ⟨_, -, ht⟩ := (bind_ok_iff _ _ _).1 ((settle_next_iff _ _).1 ht)
    obtain ⟨_, -, ht⟩ := (bind_ok_iff _ _ _).1 ht
    obtain ⟨_, -, ht⟩ := (bind_ok_iff _ _ _).1 ht
    cases ht
    exact h.congr rfl rfl rfl rfl rfl rfl
  | corrSearch | dpPush | vitFlush =>
    obtain ⟨_, -, rfl⟩ := (map_ok_iff _ _ _).1 ((settle_next_iff _ _).1 ht)
    exact h.congr rfl rfl rfl rfl rfl rfl
  | corrApply =>
    cases ht
    exact h.applySearch _ _ _
  | phRot =>
    change execPhRot s = _ at ht
    unfold execPhRot at ht
    split at ht <;> cases ht <;> exact h.congr rfl rfl rfl rfl rfl rfl
  | vitAcs =>
    obtain ⟨v, hv, rfl⟩ := (map_ok_iff _ _ _).1 ((settle_next_iff _ _).1 ht)
    exact inv_addCompareSelect h hv
  | vitBer =>
    obtain ⟨v, hv, rfl⟩ := (map_ok_iff _ _ _).1 ((settle_next_iff _ _).1 ht)
    exact inv_errorRate h hv
  | vitLock =>
    cases ht
    exact inv_lockDecision s.cfg h
  | vitStep =>
    obtain ⟨r, hr, rfl⟩ := (map_ok_iff _ _ _).1 ((settle_next_iff _ _).1 ht)
    exact (h.of_flow (flow_trellisStep hr)).congr rfl rfl rfl rfl rfl rfl
  | vitReset =>
    cases ht
    exact h.withVit h.canonical.hist h.canonical.dly ⟨0, metric_clearViterbi s.vit 0⟩
  | dfPush =>
    obtain ⟨p, hp, rfl⟩ := (map_ok_iff _ _ _).1 ((settle_next_iff _ _).1 ht)
    exact (h.withFrm (wf_pushBit h.canonical.frm hp)).congr rfl rfl rfl rfl rfl rfl
  | drApply =>
    cases ht
    exact h.withFrm (wf_derandomise _ _ h.canonical.frm)
  | rsDeint =>
    obtain ⟨m, hm, rfl⟩ := (map_ok_iff _ _ _).1 ((settle_next_iff _ _).1 ht)
    exact h.withCw (wf_gather h.canonical.cw hm)
  | rsToconv =>
    cases ht
    exact h.withCw (wf_toConventional _ h.canonical.cw)
  | rsDec =>
    cases ht
    exact (h.withCw (wf_correctCw _ _ h.canonical.cw)).congr rfl rfl rfl rfl rfl rfl
  | rsTodual =>
    cases ht
    exact h.withCw (wf_toDual _ h.canonical.cw)
  | rsReint =>
    obtain ⟨m, hm, rfl⟩ := (map_ok_iff _ _ _).1 ((settle_next_iff _ _).1 ht)
    exact h.withFrm (wf_scatter h.canonical.frm hm)
  | rsFrame =>
    have ht := (settle_next_iff _ _).1 ht
    obtain ⟨hf, hc⟩ := wf_decodeFrame h.canonical.frm h.canonical.cw ht
    obtain ⟨l, -, rfl⟩ := decodeFrame_ok ht
    exact ((h.withFrm hf).withCw hc).congr rfl rfl rfl rfl rfl rfl
  | ctlCheck =>
    change execCtlCheck s = _ at ht
    unfold execCtlCheck at ht
    split at ht <;> cases ht
    · exact h.of_ctl _
    · exact h.goto _
  | ctlTop =>
    change execCtlTop s = _ at ht
    unfold execCtlTop at ht
    split at ht <;> cases ht <;> exact h.of_ctl _
  | ctlRead =>
    change execCtlRead s = _ at ht
    unfold execCtlRead at ht
    split at ht
    · cases ht
      exact h
    · exact h.readEntry ((settle_next_iff _ _).1 ht)
  | ctlCorr =>
    change execCtlCorr s = _ at ht
    unfold execCtlCorr at ht
    dsimp only at ht
    split at ht
    · obtain ⟨_, -, rfl⟩ := (map_ok_iff _ _ _).1 ((settle_next_iff _ _).1 ht)
      exact ((h.of_ctl _).applyHit _).goto _
    · cases ht
      exact h.goto _
  | ctlData => exact h.of_settleEmit (fun u hu => inv_dataStep h hu) ht
  | ctlFlush => exact h.of_settleEmit (fun u hu => inv_flushStep h hu) ht
  | ctlBit => exact h.of_settleEmit (fun u hu => h.of_flow (flow_routeBit hu)) ht
  | ctlFrame => exact h.of_settleEmit (fun u hu => h.of_flow (flow_processFrame hu)) ht
  | ctlEmit =>
    change execCtlEmit s = _ at ht
    unfold execCtlEmit at ht
    split at ht <;> cases ht
    · exact h
    · exact h.congr rfl rfl rfl rfl rfl rfl
  | ctlRschk =>
    rw [exec_ctlRschk] at ht
    have hu := h.resyncTested
    split at ht <;> cases ht
    · exact hu.of_ctl _
    · exact hu.goto _
  | ctlResync =>
    cases ht
    exact h.resyncAttempt
  | ctlPublish =>
    cases ht
    exact (h.withHealth (reservedClear_healthRecord s)).goto _
  | ctlClear =>
    cases ht
    exact h.clearDatapath
  | hostRd a =>
    cases ht
    exact h.congr rfl rfl rfl rfl rfl rfl
  | phClamp | phSwap | phPush | phNext | diffDec | ccEnc | ccInv | vitBm | vitTb
  | dfReset | rsSynd | ctlAccept | ctlHalt =>
    cases ht
    exact h.congr rfl rfl rfl rfl rfl rfl

/-! ## Steps -/

theorem inv_fetch {s : State} (h : Inv s) : Inv (fetch s).state := by
  obtain ⟨e, he, -⟩ := fetch_state s
  rw [he]
  exact h.congr rfl rfl rfl rfl rfl rfl

theorem inv_step {s t : State} (h : Inv s) (ht : step s = .next t) : Inv t := by
  have hf := inv_fetch h
  unfold step at ht
  split at ht
  · next u hu =>
    rw [hu] at hf
    cases ht
    exact hf
  · next w u hu =>
    rw [hu] at hf
    split at ht
    · exact inv_exec hf ht
    · cases ht

end Sys2Proof.Machine

namespace Sys2Proof
open Sys2Proof.Machine

/-- Settles O8: every operation keeps the invariant, and a fetch touches the surroundings only. -/
theorem everyStepKeepsInvariant : Obligations.EveryStepKeepsInvariant :=
  fun _ _ h ht => inv_step h ht

end Sys2Proof
end

section
/-! SUPPORT. The invariant of a run (RunInv): every operation of the four agents completes and keeps
it, and where it leaves the sequencer (47_pipeline_controller R335). -/

namespace Sys2Proof.Machine

/-! ## The invariant by its parts -/

section
variable {s t : State}

/-- Nothing of the configuration, the controller, IN or the surroundings is a working register. -/
theorem Untouched.rest (h : Untouched s) (c : Cfg) (k : Ctl) (q : List SymWord) (e : Env) :
    Untouched { s with cfg := c, ctl := k, inq := q, env := e } :=
  ⟨h.health, h.ph, h.dp, h.vit, h.df, h.hRs, h.sym, h.frm, h.cw, h.outq⟩

theorem Clamped.rest (h : Clamped s) (c : Cfg) (k : Ctl) (q : List SymWord) (o : List Frame)
    (e : Env) : Clamped { s with cfg := c, ctl := k, inq := q, outq := o, env := e } :=
  ⟨h.sym, h.hold, h.first⟩

/-- `RunInv` reads the surroundings' turns only. -/
theorem RunInv.withEnv (h : RunInv s) {e : Env} (he : ∀ x ∈ e.turns, x ∈ s.env.turns) :
    RunInv { s with env := e } where
  agents w hw := h.agents w (he _ hw)
  clamped := h.clamped.rest _ _ _ _ _
  untouched hq := ⟨(h.untouched hq).1.rest _ _ _ _, (h.untouched hq).2⟩
  idle := h.idle
  acq := h.acq
  noError := h.noError
  legal hq := ⟨(h.legal hq).1, (h.legal hq).2.of_eq rfl rfl rfl rfl rfl rfl⟩
  batch := ⟨h.batch.read, h.batch.corr, h.batch.data⟩

theorem RunInv.configLegal (h : RunInv s) (hq : s.ctl.seq.working = true) : s.cfg.Legal :=
  legal_of_configError (h.legal hq).1

/-- A working state of the loop from what the loop needs. -/
theorem runInv_of_working (hq : s.ctl.seq.working = true) (hagents : AgentTurns s)
    (hclamped : Clamped s) (hacq : s.ctl.acqPending = true → s.cfg.useCorr = true)
    (herr : s.ctl.errCode = 0 ∧ s.ctl.errInfo = 0) (hcfg : configError s.cfg = none)
    (hbounds : Bounds s) (hbatch : BatchInv s) : RunInv s where
  agents := hagents
  clamped := hclamped
  untouched h := by rcases h with h | h | h <;> rw [h] at hq <;> cases hq
  idle h := by rw [h] at hq; cases hq
  acq _ := hacq
  noError _ := herr
  legal _ := ⟨hcfg, hbounds⟩
  batch := hbatch

/-- Where no batch is being read, searched or used up, its counters may hold anything. -/
theorem batchInv_of_seq (q : Seq) (hs : s.ctl.seq = q)
    (hq : q ≠ .read ∧ q ≠ .corr ∧ q ≠ .data) : BatchInv s :=
  ⟨fun h => absurd (hs.symm.trans h) hq.1, fun h => absurd (hs.symm.trans h) hq.2.1,
    fun h => absurd (hs.symm.trans h) hq.2.2⟩

theorem RunInv.acqUse (h : RunInv s) (hq : s.ctl.seq.working = true) :
    s.ctl.acqPending = true → s.cfg.useCorr = true :=
  h.acq fun he => by rw [he] at hq; cases hq

theorem RunInv.errClear (h : RunInv s) (hq : s.ctl.seq.working = true) :
    s.ctl.errCode = 0 ∧ s.ctl.errInfo = 0 :=
  h.noError fun he => by rw [he] at hq; cases hq

/-! ## Reset and the host -/

theorem runInv_reset {e : Env} (he : ∀ w, Turn.op w ∉ e.turns) :
    RunInv { State.reset with env := e } where
  agents := he
  clamped := ⟨fun e he => (by cases he), (by decide : (0#8 : Soft) ≠ 0x80#8),
    (by decide : (0#8 : Soft) ≠ 0x80#8)⟩
  untouched _ := ⟨⟨rfl, rfl, rfl, rfl, rfl, rfl, rfl, rfl, rfl, rfl⟩, rfl⟩
  idle _ := rfl
  acq h := absurd rfl h
  noError _ := ⟨rfl, rfl⟩
  legal h := by cases h
  batch := batchInv_of_seq .idle rfl (by decide)

/-- A write in IDLE: nothing but the configuration changes, and nothing there reads it. -/
theorem RunInv.hostWrite (h : RunInv s) (hs : s.ctl.seq = .idle) (c : Cfg) :
    RunInv { s with cfg := c } where
  agents := h.agents
  clamped := h.clamped.rest _ _ _ _ _
  untouched hq := ⟨(h.untouched hq).1.rest _ _ _ _, (h.untouched hq).2⟩
  idle := h.idle
  acq hq := absurd hs hq
  noError := h.noError
  legal hq := by
    have hq : s.ctl.seq.working = true := hq
    rw [hs] at hq
    cases hq
  batch := batchInv_of_seq .idle hs (by decide)

/-- START in IDLE (R331). -/
theorem RunInv.start (h : RunInv s) (hs : s.ctl.seq = .idle) :
    RunInv { s with ctl := { s.ctl with acqPending := s.cfg.useCorr, seq := .check } } where
  agents := h.agents
  clamped := h.clamped.rest _ _ _ _ _
  untouched _ := by
    refine ⟨(h.untouched (.inl hs)).1.rest _ _ _ _, ?_⟩
    rw [h.idle hs]
    rfl
  idle h := by cases h
  acq _ := id
  noError _ := h.noError (by rw [hs]; decide)
  legal h := by cases h
  batch := batchInv_of_seq .check rfl (by decide)

/-- CANCEL while RUNNING (R332). -/
theorem RunInv.cancel (h : RunInv s) (hs : s.mode = .running) :
    RunInv { s with ctl := { s.ctl with cancelReq := true } } where
  agents := h.agents
  clamped := h.clamped.rest _ _ _ _ _
  untouched hq := by
    obtain ⟨hu, hc⟩ := h.untouched hq
    refine ⟨hu.rest _ _ _ _, ?_⟩
    unfold Ctl.early at hc ⊢
    rw [hc]
  idle hq := by
    have hq : s.ctl.seq = .idle := hq
    rw [State.mode, hq] at hs
    cases hs
  acq := h.acq
  noError := h.noError
  legal hq := ⟨(h.legal hq).1, (h.legal hq).2.of_eq rfl rfl rfl rfl rfl rfl⟩
  batch := ⟨h.batch.read, h.batch.corr, h.batch.data⟩

/-- Entries of IN are nowhere in the invariant. -/
theorem RunInv.withInq (h : RunInv s) (q : List SymWord) : RunInv { s with inq := q } where
  agents := h.agents
  clamped := h.clamped.rest _ _ _ _ _
  untouched hq := ⟨(h.untouched hq).1.rest _ _ _ _, (h.untouched hq).2⟩
  idle := h.idle
  acq := h.acq
  noError := h.noError
  legal hq := ⟨(h.legal hq).1, (h.legal hq).2.of_eq rfl rfl rfl rfl rfl rfl⟩
  batch := ⟨h.batch.read, h.batch.corr, h.batch.data⟩

theorem RunInv.present (h : RunInv s) (w : SymWord) : RunInv (present s w) := by
  unfold Machine.present
  split
  · exact h.withEnv fun _ => id
  · exact h.withInq _

/-- The sink's pop: where a frame waits, the loop has begun. -/
theorem RunInv.pop (h : RunInv s) {f : Frame} {r : List Frame} (hout : s.outq = f :: r) (e : Env)
    (he : ∀ x ∈ e.turns, x ∈ s.env.turns) : RunInv { s with outq := r, env := e } where
  agents w hw := h.agents w (he _ hw)
  clamped := h.clamped.rest _ _ _ _ _
  untouched hq := by
    have hnil := (h.untouched hq).1.outq
    rw [hout] at hnil
    cases hnil
  idle := h.idle
  acq := h.acq
  noError := h.noError
  legal hq := ⟨(h.legal hq).1, (h.legal hq).2.of_eq rfl rfl rfl rfl rfl rfl⟩
  batch := ⟨h.batch.read, h.batch.corr, h.batch.data⟩

theorem runInv_hostBus (h : RunInv s) (w : BusWord) :
    ∃ t, exec (decodeBus w) s = .next t ∧ RunInv t := by
  have hcases : (∃ a d, decodeBus w = .hostCfgw a d) ∨ (∃ a, decodeBus w = .hostRd a) ∨
      decodeBus w = .hostStart ∨ decodeBus w = .hostCancel ∨ decodeBus w = .hostReset := by
    unfold decodeBus
    split
    · split
      · exact .inr (.inr (.inl rfl))
      split
      · exact .inr (.inr (.inr (.inl rfl)))
      split
      · exact .inr (.inr (.inr (.inr rfl)))
      · exact .inl ⟨_, _, rfl⟩
    · exact .inr (.inl ⟨_, rfl⟩)
  rcases hcases with ⟨a, d, hw⟩ | ⟨a, hw⟩ | hw | hw | hw <;> rw [hw]
  · by_cases hs : s.ctl.seq = .idle
    · exact ⟨_, exec_hostCfgw_idle a d hs, h.hostWrite hs _⟩
    · exact ⟨s, exec_hostCfgw_notIdle a d hs, h⟩
  · exact ⟨_, rfl, h.withEnv fun _ => id⟩
  · by_cases hs : s.mode = .idle
    · exact ⟨_, if_pos hs, h.start ((mode_eq_idle_iff s).1 hs)⟩
    · exact ⟨s, if_neg hs, h⟩
  · by_cases hs : s.mode = .running
    · exact ⟨_, if_pos hs, h.cancel hs⟩
    · exact ⟨s, if_neg hs, h⟩
  · exact ⟨_, rfl, runInv_reset h.agents⟩

theorem runInv_srcSym (h : RunInv s) (w : SymWord) :
    ∃ t, exec (decodeSym w) s = .next t ∧ RunInv t := by
  unfold decodeSym
  split
  · exact ⟨_, rfl, h.present _⟩
  · exact ⟨_, rfl, h.present _⟩

theorem runInv_sinkPop (h : RunInv s) : ∃ t, exec .sinkPop s = .next t ∧ RunInv t := by
  show ∃ t, execSinkPop s = .next t ∧ RunInv t
  unfold execSinkPop
  split
  · exact ⟨s, rfl, h⟩
  · next f r hout => exact ⟨_, rfl, h.pop hout _ fun _ => id⟩

/-! ## The core's steps -/

/-- The datapath as reset leaves it is in its ranges. -/
theorem bounds_of_untouched (hu : Untouched s) (hf : s.ctl.flI = 0) (hc : s.cfg.Legal) :
    Bounds s := by
  obtain ⟨p, hp, hpos⟩ := puncture_total hc.rate
  refine ⟨?_, ⟨p, hp, ?_⟩, ?_, ?_, ?_⟩
  · rw [hu.ph]
    exact s.cfg.nhyp_pos
  · rw [hu.dp]
    exact hpos
  · rw [hu.vit]
    exact .of_clear hc rfl rfl rfl rfl rfl rfl (metric_clearViterbi Viterbi.reset)
  · rw [hu.df]
    exact .of_clear hc
  · rw [hf]
    exact Nat.zero_le _

/-- In ERROR the registers stand as they stood in S_CHECK (R386). -/
theorem RunInv.raise (h : RunInv s) (hs : s.ctl.seq = .check) (code info : BitVec 8) :
    RunInv (raiseConfigError code info s) where
  agents := h.agents
  clamped := h.clamped.rest _ _ _ _ _
  untouched _ := by
    obtain ⟨hu, hc⟩ := h.untouched (.inr (.inl hs))
    refine ⟨hu.rest _ _ _ _, ?_⟩
    unfold Ctl.early raiseConfigError at *
    dsimp only
    rw [hc]
  idle h := by cases h
  acq _ := h.acq (by rw [hs]; decide)
  noError h := absurd rfl h
  legal h := by cases h
  batch := batchInv_of_seq .error rfl (by decide)

theorem runInv_check (h : RunInv s) (hs : s.ctl.seq = .check) :
    ∃ t, exec .ctlCheck s = .next t ∧ RunInv t ∧
      t.ctl.seq = if configError s.cfg = none then .top else .error := by
  cases hcfg : configError s.cfg with
  | none =>
    obtain ⟨hu, hearly⟩ := h.untouched (.inr (.inl hs))
    have hfl : s.ctl.flI = 0 := by rw [hearly]; rfl
    have hb := bounds_of_untouched hu hfl (legal_of_configError hcfg)
    exact ⟨_, exec_ctlCheck_of_none hcfg, runInv_of_working rfl h.agents
      (h.clamped.rest _ _ _ _ _) (h.acq (by rw [hs]; decide)) (h.noError (by rw [hs]; decide)) hcfg
      (hb.of_eq rfl rfl rfl rfl rfl rfl) (batchInv_of_seq .top rfl (by decide)), (if_pos rfl).symm⟩
  | some e =>
    exact ⟨_, exec_ctlCheck_of_some hcfg, h.raise hs _ _, (if_neg (Option.some_ne_none e)).symm⟩

theorem runInv_top (h : RunInv s) (hs : s.ctl.seq = .top) :
    ∃ t, exec .ctlTop s = .next t ∧ RunInv t ∧
      if s.ctl.cancelReq then t.ctl.seq = .publish ∧ t.ctl.finalRun = true
      else t.ctl.seq = .read := by
  have hw : s.ctl.seq.working = true := by rw [hs]; rfl
  obtain ⟨hcfg, hb⟩ := h.legal hw
  show ∃ t, execCtlTop s = .next t ∧ _
  unfold execCtlTop
  split
  · exact ⟨_, rfl, runInv_of_working rfl h.agents
      (h.clamped.rest _ _ _ _ _) (h.acqUse hw) (h.errClear hw) hcfg
      (hb.of_eq rfl rfl rfl rfl rfl rfl)
      (batchInv_of_seq .publish rfl (by decide)), rfl, rfl⟩
  · exact ⟨_, rfl, runInv_of_working rfl h.agents
      (h.clamped.rest _ _ _ _ _) (h.acqUse hw) (h.errClear hw) hcfg
      (hb.of_eq rfl rfl rfl rfl rfl rfl)
      ⟨fun _ => ⟨(h.configLegal hw).batch, rfl⟩, fun e => (by cases e), fun e => (by cases e)⟩, rfl⟩

/-- What CTL.READ does with an entry of a batch not yet full (R337). -/
theorem readEntry_ok (e : SymWord) (r : List SymWord) (hn : s.ctl.symN.toNat < s.cfg.batchLen) :
    readEntry s e r = .ok
      (if e.getLsbD 8 then
        { s with inq := r, ctl := { s.ctl with eosSeen := true, seq := .corr } }
      else { s with
        inq := r
        sym := s.sym.write s.ctl.symN.toNat (clampSoft (e.extractLsb' 0 8))
        ctl := { s.ctl with
          symN := s.ctl.symN + 1
          seq := if s.ctl.symN.toNat + 1 = s.cfg.batchLen then .corr else s.ctl.seq } }) := by
  have hlt : s.cfg.batchLen < 2 ^ 16 := field_lt _ _ _
  have hadd : (s.ctl.symN + 1).toNat = s.ctl.symN.toNat + 1 :=
    BitVec.toNat_add_of_lt (show s.ctl.symN.toNat + 1 < 2 ^ 16 by omega)
  unfold readEntry
  split
  · rfl
  · rw [within_ok hn, ok_map]
    dsimp only
    rw [hadd]
    split <;> rfl

theorem exec_ctlRead_cons {e : SymWord} {r : List SymWord} (h : s.inq = e :: r) :
    exec .ctlRead s = settle (readEntry s e r) := by
  show execCtlRead s = _
  unfold execCtlRead
  rw [h]

theorem runInv_read (h : RunInv s) (hs : s.ctl.seq = .read) :
    ∃ t, exec .ctlRead s = .next t ∧ RunInv t ∧
      match s.inq with
      | [] => t.ctl.seq = .read
      | e :: _ =>
        t.ctl.seq =
          if e.getLsbD 8 ∨ s.ctl.symN.toNat + 1 = s.cfg.batchLen then .corr else .read := by
  have hw : s.ctl.seq.working = true := by rw [hs]; rfl
  obtain ⟨hcfg, hb⟩ := h.legal hw
  obtain ⟨hn, hi⟩ := h.batch.read hs
  have hlt : s.cfg.batchLen < 2 ^ 16 := field_lt _ _ _
  have hadd : (s.ctl.symN + 1).toNat = s.ctl.symN.toNat + 1 :=
    BitVec.toNat_add_of_lt (show s.ctl.symN.toNat + 1 < 2 ^ 16 by omega)
  cases hin : s.inq with
  | nil => exact ⟨s, exec_ctlRead_nil hin, h, hs⟩
  | cons e r =>
    show ∃ t, exec .ctlRead s = .next t ∧ RunInv t ∧ t.ctl.seq = _
    rw [exec_ctlRead_cons hin, readEntry_ok e r hn]
    cases e.getLsbD 8 with
    | true =>
      exact ⟨_, rfl, runInv_of_working rfl h.agents (h.clamped.rest _ _ _ _ _) (h.acqUse hw)
        (h.errClear hw) hcfg (hb.of_eq rfl rfl rfl rfl rfl rfl)
        ⟨fun e => (by cases e), fun _ => ⟨hn.le, hi⟩, fun e => (by cases e)⟩,
        (if_pos (.inl rfl)).symm⟩
    | false =>
      refine ⟨_, rfl, runInv_of_working ?_ h.agents
        ⟨Memory.write_clamped h.clamped.sym _ _, h.clamped.hold, h.clamped.first⟩ (h.acqUse hw)
        (h.errClear hw) hcfg (hb.of_eq rfl rfl rfl rfl rfl rfl) ⟨fun hq => ⟨?_, hi⟩,
          fun hq => ⟨?_, hi⟩, fun hq => ?_⟩, ?_⟩
      · show Seq.working (if _ then _ else _) = true
        split
        · rfl
        · exact hw
      · have hq : (if _ then _ else _) = Seq.read := hq
        show (s.ctl.symN + 1).toNat < s.cfg.batchLen
        split at hq
        · cases hq
        · omega
      · show (s.ctl.symN + 1).toNat ≤ s.cfg.batchLen
        omega
      · have hq : (if _ then _ else _) = Seq.data := hq
        split at hq
        · cases hq
        · rw [hs] at hq
          cases hq
      · simp [hs]

/-! ### The correlator's step -/

/-- CORR.APPLY on a search's result, in a run. -/
theorem applyHit_keeps (hc : s.cfg.Legal) (hb : Bounds s) (hcl : Clamped s) {x : Option Hit}
    (hx : ∀ y, x = some y → y.ph.toNat < s.cfg.nph) :
    (applyHit s x).cfg = s.cfg ∧ (applyHit s x).env = s.env ∧
      (∃ n, (applyHit s x).ctl = { s.ctl with unsyncBits := n }) ∧ Bounds (applyHit s x) ∧
      Clamped (applyHit s x) := by
  cases x with
  | none =>
    obtain ⟨h1, h2, h3⟩ := applySearch_keeps s false 0 0
    exact ⟨h1, h2, h3, applySearch_bounds hc hb false 0 (fun e => by cases e),
      applySearch_clamped hcl _ _ _⟩
  | some y =>
    obtain ⟨h1, h2, h3⟩ := applySearch_keeps s true y.ph y.off
    exact ⟨h1, h2, h3, applySearch_bounds hc hb true y.off (fun _ => hx y rfl),
      applySearch_clamped hcl _ _ _⟩

theorem exec_ctlCorr_idle (h : s.ctl.acqPending = false) :
    exec .ctlCorr s = .next (s.goto (if s.ctl.symN = 0 then .resync else .data)) := by
  show execCtlCorr s = _
  unfold execCtlCorr
  rw [h]
  rfl

theorem exec_ctlCorr_pending (h : s.ctl.acqPending = true) (hb : searchBounds s = .ok ()) :
    exec .ctlCorr s = .next
      ((applyHit { s with ctl := { s.ctl with acqPending := false } } (search s)).goto
        (if s.ctl.symN = 0 then .resync else .data)) := by
  show execCtlCorr s = _
  unfold execCtlCorr
  dsimp only
  rw [if_pos h, hb]
  rfl

/-- After the correlator's step a batch that is not empty begins to be used up. -/
theorem runInv_afterCorr {q : Seq}
    (hn : s.ctl.symN.toNat ≤ s.cfg.batchLen ∧ s.ctl.symI = 0)
    (hq : q = if s.ctl.symN = 0 then .resync else .data) (hagents : AgentTurns s)
    (hcl : Clamped s) (hacq : s.ctl.acqPending = true → s.cfg.useCorr = true)
    (herr : s.ctl.errCode = 0 ∧ s.ctl.errInfo = 0) (hcfg : configError s.cfg = none)
    (hb : Bounds s) : RunInv (s.goto q) := by
  refine runInv_of_working ?_ hagents (hcl.rest _ _ _ _ _) hacq herr hcfg
    (hb.of_eq rfl rfl rfl rfl rfl rfl) ⟨fun e => ?_, fun e => ?_, fun e => ⟨?_, hn.1⟩⟩
  · rw [State.goto_ctl_seq, hq]
    split <;> rfl
  · rw [State.goto_ctl_seq, hq] at e
    split at e <;> cases e
  · rw [State.goto_ctl_seq, hq] at e
    split at e <;> cases e
  · rw [State.goto_ctl_seq, hq] at e
    split at e
    · cases e
    · next h0 =>
      rw [State.goto_ctl_symI, State.goto_ctl_symN, hn.2]
      exact Nat.pos_of_ne_zero fun hz => h0 (BitVec.eq_of_toNat_eq hz)

theorem runInv_corr (h : RunInv s) (hs : s.ctl.seq = .corr) :
    ∃ t, exec .ctlCorr s = .next t ∧ RunInv t ∧
      t.ctl.seq = if s.ctl.symN.toNat > 0 then .data else .resync := by
  have hw : s.ctl.seq.working = true := by rw [hs]; rfl
  obtain ⟨hcfg, hb⟩ := h.legal hw
  have hc := h.configLegal hw
  have hn := h.batch.corr hs
  have hseq : (if s.ctl.symN = 0 then Seq.resync else .data) =
      if s.ctl.symN.toNat > 0 then .data else .resync := by
    have hzero : s.ctl.symN = 0 ↔ ¬ s.ctl.symN.toNat > 0 := by
      rw [← BitVec.toNat_inj]
      show s.ctl.symN.toNat = 0 ↔ _
      omega
    simp only [hzero, ite_not]
  cases hp : s.ctl.acqPending with
  | false =>
    exact ⟨_, exec_ctlCorr_idle hp, runInv_afterCorr hn rfl h.agents h.clamped (h.acqUse hw)
      (h.errClear hw) hcfg hb, hseq⟩
  | true =>
    have hsb := searchBounds_total hc (h.acqUse hw hp) hn.1
    have hbp : Bounds { s with ctl := { s.ctl with acqPending := false } } :=
      hb.of_eq rfl rfl rfl rfl rfl rfl
    obtain ⟨hcfg', henv, ⟨n, hctl⟩, hb', hcl'⟩ :=
      applyHit_keeps (s := { s with ctl := { s.ctl with acqPending := false } }) (x := search s)
        hc hbp (h.clamped.rest _ _ _ _ _) fun y hy => search_ph hy
    refine ⟨_, exec_ctlCorr_pending hp hsb, runInv_afterCorr ?_ ?_ ?_ hcl' ?_ ?_ ?_ hb', hseq⟩
    · rw [hctl, hcfg']
      exact hn
    · rw [hctl]
    · unfold AgentTurns
      rw [henv]
      exact h.agents
    · rw [hctl]
      exact fun e => by cases e
    · rw [hctl]
      exact h.errClear hw
    · rw [hcfg']
      exact hcfg

/-! ### The data step -/

theorem runInv_data (h : RunInv s) (hs : s.ctl.seq = .data) :
    ∃ t, dataStep s = .ok t ∧ RunInv t ∧ t.ctl.symN = s.ctl.symN ∧
      t.ctl.symI = s.ctl.symI + 1 ∧
      t.ctl.seq = if t.ctl.symI = t.ctl.symN then .resync else .data := by
  have hw : s.ctl.seq.working = true := by rw [hs]; rfl
  obtain ⟨hcfg, hb⟩ := h.legal hw
  obtain ⟨hi, hn⟩ := h.batch.data hs
  obtain ⟨t, ht, hcfg', -, -, -, henv, hb', hcl', hctl⟩ :=
    dataStep_spec (h.configLegal hw) hb h.clamped (by omega)
  have hseq : t.ctl.seq = if s.ctl.symI + 1 = s.ctl.symN then .resync else .data := by
    rw [hctl, hs]
  have hN : t.ctl.symN = s.ctl.symN := by rw [hctl]
  have hI : t.ctl.symI = s.ctl.symI + 1 := by rw [hctl]
  have hadd : (s.ctl.symI + 1).toNat = s.ctl.symI.toNat + 1 :=
    BitVec.toNat_add_of_lt (show s.ctl.symI.toNat + 1 < 2 ^ 16 by omega)
  refine ⟨t, ht, runInv_of_working ?_ ?_ hcl' ?_ ?_ (hcfg'.symm ▸ hcfg) hb'
    ⟨fun e => ?_, fun e => ?_, fun e => ?_⟩, hN, hI, by rw [hseq, hI, hN]⟩
  · rw [hseq]
    split <;> rfl
  · unfold AgentTurns
    rw [henv]
    exact h.agents
  · rw [hctl, hcfg']
    exact h.acqUse hw
  · rw [hctl]
    exact h.errClear hw
  · rw [hseq] at e
    split at e <;> cases e
  · rw [hseq] at e
    split at e <;> cases e
  · rw [hseq] at e
    rw [hI, hN, hcfg']
    split at e
    · cases e
    · next hne =>
      have : s.ctl.symI.toNat + 1 ≠ s.ctl.symN.toNat := fun heq =>
        hne (BitVec.eq_of_toNat_eq (hadd.trans heq))
      omega

/-! ### The end of the cycle -/

theorem resyncAttempt_keeps (hc : s.cfg.Legal) (hb : Bounds s) (hcl : Clamped s)
    (hacq : s.ctl.acqPending = true → s.cfg.useCorr = true) :
    (resyncAttempt s).cfg = s.cfg ∧ (resyncAttempt s).env = s.env ∧
      (∃ a, (resyncAttempt s).ctl = { s.ctl with unsyncBits := 0, acqPending := a } ∧
        (a = true → s.cfg.useCorr = true)) ∧
      Bounds (resyncAttempt s) ∧ Clamped (resyncAttempt s) := by
  unfold resyncAttempt
  split
  · next hu =>
    exact ⟨rfl, rfl, ⟨true, rfl, fun _ => hu⟩, hb.of_eq rfl rfl rfl rfl rfl rfl,
      hcl.rest _ _ _ _ _⟩
  · exact ⟨rfl, rfl, ⟨s.ctl.acqPending, rfl, hacq⟩,
      clearDatapath_bounds (s := { s with ph := nextHyp s.cfg s.ph }) hc (nextHyp_hyp _ _) hb.flI,
      clearDatapath_clamped (s := { s with ph := nextHyp s.cfg s.ph })
        ⟨hcl.sym, hcl.hold, hcl.first⟩⟩

theorem resyncTested_keeps (hc : s.cfg.Legal) (hb : Bounds s) (hcl : Clamped s)
    (hacq : s.ctl.acqPending = true → s.cfg.useCorr = true) :
    (resyncTested s).cfg = s.cfg ∧ (resyncTested s).env = s.env ∧
      (∃ n a, (resyncTested s).ctl = { s.ctl with unsyncBits := n, acqPending := a } ∧
        (a = true → s.cfg.useCorr = true)) ∧
      Bounds (resyncTested s) ∧ Clamped (resyncTested s) := by
  unfold resyncTested
  split
  · obtain ⟨h1, h2, ⟨a, h3⟩, h4⟩ := resyncAttempt_keeps hc hb hcl hacq
    exact ⟨h1, h2, ⟨0, a, h3⟩, h4⟩
  · exact ⟨rfl, rfl, ⟨s.ctl.unsyncBits, s.ctl.acqPending, rfl, hacq⟩, hb, hcl⟩

theorem runInv_resync (h : RunInv s) (hs : s.ctl.seq = .resync) :
    ∃ t, exec .ctlRschk s = .next t ∧ RunInv t ∧
      t.ctl.seq = if s.ctl.eosSeen then .flush else .publish := by
  have hw : s.ctl.seq.working = true := by rw [hs]; rfl
  obtain ⟨hcfg, hb⟩ := h.legal hw
  obtain ⟨h1, h2, ⟨n, a, h3, ha⟩, h4, h5⟩ :=
    resyncTested_keeps (h.configLegal hw) hb h.clamped (h.acqUse hw)
  have hagents : AgentTurns (resyncTested s) := by
    unfold AgentTurns
    rw [h2]
    exact h.agents
  have hacq : (resyncTested s).ctl.acqPending = true → (resyncTested s).cfg.useCorr = true := by
    rw [h3, h1]
    exact ha
  have herr : (resyncTested s).ctl.errCode = 0 ∧ (resyncTested s).ctl.errInfo = 0 := by
    rw [h3]
    exact h.errClear hw
  have heos : (resyncTested s).ctl.eosSeen = s.ctl.eosSeen := by rw [h3]
  rw [exec_ctlRschk, heos]
  cases s.ctl.eosSeen with
  | true =>
    exact ⟨_, rfl, runInv_of_working rfl hagents (h5.rest _ _ _ _ _) hacq herr (h1.symm ▸ hcfg)
      ⟨h4.hyp, h4.dpK, h4.vit, h4.df, Nat.zero_le _⟩ (batchInv_of_seq .flush rfl (by decide)), rfl⟩
  | false =>
    exact ⟨_, rfl, runInv_of_working rfl hagents (h5.rest _ _ _ _ _) hacq herr (h1.symm ▸ hcfg)
      (h4.of_eq rfl rfl rfl rfl rfl rfl) (batchInv_of_seq .publish rfl (by decide)), rfl⟩

theorem exec_vitFlush {l : List Bool} (hl : flushList s.cfg s.vit = .ok l) :
    exec .vitFlush s = .next (s.setRes (.bits l)) := by
  show execVitFlush s = _
  unfold execVitFlush
  rw [hl, ok_map]
  rfl

/-- A held bit is routed and counted (R348). -/
theorem flushStep_held {l : List Bool} {b : Bool} (hl : flushList s.cfg s.vit = .ok l)
    (hb : l[s.ctl.flI.toNat]? = some b) :
    flushStep s =
      (routeBit s b).map fun t => { t with ctl := { t.ctl with flI := t.ctl.flI + 1 } } := by
  unfold flushStep
  rw [hl, ok_bind, hb]
  rfl

/-- With all bits routed the last publish is next (R348). -/
theorem flushStep_done {l : List Bool} (hl : flushList s.cfg s.vit = .ok l)
    (hn : l.length ≤ s.ctl.flI.toNat) :
    flushStep s = .ok { s with ctl := { s.ctl with finalRun := true, seq := .publish } } := by
  unfold flushStep
  rw [hl, ok_bind, List.getElem?_eq_none hn]
  rfl

/-- The flush goes on while bits are held, and ends with the last publish. -/
theorem flush_successor {l : List Bool} {t : State} (hs : s.ctl.seq = .flush)
    (hl : flushList s.cfg s.vit = .ok l) (ht : exec .ctlFlush s = .next t) :
    if s.ctl.flI.toNat < l.length then t.ctl.seq = .flush
    else t.ctl.seq = .publish ∧ t.ctl.finalRun = true := by
  rw [exec_ctlFlush] at ht
  split
  · next hlt =>
    obtain ⟨u, hu, ⟨-, -, rfl⟩ | ⟨-, rfl⟩⟩ := (settleEmit_next_iff s _ t).1 ht
    · exact hs
    · rw [flushStep_held hl (List.getElem?_eq_getElem hlt)] at hu
      obtain ⟨v, hv, rfl⟩ := (map_ok_iff _ _ _).1 hu
      obtain ⟨k, -⟩ := routeBit_kept hv
      show v.ctl.seq = .flush
      rw [k.ctl]
      exact hs
  · next hge =>
    have hdone := flushStep_done hl (Nat.le_of_not_lt hge)
    cases (settleEmit_done (s := s) hdone (.inl rfl)).symm.trans ht
    exact ⟨rfl, rfl⟩

theorem runInv_flush (h : RunInv s) (hs : s.ctl.seq = .flush) :
    ∃ t, flushStep s = .ok t ∧ RunInv t := by
  have hw : s.ctl.seq.working = true := by rw [hs]; rfl
  obtain ⟨hcfg, hb⟩ := h.legal hw
  obtain ⟨t, ht, h1, -, -, -, h2, hb', hcl', hctl⟩ :=
    flushStep_spec (h.configLegal hw) hb h.clamped
  have hagents : AgentTurns t := by
    unfold AgentTurns
    rw [h2]
    exact h.agents
  refine ⟨t, ht, ?_⟩
  rcases hctl with hctl | rfl
  · refine runInv_of_working ?_ hagents hcl' ?_ ?_ (h1.symm ▸ hcfg) hb'
      (batchInv_of_seq .flush ?_ (by decide))
    all_goals rw [hctl]
    · exact hw
    · rw [h1]
      exact h.acqUse hw
    · exact h.errClear hw
    · exact hs
  · exact runInv_of_working rfl hagents hcl' (h.acqUse hw) (h.errClear hw) hcfg hb'
      (batchInv_of_seq .publish rfl (by decide))

theorem runInv_publish (h : RunInv s) (hs : s.ctl.seq = .publish) :
    ∃ t, exec .ctlPublish s = .next t ∧ RunInv t ∧
      t.ctl.seq = if s.ctl.finalRun then .done else .top := by
  have hw : s.ctl.seq.working = true := by rw [hs]; rfl
  obtain ⟨hcfg, hb⟩ := h.legal hw
  rw [exec_ctlPublish]
  cases s.ctl.finalRun with
  | true =>
    exact ⟨_, rfl, ⟨h.agents, ⟨h.clamped.sym, h.clamped.hold, h.clamped.first⟩,
      fun e => (by rcases e with e | e | e <;> cases e), fun e => (by cases e),
      fun _ => h.acqUse hw, fun _ => h.errClear hw, fun e => (by cases e),
      batchInv_of_seq .done rfl (by decide)⟩, rfl⟩
  | false =>
    exact ⟨_, rfl, runInv_of_working rfl h.agents ⟨h.clamped.sym, h.clamped.hold, h.clamped.first⟩
      (h.acqUse hw) (h.errClear hw) hcfg (hb.of_eq rfl rfl rfl rfl rfl rfl)
      (batchInv_of_seq .top rfl (by decide)), rfl⟩

/-! ## Every step of a run -/

/-- A step that waits leaves a state with the invariant as it is. -/
theorem runInv_settleEmit {r : Except Fault State} (h : RunInv s)
    (hr : ∃ t, r = .ok t ∧ RunInv t) : ∃ t, settleEmit s r = .next t ∧ RunInv t := by
  obtain ⟨t, rfl, ht⟩ := hr
  unfold settleEmit
  dsimp only
  split
  · exact ⟨s, rfl, h⟩
  · exact ⟨t, rfl, ht⟩

theorem runInv_coreStep (h : RunInv s) : ∃ t, coreStep s = .next t ∧ RunInv t := by
  unfold coreStep
  cases hs : s.ctl.seq with
  | idle | done | error => exact ⟨s, rfl, h⟩
  | check =>
    obtain ⟨t, ht, hi, -⟩ := runInv_check h hs
    exact ⟨t, ht, hi⟩
  | top =>
    obtain ⟨t, ht, hi, -⟩ := runInv_top h hs
    exact ⟨t, ht, hi⟩
  | read =>
    obtain ⟨t, ht, hi, -⟩ := runInv_read h hs
    exact ⟨t, ht, hi⟩
  | corr =>
    obtain ⟨t, ht, hi, -⟩ := runInv_corr h hs
    exact ⟨t, ht, hi⟩
  | data =>
    obtain ⟨t, ht, hi, -⟩ := runInv_data h hs
    exact runInv_settleEmit h ⟨t, ht, hi⟩
  | resync =>
    obtain ⟨t, ht, hi, -⟩ := runInv_resync h hs
    exact ⟨t, ht, hi⟩
  | flush => exact runInv_settleEmit h (runInv_flush h hs)
  | publish =>
    obtain ⟨t, ht, hi, -⟩ := runInv_publish h hs
    exact ⟨t, ht, hi⟩

theorem runInv_step (h : RunInv s) : ∃ t, step s = .next t ∧ RunInv t := by
  cases hturns : s.env.turns with
  | nil =>
    rw [step_of_noTurns hturns]
    exact runInv_coreStep h
  | cons x r =>
    have hsub : ∀ y ∈ r, y ∈ s.env.turns := fun y hy => hturns ▸ List.mem_cons_of_mem _ hy
    cases x with
    | core =>
      rw [step_of_fetchCore (fetch_of_core hturns)]
      exact runInv_coreStep (h.withEnv hsub)
    | host =>
      cases hq : s.env.hostQ with
      | nil => exact ⟨_, step_of_nothing (fetch_of_host_nil hturns hq), h.withEnv hsub⟩
      | cons w q =>
        rw [step_of_word (fetch_of_host hturns hq) rfl]
        exact runInv_hostBus (h.withEnv hsub) w
    | source =>
      cases hq : s.env.srcQ with
      | nil => exact ⟨_, step_of_nothing (fetch_of_source_nil hturns hq), h.withEnv hsub⟩
      | cons w q =>
        rw [step_of_word (fetch_of_source hturns hq) rfl]
        exact runInv_srcSym (h.withEnv hsub) w
    | sink =>
      rw [step_of_word (fetch_of_sink hturns) rfl]
      exact runInv_sinkPop (h.withEnv hsub)
    | op w => exact absurd (hturns ▸ List.mem_cons_self) (h.agents w)

end

end Sys2Proof.Machine

namespace Sys2Proof
open Sys2Proof.Machine

/-- Settles O7: every operation the four agents present completes and keeps the invariant. -/
theorem runNeverStops : Obligations.RunNeverStops := fun _ h => runInv_step h

/-- Settles O11: the successor of each value of `seq`, from the core's operation there. -/
theorem sequencerSuccessors : Obligations.SequencerSuccessors := by
  intro s t h hturns hstep
  rw [step_of_noTurns hturns, coreStep] at hstep
  cases hs : s.ctl.seq with
  | idle | done | error =>
    rw [hs] at hstep
    cases hstep
    exact hs
  | check =>
    obtain ⟨u, hu, -, hseq⟩ := runInv_check h hs
    rw [hs] at hstep
    cases hu.symm.trans hstep
    have hnone : configError s.cfg = none ↔ Claims.firstFault s.cfg = none := by
      rw [configError_eq_firstFault, Option.map_eq_none_iff]
    simp only [hnone] at hseq
    exact hseq
  | top =>
    obtain ⟨u, hu, -, hseq⟩ := runInv_top h hs
    rw [hs] at hstep
    cases hu.symm.trans hstep
    exact hseq
  | read =>
    obtain ⟨u, hu, -, hseq⟩ := runInv_read h hs
    rw [hs] at hstep
    cases hu.symm.trans hstep
    cases hin : s.inq <;> rw [hin] at hseq <;> exact hseq
  | corr =>
    obtain ⟨u, hu, -, hseq⟩ := runInv_corr h hs
    rw [hs] at hstep
    cases hu.symm.trans hstep
    exact hseq
  | data =>
    obtain ⟨u, hu, -, -, -, hseq⟩ := runInv_data h hs
    obtain ⟨hi, -⟩ := h.batch.data hs
    rw [hs] at hstep
    obtain ⟨v, hv, ⟨-, -, rfl⟩ | ⟨-, rfl⟩⟩ := (settleEmit_next_iff s _ t).1 hstep
    · have hne : t.ctl.symI ≠ t.ctl.symN := fun e => by rw [e] at hi; omega
      exact hs.trans (if_neg hne).symm
    · cases hu.symm.trans hv
      exact hseq
  | resync =>
    obtain ⟨u, hu, -, hseq⟩ := runInv_resync h hs
    rw [hs] at hstep
    cases hu.symm.trans hstep
    exact hseq
  | flush =>
    have hw : s.ctl.seq.working = true := by rw [hs]; rfl
    obtain ⟨l, hl⟩ := flushList_total (h.configLegal hw).tbd s.vit
    rw [hs] at hstep
    exact ⟨l, exec_vitFlush hl, flush_successor hs hl hstep⟩
  | publish =>
    obtain ⟨u, hu, -, hseq⟩ := runInv_publish h hs
    rw [hs] at hstep
    cases hu.symm.trans hstep
    exact hseq

end Sys2Proof
end

section
/-! SUPPORT. Reset and the host (10_state section 5, 47_pipeline_controller section 1), the fields
of the configuration registers (10_state section 4), the two ends of the streams (20_memory
section 2). -/

namespace Sys2Proof.Machine

/-! ## Reset (R78) -/

theorem registerValue_reset (a : BitVec 8) :
    Claims.registerValue State.reset a = Claims.resetValue a := by
  revert a
  decide +kernel

/-- The reset values, whatever stands outside the machine. -/
theorem atReset_reset (e : Env) : Claims.AtReset { State.reset with env := e } where
  seq := rfl
  regs := registerValue_reset
  hyp := ⟨rfl, rfl, rfl, rfl⟩
  dp := ⟨rfl, rfl⟩
  pm := metric_clearViterbi Viterbi.reset
  vit := ⟨rfl, rfl, rfl, rfl, rfl⟩
  ber := ⟨rfl, rfl, rfl, rfl, rfl⟩
  df := ⟨rfl, rfl, rfl, rfl, rfl, rfl, rfl⟩
  counts _ h := Vector.getElem_ofFn h
  ctl := ⟨rfl, rfl, rfl, rfl, rfl, rfl, rfl, rfl, rfl, rfl⟩
  fifos := ⟨rfl, rfl⟩

theorem exec_hostReset (s : State) :
    exec .hostReset s = .next { State.reset with env := s.env } := rfl

/-! ## START and CANCEL (R331, R332) -/

theorem exec_hostStart_idle {s : State} (h : s.ctl.seq = .idle) : exec .hostStart s =
    .next { s with ctl := { s.ctl with acqPending := s.cfg.useCorr, seq := .check } } :=
  if_pos ((mode_eq_idle_iff s).2 h)

theorem exec_hostStart_notIdle {s : State} (h : s.ctl.seq ≠ .idle) :
    exec .hostStart s = .next s :=
  if_neg ((mode_eq_idle_iff s).not.2 h)

theorem mode_eq_running_iff (s : State) : s.mode = .running ↔ Claims.modeNumber s.ctl.seq = 1 := by
  unfold State.mode
  cases s.ctl.seq <;> decide

theorem exec_hostCancel_running {s : State} (h : Claims.modeNumber s.ctl.seq = 1) :
    exec .hostCancel s = .next { s with ctl := { s.ctl with cancelReq := true } } :=
  if_pos ((mode_eq_running_iff s).2 h)

theorem exec_hostCancel_notRunning {s : State} (h : Claims.modeNumber s.ctl.seq ≠ 1) :
    exec .hostCancel s = .next s :=
  if_neg ((mode_eq_running_iff s).not.2 h)

/-! ## The fields (R58 to R70) -/

theorem field_eq_bits (r : RegWord) (lo w : Nat) : field r lo w = Claims.bits r lo w := by
  unfold field Claims.bits
  rw [BitVec.extractLsb'_toNat, Nat.shiftRight_eq_div_pow]

/-! ## The two ends of the streams (R84, R85) -/

theorem symWord_eq_ofNat (x : Soft) : symWord x = BitVec.ofNat 9 x.toNat :=
  zero_append_eq_ofNat (m := 1) x

theorem present_room {s : State} (h : s.inq.length < Config.inDepth) (w : SymWord) :
    present s w = { s with inq := s.inq ++ [w] } :=
  if_neg ((inFull_iff s).not.2 (Nat.not_le.2 h))

theorem present_full {s : State} (h : Config.inDepth ≤ s.inq.length) (w : SymWord) :
    present s w = { s with env := { s.env with srcQ := w :: s.env.srcQ } } :=
  if_pos ((inFull_iff s).2 h)

theorem exec_srcPush (x : Soft) (s : State) :
    exec (.srcPush x) s = .next (present s (BitVec.ofNat 9 x.toNat)) :=
  congrArg (fun w => Host.Outcome.next (present s w)) (symWord_eq_ofNat x)

theorem exec_srcEos (s : State) : exec .srcEos s = .next (present s 0x100#9) := rfl

theorem exec_sinkPop_cons {s : State} {f : Frame} {r : List Frame} (h : s.outq = f :: r) :
    exec .sinkPop s =
      .next { s with outq := r, env := { s.env with popped := s.env.popped ++ [f] } } := by
  show execSinkPop s = _
  unfold execSinkPop
  rw [h]

theorem exec_sinkPop_nil {s : State} (h : s.outq = []) : exec .sinkPop s = .next s := by
  show execSinkPop s = _
  unfold execSinkPop
  rw [h]

end Sys2Proof.Machine

namespace Sys2Proof
open Sys2Proof.Machine

/-- Settles O9: the invariants of reset, and HOST.RESET by its definition. -/
theorem resetMeetsInvariants : Obligations.ResetMeetsInvariants :=
  ⟨inv_reset, fun _ he => runInv_reset he, fun s => ⟨exec_hostReset s, rfl, rfl,
    fun _ => ⟨rfl, rfl, rfl, rfl, rfl⟩⟩⟩

/-- Settles O10: the reset state has every value of R78, and HOST.RESET gives that state. -/
theorem resetRegisterValues : Obligations.ResetRegisterValues :=
  ⟨atReset_reset Env.reset, fun s => ⟨_, exec_hostReset s, atReset_reset s.env⟩⟩

/-- Settles O14: a field is the number its bits spell. -/
theorem configurationFields : Obligations.ConfigurationFields := by
  intro c
  have hasm : c.asm.toNat = c.asmHi.toNat * 2 ^ 32 + c.asmLo.toNat := toNat_append_eq_add _ _
  exact ⟨⟨field_eq_bits _ _ _, rfl, rfl, rfl, rfl, rfl, rfl⟩,
    ⟨field_eq_bits _ _ _, field_eq_bits _ _ _⟩, ⟨field_eq_bits _ _ _, field_eq_bits _ _ _⟩,
    field_eq_bits _ _ _, ⟨field_eq_bits _ _ _, field_eq_bits _ _ _⟩, hasm,
    ⟨field_eq_bits _ _ _, field_eq_bits _ _ _⟩,
    ⟨field_eq_bits _ _ _, field_eq_bits _ _ _, field_eq_bits _ _ _⟩,
    ⟨field_eq_bits _ _ _, field_eq_bits _ _ _⟩,
    ⟨field_eq_bits c.rs 0 2, field_eq_bits _ _ _, rfl, rfl⟩, field_eq_bits _ _ _,
    ⟨field_eq_bits _ _ _, field_eq_bits _ _ _, field_eq_bits _ _ _⟩⟩

/-- Settles O17: START and CANCEL by the mode; RunInv says what stands in IDLE. -/
theorem hostStartAndCancel : Obligations.HostStartAndCancel := fun _ =>
  ⟨exec_hostStart_idle, exec_hostStart_notIdle,
    fun h hs => ⟨(h.untouched (.inl hs)).1, h.idle hs⟩,
    exec_hostCancel_running, exec_hostCancel_notRunning⟩

/-- Settles O18: the source's word by the room in IN, the sink's pop by what waits in OUT. -/
theorem streamEndsAppendTakeOrWait : Obligations.StreamEndsAppendTakeOrWait := by
  refine ⟨fun s => ⟨fun h => ?_, fun h => ?_⟩,
    fun s => ⟨fun _ _ => exec_sinkPop_cons, exec_sinkPop_nil⟩⟩
  · simp only [exec_srcPush, exec_srcEos, present_room h, implies_true, and_self]
  · simp only [exec_srcPush, exec_srcEos, present_full h, implies_true, and_self]

end Sys2Proof
end

section
/-! SUPPORT. Phase normaliser, hypothesis search and NRZ-M decoder (41_phase_normalizer), what the
correlator makes of a search result (40_correlator R156) and the clears (47 R350). -/

namespace Sys2Proof.Machine

/-! ## Single symbols (R167, R200) -/

theorem toInt_clampSoft (x : Soft) :
    (clampSoft x).toInt = if x.toInt = -128 then -127 else x.toInt := by
  have hmin : x = 0x80#8 ↔ x.toInt = -128 := by
    rw [← BitVec.toInt_inj]
    rfl
  unfold clampSoft
  simp only [hmin]
  split
  · rfl
  · rfl

theorem clampSoft_clamped (x : Soft) : Claims.clamped (clampSoft x) := by
  unfold Claims.clamped clampSoft
  split
  · decide
  · next h => exact h

/-- A clamped symbol and its negation lie in -127 to 127 (R167). -/
theorem clamped_range {x : Soft} (h : Claims.clamped x) :
    -127 ≤ x.toInt ∧ x.toInt ≤ 127 ∧ (-x).toInt = -x.toInt := by
  have hneg : (-x).toInt = -x.toInt := by
    rw [← toInt_negSoft h, negSoft, if_neg h]
  have hx := BitVec.le_toInt x
  have hy := BitVec.toInt_lt (x := x)
  have hnx := BitVec.toInt_lt (x := -x)
  norm_num at hx hy hnx
  omega

theorem exec_phClamp (s : State) :
    exec .phClamp s = .next (s.setRes (.symbol (clampSoft s.env.args.x))) := rfl

theorem exec_phSwap (s : State) :
    exec .phSwap s = .next (s.setRes (if s.cfg.isBpsk then
      .pair (Config.swapBpsk s.env.args.x s.env.args.y).1
        (Config.swapBpsk s.env.args.x s.env.args.y).2
      else .pair s.env.args.y s.env.args.x)) := by
  show execPhSwap s = _
  unfold execPhSwap
  split <;> rfl

theorem exec_ccInv (s : State) :
    exec .ccInv s = .next (s.setRes (.pair
      (if s.cfg.invC1 then negSoft s.env.args.x else s.env.args.x)
      (if s.cfg.invC2 then negSoft s.env.args.y else s.env.args.y))) := rfl

theorem toInt_negSoft_if (b : Bool) {x : Soft} (h : Claims.clamped x) :
    (if b then negSoft x else x).toInt = if b then -x.toInt else x.toInt := by
  cases b
  · rfl
  · exact toInt_negSoft h

/-! ## Rotations (R168) -/

theorem exec_phRot_bpsk {s : State} (h : s.cfg.const = 0) :
    exec .phRot s = .next (s.setRes (.symbol (rotBpsk s.env.args.ph s.env.args.x))) :=
  if_pos ((Cfg.isBpsk_iff s.cfg).2 h)

theorem exec_phRot_qpsk {s : State} (h : s.cfg.const ≠ 0) :
    exec .phRot s = .next (s.setRes (.pair
      (rotQpsk s.env.args.ph (s.env.args.x, s.env.args.y)).1
      (rotQpsk s.env.args.ph (s.env.args.x, s.env.args.y)).2)) :=
  if_neg ((Cfg.isBpsk_iff s.cfg).not.2 h)

/-! ## PH.PUSH (R171) -/

theorem exec_phPush (s : State) :
    exec .phPush s = .next ({ s with ph := (normalise s.cfg s.ph s.env.args.x).1 }.setRes
      (.symbols (normalise s.cfg s.ph s.env.args.x).2)) := rfl

theorem normalise_bpsk {c : Cfg} (h : c.const = 0) (p : Phase) (x : Soft) :
    normalise c p x = (p, [rotBpsk (rotOf c p.hyp) x]) :=
  if_pos ((Cfg.isBpsk_iff c).2 h)

theorem normalise_hold {c : Cfg} (h : c.const ≠ 0) {p : Phase} (hp : p.iHave = false) (x : Soft) :
    normalise c p x = ({ p with iHold := x, iHave := true }, []) := by
  unfold normalise
  rw [if_neg ((Cfg.isBpsk_iff c).not.2 h), hp]
  rfl

theorem normalise_pair {c : Cfg} (h : c.const ≠ 0) {p : Phase} (hp : p.iHave = true) (x : Soft) :
    normalise c p x = ({ p with iHave := false },
      [(rotQpsk (rotOf c p.hyp) (swapIf (swapOf c p.hyp) (p.iHold, x))).1,
        (rotQpsk (rotOf c p.hyp) (swapIf (swapOf c p.hyp) (p.iHold, x))).2]) := by
  unfold normalise
  rw [if_neg ((Cfg.isBpsk_iff c).not.2 h), hp]
  rfl

theorem toNat_rotOf (c : Cfg) (hyp : BitVec 3) :
    (rotOf c hyp).toNat = hyp.toNat % Claims.phases c := by
  unfold rotOf
  rw [BitVec.toNat_ofNat, Cfg.nph_eq_phases]
  refine Nat.mod_eq_of_lt (lt_of_lt_of_le (Nat.mod_lt _ ?_) (phases_le c))
  unfold Claims.phases
  split <;> decide

theorem phases_bpsk {c : Cfg} (h : c.const = 0) : Claims.phases c = 2 := if_pos h

theorem phases_qpsk {c : Cfg} (h : c.const ≠ 0) : Claims.phases c = 4 := if_neg h

/-! ## The hypothesis search (R173, R174) -/

theorem nhyp_eq_hypotheses {c : Cfg} (h : c.const < 2) : c.nhyp = Claims.hypotheses c := by
  have hbpsk : c.isBpsk = decide (c.const = 0) := by
    rw [Bool.eq_iff_iff, Cfg.isBpsk_iff, decide_eq_true_iff]
  unfold Cfg.nhyp Claims.hypotheses
  rw [Cfg.nph_eq_phases, hbpsk]
  unfold Claims.phases
  interval_cases c.const <;> cases c.swapSearch <;> rfl

theorem exec_phNext (s : State) :
    exec .phNext s = .next { s with ph := nextHyp s.cfg s.ph } := rfl

theorem toNat_hyp_nextHyp (c : Cfg) (p : Phase) :
    (nextHyp c p).hyp.toNat = (p.hyp.toNat + 1) % c.nhyp :=
  Nat.mod_eq_of_lt (lt_of_lt_of_le (Nat.mod_lt _ c.nhyp_pos) c.nhyp_le)

theorem skip_nextHyp (c : Cfg) (p : Phase) :
    (nextHyp c p).skip =
      if (nextHyp c p).hyp = 0 then p.skip + BitVec.ofNat 32 c.u else p.skip := by
  have hzero : (nextHyp c p).hyp = 0 ↔ (p.hyp.toNat + 1) % c.nhyp = 0 := by
    rw [← toNat_hyp_nextHyp, ← BitVec.toNat_inj]
    rfl
  simp only [hzero]
  rfl

/-- The search moves `hyp` and `skip` only. -/
theorem nextHyp_eq (c : Cfg) (p : Phase) :
    nextHyp c p = { p with hyp := (nextHyp c p).hyp, skip := (nextHyp c p).skip } := rfl

theorem times_succ {i : Instr} {n : Nat} {s t : State} (h : exec i s = .next t) :
    Claims.times i (n + 1) s = Claims.times i n t := by
  rw [Claims.times, h]

/-- One more performance at the end. -/
theorem times_succ_right {i : Instr} {n : Nat} {s t u : State} (h : Claims.times i n s = some t)
    (hu : exec i t = .next u) : Claims.times i (n + 1) s = some u := by
  induction n generalizing s with
  | zero =>
    cases h
    exact times_succ hu
  | succ n ih =>
    cases hs : exec i s with
    | next v =>
      rw [times_succ hs] at h ⊢
      exact ih h
    | fault r => rw [Claims.times, hs] at h; cases h
    | refused r => rw [Claims.times, hs] at h; cases h

/-- From hypothesis 0, `n` calls reach hypothesis `n` mod NHYP and have wrapped `n` div NHYP times,
each wrap adding U to `skip` (R174). -/
theorem times_phNext {s : State} (h0 : s.ph.hyp = 0) (n : Nat) :
    ∃ p : Phase, Claims.times .phNext n s = some { s with ph := p } ∧
      p = { s.ph with hyp := p.hyp, skip := p.skip } ∧ p.hyp.toNat = n % s.cfg.nhyp ∧
      p.skip = s.ph.skip + BitVec.ofNat 32 (n / s.cfg.nhyp * s.cfg.u) := by
  induction n with
  | zero =>
    refine ⟨s.ph, rfl, rfl, ?_, ?_⟩
    · rw [h0, Nat.zero_mod]
      rfl
    · rw [Nat.zero_div, Nat.zero_mul]
      exact (BitVec.add_zero _).symm
  | succ n ih =>
    obtain ⟨p, hp, heq, hhyp, hskip⟩ := ih
    have hnext : (nextHyp s.cfg p).hyp.toNat = (n + 1) % s.cfg.nhyp := by
      rw [toNat_hyp_nextHyp, hhyp, Nat.mod_add_mod]
    refine ⟨nextHyp s.cfg p, times_succ_right hp (exec_phNext _), ?_, hnext, ?_⟩
    · rw [nextHyp_eq, heq]
    · have hzero : (nextHyp s.cfg p).hyp = 0 ↔ s.cfg.nhyp ∣ n + 1 := by
        rw [Nat.dvd_iff_mod_eq_zero, ← hnext, ← BitVec.toNat_inj]
        rfl
      rw [skip_nextHyp, hskip, Nat.succ_div]
      simp only [hzero]
      split
      · rw [BitVec.add_assoc, ← BitVec.ofNat_add, Nat.add_mul, Nat.one_mul]
      · rfl

/-! ## NRZ-M (R175) -/

theorem exec_diffDec (s : State) : exec .diffDec s = .next
    (({ s with ph := { s.ph with nrzmPrev := s.env.args.bit } } : State).setRes
      (.bit (Bool.xor s.env.args.bit s.ph.nrzmPrev))) := rfl

/-- The XORs of neighbours in a list of bits, `p` before the first. -/
def neighbourXors (p : Bool) (l : List Bool) : List Bool :=
  match l with
  | [] => []
  | b :: r => (b != p) :: neighbourXors b r

theorem length_neighbourXors (p : Bool) (l : List Bool) :
    (neighbourXors p l).length = l.length := by
  induction l generalizing p with
  | nil => rfl
  | cons b r ih => rw [neighbourXors, List.length_cons, ih, List.length_cons]

theorem getElem?_neighbourXors (l : List Bool) {n : Nat} (hn : n < l.length) (p : Bool) :
    (neighbourXors p l)[n]? =
      some (l.getD n false != if n = 0 then p else l.getD (n - 1) false) := by
  induction l generalizing p n with
  | nil => cases hn
  | cons b r ih =>
    cases n with
    | zero => rfl
    | succ n =>
      rw [neighbourXors, List.getElem?_cons_succ, ih (Nat.lt_of_succ_lt_succ hn),
        List.getD_cons_succ, if_neg (Nat.succ_ne_zero n), Nat.add_sub_cancel]
      cases n with
      | zero => rfl
      | succ n => rw [if_neg (Nat.succ_ne_zero n), Nat.add_sub_cancel, List.getD_cons_succ]

/-- An inverted stream differs from bit to bit where the stream does. -/
theorem neighbourXors_not (p : Bool) (l : List Bool) :
    neighbourXors (!p) (l.map fun b => !b) = neighbourXors p l := by
  induction l generalizing p with
  | nil => rfl
  | cons b r ih =>
    rw [List.map_cons, neighbourXors, neighbourXors, ih]
    cases b <;> cases p <;> rfl

theorem drop_one_neighbourXors_not (p q : Bool) (l : List Bool) :
    (neighbourXors p (l.map fun b => !b)).drop 1 = (neighbourXors q l).drop 1 := by
  cases l with
  | nil => rfl
  | cons b r => exact neighbourXors_not b r

theorem feed_cons {α : Type} {i : Instr} {latch : α → Args → Args} {x : α} {r : List α}
    {s t u : State} {l : List OpResult} (h : exec i (Claims.withArgs s (latch x)) = .next t)
    (hr : Claims.feed i latch r t = some (l, u)) :
    Claims.feed i latch (x :: r) s = some (t.env.res :: l, u) := by
  rw [Claims.feed, h]
  dsimp only
  rw [hr]

theorem feed_diffDec (l : List Bool) (s : State) :
    ∃ t, Claims.feed .diffDec Claims.latchBit l s =
      some ((neighbourXors s.ph.nrzmPrev l).map OpResult.bit, t) := by
  induction l generalizing s with
  | nil => exact ⟨s, rfl⟩
  | cons b r ih =>
    obtain ⟨t, ht⟩ := ih _
    exact ⟨t, feed_cons (exec_diffDec _) ht⟩

/-! ## CORR.APPLY (R156) -/

theorem exec_corrApply (s : State) : exec .corrApply s =
    .next (applySearch s s.env.args.found s.env.args.ph s.env.args.off) := rfl

/-- Whether a search result moves the phase or the alignment. -/
theorem applySearch_of_moved {s : State} {ph : BitVec 2} {o : BitVec 16}
    (h : ph.toNat ≠ s.ph.hyp.toNat % s.cfg.nph ∨ o ≠ 0) :
    applySearch s true ph o = clearDatapath { s with ph := { s.ph with
      hyp := BitVec.ofNat 3 (s.ph.hyp.toNat / s.cfg.nph * s.cfg.nph + ph.toNat)
      skip := s.ph.skip + o.zeroExtend 32 } } := by
  refine if_pos ?_
  rwa [Bool.true_and, Bool.or_eq_true, bne_iff_ne, bne_iff_ne]

theorem applySearch_of_still {s : State} {f : Bool} {ph : BitVec 2} {o : BitVec 16}
    (h : f = false ∨ (ph.toNat = s.ph.hyp.toNat % s.cfg.nph ∧ o = 0)) :
    applySearch s f ph o = s := by
  refine if_neg ?_
  rcases h with rfl | ⟨h1, rfl⟩
  · exact Bool.false_ne_true
  · simp [h1]

/-- The hypothesis with the rotation replaced fits its register. -/
theorem replaced_hyp_fits (c : Cfg) (h : BitVec 3) {p : Nat} (hp : p < Claims.phases c) :
    h.toNat / Claims.phases c * Claims.phases c + p < 2 ^ 3 := by
  have hh := h.isLt
  have hphases : Claims.phases c = 2 ∨ Claims.phases c = 4 := by
    unfold Claims.phases
    split
    · exact .inl rfl
    · exact .inr rfl
  rcases hphases with e | e <;> rw [e] at hp ⊢ <;> omega

end Sys2Proof.Machine

namespace Sys2Proof
open Sys2Proof.Machine Sys2Proof.Claims

/-- Settles O21: CORR.APPLY by whether the phase or the alignment moves. -/
theorem corrApplyMovesPhase : Obligations.CorrApplyMovesPhase := by
  intro s hph
  simp only [← Cfg.nph_eq_phases] at hph ⊢
  refine ⟨fun h => ?_, fun hf h => ?_⟩
  · rw [exec_corrApply, applySearch_of_still h]
  · rw [exec_corrApply, hf, applySearch_of_moved h]
    refine ⟨_, rfl, ?_, ?_, rfl, rfl, rfl, rfl⟩
    · rw [clearDatapath_ph_hyp]
      dsimp only
      rw [Cfg.nph_eq_phases] at hph ⊢
      exact Nat.mod_eq_of_lt (replaced_hyp_fits s.cfg s.ph.hyp hph)
    · rw [clearDatapath_ph_skip, BitVec.ofNat_toNat]

/-- Settles O22: PH.CLAMP, PH.SWAP and CC.INV by the values of the symbols. -/
theorem symbolOperations : Obligations.SymbolOperations := by
  refine ⟨fun s => ?_, fun s => ⟨fun hc => ?_, ?_⟩, fun s => ?_⟩
  · exact ⟨_, exec_phClamp s, toInt_clampSoft _, clamped_range (clampSoft_clamped _)⟩
  · rw [exec_phSwap, if_neg ((Cfg.isBpsk_iff s.cfg).not.2 (by omega))]
    rfl
  · rw [exec_phSwap]
    split
    · exact ⟨_, _, rfl⟩
    · exact ⟨_, _, rfl⟩
  · exact ⟨_, _, exec_ccInv s, toInt_negSoft_if _, toInt_negSoft_if _⟩

/-- Settles O23: the two columns of the rotation table. -/
theorem rotationTable : Obligations.RotationTable := by
  intro s
  refine ⟨fun hc hx hy => ?_, fun hc hx => ?_, ?_⟩
  · exact ⟨_, _, exec_phRot_qpsk (by omega), toIntPair_rotQpsk _ ⟨hx, hy⟩⟩
  · refine ⟨_, exec_phRot_bpsk hc, fun h => ?_, fun h => ?_⟩ <;> rw [h]
    · exact toInt_rotBpsk (by decide) hx
    · exact toInt_rotBpsk (by decide) hx
  · by_cases hc : s.cfg.const = 0
    · exact ⟨_, exec_phRot_bpsk hc, rfl⟩
    · exact ⟨_, exec_phRot_qpsk hc, rfl⟩

/-- Settles O24: PH.PUSH for BPSK, for a QPSK I and for its Q. -/
theorem phPushNormalises : Obligations.PhPushNormalises := by
  intro s hx hh
  refine ⟨fun hc => ?_, fun hc hi => ?_, fun hc hi => ?_⟩
  · rw [exec_phPush, normalise_bpsk hc]
    refine ⟨_, rfl, ?_⟩
    have hrot : (rotOf s.cfg s.ph.hyp).toNat = s.ph.hyp.toNat % 2 := by
      rw [toNat_rotOf, phases_bpsk hc]
    rw [toInt_rotBpsk (hrot ▸ Nat.mod_lt _ (by decide)) hx, hrot]
  · rw [exec_phPush, normalise_hold (by omega) hi]
    rfl
  · have hne : s.cfg.const ≠ 0 := by omega
    rw [exec_phPush, normalise_pair hne hi]
    refine ⟨_, _, rfl, ?_⟩
    have hrot : (rotOf s.cfg s.ph.hyp).toNat = s.ph.hyp.toNat % 4 := by
      rw [toNat_rotOf, phases_qpsk hne]
    have hpair := toIntPair_rotQpsk (rotOf s.cfg s.ph.hyp)
      (swapIf_clamped (swapOf s.cfg s.ph.hyp) (p := (s.ph.iHold, s.env.args.x)) ⟨hh, hx⟩)
    rw [toIntPair_swapIf, hrot, swapOf_eq_swapping hne] at hpair
    rw [swapOf_eq_swapping hne]
    exact hpair

/-- Settles O25: one call, and `n` calls by induction, read at `n = d × NHYP + h`. -/
theorem searchReachesHypothesis : Obligations.SearchReachesHypothesis := by
  refine ⟨fun s hc => ⟨_, exec_phNext s, rfl, ?_, ?_⟩, fun s d h hc h0 hh => ?_⟩
  · rw [← nhyp_eq_hypotheses hc]
    exact toNat_hyp_nextHyp _ _
  · rw [← Cfg.u_eq_unit]
    exact skip_nextHyp _ _
  · rw [← nhyp_eq_hypotheses hc] at hh ⊢
    obtain ⟨p, hp, heq, hhyp, hskip⟩ := times_phNext h0 (d * s.cfg.nhyp + h)
    refine ⟨_, hp, ?_, ?_, ?_⟩
    · show { s with ph := p } = _
      rw [heq]
    · rw [Nat.mul_add_mod', Nat.mod_eq_of_lt hh] at hhyp
      exact hhyp
    · rw [Nat.mul_comm d, Nat.mul_add_div s.cfg.nhyp_pos, Nat.div_eq_of_lt hh, Nat.add_zero,
        Cfg.u_eq_unit] at hskip
      exact hskip

/-- Settles O26: DIFF.DEC over a list gives the XORs of neighbours. -/
theorem diffDecXorsNeighbours : Obligations.DiffDecXorsNeighbours := by
  refine ⟨exec_diffDec, fun l s => ?_⟩
  obtain ⟨t, ht⟩ := feed_diffDec l s
  obtain ⟨t', ht'⟩ := feed_diffDec (l.map fun b => !b) s
  refine ⟨_, _, t, t', ht, ht', ?_, fun n hn => ?_, ?_⟩
  · rw [List.length_map, length_neighbourXors]
  · rw [List.getElem?_map, getElem?_neighbourXors l hn]
    rfl
  · rw [← List.map_drop, ← List.map_drop, drop_one_neighbourXors_not _ s.ph.nrzmPrev]

end Sys2Proof
end

section
/-! SUPPORT. The controller's short operations (47_pipeline_controller section 2): reading, the
correlator's step, accepting and emitting, the top and the end of a cycle, the clears; the branch
metrics (43_viterbi section 2). -/

namespace Sys2Proof.Machine

/-! ## Branch metrics (R211, R212) -/

theorem toNat_softCost {x : Soft} (hx : Claims.clamped x) (b : Bool) :
    ((softCost b x).toNat : Int) = Claims.cost b x.toInt := by
  obtain ⟨hlo, hhi, -⟩ := clamped_range hx
  have hcost : 0 ≤ Claims.cost b x.toInt ∧ Claims.cost b x.toInt < 512 := by
    unfold Claims.cost
    split <;> omega
  have hof : softCost b x = BitVec.ofInt 9 (Claims.cost b x.toInt) := if_neg hx
  rw [hof, BitVec.toNat_ofInt, Int.toNat_of_nonneg (Int.emod_nonneg _ (by decide))]
  exact Int.emod_eq_of_lt hcost.1 hcost.2

theorem get_branchMetrics (x y : Soft) (b d : Bool) :
    (branchMetrics x y).get b d = softCost b x + softCost d y := by
  cases b <;> cases d <;> rfl

theorem toNat_branchMetrics {x y : Soft} (hx : Claims.clamped x) (hy : Claims.clamped y)
    (b d : Bool) : (((branchMetrics x y).get b d).toNat : Int) =
      Claims.cost b x.toInt + Claims.cost d y.toInt := by
  have hb := softCost_le hx b
  have hd := softCost_le hy d
  rw [get_branchMetrics, BitVec.toNat_add_of_lt (by omega), Nat.cast_add, toNat_softCost hx,
    toNat_softCost hy]

/-- A symbol costs 254 against the two bits together. -/
theorem cost_add_cost_not (b : Bool) (r : Int) : Claims.cost b r + Claims.cost (!b) r = 254 := by
  cases b <;> simp only [Claims.cost, Bool.not_false, Bool.not_true, if_true, if_false,
    Bool.false_eq_true] <;> omega

theorem branchMetrics_add_opposite {x y : Soft} (hx : Claims.clamped x) (hy : Claims.clamped y)
    (b d : Bool) : ((branchMetrics x y).get b d).toNat +
      ((branchMetrics x y).get (!b) (!d)).toNat = 508 := by
  have h1 := toNat_branchMetrics hx hy b d
  have h2 := toNat_branchMetrics hx hy (!b) (!d)
  have h3 := cost_add_cost_not b x.toInt
  have h4 := cost_add_cost_not d y.toInt
  omega

theorem exec_vitBm (s : State) : exec .vitBm s =
    .next (s.setRes (.metrics (branchMetrics s.env.args.x s.env.args.y))) := rfl

/-! ## CTL.READ (R337) -/

theorem exec_ctlRead_token {s : State} {e : SymWord} {r : List SymWord} (hin : s.inq = e :: r)
    (he : e.getLsbD 8 = true) : exec .ctlRead s =
      .next { s with inq := r, ctl := { s.ctl with eosSeen := true, seq := .corr } } := by
  rw [exec_ctlRead_cons hin, readEntry, if_pos he]
  rfl

theorem exec_ctlRead_symbol {s : State} {e : SymWord} {r : List SymWord} (hin : s.inq = e :: r)
    (he : e.getLsbD 8 = false) (hn : s.ctl.symN.toNat < s.cfg.batchLen) :
    exec .ctlRead s = .next { s with
      inq := r
      sym := s.sym.write s.ctl.symN.toNat (clampSoft (e.extractLsb' 0 8))
      ctl := { s.ctl with
        symN := s.ctl.symN + 1
        seq := if s.ctl.symN.toNat + 1 = s.cfg.batchLen then .corr else s.ctl.seq } } := by
  rw [exec_ctlRead_cons hin, readEntry_ok e r hn, if_neg (ne_true_of_eq_false he)]
  rfl

theorem toInt_clampSoft_eq_max (x : Soft) : (clampSoft x).toInt = max (-127) x.toInt := by
  have hx := BitVec.le_toInt x
  norm_num at hx
  rw [toInt_clampSoft]
  split <;> omega

/-! ## CTL.CORR (R338) -/

/-- CORR.APPLY neither reads nor writes what stands outside the machine. -/
theorem applySearch_withEnv (s : State) (e : Env) (f : Bool) (ph : BitVec 2) (o : BitVec 16) :
    applySearch { s with env := e } f ph o = { applySearch s f ph o with env := e } := by
  unfold applySearch
  dsimp only
  split <;> rfl

theorem SearchReady.withCtl {s : State} (h : Claims.SearchReady s) (k : Ctl)
    (hk : k.symN = s.ctl.symN) : Claims.SearchReady { s with ctl := k } := by
  have hw : Claims.windowLength { s with ctl := k } = Claims.windowLength s := by
    unfold Claims.windowLength
    rw [hk]
  exact ⟨h.const, hw ▸ h.window, hw ▸ h.symbols, h.npat, h.lengths⟩

/-- A pending search in a run is ready (R150, R337, R381). -/
theorem searchReady_of_run {s : State} (h : RunInv s) (hs : s.ctl.seq = .corr)
    (hp : s.ctl.acqPending = true) : Claims.SearchReady s := by
  have hw : s.ctl.seq.working = true := by rw [hs]; rfl
  have hc := h.configLegal hw
  obtain ⟨-, hnpat, hlen⟩ := hc.corr (h.acqUse hw hp)
  have hwindow : Claims.windowLength s ≤ s.ctl.symN.toNat :=
    (Nat.div_mul_le_self _ _).trans (Nat.min_le_left _ _)
  exact ⟨hc.const, hwindow.trans (h.batch.corr hs).1,
    fun n _ => Memory.read_clamped h.clamped.sym n, hnpat, hlen⟩

/-! ## CTL.ACCEPT and CTL.EMIT (R343, R344) -/

theorem accepts_iff {s : State}
    (h : s.cfg.rsDepth ≤ 8 ∨ s.cfg.rsType = 0#2 ∨ s.cfg.acceptAll = true) :
    accepts s = true ↔ s.cfg.acceptAll = true ∨ s.cfg.rsType = 0#2 ∨
      ∀ j (h : j < 8), j < s.cfg.rsDepth → 0 ≤ s.hRs[j].toInt := by
  have hcount : ∀ j (hj : j < 8), countAt s j = s.hRs[j] := fun _ hj => dif_pos hj
  simp only [accepts, Bool.or_eq_true, beq_iff_eq, List.all_eq_true, List.mem_range,
    decide_eq_true_iff, or_assoc]
  constructor
  · rintro (ha | ht | hall)
    · exact .inl ha
    · exact .inr (.inl ht)
    · exact .inr (.inr fun j hj hlt => hcount j hj ▸ hall j hlt)
  · rintro (ha | ht | hall)
    · exact .inl ha
    · exact .inr (.inl ht)
    · rcases h with hd | ht | ha
      · refine .inr (.inr fun j hlt => ?_)
        have hj : j < 8 := lt_of_lt_of_le hlt hd
        exact (hcount j hj).symm ▸ hall j hj hlt
      · exact .inr (.inl ht)
      · exact .inl ha

theorem exec_ctlAccept (s : State) :
    exec .ctlAccept s = .next (s.setRes (.accept (accepts s))) := rfl

theorem exec_ctlEmit_room {s : State} (h : Claims.roomInOut s) :
    exec .ctlEmit s = .next (emit s) :=
  if_neg fun hf => (outFull_iff_noRoom s).1 hf h

theorem exec_ctlEmit_full {s : State} (h : ¬ Claims.roomInOut s) : exec .ctlEmit s = .next s :=
  if_pos ((outFull_iff_noRoom s).2 h)

/-! ## The top and the end of a cycle (R336, R345, R346) -/

theorem exec_ctlTop_cancel {s : State} (h : s.ctl.cancelReq = true) : exec .ctlTop s =
    .next { s with ctl := { s.ctl with finalRun := true, seq := .publish } } := if_pos h

theorem exec_ctlTop_go {s : State} (h : s.ctl.cancelReq = false) : exec .ctlTop s =
    .next { s with ctl := { s.ctl with symN := 0, symI := 0, seq := .read } } :=
  if_neg (ne_true_of_eq_false h)

theorem exec_ctlResync (s : State) : exec .ctlResync s = .next (resyncAttempt s) := rfl

theorem eosSeen_resyncTested (s : State) : (resyncTested s).ctl.eosSeen = s.ctl.eosSeen := by
  unfold resyncTested resyncAttempt
  split
  · split <;> rfl
  · rfl

theorem resyncDue_iff (s : State) : resyncDue s = true ↔
    s.cfg.resyncN ≠ 0 ∧ s.cfg.resyncN * s.cfg.frameBits ≤ s.ctl.unsyncBits.toNat := by
  simp only [resyncDue, Bool.and_eq_true, bne_iff_ne, decide_eq_true_iff]

end Sys2Proof.Machine

namespace Sys2Proof
open Sys2Proof.Machine Sys2Proof.Claims

/-- Settles O29: a metric is the sum of two costs. -/
theorem branchMetricValues : Obligations.BranchMetricValues := fun s =>
  ⟨fun hx hy => ⟨_, exec_vitBm s, branchMetrics_le hx hy, toNat_branchMetrics hx hy,
    branchMetrics_add_opposite hx hy false false, branchMetrics_add_opposite hx hy false true⟩,
    _, exec_vitBm s⟩

/-- Settles O36: the clears, field by field. -/
theorem clearOperations : Obligations.ClearOperations := fun s =>
  ⟨⟨_, rfl, metric_clearViterbi s.vit, rfl⟩, rfl, _, rfl, rfl⟩

/-- Settles O50: CTL.READ on an empty IN, on the token and on a symbol. -/
theorem readOneEntry : Obligations.ReadOneEntry := by
  refine fun s => ⟨exec_ctlRead_nil, fun _ _ => exec_ctlRead_token, fun e r hin he hwf hn => ?_⟩
  refine ⟨_, exec_ctlRead_symbol hin he hn, rfl, ?_, fun a ha => Memory.read_write_ne _ _ _ _ ha⟩
  rw [Memory.read_write_same _ _ _ hwf]
  exact toInt_clampSoft_eq_max _

/-- Settles O51: without and with a pending search; RunInv makes a pending search ready. -/
theorem correlatorStep : Obligations.CorrelatorStep := by
  refine fun s => ⟨fun hp => exec_ctlCorr_idle hp, fun hp hs => ?_, searchReady_of_run⟩
  intro p
  have hready : SearchReady p := SearchReady.withCtl hs _ rfl
  have hsearch : search p = search s := rfl
  have hstep := exec_ctlCorr_pending hp (searchBounds_of_ready hs)
  cases hhit : search s with
  | none =>
    rw [hhit] at hstep hsearch
    refine ⟨none, p, hsearch ▸ exec_corrSearch hready, rfl, ?_⟩
    rw [hstep, applyHit, applySearch_of_still (.inl rfl)]
    rfl
  | some h =>
    rw [hhit] at hstep hsearch
    refine ⟨some h, _, hsearch ▸ exec_corrSearch hready, exec_corrApply _, ?_⟩
    obtain ⟨-, henv, -⟩ := applySearch_keeps p true h.ph h.off
    rw [hstep, applyHit, withArgs, applySearch_withEnv]
    change (applySearch p true h.ph h.off).env = s.env at henv
    show Host.Outcome.next ((applySearch p true h.ph h.off).goto _) = _
    rw [← henv]
    rfl

/-- Settles O56: the accept policy; CTL.EMIT by the room in OUT. -/
theorem acceptAndEmit : Obligations.AcceptAndEmit :=
  ⟨fun s => ⟨_, exec_ctlAccept s, accepts_iff⟩, fun _ => ⟨exec_ctlEmit_room, exec_ctlEmit_full⟩⟩

/-- Settles O57: the top of a cycle, one resynchronisation attempt, the end-of-cycle test. -/
theorem cycleTopAndEnd : Obligations.CycleTopAndEnd := by
  refine ⟨fun s => ⟨exec_ctlTop_cancel, exec_ctlTop_go⟩, fun s => ⟨fun hu => ?_, fun hu => ?_⟩,
    fun s => ⟨resyncTested s, ?_, ?_⟩⟩
  · rw [exec_ctlResync, resyncAttempt, if_pos hu]
  · have hresync :
        exec .ctlResync s = .next (clearDatapath { s with ph := nextHyp s.cfg s.ph }) := by
      rw [exec_ctlResync, resyncAttempt, if_neg (ne_true_of_eq_false hu)]
    exact ⟨_, exec_phNext s, hresync, _, hresync⟩
  · unfold resyncTested
    by_cases hdue : resyncDue s = true
    · rw [if_pos ((resyncDue_iff s).1 hdue), if_pos hdue]
      exact exec_ctlResync s
    · rw [if_neg ((resyncDue_iff s).not.1 hdue), if_neg hdue]
  · rw [exec_ctlRschk, eosSeen_resyncTested]
    cases s.ctl.eosSeen with
    | _ => rfl

end Sys2Proof
end

section
/-! SUPPORT. Which operation writes which register (10_state sections 3 and 4, 20_memory section 6,
47_pipeline_controller): the table of the writers, and that every operation keeps to it. -/

namespace Sys2Proof.Machine

/-! ## The registers and their writers -/

/-- The registers whose writers the rules name. -/
inductive Reg where
  | cfg | health | errors | cancelReq | eosSeen | hyp | popped | reads | seq | inq | outq
  deriving DecidableEq

/-- The register holds the same in both states. -/
def Reg.same (r : Reg) (s t : State) : Prop :=
  match r with
  | .cfg => t.cfg = s.cfg
  | .health => t.health = s.health
  | .errors => t.ctl.errCode = s.ctl.errCode ∧ t.ctl.errInfo = s.ctl.errInfo
  | .cancelReq => t.ctl.cancelReq = s.ctl.cancelReq
  | .eosSeen => t.ctl.eosSeen = s.ctl.eosSeen
  | .hyp => t.ph.hyp = s.ph.hyp
  | .popped => t.env.popped = s.env.popped
  | .reads => t.env.reads = s.env.reads
  | .seq => t.ctl.seq = s.ctl.seq
  | .inq => t.inq = s.inq
  | .outq => t.outq = s.outq

/-- No register but those of `w` has changed. -/
def Keeps (w : List Reg) (s t : State) : Prop := ∀ r ∉ w, r.same s t

/-- What each operation may write. -/
def Instr.writes (i : Instr) : List Reg :=
  match i with
  | .hostCfgw _ _ => [.cfg]
  | .hostRd _ => [.reads]
  | .hostCancel => [.cancelReq]
  | .hostReset =>
    [.cfg, .health, .errors, .cancelReq, .eosSeen, .hyp, .popped, .reads, .seq, .inq, .outq]
  | .srcPush _ | .srcEos => [.inq]
  | .sinkPop => [.popped, .outq]
  | .corrApply | .phNext | .ctlResync => [.hyp]
  | .ctlCheck => [.errors, .seq]
  | .hostStart | .ctlTop | .ctlHalt => [.seq]
  | .ctlRead => [.eosSeen, .seq, .inq]
  | .ctlCorr | .ctlRschk => [.hyp, .seq]
  | .ctlData | .ctlFlush => [.seq, .outq]
  | .ctlBit | .ctlFrame | .ctlEmit => [.outq]
  | .ctlPublish => [.health, .seq]
  | _ => []

section
variable {s t u : State} {w : List Reg}

theorem Keeps.refl (w : List Reg) (s : State) : Keeps w s s := fun r _ => by cases r <;> trivial

theorem Reg.same_trans {r : Reg} (h : r.same s t) (k : r.same t u) : r.same s u := by
  cases r with
  | errors => exact ⟨k.1.trans h.1, k.2.trans h.2⟩
  | _ => exact Eq.trans k h

theorem Keeps.trans (h : Keeps w s t) (k : Keeps w t u) : Keeps w s u :=
  fun r hr => Reg.same_trans (h r hr) (k r hr)

theorem Keeps.mono {v : List Reg} (h : Keeps v s t) (hv : ∀ r ∈ v, r ∈ w) : Keeps w s t :=
  fun r hr => h r fun hm => hr (hv r hm)

/-! ## The parts of the state that no table row speaks of -/

/-- The working registers and buffers are nobody's but the datapath's. -/
theorem keeps_datapath (s : State) (p : Phase) (d : Depunct) (v : Viterbi) (f : Deframer)
    (h : Vector (BitVec 8) 8) (x y z : Memory 8) : Keeps [.hyp] s { s with
      ph := p, dp := d, vit := v, df := f, hRs := h, sym := x, frm := y, cw := z } := by
  intro r hr
  cases r with
  | hyp => exact absurd List.mem_cons_self hr
  | _ => trivial

/-- Of the controller the table names the sequencer, the flags and the error registers. -/
theorem keeps_ctl (s : State) (k : Ctl) (he : k.errCode = s.ctl.errCode ∧ k.errInfo = s.ctl.errInfo)
    (hc : k.cancelReq = s.ctl.cancelReq) (ho : k.eosSeen = s.ctl.eosSeen) :
    Keeps [.seq] s { s with ctl := k } := by
  intro r hr
  cases r with
  | seq => exact absurd List.mem_cons_self hr
  | errors => exact he
  | cancelReq => exact hc
  | eosSeen => exact ho
  | _ => trivial

theorem keeps_goto (s : State) (q : Seq) : Keeps [.seq] s (s.goto q) :=
  keeps_ctl s _ ⟨rfl, rfl⟩ rfl rfl

/-- A result left in its latch is no register's. -/
theorem Keeps.setRes (h : Keeps w s t) (x : OpResult) : Keeps w s (t.setRes x) := by
  intro r hr
  have hr := h r hr
  cases r with
  | _ => exact hr

theorem Keeps.of_hyp (h : Keeps [.hyp] s t) (hh : t.ph.hyp = s.ph.hyp) : Keeps [] s t := by
  intro r _
  by_cases e : r = .hyp
  · rw [e]
    exact hh
  · exact h r fun hm => e (List.mem_singleton.1 hm)

theorem Keeps.of_seq (h : Keeps [.seq] s t) (hh : t.ctl.seq = s.ctl.seq) : Keeps [] s t := by
  intro r _
  by_cases e : r = .seq
  · rw [e]
    exact hh
  · exact h r fun hm => e (List.mem_singleton.1 hm)

theorem Flow.keeps (h : Flow s t) : Keeps [.outq] s t := by
  intro r hr
  cases r with
  | outq => exact absurd List.mem_cons_self hr
  | cfg => exact h.cfg
  | health => exact h.health
  | errors =>
    constructor
    · rw [h.ctl]
    · rw [h.ctl]
  | cancelReq =>
    show t.ctl.cancelReq = _
    rw [h.ctl]
  | eosSeen =>
    show t.ctl.eosSeen = _
    rw [h.ctl]
  | hyp => exact h.hyp
  | popped => exact congrArg Env.popped h.env
  | reads => exact congrArg Env.reads h.env
  | seq =>
    show t.ctl.seq = _
    rw [h.ctl]
  | inq => exact h.inq

theorem keeps_clearDatapath (s : State) : Keeps [] s (clearDatapath s) := by
  intro r _
  cases r with
  | errors => exact ⟨rfl, rfl⟩
  | _ => rfl

theorem keeps_applySearch (s : State) (f : Bool) (ph : BitVec 2) (o : BitVec 16) :
    Keeps [.hyp] s (applySearch s f ph o) := by
  unfold applySearch
  split
  · exact (keeps_datapath s _ s.dp s.vit s.df s.hRs s.sym s.frm s.cw).trans
      ((keeps_clearDatapath _).mono (by simp))
  · exact .refl _ s

theorem keeps_applyHit (s : State) (x : Option Hit) : Keeps [.hyp] s (applyHit s x) := by
  cases x with
  | none => exact keeps_applySearch s _ _ _
  | some x => exact keeps_applySearch s _ _ _

theorem keeps_resyncAttempt (s : State) : Keeps [.hyp] s (resyncAttempt s) := by
  unfold resyncAttempt
  split
  · exact ((keeps_ctl s _ ⟨rfl, rfl⟩ rfl rfl).of_seq rfl).mono (by simp)
  · exact (keeps_datapath s _ s.dp s.vit s.df s.hRs s.sym s.frm s.cw).trans
      ((keeps_clearDatapath _).mono (by simp))

theorem keeps_resyncTested (s : State) : Keeps [.hyp] s (resyncTested s) := by
  unfold resyncTested
  split
  · exact keeps_resyncAttempt s
  · exact .refl _ s

theorem keeps_settleEmit {r : Except Fault State} (hr : ∀ u, r = .ok u → Keeps w s u)
    (ht : settleEmit s r = .next t) : Keeps w s t := by
  obtain ⟨u, hu, ⟨-, -, rfl⟩ | ⟨-, rfl⟩⟩ := (settleEmit_next_iff s r t).1 ht
  · exact .refl _ _
  · exact hr _ hu

theorem keeps_dataStep (h : dataStep s = .ok t) : Keeps [.seq, .outq] s t := by
  obtain ⟨q, -, hf⟩ := flow_dataStep h
  exact ((keeps_ctl s { s.ctl with symI := s.ctl.symI + 1, seq := q } ⟨rfl, rfl⟩ rfl rfl).mono
    (by simp)).trans (hf.keeps.mono (by simp))

theorem keeps_flushStep (h : flushStep s = .ok t) : Keeps [.seq, .outq] s t := by
  obtain ⟨n, f, q, -, hf⟩ := flow_flushStep h
  exact ((keeps_ctl s { s.ctl with flI := n, finalRun := f, seq := q } ⟨rfl, rfl⟩ rfl rfl).mono
    (by simp)).trans (hf.keeps.mono (by simp))

theorem readEntry_writes {e : SymWord} {r : List SymWord} (h : readEntry s e r = .ok t) :
    Keeps [.eosSeen, .seq, .inq] s t ∧ t.inq = r ∧
      (t.ctl.eosSeen = s.ctl.eosSeen ∨ t.ctl.eosSeen = true) ∧
      (t.ctl.seq = s.ctl.seq ∨ t.ctl.seq = .corr) := by
  unfold readEntry at h
  split at h
  · cases h
    refine ⟨fun r hr => ?_, rfl, .inr rfl, .inr rfl⟩
    cases r with
    | eosSeen | seq | inq => exact absurd (by decide) hr
    | _ => trivial
  · obtain ⟨_, -, rfl⟩ := (map_ok_iff _ _ _).1 h
    dsimp only
    split
    · refine ⟨fun r hr => ?_, rfl, .inl rfl, .inr rfl⟩
      cases r with
      | eosSeen | seq | inq => exact absurd (by decide) hr
      | _ => trivial
    · refine ⟨fun r hr => ?_, rfl, .inl rfl, .inl rfl⟩
      cases r with
      | eosSeen | seq | inq => exact absurd (by decide) hr
      | _ => trivial

theorem exec_ctlRead_writes (h : exec .ctlRead s = .next t) :
    Keeps [.eosSeen, .seq, .inq] s t ∧ t.inq = s.inq.tail ∧
      (t.ctl.eosSeen = s.ctl.eosSeen ∨ t.ctl.eosSeen = true) ∧
      (t.ctl.seq = s.ctl.seq ∨ t.ctl.seq = .corr) := by
  cases hin : s.inq with
  | nil =>
    cases (exec_ctlRead_nil hin).symm.trans h
    exact ⟨.refl _ _, hin, .inl rfl, .inl rfl⟩
  | cons e r =>
    rw [exec_ctlRead_cons hin] at h
    exact readEntry_writes ((settle_next_iff _ _).1 h)

end

/-! ## Every operation keeps to the table -/

/-- An operation of the datapath writes its registers and its buffers. -/
theorem keeps_of_datapath (s : State) {p : Phase} (h : p.hyp = s.ph.hyp) (d : Depunct) (v : Viterbi)
    (f : Deframer) (r : Vector (BitVec 8) 8) (x y z : Memory 8) : Keeps [] s { s with
      ph := p, dp := d, vit := v, df := f, hRs := r, sym := x, frm := y, cw := z } :=
  (keeps_datapath s p d v f r x y z).of_hyp h

theorem exec_keeps {i : Instr} {s t : State} (ht : exec i s = .next t) :
    Keeps (Instr.writes i) s t := by
  cases i with
  | hostCfgw a d =>
    by_cases hs : s.ctl.seq = .idle
    · cases (exec_hostCfgw_idle a d hs).symm.trans ht
      intro r hr
      cases r with
      | cfg => exact absurd List.mem_cons_self hr
      | _ => trivial
    · cases (exec_hostCfgw_notIdle a d hs).symm.trans ht
      exact .refl _ _
  | hostRd a =>
    cases ht
    intro r hr
    cases r with
    | reads => exact absurd List.mem_cons_self hr
    | _ => trivial
  | hostStart =>
    by_cases hs : s.ctl.seq = .idle
    · cases (exec_hostStart_idle hs).symm.trans ht
      exact keeps_ctl s _ ⟨rfl, rfl⟩ rfl rfl
    · cases (exec_hostStart_notIdle hs).symm.trans ht
      exact .refl _ _
  | hostCancel =>
    by_cases hs : Claims.modeNumber s.ctl.seq = 1
    · cases (exec_hostCancel_running hs).symm.trans ht
      intro r hr
      cases r with
      | cancelReq => exact absurd List.mem_cons_self hr
      | _ => trivial
    · cases (exec_hostCancel_notRunning hs).symm.trans ht
      exact .refl _ _
  | hostReset =>
    intro r hr
    cases r <;> exact absurd (by decide) hr
  | srcPush _ | srcEos =>
    cases ht
    intro r hr
    unfold present
    cases r with
    | inq => exact absurd List.mem_cons_self hr
    | _ => split <;> trivial
  | sinkPop =>
    cases hout : s.outq with
    | nil =>
      cases (exec_sinkPop_nil hout).symm.trans ht
      exact .refl _ _
    | cons f q =>
      cases (exec_sinkPop_cons hout).symm.trans ht
      intro r hr
      cases r with
      | popped | outq => exact absurd (by decide) hr
      | _ => trivial
  | corrScore =>
    obtain ⟨_, -, ht⟩ := (bind_ok_iff _ _ _).1 ((settle_next_iff _ _).1 ht)
    obtain ⟨_, -, ht⟩ := (bind_ok_iff _ _ _).1 ht
    obtain ⟨_, -, ht⟩ := (bind_ok_iff _ _ _).1 ht
    cases ht
    exact (Keeps.refl _ s).setRes _
  | corrSearch | vitFlush =>
    obtain ⟨_, -, rfl⟩ := (map_ok_iff _ _ _).1 ((settle_next_iff _ _).1 ht)
    exact (Keeps.refl _ s).setRes _
  | corrApply =>
    cases ht
    exact keeps_applySearch s _ _ _
  | phNext =>
    cases ht
    exact keeps_datapath s _ s.dp s.vit s.df s.hRs s.sym s.frm s.cw
  | phRot =>
    change execPhRot s = _ at ht
    unfold execPhRot at ht
    split at ht <;> cases ht <;> exact (Keeps.refl _ s).setRes _
  | phPush =>
    cases ht
    exact (keeps_of_datapath s (normalise_hyp _ _ _) _ _ _ _ _ _ _).setRes _
  | dpPush | vitStep | dfPush =>
    obtain ⟨_, -, rfl⟩ := (map_ok_iff _ _ _).1 ((settle_next_iff _ _).1 ht)
    exact (keeps_of_datapath s rfl _ _ _ _ _ _ _).setRes _
  | vitAcs | vitBer | rsDeint | rsReint =>
    obtain ⟨_, -, rfl⟩ := (map_ok_iff _ _ _).1 ((settle_next_iff _ _).1 ht)
    exact keeps_of_datapath s rfl _ _ _ _ _ _ _
  | vitLock | vitReset | dfReset | drApply | rsToconv | rsTodual =>
    cases ht
    exact keeps_of_datapath s rfl _ _ _ _ _ _ _
  | diffDec | rsDec =>
    cases ht
    exact (keeps_of_datapath s rfl _ _ _ _ _ _ _).setRes _
  | rsFrame =>
    obtain ⟨l, -, rfl⟩ := decodeFrame_ok ((settle_next_iff _ _).1 ht)
    exact keeps_of_datapath s rfl _ _ _ _ _ _ _
  | phClamp | phSwap | ccEnc | ccInv | vitBm | vitTb | rsSynd | ctlAccept =>
    cases ht
    exact (Keeps.refl _ s).setRes _
  | ctlCheck =>
    change execCtlCheck s = _ at ht
    unfold execCtlCheck at ht
    split at ht <;> cases ht
    · intro r hr
      cases r with
      | errors | seq => exact absurd (by decide) hr
      | _ => trivial
    · exact (keeps_goto s _).mono (w := [.errors, .seq]) (by simp)
  | ctlTop =>
    change execCtlTop s = _ at ht
    unfold execCtlTop at ht
    split at ht <;> cases ht <;> exact keeps_ctl s _ ⟨rfl, rfl⟩ rfl rfl
  | ctlRead => exact (exec_ctlRead_writes ht).1
  | ctlCorr =>
    change execCtlCorr s = _ at ht
    unfold execCtlCorr at ht
    dsimp only at ht
    split at ht
    · obtain ⟨_, -, rfl⟩ := (map_ok_iff _ _ _).1 ((settle_next_iff _ _).1 ht)
      have hctl := (keeps_ctl s { s.ctl with acqPending := false } ⟨rfl, rfl⟩ rfl rfl).of_seq rfl
      exact (hctl.mono (w := [.hyp, .seq]) (by simp)).trans
        (((keeps_applyHit _ _).mono (by simp)).trans ((keeps_goto _ _).mono (by simp)))
    · cases ht
      exact (keeps_goto s _).mono (w := [.hyp, .seq]) (by simp)
  | ctlData => exact keeps_settleEmit (fun _ hu => keeps_dataStep hu) ht
  | ctlFlush => exact keeps_settleEmit (fun _ hu => keeps_flushStep hu) ht
  | ctlBit => exact keeps_settleEmit (fun _ hu => (flow_routeBit hu).keeps) ht
  | ctlFrame => exact keeps_settleEmit (fun _ hu => (flow_processFrame hu).keeps) ht
  | ctlEmit =>
    by_cases hroom : Claims.roomInOut s
    · cases (exec_ctlEmit_room hroom).symm.trans ht
      intro r hr
      cases r with
      | outq => exact absurd List.mem_cons_self hr
      | _ => trivial
    · cases (exec_ctlEmit_full hroom).symm.trans ht
      exact .refl _ _
  | ctlRschk =>
    rw [exec_ctlRschk] at ht
    have hu := (keeps_resyncTested s).mono (w := [.hyp, .seq]) (by simp)
    split at ht <;> cases ht
    · have hctl := keeps_ctl (resyncTested s) { (resyncTested s).ctl with flI := 0, seq := .flush }
        ⟨rfl, rfl⟩ rfl rfl
      exact hu.trans (hctl.mono (by simp))
    · exact hu.trans ((keeps_goto _ _).mono (w := [.hyp, .seq]) (by simp))
  | ctlResync =>
    cases ht
    exact keeps_resyncAttempt s
  | ctlPublish =>
    cases ht
    intro r hr
    cases r with
    | health | seq => exact absurd (by decide) hr
    | _ => trivial
  | ctlHalt =>
    cases ht
    exact keeps_goto s _
  | ctlClear =>
    cases ht
    exact keeps_clearDatapath s

/-- A register that has changed stands in the operation's row of the table. -/
theorem mem_writes_of_changed {i : Instr} {s t : State} (ht : exec i s = .next t) {r : Reg}
    (h : ¬r.same s t) : r ∈ Instr.writes i :=
  by_contra fun hr => h (exec_keeps ht r hr)

/-! ## The rows of one register -/

theorem cfg_mem_writes {i : Instr} (hi : i ≠ .hostReset) (h : Reg.cfg ∈ Instr.writes i) :
    ∃ a d, i = .hostCfgw a d := by
  cases i with
  | hostCfgw a d => exact ⟨a, d, rfl⟩
  | hostReset => exact absurd rfl hi
  | _ => cases List.elem_eq_true_of_mem h

theorem health_mem_writes {i : Instr} (hi : i ≠ .hostReset) (h : Reg.health ∈ Instr.writes i) :
    i = .ctlPublish := by
  cases i with
  | ctlPublish => exact rfl
  | hostReset => exact absurd rfl hi
  | _ => cases List.elem_eq_true_of_mem h

theorem errors_mem_writes {i : Instr} (hi : i ≠ .hostReset) (h : Reg.errors ∈ Instr.writes i) :
    i = .ctlCheck := by
  cases i with
  | ctlCheck => exact rfl
  | hostReset => exact absurd rfl hi
  | _ => cases List.elem_eq_true_of_mem h

theorem cancelReq_mem_writes {i : Instr} (hi : i ≠ .hostReset)
    (h : Reg.cancelReq ∈ Instr.writes i) : i = .hostCancel := by
  cases i with
  | hostCancel => exact rfl
  | hostReset => exact absurd rfl hi
  | _ => cases List.elem_eq_true_of_mem h

theorem eosSeen_mem_writes {i : Instr} (hi : i ≠ .hostReset) (h : Reg.eosSeen ∈ Instr.writes i) :
    i = .ctlRead := by
  cases i with
  | ctlRead => exact rfl
  | hostReset => exact absurd rfl hi
  | _ => cases List.elem_eq_true_of_mem h

theorem hyp_mem_writes {i : Instr} (hi : i ≠ .hostReset) (h : Reg.hyp ∈ Instr.writes i) :
    i ∈ [.phNext, .corrApply, .ctlCorr, .ctlResync, .ctlRschk] := by
  cases i with
  | phNext | corrApply | ctlCorr | ctlResync | ctlRschk => exact by decide
  | hostReset => exact absurd rfl hi
  | _ => cases List.elem_eq_true_of_mem h

theorem popped_mem_writes {i : Instr} (hi : i ≠ .hostReset) (h : Reg.popped ∈ Instr.writes i) :
    i = .sinkPop := by
  cases i with
  | sinkPop => exact rfl
  | hostReset => exact absurd rfl hi
  | _ => cases List.elem_eq_true_of_mem h

theorem reads_mem_writes {i : Instr} (hi : i ≠ .hostReset) (h : Reg.reads ∈ Instr.writes i) :
    ∃ a, i = .hostRd a := by
  cases i with
  | hostRd a => exact ⟨a, rfl⟩
  | hostReset => exact absurd rfl hi
  | _ => cases List.elem_eq_true_of_mem h

theorem seq_mem_writes {i : Instr} (hi : i ≠ .hostReset) (h : Reg.seq ∈ Instr.writes i) :
    i ∈ [.hostStart, .ctlCheck, .ctlTop, .ctlRead, .ctlCorr, .ctlData, .ctlRschk, .ctlPublish,
      .ctlFlush, .ctlHalt] := by
  cases i with
  | hostStart | ctlCheck | ctlTop | ctlRead | ctlCorr | ctlData | ctlRschk | ctlPublish
  | ctlFlush | ctlHalt => exact by decide
  | hostReset => exact absurd rfl hi
  | _ => cases List.elem_eq_true_of_mem h

theorem inq_mem_writes {i : Instr} (hi : i ≠ .hostReset) (h : Reg.inq ∈ Instr.writes i) :
    i = .ctlRead ∨ i = .srcEos ∨ ∃ x, i = .srcPush x := by
  cases i with
  | ctlRead => exact .inl rfl
  | srcEos => exact .inr (.inl rfl)
  | srcPush x => exact .inr (.inr ⟨x, rfl⟩)
  | hostReset => exact absurd rfl hi
  | _ => cases List.elem_eq_true_of_mem h

theorem outq_mem_writes {i : Instr} (hi : i ≠ .hostReset) (h : Reg.outq ∈ Instr.writes i) :
    i = .sinkPop ∨ i ∈ [.ctlEmit, .ctlFrame, .ctlBit, .ctlData, .ctlFlush] := by
  cases i with
  | sinkPop => exact .inl rfl
  | ctlEmit | ctlFrame | ctlBit | ctlData | ctlFlush => exact .inr (by decide)
  | hostReset => exact absurd rfl hi
  | _ => cases List.elem_eq_true_of_mem h

/-! ## Where the sequencer goes -/

/-- What waits or completes leaves the sequencer where it was or where the computation puts it. -/
theorem seq_settleEmit {s t : State} {r : Except Fault State} {q : Seq}
    (hr : ∀ u, r = .ok u → u.ctl.seq = s.ctl.seq ∨ u.ctl.seq = q)
    (ht : settleEmit s r = .next t) : t.ctl.seq = s.ctl.seq ∨ t.ctl.seq = q := by
  obtain ⟨u, hu, ⟨-, -, rfl⟩ | ⟨-, rfl⟩⟩ := (settleEmit_next_iff s r t).1 ht
  · exact .inl rfl
  · exact hr _ hu

theorem seq_dataStep {s t : State} (h : dataStep s = .ok t) :
    t.ctl.seq = s.ctl.seq ∨ t.ctl.seq = .resync := by
  obtain ⟨q, hq, hf⟩ := flow_dataStep h
  have hseq : t.ctl.seq = q := by rw [hf.ctl]
  exact hseq.symm ▸ hq

theorem seq_flushStep {s t : State} (h : flushStep s = .ok t) :
    t.ctl.seq = s.ctl.seq ∨ t.ctl.seq = .publish := by
  obtain ⟨n, f, q, hq, hf⟩ := flow_flushStep h
  have hseq : t.ctl.seq = q := by rw [hf.ctl]
  exact hseq.symm ▸ hq

/-- IDLE is entered by reset only (R335). -/
theorem seq_ne_idle_of_moved {i : Instr} {s t : State} (ht : exec i s = .next t)
    (hi : i ∈ [.hostStart, .ctlCheck, .ctlTop, .ctlRead, .ctlCorr, .ctlData, .ctlRschk,
      .ctlPublish, .ctlFlush, .ctlHalt]) (h : t.ctl.seq ≠ s.ctl.seq) : t.ctl.seq ≠ .idle := by
  simp only [List.mem_cons, List.not_mem_nil, or_false] at hi
  rcases hi with rfl | rfl | rfl | rfl | rfl | rfl | rfl | rfl | rfl | rfl
  · change execHostStart s = _ at ht
    unfold execHostStart at ht
    split at ht <;> cases ht
    · exact Seq.noConfusion
    · exact absurd rfl h
  · change execCtlCheck s = _ at ht
    unfold execCtlCheck at ht
    split at ht <;> cases ht <;> exact Seq.noConfusion
  · change execCtlTop s = _ at ht
    unfold execCtlTop at ht
    split at ht <;> cases ht <;> exact Seq.noConfusion
  · obtain ⟨-, -, -, hs | hs⟩ := exec_ctlRead_writes ht
    · exact absurd hs h
    · exact fun e => by cases hs.symm.trans e
  · change execCtlCorr s = _ at ht
    unfold execCtlCorr at ht
    dsimp only at ht
    have hq : (if s.ctl.symN = 0 then Seq.resync else .data) ≠ .idle := by
      split <;> exact Seq.noConfusion
    split at ht
    · obtain ⟨_, -, rfl⟩ := (map_ok_iff _ _ _).1 ((settle_next_iff _ _).1 ht)
      exact hq
    · cases ht
      exact hq
  · rcases seq_settleEmit (fun _ hu => seq_dataStep hu) ht with hs | hs
    · exact absurd hs h
    · exact fun e => by cases hs.symm.trans e
  · rw [exec_ctlRschk] at ht
    split at ht <;> cases ht <;> exact Seq.noConfusion
  · rw [exec_ctlPublish] at ht
    cases ht
    show (if _ then _ else _) ≠ _
    split <;> exact Seq.noConfusion
  · rcases seq_settleEmit (fun _ hu => seq_flushStep hu) ht with hs | hs
    · exact absurd hs h
    · exact fun e => by cases hs.symm.trans e
  · cases ht
    exact Seq.noConfusion

/-! ## The FIFOs (R94) -/

theorem outq_settleEmit {s t : State} {r : Except Fault State}
    (hr : ∀ u, r = .ok u → ∃ l, u.outq = s.outq ++ l) (ht : settleEmit s r = .next t) :
    ∃ l, t.outq = s.outq ++ l := by
  obtain ⟨u, hu, ⟨-, -, rfl⟩ | ⟨-, rfl⟩⟩ := (settleEmit_next_iff s r t).1 ht
  · exact ⟨[], (List.append_nil _).symm⟩
  · exact hr _ hu

/-- Frames join OUT behind those that wait. -/
theorem outq_of_emitter {i : Instr} {s t : State} (ht : exec i s = .next t)
    (hi : i ∈ [.ctlEmit, .ctlFrame, .ctlBit, .ctlData, .ctlFlush]) :
    ∃ l, t.outq = s.outq ++ l := by
  simp only [List.mem_cons, List.not_mem_nil, or_false] at hi
  rcases hi with rfl | rfl | rfl | rfl | rfl
  · by_cases hroom : Claims.roomInOut s
    · cases (exec_ctlEmit_room hroom).symm.trans ht
      exact ⟨_, rfl⟩
    · cases (exec_ctlEmit_full hroom).symm.trans ht
      exact ⟨[], (List.append_nil _).symm⟩
  · exact outq_settleEmit (fun _ hu => (flow_processFrame hu).out) ht
  · exact outq_settleEmit (fun _ hu => (flow_routeBit hu).out) ht
  · refine outq_settleEmit (fun _ hu => ?_) ht
    obtain ⟨_, -, hf⟩ := flow_dataStep hu
    exact hf.out
  · refine outq_settleEmit (fun _ hu => ?_) ht
    obtain ⟨_, _, _, -, hf⟩ := flow_flushStep hu
    exact hf.out

theorem frames_sinkPop {s t : State} (ht : exec .sinkPop s = .next t) :
    t.env.popped ++ t.outq = s.env.popped ++ s.outq := by
  cases hout : s.outq with
  | nil =>
    cases (exec_sinkPop_nil hout).symm.trans ht
    rw [hout]
  | cons f r =>
    cases (exec_sinkPop_cons hout).symm.trans ht
    exact List.append_assoc _ _ _

theorem inq_present (s : State) (w : SymWord) :
    ∃ l, (present s w).inq = s.inq ++ l ∧ l.length ≤ 1 := by
  unfold present
  split
  · exact ⟨[], (List.append_nil _).symm, Nat.zero_le _⟩
  · exact ⟨[w], rfl, Nat.le_refl _⟩

end Sys2Proof.Machine

namespace Sys2Proof
open Sys2Proof.Machine

/-- Settles O12: each register's writers are read off the table of what operations write. -/
theorem registersHaveOneWriter : Obligations.RegistersHaveOneWriter := by
  intro i s t ht hi
  have hmem {r : Reg} (h : ¬r.same s t) := mem_writes_of_changed ht h
  refine ⟨fun h => ?_, fun h => health_mem_writes hi (hmem h), fun h => ?_, fun h => ?_,
    fun h => ?_, fun h => hyp_mem_writes hi (hmem h), fun h => popped_mem_writes hi (hmem h),
    fun h => reads_mem_writes hi (hmem h), fun h => ?_⟩
  · obtain ⟨a, d, rfl⟩ := cfg_mem_writes hi (hmem (r := .cfg) h)
    refine ⟨by_contra fun hs => h ?_, a, d, rfl⟩
    cases (exec_hostCfgw_notIdle a d hs).symm.trans ht
    rfl
  · exact errors_mem_writes hi (hmem fun hs => h.elim (· hs.1) (· hs.2))
  · cases cancelReq_mem_writes hi (hmem h)
    by_cases hs : Claims.modeNumber s.ctl.seq = 1
    · cases (exec_hostCancel_running hs).symm.trans ht
      exact ⟨rfl, hs, rfl⟩
    · cases (exec_hostCancel_notRunning hs).symm.trans ht
      exact absurd rfl h
  · cases eosSeen_mem_writes hi (hmem h)
    obtain ⟨-, -, he, -⟩ := exec_ctlRead_writes ht
    exact ⟨rfl, he.resolve_left h⟩
  · have hseq := seq_mem_writes hi (hmem h)
    refine ⟨?_, ?_, ?_, ?_, ?_, seq_ne_idle_of_moved ht hseq h⟩
    · intro hout
      simp only [List.mem_cons, List.not_mem_nil, or_false] at hseq hout
      rcases hout with rfl | rfl | rfl <;> simp at hseq
    · rintro a d rfl
      simp at hseq
    · rintro a rfl
      simp at hseq
    · rintro x rfl
      simp at hseq
    · rintro rfl
      by_cases hs : s.ctl.seq = .idle
      · cases (exec_hostStart_idle hs).symm.trans ht
        exact ⟨hs, rfl⟩
      · cases (exec_hostStart_notIdle hs).symm.trans ht
        exact absurd rfl h

/-- Settles O13: the operations that write OUT or IN, one by one; all others leave both. -/
theorem streamsKeepTheirOrder : Obligations.StreamsKeepTheirOrder := by
  intro i s t ht hi
  refine ⟨?_, fun h => ?_, fun h => ?_⟩
  · by_cases hpop : i = .sinkPop
    · subst hpop
      exact ⟨[], (frames_sinkPop ht).trans (List.append_nil _).symm, fun h => absurd rfl h⟩
    have hpopped : t.env.popped = s.env.popped :=
      exec_keeps ht .popped fun h => hpop (popped_mem_writes hi h)
    by_cases hemit : i ∈ [.ctlEmit, .ctlFrame, .ctlBit, .ctlData, .ctlFlush]
    · obtain ⟨l, hl⟩ := outq_of_emitter ht hemit
      exact ⟨l, by rw [hpopped, hl, List.append_assoc], fun _ => hemit⟩
    · have hout : t.outq = s.outq :=
        exec_keeps ht .outq fun h => (outq_mem_writes hi h).elim hpop hemit
      exact ⟨[], by rw [hpopped, hout, List.append_nil], fun h => absurd rfl h⟩
  · subst h
    exact (exec_ctlRead_writes ht).2.1
  · by_cases hw : Reg.inq ∈ Instr.writes i
    · rcases inq_mem_writes hi hw with rfl | rfl | ⟨x, rfl⟩
      · exact absurd rfl h
      · cases ht
        exact inq_present s _
      · cases ht
        exact inq_present s _
    · have hin : t.inq = s.inq := exec_keeps ht .inq hw
      exact ⟨[], hin.trans (List.append_nil _).symm, Nat.zero_le _⟩

end Sys2Proof
end

section
/-! SUPPORT. The decoder over many steps (43_viterbi): the range of the path metrics (R216), the
survivors read back by VIT.TB and VIT.FLUSH (R217 to R220, R232), the composite step (R230). -/

namespace Sys2Proof.Machine

/-! ## The range of the path metrics (R216) -/

section
variable {c : Cfg} {v u : Viterbi} {m : Metrics}

theorem metric_addCompareSelect_le (h : addCompareSelect c v m = .ok u) (t : BitVec 6) :
    u.metric t ≤ newMetric v m t - minOver (newMetric v m) := by
  rw [metric_addCompareSelect h]
  exact Nat.mod_le _ _

/-- No candidate is below the smallest metric, so what is subtracted is not either. -/
theorem minOver_metric_le (v : Viterbi) (m : Metrics) :
    minOver v.metric ≤ minOver (newMetric v m) := by
  obtain ⟨t, ht⟩ := minOver_mem (newMetric v m)
  rw [ht]
  exact (minOver_le v.metric (predecessor t (decision v m t))).trans (Nat.le_add_right _ _)

theorem newMetric_le_add (hm : Claims.smallMetrics m) (t : BitVec 6) (d : Bool) :
    newMetric v m t ≤ v.metric (predecessor t d) + 508 :=
  (newMetric_le v m t d).trans (Nat.add_le_add_left (hm _ _) _)

/-- A block of `2 ^ k` states that `k` steps reach from one state lies within `508 × k` of the
smallest metric. -/
def Near (v : Viterbi) (k : Nat) : Prop :=
  ∃ z < 2 ^ (6 - k), ∀ t : BitVec 6, t.toNat / 2 ^ k = z →
    v.metric t ≤ minOver v.metric + 508 * k

theorem near_zero (v : Viterbi) : Near v 0 := by
  obtain ⟨x, hx⟩ := minOver_mem v.metric
  refine ⟨x.toNat, x.isLt, fun t ht => ?_⟩
  have htx : t = x := BitVec.eq_of_toNat_eq (by simpa using ht)
  rw [htx, hx]
  exact Nat.le_add_right _ _

/-- One of the two predecessors of a state lies in the block one step back. -/
theorem exists_predecessor_in_block {k z : Nat} (hk : k < 6) (hz : z < 2 ^ (6 - k)) {t : BitVec 6}
    (ht : t.toNat / 2 ^ (k + 1) = z % 2 ^ (5 - k)) : ∃ d, (predecessor t d).toNat / 2 ^ k = z := by
  have hd : z / 2 ^ (5 - k) < 2 := by
    rw [Nat.div_lt_iff_lt_mul (Nat.two_pow_pos _), ← Nat.pow_succ']
    rwa [show (5 - k).succ = 6 - k by omega]
  obtain ⟨d, hd⟩ : ∃ d : Bool, d.toNat = z / 2 ^ (5 - k) := by
    interval_cases z / 2 ^ (5 - k)
    · exact ⟨false, rfl⟩
    · exact ⟨true, rfl⟩
  refine ⟨d, ?_⟩
  have htl := t.isLt
  rw [toNat_predecessor, hd]
  interval_cases k <;> norm_num at ht hz ⊢ <;> omega

theorem near_succ (h : addCompareSelect c v m = .ok u) (hm : Claims.smallMetrics m) {k : Nat}
    (hk : k < 6) (hv : Near v k) : Near u (k + 1) := by
  obtain ⟨z, hz, hb⟩ := hv
  refine ⟨z % 2 ^ (5 - k), ?_, fun t ht => ?_⟩
  · rw [show 6 - (k + 1) = 5 - k by omega]
    exact Nat.mod_lt _ (Nat.two_pow_pos _)
  · obtain ⟨d, hd⟩ := exists_predecessor_in_block hk hz ht
    have hpred := hb _ hd
    have hnew := newMetric_le_add (v := v) hm t d
    have hmin := minOver_metric_le v m
    have hle := metric_addCompareSelect_le h t
    omega

/-- The blocks after one more step. -/
theorem near_step (h : addCompareSelect c v m = .ok u) (hm : Claims.smallMetrics m) {n : Nat}
    (hv : ∀ k ≤ min n 6, Near v k) : ∀ k ≤ min (n + 1) 6, Near u k := by
  intro k hk
  cases k with
  | zero => exact near_zero u
  | succ k => exact near_succ h hm (by omega) (hv k (by omega))

theorem metric_step_le (h : addCompareSelect c v m = .ok u) (hm : Claims.smallMetrics m) {b : Nat}
    (hv : ∀ x, v.metric x ≤ b) (x : BitVec 6) : u.metric x ≤ b + 508 := by
  have hle := metric_addCompareSelect_le h x
  have hnew := newMetric_le_add (v := v) hm x false
  have hpred := hv (predecessor x false)
  omega

end

theorem minOver_metric_of_zero {v : Viterbi} (h : ∃ x, v.metric x = 0) : minOver v.metric = 0 := by
  obtain ⟨x, hx⟩ := h
  exact Nat.le_zero.1 (hx ▸ minOver_le v.metric x)

/-- Latch of the branch metrics. -/
def latchMetrics (m : Metrics) (a : Args) : Args := { a with bm := m }

/-- The metrics after a run of VIT.ACS: the blocks have grown, the largest metric by at most 508 a
step, and some metric is 0 once a step was made. -/
theorem feed_vitAcs (ms : List Metrics) {s : State} (hw : s.vit.histWp.toNat < s.cfg.tbd)
    (hms : ∀ m ∈ ms, Claims.smallMetrics m) {n b : Nat} (hn : ∀ k ≤ min n 6, Near s.vit k)
    (hb : ∀ x, s.vit.metric x ≤ b) :
    ∃ res t, Claims.feed .vitAcs latchMetrics ms s = some (res, t) ∧
      (∀ k ≤ min (n + ms.length) 6, Near t.vit k) ∧
      (∀ x, t.vit.metric x ≤ b + 508 * ms.length) ∧
      ((ms ≠ [] ∨ ∃ x, s.vit.metric x = 0) → ∃ x, t.vit.metric x = 0) := by
  induction ms generalizing s n b with
  | nil => exact ⟨[], s, rfl, hn, hb, fun h => h.resolve_left fun hne => hne rfl⟩
  | cons m r ih =>
    obtain ⟨u, hu⟩ := addCompareSelect_total (c := s.cfg) (v := s.vit) hw m
    have hm := hms m List.mem_cons_self
    obtain ⟨-, heq⟩ := addCompareSelect_ok hu
    have hwp : u.histWp = s.vit.histWp := by rw [heq]
    have hstep : exec .vitAcs (Claims.withArgs s (latchMetrics m)) =
      .next { Claims.withArgs s (latchMetrics m) with vit := u } := exec_vitAcs hu
    obtain ⟨res, t, ht, hnear, hle, hzero⟩ :=
      ih (s := { Claims.withArgs s (latchMetrics m) with vit := u }) (by rwa [hwp])
        (fun x hx => hms x (List.mem_cons_of_mem _ hx)) (near_step hu hm hn)
        (metric_step_le hu hm hb)
    refine ⟨_, t, feed_cons hstep ht, ?_, fun x => ?_,
      fun _ => hzero (.inr (zero_addCompareSelect hu))⟩
    · rwa [List.length_cons, Nat.add_comm r.length, ← Nat.add_assoc]
    · rw [List.length_cons]
      have := hle x
      omega

/-! ## Rings and survivors (R217 to R219) -/

theorem ringBack_eq {wp k n : Nat} (hk : k ≤ n) : ringBack wp k n = (wp + n - k) % n := by
  have hcast : ((wp + n - k : Nat) : Int) = (wp : Int) - k + n := by omega
  unfold ringBack
  rw [← Int.add_emod_right, ← hcast]
  rfl

/-- Reading back along the decisions is the loop of R219. -/
theorem survivorPath_eq_foldl {c : Cfg} {v : Viterbi} {last n : Nat} {st : BitVec 6}
    {path : Nat → BitVec 6} (hp : Claims.survivorPath c v last n st path) {k : Nat} (hk : k ≤ n)
    (hn : n ≤ c.tbd) :
    (List.range k).foldl (fun x j => stepBack (v.hist.read (ringBack last j c.tbd)) x) st =
      path k := by
  obtain ⟨h0, hstep⟩ := hp
  induction k with
  | zero => exact h0.symm
  | succ k ih =>
    rw [List.range_succ, List.foldl_append, ih (by omega), List.foldl_cons, List.foldl_nil,
      hstep k (by omega), stepBack, predecessor_eq_pred, ringBack_eq (by omega)]
    rfl

/-- The search over the 64 states finds the lowest-numbered one. -/
theorem find?_trellisStates {p : BitVec 6 → Bool} {st : BitVec 6}
    (h : Claims.lowest (fun x => p x = true) st) : trellisStates.find? p = some st := by
  obtain ⟨hst, hlow⟩ := h
  unfold trellisStates
  rw [List.find?_map, List.find?_range_eq_some.2, Option.map_some]
  · rw [BitVec.ofNat_toNat, BitVec.setWidth_eq]
  · refine ⟨?_, List.mem_range.2 st.isLt, fun j hj => ?_⟩
    · rwa [Function.comp, BitVec.ofNat_toNat, BitVec.setWidth_eq]
    · have hj64 : j < 64 := hj.trans st.isLt
      rw [Function.comp, Bool.not_eq_true']
      refine eq_false_of_ne_true fun hpj => ?_
      have := hlow _ hpj
      rw [BitVec.toNat_ofNat, Nat.mod_eq_of_lt hj64] at this
      omega

theorem traceStart_eq {v : Viterbi} {st : BitVec 6}
    (h : Claims.lowest (fun x => v.metric x = 0) st) : traceStart v = st := by
  unfold traceStart
  rw [find?_trellisStates (st := st)]
  simpa only [beq_iff_eq] using h

theorem bestState_eq {v : Viterbi} {st : BitVec 6}
    (h : Claims.lowest (fun x => ∀ y, v.metric x ≤ v.metric y) st) : bestState v = st := by
  have hmin (x : BitVec 6) : (∀ y, v.metric x ≤ v.metric y) ↔ v.metric x = minOver v.metric := by
    obtain ⟨t, ht⟩ := minOver_mem v.metric
    exact ⟨fun hx => Nat.le_antisymm (ht ▸ hx t) (minOver_le _ _), fun hx y => hx ▸ minOver_le _ _⟩
  unfold bestState
  rw [find?_trellisStates (st := st)]
  simpa only [beq_iff_eq, hmin] using h

theorem exec_vitTb (s : State) :
    exec .vitTb s = .next (s.setRes (.bit (traceback s.cfg s.vit))) := rfl

/-! ## VIT.FLUSH (R232) -/

theorem length_flushBits (c : Cfg) (v : Viterbi) (last n k : Nat) (st : BitVec 6) :
    (flushBits c v last n k st).length = n := by
  induction n generalizing k st with
  | zero => rfl
  | succ n ih => rw [flushBits, List.length_cons, ih]

theorem getElem?_flushBits {c : Cfg} {v : Viterbi} {last N : Nat} {st : BitVec 6}
    {path : Nat → BitVec 6} (hp : Claims.survivorPath c v last N st path) (hN : N ≤ c.tbd)
    {n k j : Nat} (hn : k + n ≤ N) (hj : j < n) :
    (flushBits c v last n k (path k))[j]? = some ((path (k + j + 1)).getLsbD 0) := by
  induction n generalizing k j with
  | zero => cases hj
  | succ n ih =>
    have hnext : stepBack (v.hist.read (ringBack last k c.tbd)) (path k) = path (k + 1) := by
      rw [hp.2 k (by omega), stepBack, predecessor_eq_pred, ringBack_eq (by omega)]
      rfl
    rw [flushBits, hnext]
    cases j with
    | zero => rfl
    | succ j =>
      rw [List.getElem?_cons_succ, ih (by omega) (by omega)]
      congr 3
      omega

/-- How many bits the decoder still holds. -/
theorem heldBits_eq {c : Cfg} {v : Viterbi} (h : v.vitN.toNat ≤ c.tbd + 1) :
    heldBits c v = min v.vitN.toNat c.tbd := by
  unfold heldBits
  split <;> omega

theorem flushList_none {c : Cfg} {v : Viterbi} (h : v.vitN.toNat = 0) :
    flushList c v = .ok [] :=
  if_pos (BitVec.eq_of_toNat_eq h)

theorem flushList_some {c : Cfg} {v : Viterbi} (hc : 0 < c.tbd) (h : v.vitN.toNat ≠ 0) :
    flushList c v = .ok (((bestState v).getLsbD 0 :: flushBits c v
      (ringBack v.histWp.toNat 1 c.tbd) (heldBits c v - 1) 0 (bestState v)).reverse) := by
  unfold flushList
  rw [if_neg fun e => h (congrArg BitVec.toNat e), if_neg fun e => hc.ne' e.1]

/-- The bits VIT.FLUSH returns, by the survivor they are read from. -/
theorem flushList_spec {c : Cfg} {v : Viterbi} (hc : 0 < c.tbd) (hn : v.vitN.toNat ≤ c.tbd + 1) :
    ∃ l, flushList c v = .ok l ∧ l.length = min v.vitN.toNat c.tbd ∧
      ∀ st path, Claims.lowest (fun x => ∀ y, v.metric x ≤ v.metric y) st →
        Claims.survivorPath c v ((v.histWp.toNat + c.tbd - 1) % c.tbd) (l.length - 1) st path →
        ∀ k < l.length, l.reverse[k]? = some ((path k).getLsbD 0) := by
  by_cases h0 : v.vitN.toNat = 0
  · refine ⟨[], flushList_none h0, ?_, fun _ _ _ _ k hk => by cases hk⟩
    rw [h0, Nat.zero_min]
    rfl
  · refine ⟨_, flushList_some hc h0, ?_, fun st path hst hpath k hk => ?_⟩
    · rw [List.length_reverse, List.length_cons, length_flushBits, heldBits_eq hn]
      omega
    · rw [List.length_reverse, List.length_cons, length_flushBits, heldBits_eq hn] at hpath hk
      rw [List.reverse_reverse, bestState_eq hst, ← hpath.1, ringBack_eq hc]
      cases k with
      | zero => rfl
      | succ k =>
        rw [List.getElem?_cons_succ, heldBits_eq hn,
          getElem?_flushBits hpath (by omega) (by omega) (by omega), Nat.zero_add]

/-! ## The composite step (R230) -/

section
variable {c : Cfg} {v v1 v3 : Viterbi} {r1 r2 : Soft}

/-- The bit VIT.STEP returns after the add-compare-select `v1`. -/
def decodedBit (c : Cfg) (v1 : Viterbi) : Option Bool :=
  if (countStep c v1).vitN.toNat = c.tbd + 1 then some (traceback c (countStep c v1)) else none

theorem trellisStep_eq (h1 : addCompareSelect c v (branchMetrics r1 r2) = .ok v1)
    (h3 : errorRate c (countStep c v1) r1 r2 (decodedBit c v1) = .ok v3) :
    trellisStep c v r1 r2 = .ok
      ({ v3 with histWp := BitVec.ofNat 8 ((v.histWp.toNat + 1) % c.tbd) }, decodedBit c v1) := by
  have hwp : v3.histWp = v.histWp := by
    obtain ⟨-, -, -, -, h, -⟩ := errorRate_ok h3
    obtain ⟨n, hn, -⟩ := countStep_eq c v1
    obtain ⟨-, h'⟩ := addCompareSelect_ok h1
    rw [h, hn, h']
  unfold trellisStep
  rw [h1, ok_bind]
  change (errorRate c (countStep c v1) r1 r2 (decodedBit c v1) >>= _) = _
  rw [h3, ok_bind, hwp]
  rfl

theorem toNat_vitN_countStep (c : Cfg) (v : Viterbi) :
    (countStep c v).vitN.toNat =
      if v.vitN.toNat < c.tbd + 1 then v.vitN.toNat + 1 else v.vitN.toNat := by
  have htbd := c.tbd_lt
  unfold countStep
  split
  · exact BitVec.toNat_add_of_lt (show v.vitN.toNat + 1 < 2 ^ 9 by omega)
  · rfl

theorem countStep_eq_vitN (c : Cfg) (v : Viterbi) :
    countStep c v = { v with vitN := (countStep c v).vitN } := by
  unfold countStep
  split <;> rfl

theorem exec_vitStep {s : State} {r : Viterbi × Option Bool}
    (h : trellisStep s.cfg s.vit s.env.args.x s.env.args.y = .ok r) :
    exec .vitStep s = .next (({ s with vit := r.1 } : State).setRes (.bitOpt r.2)) := by
  show execVitStep s = _
  unfold execVitStep
  rw [h, ok_map]
  rfl

end

end Sys2Proof.Machine

namespace Sys2Proof
open Sys2Proof.Machine Sys2Proof.Claims

/-- Settles O31: blocks of states near the smallest metric double with each of six steps. -/
theorem pathMetricsStaySmall : Obligations.PathMetricsStaySmall := by
  intro s ms hw hms _
  have hstart : ∀ k ≤ min 0 6, Near s.vit k := by
    intro k hk
    rw [Nat.zero_min, Nat.le_zero] at hk
    rw [hk]
    exact near_zero s.vit
  have hmax : ∃ b, ∀ x, s.vit.metric x ≤ b :=
    ⟨2 ^ 16, fun x => (BitVec.isLt _).le⟩
  obtain ⟨b, hb⟩ := hmax
  obtain ⟨res, t, ht, hnear, -, hzero⟩ := feed_vitAcs ms hw hms hstart hb
  have hlate : 6 ≤ ms.length → ∀ x, t.vit.metric x ≤ 3048 := by
    intro hlen x
    have hne : ms ≠ [] := by
      rintro rfl
      cases hlen
    obtain ⟨z, hz, hblock⟩ := hnear 6 (by omega)
    have hx := hblock x (by have := x.isLt; omega)
    rwa [minOver_metric_of_zero (hzero (.inl hne)), Nat.zero_add] at hx
  refine ⟨res, t, ht, hlate, fun h0 x => ?_, fun hne => hzero (.inl hne)⟩
  rcases Nat.lt_or_ge ms.length 6 with hlt | hge
  · obtain ⟨res', t', ht', -, hle, -⟩ := feed_vitAcs ms hw hms hstart fun x => (h0 x).le
    cases ht.symm.trans ht'
    have := hle x
    omega
  · have := hlate hge x
    omega

/-- Settles O32: VIT.TB's loop is the survivor read backwards. -/
theorem tracebackFollowsDecisions : Obligations.TracebackFollowsDecisions := by
  refine fun s => ⟨fun st path hst hpath => ?_, _, exec_vitTb s⟩
  rw [exec_vitTb, traceback, traceStart_eq hst, survivorPath_eq_foldl hpath le_rfl le_rfl]
  rfl

/-- Settles O35: the step cut into its operations. -/
theorem trellisStepComposite : Obligations.TrellisStepComposite := by
  intro s hw
  obtain ⟨v1, h1⟩ := addCompareSelect_total hw (branchMetrics s.env.args.x s.env.args.y)
  have hv1 : v1.histWp = s.vit.histWp ∧ v1.vitN = s.vit.vitN := by
    obtain ⟨-, h⟩ := addCompareSelect_ok h1
    rw [h]
    exact ⟨rfl, rfl⟩
  have hn : (countStep s.cfg v1).vitN.toNat = _ := toNat_vitN_countStep s.cfg v1
  have hw2 : (countStep s.cfg v1).histWp.toNat < s.cfg.tbd := by
    rw [countStep_eq_vitN, hv1.1]
    exact hw
  obtain ⟨v3, h3⟩ := errorRate_total hw2 s.env.args.x s.env.args.y (decodedBit s.cfg v1)
  have hbit : (if decide ((countStep s.cfg v1).vitN.toNat = s.cfg.tbd + 1) = true then
      some (traceback s.cfg (countStep s.cfg v1)) else none) = decodedBit s.cfg v1 := by
    simp only [decide_eq_true_iff]
    rfl
  rw [countStep_eq_vitN] at h3
  refine ⟨_, _, (countStep s.cfg v1).vitN, traceback s.cfg (countStep s.cfg v1), _, exec_vitBm s,
    exec_vitAcs h1, ?_, ?_, exec_vitBer hbit h3, ?_⟩
  · rw [hn, hv1.2]
  · rw [exec_vitTb]
    dsimp only
    rw [← countStep_eq_vitN]
    rfl
  · rw [← countStep_eq_vitN] at h3
    rw [exec_vitStep (trellisStep_eq h1 h3)]
    rfl

/-- Settles O37: the bits VIT.FLUSH returns stand on the survivor of the best state. -/
theorem flushReadsSurvivor : Obligations.FlushReadsSurvivor := by
  intro s hc hn
  obtain ⟨l, hl, hlen, hpath⟩ := flushList_spec hc hn
  exact ⟨l, exec_vitFlush hl, hlen, hpath⟩

end Sys2Proof
end

section
/-! SUPPORT. The deframer (44_deframer): the marker match of R251, DF.PUSH case by case (R254), the
bits it stores (R253, R258). -/

namespace Sys2Proof.Machine

/-! ## The shift register and the marker (R251) -/

theorem dfSr_shiftIn (c : Cfg) (d : Deframer) (b : Bool) :
    (shiftIn c d b).dfSr = Claims.shifted d b := by
  apply BitVec.eq_of_toNat_eq
  have hb : b.toNat < 2 := Bool.toNat_lt b
  show (d.dfSr.extractLsb' 0 63 ++ BitVec.ofBool b).toNat = _
  rw [toNat_append_eq_add, BitVec.extractLsb'_toNat, Nat.shiftRight_zero, Claims.shifted,
    BitVec.toNat_ofNat, BitVec.toNat_ofBool]
  omega

theorem getLsbD_shifted_zero (d : Deframer) (b : Bool) : (Claims.shifted d b).getLsbD 0 = b := by
  have hmod : (2 * d.dfSr.toNat + b.toNat) % 2 = b.toNat := by
    have hb : b.toNat < 2 := Bool.toNat_lt b
    omega
  rw [Claims.shifted, BitVec.getLsbD_ofNat, Nat.testBit_zero, hmod]
  cases b <;> rfl

theorem getLsbD_shifted_succ (d : Deframer) (b : Bool) {i : Nat} (hi : i < 63) :
    (Claims.shifted d b).getLsbD (i + 1) = d.dfSr.getLsbD i := by
  have hhalf : (2 * d.dfSr.toNat + b.toNat) / 2 = d.dfSr.toNat := by
    have hb : b.toNat < 2 := Bool.toNat_lt b
    omega
  rw [Claims.shifted, BitVec.getLsbD_ofNat, Nat.testBit_succ, hhalf,
    decide_eq_true (Nat.succ_lt_succ hi), Bool.true_and]
  rfl

/-- Past the last place where the property can hold nothing is counted. -/
theorem countP_range_of_le {p : Nat → Bool} {m n : Nat} (hmn : m ≤ n)
    (h : ∀ i, m ≤ i → i < n → p i = false) : (List.range n).countP p = (List.range m).countP p := by
  obtain ⟨k, rfl⟩ := Nat.exists_eq_add_of_le hmn
  rw [List.range_add, List.countP_append, List.countP_map, Nat.add_eq_left, List.countP_eq_zero]
  intro i hi
  rw [Function.comp, h (m + i) (Nat.le_add_right m i)
    (Nat.add_lt_add_left (List.mem_range.1 hi) m)]
  exact Bool.false_ne_true

theorem popcount_masked (x : BitVec 64) (n : Nat) :
    popcount (x &&& BitVec.ofNat 64 (2 ^ n - 1)) =
      (List.range n).countP fun i => x.getLsbD i := by
  have hbit : ∀ i, (x &&& BitVec.ofNat 64 (2 ^ n - 1)).getLsbD i =
      (x.getLsbD i && decide (i < n)) := by
    intro i
    rw [BitVec.getLsbD_and, BitVec.getLsbD_ofNat, Nat.testBit_two_pow_sub_one]
    by_cases hi : i < 64
    · simp [hi]
    · simp [BitVec.getLsbD_of_ge x i (by omega)]
  have hcut : (List.range (min 64 n)).countP (fun i => x.getLsbD i && decide (i < n)) =
      (List.range (min 64 n)).countP fun i => x.getLsbD i := by
    refine List.countP_congr fun i hi => ?_
    have := List.mem_range.1 hi
    simp [show i < n by omega]
  unfold popcount
  simp only [hbit]
  rw [countP_range_of_le (Nat.min_le_left 64 n), hcut, countP_range_of_le (Nat.min_le_right 64 n)]
  · exact fun i hi hn => BitVec.getLsbD_of_ge x i (by omega)
  · intro i hi h64
    rw [decide_eq_false (by omega), Bool.and_false]

theorem markerMatches_iff (c : Cfg) (sr : BitVec 64) :
    markerMatches c sr = true ↔ Claims.matching c sr := by
  unfold markerMatches Claims.matching
  rw [decide_eq_true_iff, popcount_masked]
  simp only [BitVec.getLsbD_xor]

/-! ## Bits of the frame (R86, R253) -/

theorem getLsbD_setBit (v : Byte) {i j : Nat} (hi : i < 8) (hj : j < 8) (b : Bool) :
    (setBit v i b).getLsbD j = if j = i then b else v.getLsbD j := by
  have hone : (1#8 <<< i).getLsbD j = decide (j = i) := by
    simp only [BitVec.getLsbD_shiftLeft, BitVec.getLsbD_one]
    by_cases h : j = i
    · simp [h, hi]
    · rcases Nat.lt_or_gt_of_ne h with hlt | hgt
      · simp [hlt, h]
      · simp [h, show j - i ≠ 0 by omega]
  unfold setBit
  cases b with
  | true =>
    rw [if_pos rfl, BitVec.getLsbD_or, hone]
    by_cases h : j = i <;> simp [h]
  | false =>
    rw [if_neg Bool.false_ne_true, BitVec.getLsbD_and, BitVec.getLsbD_not, hone]
    by_cases h : j = i <;> simp [h, hj]

theorem storeBit_ok {c : Cfg} {frm f : Memory 8} {k : Nat} {b : Bool}
    (h : storeBit c frm k b = .ok f) :
    k / 8 < c.frameBytes ∧ f = frm.write (k / 8) (setBit (frm.read (k / 8)) (7 - k % 8) b) := by
  obtain ⟨_, hw, rfl⟩ := (map_ok_iff _ _ _).1 h
  exact ⟨(within_ok_iff _).1 hw, rfl⟩

theorem frameBit_storeBit {c : Cfg} {frm f : Memory 8} {k : Nat} {b : Bool} (hm : frm.wf)
    (h : storeBit c frm k b = .ok f) (j : Nat) :
    Claims.frameBit f j = if j = k then b else Claims.frameBit frm j := by
  obtain ⟨-, rfl⟩ := storeBit_ok h
  unfold Claims.frameBit
  rw [Memory.read_write _ _ _ _ hm]
  by_cases hbyte : j / 8 = k / 8
  · rw [if_pos hbyte, getLsbD_setBit _ (by omega) (by omega), hbyte]
    have hplace : 7 - j % 8 = 7 - k % 8 ↔ j = k := by omega
    simp only [hplace]
  · rw [if_neg hbyte, if_neg fun e => hbyte (by rw [e])]

theorem frameBit_storeBits {c : Cfg} {bits : List Bool} {frm f : Memory 8} {k : Nat} (hm : frm.wf)
    (h : storeBits c frm k bits = .ok f) (j : Nat) :
    Claims.frameBit f j =
      if k ≤ j ∧ j < k + bits.length then bits.getD (j - k) false else Claims.frameBit frm j := by
  induction bits generalizing frm k with
  | nil =>
    cases h
    rw [if_neg]
    rintro ⟨h1, h2⟩
    exact absurd h2 (Nat.not_lt.2 h1)
  | cons b r ih =>
    obtain ⟨g, hg, h⟩ := (bind_ok_iff _ _ _).1 h
    rw [ih (wf_storeBit hm hg) h, frameBit_storeBit hm hg]
    rcases Nat.lt_trichotomy j k with hlt | rfl | hgt
    · rw [if_neg (by omega), if_neg (by omega), if_neg (by omega)]
    · rw [if_neg (by omega), if_pos rfl, if_pos (by rw [List.length_cons]; omega), Nat.sub_self]
      rfl
    · obtain ⟨i, rfl⟩ := Nat.exists_eq_add_of_lt hgt
      rw [if_neg (show k + i + 1 ≠ k by omega), List.length_cons,
        show k + i + 1 - k = i + 1 by omega, show k + i + 1 - (k + 1) = i by omega,
        List.getD_cons_succ]
      refine if_congr ?_ rfl rfl
      omega

/-! ## DF.PUSH case by case (R254) -/

theorem exec_dfPush {s : State} {p : Pushed}
    (h : pushBit s.cfg s.df s.frm s.env.args.bit = .ok p) :
    exec .dfPush s = .next (({ s with df := p.df, frm := p.frm } : State).setRes
      (.frame (if p.frame then some (Claims.frameBytesOf s.cfg p.frm) else none))) := by
  show execDfPush s = _
  unfold execDfPush
  rw [h, ok_map]
  rfl

section
variable {c : Cfg} {d : Deframer} {frm f : Memory 8} {b : Bool}

theorem toNat_bitctr_shiftIn (hc : c.Legal) (d : Deframer) (b : Bool) :
    (shiftIn c d b).dfBitctr.toNat = (d.dfBitctr.toNat + 1) % c.frameBits := by
  have hpos : c.frameBits ≠ 0 := by have := hc.frame.1; omega
  have hlt := c.frameBits_lt
  have hmod : modFree (d.dfBitctr.toNat + 1) c.frameBits =
      (d.dfBitctr.toNat + 1) % c.frameBits := if_neg hpos
  show (BitVec.ofNat 20 (modFree (d.dfBitctr.toNat + 1) c.frameBits)).toNat = _
  rw [hmod, BitVec.toNat_ofNat]
  exact Nat.mod_eq_of_lt ((Nat.mod_lt _ (by omega)).trans hlt)

/-- In SEARCHING without a match only the shift register and the bit counter move. -/
theorem pushBit_searching (hs : d.dfState = .searching)
    (hm : ¬Claims.matching c (Claims.shifted d b)) :
    pushBit c d frm b = .ok ⟨shiftIn c d b, frm, false⟩ := by
  unfold pushBit
  dsimp only
  rw [if_pos hs, if_neg]
  rwa [dfSr_shiftIn, markerMatches_iff]

/-- The registers after a match in SEARCHING. -/
def startedChecking (c : Cfg) (d : Deframer) (b : Bool) : Deframer :=
  { shiftIn c d b with
    dfState := .checking
    dfConf := 0
    dfCnt := BitVec.ofNat 20 c.asmLen
    dfOffset := BitVec.ofNat 20
      (modFree ((d.dfBitctr.toNat : Int) - ((c.asmLen : Int) - 1)) c.frameBits) }

theorem pushBit_match (hs : d.dfState = .searching)
    (hm : Claims.matching c (Claims.shifted d b)) (h64 : c.asmLen < 65)
    (hf : storeBits c frm 0 (receivedMarker c (Claims.shifted d b)) = .ok f) :
    pushBit c d frm b = .ok ⟨startedChecking c d b, f, false⟩ := by
  rw [← dfSr_shiftIn c] at hm hf
  unfold pushBit
  dsimp only
  rw [if_pos hs, if_pos ((markerMatches_iff _ _).2 hm), startChecking, within_ok h64, ok_bind, hf]
  rfl

/-- The registers after a bit of a frame, before the tests on `df_cnt`. -/
def countedIn (c : Cfg) (d : Deframer) (b : Bool) : Deframer :=
  { shiftIn c d b with dfCnt := d.dfCnt + 1 }

/-- A bit within a frame, by what `df_cnt` comes to. -/
theorem pushBit_inFrame (hs : d.dfState ≠ .searching)
    (hf : storeBit c frm d.dfCnt.toNat b = .ok f) :
    pushBit c d frm b =
      if (d.dfCnt + 1).toNat = c.asmLen then
        .ok ⟨atMarker c (countedIn c d b) (markerMatches c (Claims.shifted d b)), f, false⟩
      else if (d.dfCnt + 1).toNat = c.frameBits then atFrameEnd c (countedIn c d b) f
      else .ok ⟨countedIn c d b, f, false⟩ := by
  rw [← dfSr_shiftIn c d b]
  unfold pushBit
  dsimp only
  rw [if_neg hs, hf]
  rfl

theorem toNat_cnt_succ (h : d.dfCnt.toNat < c.frameBits) :
    (d.dfCnt + 1).toNat = d.dfCnt.toNat + 1 := by
  have hlt := c.frameBits_lt
  exact BitVec.toNat_add_of_lt (show d.dfCnt.toNat + 1 < 2 ^ 20 by omega)

/-! ### The registers after a bit of a frame -/

theorem atMarker_confirmed (hs : d.dfState = .checking)
    (hn : c.confirm ≤ (d.dfConf + 1).toNat) :
    atMarker c d true = { d with dfConf := d.dfConf + 1, dfState := .synced, dfMiss := 0 } := by
  unfold atMarker
  rw [hs]
  exact if_pos hn

theorem atMarker_unconfirmed (hs : d.dfState = .checking)
    (hn : ¬c.confirm ≤ (d.dfConf + 1).toNat) :
    atMarker c d true = { d with dfConf := d.dfConf + 1 } := by
  unfold atMarker
  rw [hs]
  exact if_neg hn

theorem atMarker_checking_noMatch (hs : d.dfState = .checking) :
    atMarker c d false = { d with dfState := .searching, dfCnt := 0 } := by
  unfold atMarker
  rw [hs]
  rfl

theorem atMarker_synced_match (hs : d.dfState = .synced) :
    atMarker c d true = { d with dfMiss := 0 } := by
  unfold atMarker
  rw [hs]
  rfl

theorem atMarker_lost (hs : d.dfState = .synced) (hn : c.missThr ≤ (d.dfMiss + 1).toNat) :
    atMarker c d false =
      { d with dfMiss := d.dfMiss + 1, dfState := .searching, dfCnt := 0 } := by
  unfold atMarker
  rw [hs]
  exact if_pos hn

theorem atMarker_missed (hs : d.dfState = .synced) (hn : ¬c.missThr ≤ (d.dfMiss + 1).toNat) :
    atMarker c d false = { d with dfMiss := d.dfMiss + 1 } := by
  unfold atMarker
  rw [hs]
  exact if_neg hn

/-- What the marker's test leaves alone. -/
theorem atMarker_keeps (c : Cfg) (d : Deframer) (m : Bool) :
    (atMarker c d m).dfSr = d.dfSr ∧ (atMarker c d m).dfBitctr = d.dfBitctr ∧
      (atMarker c d m).dfOffset = d.dfOffset := by
  unfold atMarker
  cases d.dfState with
  | checking =>
    dsimp only
    split
    · split <;> exact ⟨rfl, rfl, rfl⟩
    · exact ⟨rfl, rfl, rfl⟩
  | searching | synced =>
    dsimp only
    split
    · exact ⟨rfl, rfl, rfl⟩
    · split <;> exact ⟨rfl, rfl, rfl⟩

theorem atFrameEnd_ok {p : Pushed} (h : atFrameEnd c d frm = .ok p) :
    p.df = { d with dfCnt := 0 } ∧
      (d.dfState = .synced ∧ p.frame = true ∧
          storeBits c frm c.frameBits (List.replicate c.padBits false) = .ok p.frm ∨
        d.dfState ≠ .synced ∧ p.frame = false ∧ p.frm = frm) := by
  unfold atFrameEnd at h
  dsimp only at h
  split at h
  · next hs =>
    obtain ⟨f, hf, rfl⟩ := (map_ok_iff _ _ _).1 h
    exact ⟨rfl, .inl ⟨hs, rfl, hf⟩⟩
  · next hs =>
    cases h
    exact ⟨rfl, .inr ⟨hs, rfl, rfl⟩⟩

end

/-! ## What a push does on a legal configuration -/

section
variable {s : State}

theorem legal_of_framerReady (h : Claims.FramerReady s) : s.cfg.Legal := legal_of_configError h.cfg

theorem matching_marker_total (hc : s.cfg.Legal) (frm : Memory 8) (sr : BitVec 64) :
    ∃ f, storeBits s.cfg frm 0 (receivedMarker s.cfg sr) = .ok f := by
  have hframe := hc.frameBytes
  have hmarker := hc.frame.1
  refine storeBits_total _ _ _ fun i hi => ?_
  rw [receivedMarker, List.length_map, List.length_range] at hi
  omega

theorem storeBit_cnt_total (hc : s.cfg.Legal) (frm : Memory 8) {k : Nat} (hk : k < s.cfg.frameBits)
    (b : Bool) : ∃ f, storeBit s.cfg frm k b = .ok f := by
  have hframe := hc.frameBytes
  exact storeBit_total (by omega) frm b

theorem padding_total (hc : s.cfg.Legal) (frm : Memory 8) :
    ∃ f, storeBits s.cfg frm s.cfg.frameBits (List.replicate s.cfg.padBits false) = .ok f := by
  have hframe := hc.frameBytes
  refine storeBits_total _ _ _ fun i hi => ?_
  rw [List.length_replicate] at hi
  omega

/-- Every push of a ready deframer completes. -/
theorem pushBit_ready (h : Claims.FramerReady s) (frm : Memory 8) (b : Bool) :
    ∃ p, pushBit s.cfg s.df frm b = .ok p := by
  have hc := legal_of_framerReady h
  by_cases hs : s.df.dfState = .searching
  · by_cases hm : Claims.matching s.cfg (Claims.shifted s.df b)
    · obtain ⟨f, hf⟩ := matching_marker_total hc frm (Claims.shifted s.df b)
      exact ⟨_, pushBit_match hs hm (by have := hc.asmLen.2.1; omega) hf⟩
    · exact ⟨_, pushBit_searching hs hm⟩
  · obtain ⟨f, hf⟩ := storeBit_cnt_total hc frm (h.cnt hs) b
    rw [pushBit_inFrame hs hf]
    split
    · exact ⟨_, rfl⟩
    split
    · unfold atFrameEnd
      dsimp only
      split
      · obtain ⟨g, hg⟩ := padding_total hc f
        rw [hg]
        exact ⟨_, rfl⟩
      · exact ⟨_, rfl⟩
    · exact ⟨_, rfl⟩

/-! ### Transition by transition -/

theorem toNat_cnt_startedChecking (hc : s.cfg.Legal) (b : Bool) :
    (startedChecking s.cfg s.df b).dfCnt.toNat = s.cfg.asmLen := by
  have h64 := hc.asmLen.2.1
  exact Nat.mod_eq_of_lt (show s.cfg.asmLen < 2 ^ 20 by omega)

theorem toNat_offset_startedChecking (hc : s.cfg.Legal) (b : Bool) :
    ((startedChecking s.cfg s.df b).dfOffset.toNat : Int) =
      ((s.df.dfBitctr.toNat : Int) - (s.cfg.asmLen - 1)) % s.cfg.frameBits := by
  have hpos : s.cfg.frameBits ≠ 0 := by have := hc.frame.1; omega
  have hlt := (modFree_lt hpos ((s.df.dfBitctr.toNat : Int) - ((s.cfg.asmLen : Int) - 1))).trans
    s.cfg.frameBits_lt
  show ((BitVec.ofNat 20 (modFree _ _)).toNat : Int) = _
  rw [BitVec.toNat_ofNat, Nat.mod_eq_of_lt hlt, modFree, if_neg hpos]
  exact Int.toNat_of_nonneg (Int.emod_nonneg _ (by omega))

end

end Sys2Proof.Machine

namespace Sys2Proof
open Sys2Proof.Machine Sys2Proof.Claims

/-- Settles O39: a push in SEARCHING without and with a match, at the marker, at the end of a frame
and elsewhere in it. -/
theorem deframerTransitions : Obligations.DeframerTransitions := by
  intro s h
  have hc := legal_of_framerReady h
  have hsr := dfSr_shiftIn s.cfg s.df s.env.args.bit
  have hbc := toNat_bitctr_shiftIn hc s.df s.env.args.bit
  by_cases hs : s.df.dfState = .searching
  · by_cases hm : matching s.cfg (shifted s.df s.env.args.bit)
    · obtain ⟨f, hf⟩ := matching_marker_total hc s.frm (shifted s.df s.env.args.bit)
      have hp := pushBit_match hs hm (Nat.lt_succ_of_le hc.asmLen.2.1) hf
      refine ⟨_, _, exec_dfPush hp, rfl, hsr, hbc, fun _ => ⟨rfl, rfl, fun _ => ?_, fun hn => ?_⟩,
        fun hn => absurd hs hn⟩
      · exact ⟨rfl, rfl, toNat_cnt_startedChecking hc _, toNat_offset_startedChecking hc _⟩
      · exact absurd (hsr.symm ▸ hm) hn
    · refine ⟨_, _, exec_dfPush (pushBit_searching hs hm), rfl, hsr, hbc,
        fun _ => ⟨rfl, rfl, fun hn => absurd (hsr ▸ hn) hm, fun _ => ⟨hs, rfl, rfl, rfl⟩⟩,
        fun hn => absurd hs hn⟩
  · obtain ⟨f, hf⟩ := storeBit_cnt_total hc s.frm (h.cnt hs) s.env.args.bit
    have hcnt := toNat_cnt_succ (h.cnt hs)
    have hp := pushBit_inFrame hs hf
    rw [hcnt] at hp
    by_cases hasm : s.df.dfCnt.toNat + 1 = s.cfg.asmLen
    · rw [if_pos hasm] at hp
      obtain ⟨hsr', hbc', hoff'⟩ := atMarker_keeps s.cfg (countedIn s.cfg s.df s.env.args.bit)
        (markerMatches s.cfg (shifted s.df s.env.args.bit))
      have hsr' := hsr'.trans hsr
      have hmatch := markerMatches_iff s.cfg (shifted s.df s.env.args.bit)
      nth_rewrite 2 [← hsr'] at hmatch
      refine ⟨_, _, exec_dfPush hp, rfl, hsr', hbc'.symm ▸ hbc, fun hn => absurd hn hs,
        fun _ => ⟨hoff', fun hn => absurd hasm hn, fun _ => ⟨rfl, fun hq hm => ?_, fun hq hm => ?_,
          fun hq hm => ?_, fun hq hm => ?_⟩⟩⟩
      · rw [hmatch.2 hm]
        by_cases hconf : s.cfg.confirm ≤ (s.df.dfConf + 1).toNat
        · rw [atMarker_confirmed (d := countedIn _ _ _) hq hconf, if_pos hconf]
          exact ⟨rfl, hcnt, rfl, rfl⟩
        · rw [atMarker_unconfirmed (d := countedIn _ _ _) hq hconf, if_neg hconf]
          exact ⟨rfl, hcnt, hq, rfl⟩
      · rw [eq_false_of_ne_true (hmatch.not.2 hm),
          atMarker_checking_noMatch (d := countedIn _ _ _) hq]
        exact ⟨rfl, rfl, rfl, rfl⟩
      · rw [hmatch.2 hm, atMarker_synced_match (d := countedIn _ _ _) hq]
        exact ⟨hq, rfl, hcnt, rfl⟩
      · rw [eq_false_of_ne_true (hmatch.not.2 hm)]
        by_cases hmiss : s.cfg.missThr ≤ (s.df.dfMiss + 1).toNat
        · rw [atMarker_lost (d := countedIn _ _ _) hq hmiss, if_pos hmiss]
          exact ⟨rfl, rfl, rfl, rfl⟩
        · rw [atMarker_missed (d := countedIn _ _ _) hq hmiss, if_neg hmiss]
          exact ⟨rfl, rfl, hq, hcnt⟩
    · rw [if_neg hasm] at hp
      by_cases hend : s.df.dfCnt.toNat + 1 = s.cfg.frameBits
      · rw [if_pos hend] at hp
        obtain ⟨q, hq⟩ := pushBit_ready h s.frm s.env.args.bit
        obtain ⟨hdf, hfr⟩ := atFrameEnd_ok (hp.symm.trans hq)
        have hframe : q.frame = true ↔ s.df.dfState = .synced := by
          rcases hfr with ⟨h1, h2, -⟩ | ⟨h1, h2, -⟩
          · exact iff_of_true h2 h1
          · exact iff_of_false (ne_true_of_eq_false h2) h1
        refine ⟨_, _, exec_dfPush hq, rfl, ?_, ?_, fun hn => absurd hn hs, fun _ =>
          ⟨?_, fun _ => ⟨?_, ?_, ?_, fun _ => ⟨?_, ?_⟩, fun hn => absurd hend hn⟩,
            fun hn => absurd hn hasm⟩⟩
        · exact hdf ▸ hsr
        · exact hdf ▸ hbc
        iterate 5 exact hdf ▸ rfl
        · simp only [hframe]
      · rw [if_neg hend] at hp
        exact ⟨_, _, exec_dfPush hp, rfl, hsr, hbc, fun hn => absurd hn hs, fun _ => ⟨rfl,
          fun _ => ⟨rfl, rfl, rfl, fun hn => absurd hn hend, fun _ => ⟨hcnt, rfl⟩⟩,
          fun hn => absurd hn hasm⟩⟩

/-- Settles O40: the bits stored by a push, case by case. -/
theorem deframerStoresBits : Obligations.DeframerStoresBits := by
  intro s t h hinv ht k
  have hc := legal_of_framerReady h
  have hwf := hinv.canonical.frm
  by_cases hs : s.df.dfState = .searching
  · rw [if_pos hs]
    by_cases hm : matching s.cfg (shifted s.df s.env.args.bit)
    · obtain ⟨f, hf⟩ := matching_marker_total hc s.frm (shifted s.df s.env.args.bit)
      cases (exec_dfPush (pushBit_match hs hm (Nat.lt_succ_of_le hc.asmLen.2.1) hf)).symm.trans ht
      show frameBit f k = _
      rw [frameBit_storeBits hwf hf]
      simp only [hm, true_and, Nat.zero_le, Nat.zero_add, Nat.sub_zero, receivedMarker,
        List.length_map, List.length_range]
      split
      · next hk => rw [List.getD_eq_getElem _ _ (by simpa using hk), List.getElem_map,
          List.getElem_range]
      · rfl
    · cases (exec_dfPush (pushBit_searching hs hm)).symm.trans ht
      show frameBit s.frm k = _
      rw [if_neg fun hn => hm hn.1]
  · rw [if_neg hs]
    obtain ⟨f, hf⟩ := storeBit_cnt_total hc s.frm (h.cnt hs) s.env.args.bit
    have hcnt := toNat_cnt_succ (h.cnt hs)
    have hbit := frameBit_storeBit hwf hf k
    have hplain : ¬(s.df.dfState = .synced ∧ s.df.dfCnt.toNat + 1 = s.cfg.frameBits ∧
        s.cfg.frameBits ≤ k ∧ k < s.cfg.frameBits + s.cfg.padBits) → frameBit f k =
        if k = s.df.dfCnt.toNat then s.env.args.bit
        else if s.df.dfState = .synced ∧ s.df.dfCnt.toNat + 1 = s.cfg.frameBits ∧
          s.cfg.frameBits ≤ k ∧ k < s.cfg.frameBits + s.cfg.padBits then false
        else frameBit s.frm k := fun hn => by rw [hbit, if_neg hn]
    have hp := pushBit_inFrame hs hf
    rw [hcnt] at hp
    by_cases hasm : s.df.dfCnt.toNat + 1 = s.cfg.asmLen
    · rw [if_pos hasm] at hp
      cases (exec_dfPush hp).symm.trans ht
      have hend : s.df.dfCnt.toNat + 1 ≠ s.cfg.frameBits := by have := hc.frame.1; omega
      exact hplain fun hn => hend hn.2.1
    rw [if_neg hasm] at hp
    by_cases hend : s.df.dfCnt.toNat + 1 = s.cfg.frameBits
    · rw [if_pos hend] at hp
      obtain ⟨q, hq⟩ := pushBit_ready h s.frm s.env.args.bit
      cases (exec_dfPush hq).symm.trans ht
      show frameBit q.frm k = _
      obtain ⟨-, ⟨hsync, -, hpad⟩ | ⟨hsync, -, hfrm⟩⟩ := atFrameEnd_ok (hp.symm.trans hq)
      · rw [frameBit_storeBits (wf_storeBit hwf hf) hpad, List.length_replicate]
        by_cases hk : s.cfg.frameBits ≤ k ∧ k < s.cfg.frameBits + s.cfg.padBits
        · have hne : k ≠ s.df.dfCnt.toNat := by omega
          have hlt : k - s.cfg.frameBits < s.cfg.padBits := by omega
          rw [if_pos hk, if_neg hne, if_pos ⟨hsync, hend, hk⟩, List.getD_replicate _ hlt]
        · rw [if_neg hk]
          exact hplain fun hn => hk hn.2.2
      · rw [hfrm]
        exact hplain fun hn => hsync hn.1
    · rw [if_neg hend] at hp
      cases (exec_dfPush hp).symm.trans ht
      exact hplain fun hn => hend hn.2.1

end Sys2Proof
end

section
/-! SUPPORT. The deframer over a stream (44_deframer R260): the state after every bit of a stream
whose marker first matches at place `o` and again one frame later. -/

namespace Sys2Proof.Machine

/-- The deframer after the first `n` bits of a stream `l` on configuration `c` with CONFIRM 1, the
marker beginning at place `o`: what stands in the shift register, the state and the count within
the frame, and the bits of the second frame stored so far. -/
structure Locking (c : Cfg) (l : List Bool) (o n : Nat) (s : State) : Prop where
  cfg : s.cfg = c
  inv : Inv s
  shift : ∀ i < 64, s.df.dfSr.getLsbD i = if i < n then l.getD (n - 1 - i) false else false
  bitctr : s.df.dfBitctr.toNat = n % c.frameBits
  searching : n < o + c.asmLen → s.df.dfState = .searching
  checking : o + c.asmLen ≤ n → n < o + c.frameBits + c.asmLen →
    s.df.dfState = .checking ∧ s.df.dfConf = 0 ∧ s.df.dfOffset.toNat = o % c.frameBits
  synced : o + c.frameBits + c.asmLen ≤ n → s.df.dfState = .synced
  cntFirst : o + c.asmLen ≤ n → n < o + c.frameBits → s.df.dfCnt.toNat = n - o
  cntSecond : o + c.frameBits ≤ n → n < o + 2 * c.frameBits →
    s.df.dfCnt.toNat = n - o - c.frameBits
  stored : ∀ k < c.frameBits, o + c.frameBits + k < n →
    Claims.frameBit s.frm k = l.getD (o + c.frameBits + k) false

section
variable {c : Cfg} {l : List Bool} {o n : Nat} {s t : State}

/-- After the bit at place `n` the match of R251 is the one of the stream there. -/
theorem matching_iff_matchingAt {sr : BitVec 64} (hc : c.asmLen ≤ 64)
    (h : ∀ i < 64, sr.getLsbD i = if i < n + 1 then l.getD (n - i) false else false) :
    Claims.matching c sr ↔ Claims.matchingAt c l n := by
  unfold Claims.matching Claims.matchingAt
  rw [List.countP_congr]
  intro i hi
  have hi := List.mem_range.1 hi
  simp only [h i (by omega), Nat.lt_succ_iff]

/-- The shift register after one more bit. -/
theorem shift_shifted {d : Deframer}
    (h : ∀ i < 64, d.dfSr.getLsbD i = if i < n then l.getD (n - 1 - i) false else false) :
    ∀ i < 64, (Claims.shifted d (l.getD n false)).getLsbD i =
      if i < n + 1 then l.getD (n - i) false else false := by
  intro i hi
  cases i with
  | zero => rw [getLsbD_shifted_zero, if_pos (Nat.succ_pos n), Nat.sub_zero]
  | succ i =>
    rw [getLsbD_shifted_succ _ _ (by omega), h i (by omega), Nat.sub_sub, Nat.add_comm 1 i]
    simp only [Nat.succ_lt_succ_iff]

theorem Locking.ready (h : Locking c l o n s) (hcfg : configError c = none)
    (hn : n < o + 2 * c.frameBits) : Claims.FramerReady s := by
  have hpos := (legal_of_configError hcfg).frame.1
  refine ⟨h.cfg.symm ▸ hcfg, fun hs => ?_, ?_⟩
  · rw [h.cfg]
    have hstart : o + c.asmLen ≤ n := by
      by_contra hlt
      exact hs (h.searching (Nat.lt_of_not_le hlt))
    rcases Nat.lt_or_ge n (o + c.frameBits) with hlt | hge
    · rw [h.cntFirst hstart hlt]
      omega
    · rw [h.cntSecond hge hn]
      omega
  · rw [h.cfg, h.bitctr]
    exact Nat.mod_lt _ (by omega)

/-- Once the marker has been seen the deframer is within a frame. -/
theorem Locking.inFrame (h : Locking c l o n s) (hn : o + c.asmLen ≤ n) :
    s.df.dfState ≠ .searching := by
  rcases Nat.lt_or_ge n (o + c.frameBits + c.asmLen) with hlt | hge
  · rw [(h.checking hn hlt).1]
    exact DfState.noConfusion
  · rw [h.synced hge]
    exact DfState.noConfusion

/-- The state with the next bit latched. -/
theorem Locking.latched (h : Locking c l o n s) (b : Bool) :
    Locking c l o n (Claims.withArgs s (Claims.latchBit b)) :=
  ⟨h.cfg, h.inv.congr rfl rfl rfl rfl rfl rfl, h.shift, h.bitctr, h.searching, h.checking,
    h.synced, h.cntFirst, h.cntSecond, h.stored⟩

/-- One bit of the stream: where the state goes, and what is returned. -/
theorem Locking.push (h : Locking c l o n s) (hcfg : configError c = none) (hconf : c.confirm = 1)
    (hn : n < o + 2 * c.frameBits) (hb : s.env.args.bit = l.getD n false)
    (hfirst : ∀ m, m < o + c.asmLen - 1 → ¬Claims.matchingAt c l m)
    (hmatch : Claims.matchingAt c l (o + c.asmLen - 1))
    (hagain : Claims.matchingAt c l (o + c.frameBits + c.asmLen - 1)) :
    ∃ t, exec .dfPush s = .next t ∧ Locking c l o (n + 1) t ∧
      t.env.res = .frame (if n + 1 = o + 2 * c.frameBits then
        some (Claims.frameBytesOf c t.frm) else none) := by
  have hlegal := legal_of_configError hcfg
  obtain ⟨hasm8, hasm64, -⟩ := hlegal.asmLen
  have hasm := hlegal.frame.1
  have hready := h.ready hcfg hn
  obtain ⟨u, f, hex, hu, hsr, hbc, hsearch, hframe⟩ := deframerTransitions s hready
  have hbits := deframerStoresBits s _ hready h.inv hex
  have hinv := inv_exec h.inv hex
  have hshift := shift_shifted h.shift
  rw [← hb, ← hsr] at hshift
  have hcfgu : u.cfg = c := by rw [hu]; exact h.cfg
  have hm := matching_iff_matchingAt (c := c) hasm64 hshift
  simp only [h.cfg] at hbc hsearch hframe hbits
  have hbitctr : u.df.dfBitctr.toNat = (n + 1) % c.frameBits := by
    rw [hbc, h.bitctr, Nat.mod_add_mod]
  have hstored : ∀ k < c.frameBits, o + c.frameBits + k < n + 1 →
      Claims.frameBit u.frm k = l.getD (o + c.frameBits + k) false := by
    intro k hk hlt
    have hbit : Claims.frameBit u.frm k = _ := hbits k
    rw [if_neg (h.inFrame (by omega)), h.cntSecond (by omega) hn] at hbit
    rw [hbit]
    split
    · next hkn => rw [hb, show o + c.frameBits + k = n by omega]
    · rw [if_neg fun hpad => absurd hpad.2.2.1 (by omega)]
      exact h.stored k hk (by omega)
  rcases Nat.lt_or_ge n (o + c.asmLen) with hbefore | hafter
  · have hs := h.searching hbefore
    obtain ⟨rfl, -, hyes, hno⟩ := hsearch hs
    have hend : n + 1 ≠ o + 2 * c.frameBits := by omega
    rcases Nat.lt_or_ge (n + 1) (o + c.asmLen) with hlt | hge
    · obtain ⟨hstate, -⟩ := hno fun hmm => hfirst n (by omega) (hm.1 hmm)
      exact ⟨_, hex, ⟨hcfgu, hinv, hshift, hbitctr, fun _ => hstate,
        fun _ => by omega, fun _ => by omega, fun _ => by omega, fun _ => by omega, hstored⟩,
        by rw [if_neg hend]; rfl⟩
    · have hplace : n = o + c.asmLen - 1 := by omega
      obtain ⟨hstate, hconf0, hcnt, hoff⟩ := hyes (hm.2 (hplace ▸ hmatch))
      refine ⟨_, hex, ⟨hcfgu, hinv, hshift, hbitctr, fun _ => by omega,
        fun _ _ => ⟨hstate, hconf0, ?_⟩, fun _ => by omega, fun _ _ => ?_, fun _ => by omega,
        hstored⟩, by rw [if_neg hend]; rfl⟩
      · have hmod : ((s.df.dfBitctr.toNat : Int) - (c.asmLen - 1)) % c.frameBits =
            (o : Int) % c.frameBits := by
          rw [h.bitctr, Int.natCast_mod]
          refine ((Int.mod_modEq _ _).sub_right _).trans ?_
          rw [show (n : Int) - (c.asmLen - 1) = o by omega]
        exact Int.ofNat_inj.1 ((hoff.trans hmod).trans (Int.natCast_mod o c.frameBits).symm)
      · show u.df.dfCnt.toNat = _
        omega
  · have hs := h.inFrame hafter
    obtain ⟨hoff, helse, hmark⟩ := hframe hs
    rcases Nat.lt_or_ge (n + 1) (o + c.frameBits + c.asmLen) with hlt | hge
    · obtain ⟨hstate, hconf0, hoff0⟩ := h.checking hafter (by omega)
      have hcnt : s.df.dfCnt.toNat + 1 ≠ c.asmLen ∧
          (s.df.dfCnt.toNat + 1 = c.frameBits ↔ n + 1 = o + c.frameBits) := by
        rcases Nat.lt_or_ge n (o + c.frameBits) with hfirst | hsecond
        · rw [h.cntFirst hafter hfirst]
          omega
        · rw [h.cntSecond hsecond hn]
          omega
      obtain ⟨hst, hcf, -, hlast, hgo⟩ := helse hcnt.1
      have hnone : f = none := by
        by_cases hl : s.df.dfCnt.toNat + 1 = c.frameBits
        · rw [(hlast hl).2, if_neg (by rw [hstate]; exact DfState.noConfusion)]
        · exact (hgo hl).2
      refine ⟨_, hex, ⟨hcfgu, hinv, hshift, hbitctr, fun _ => by omega,
        fun _ _ => ⟨hst.trans hstate, hcf.trans hconf0, by rw [← hoff0, ← hoff]; rfl⟩,
        fun _ => by omega, fun _ hlt => ?_, fun hge _ => ?_, hstored⟩,
        by rw [if_neg (by omega), hnone]; rfl⟩
      · have hu : u.df.dfCnt.toNat = _ := (hgo fun e => by have := hcnt.2.1 e; omega).1
        rw [h.cntFirst hafter (by omega)] at hu
        exact hu.trans (by omega)
      · rcases Nat.lt_or_ge n (o + c.frameBits) with hfirst | hsecond
        · have hu : u.df.dfCnt = 0 := (hlast (hcnt.2.2 (by omega))).1
          show u.df.dfCnt.toNat = _
          rw [hu]
          show 0 = _
          omega
        · have hu : u.df.dfCnt.toNat = _ := (hgo fun e => by have := hcnt.2.1 e; omega).1
          rw [h.cntSecond hsecond hn] at hu
          exact hu.trans (by omega)
    rcases Nat.lt_or_ge n (o + c.frameBits + c.asmLen) with hmarker | hlater
    · obtain ⟨hstate, hconf0, -⟩ := h.checking hafter hmarker
      have hcnt := h.cntSecond (by omega) hn
      obtain ⟨hnone, hyes, -⟩ := hmark (by omega)
      obtain ⟨-, hcnt', hthen⟩ := hyes hstate
        (hm.2 (by rwa [show n = o + c.frameBits + c.asmLen - 1 by omega]))
      rw [hconf0, if_pos (by rw [hconf]; decide)] at hthen
      refine ⟨_, hex, ⟨hcfgu, hinv, hshift, hbitctr, fun _ => by omega, fun _ _ => by omega,
        fun _ => hthen.1, fun _ _ => by omega, fun _ _ => ?_, hstored⟩,
        by rw [if_neg (by omega), hnone]; rfl⟩
      exact hcnt'.trans (by omega)
    · have hstate := h.synced hlater
      have hcnt := h.cntSecond (by omega) hn
      obtain ⟨hst, -, -, hlast, hgo⟩ := helse (by omega)
      refine ⟨_, hex, ⟨hcfgu, hinv, hshift, hbitctr, fun _ => by omega, fun _ _ => by omega,
        fun _ => hst.trans hstate, fun _ _ => by omega, fun _ _ => ?_, hstored⟩, ?_⟩
      · exact (hgo (by omega)).1.trans (by omega)
      · by_cases hl : n + 1 = o + 2 * c.frameBits
        · obtain ⟨-, hf⟩ := hlast (by omega)
          rw [if_pos hl, hf, if_pos hstate]
          rfl
        · rw [if_neg hl, (hgo (by omega)).2]
          rfl

/-- The deframer fed with the next bits of the stream: none of the bits before the end of the
second frame returns a frame, and that one returns it. -/
theorem Locking.feed (hcfg : configError c = none) (hconf : c.confirm = 1)
    (hfirst : ∀ m, m < o + c.asmLen - 1 → ¬Claims.matchingAt c l m)
    (hmatch : Claims.matchingAt c l (o + c.asmLen - 1))
    (hagain : Claims.matchingAt c l (o + c.frameBits + c.asmLen - 1)) (bits : List Bool)
    (h : Locking c l o n s) (hbits : ∀ j < bits.length, bits.getD j false = l.getD (n + j) false)
    (hn : n + bits.length ≤ o + 2 * c.frameBits) :
    ∃ res t, Claims.feed .dfPush Claims.latchBit bits s = some (res, t) ∧
      Locking c l o (n + bits.length) t ∧
      (∀ j < bits.length, n + j + 1 ≠ o + 2 * c.frameBits → res[j]? = some (.frame none)) ∧
      (bits ≠ [] → n + bits.length = o + 2 * c.frameBits →
        res[bits.length - 1]? = some (.frame (some (Claims.frameBytesOf c t.frm)))) := by
  induction bits generalizing n s with
  | nil => exact ⟨[], s, rfl, h, fun j hj => (by cases hj), fun hne => absurd rfl hne⟩
  | cons b r ih =>
    rw [List.length_cons] at hn
    have hb : b = l.getD n false := hbits 0 (Nat.succ_pos _)
    obtain ⟨u, hu, hlock, hres⟩ := (h.latched b).push hcfg hconf (by omega) hb hfirst hmatch hagain
    obtain ⟨res, t, ht, hlock', hnone, hsome⟩ := ih hlock (fun j hj => by
      have := hbits (j + 1) (Nat.succ_lt_succ hj)
      rwa [List.getD_cons_succ, ← Nat.add_assoc, Nat.add_right_comm] at this) (by omega)
    refine ⟨_, t, feed_cons hu ht, ?_, fun j hj hne => ?_, fun _ hend => ?_⟩
    · rwa [List.length_cons, ← Nat.add_assoc, Nat.add_right_comm]
    · cases j with
      | zero => rw [List.getElem?_cons_zero, hres, if_neg hne]
      | succ j =>
        rw [List.getElem?_cons_succ]
        exact hnone j (Nat.lt_of_succ_lt_succ hj) (by omega)
    · rw [List.length_cons] at hend ⊢
      cases r with
      | nil =>
        cases ht
        rw [List.length_nil] at hend
        rw [List.length_nil, Nat.zero_add, Nat.sub_self, List.getElem?_cons_zero, hres,
          if_pos hend]
      | cons b' r =>
        have := hsome (List.cons_ne_nil _ _) (by omega)
        rw [List.length_cons] at this ⊢
        exact this

/-- Before the first bit. -/
theorem locking_start (hinv : Inv s) (hpos : 0 < s.cfg.asmLen)
    (hdf : s.df = ⟨.searching, 0, 0, 0, 0, 0, 0⟩) : Locking s.cfg l o 0 s where
  cfg := rfl
  inv := hinv
  shift i _ := by
    rw [hdf, if_neg (Nat.not_lt_zero i)]
    exact BitVec.getLsbD_zero
  bitctr := by
    rw [hdf, Nat.zero_mod]
    rfl
  searching _ := by rw [hdf]
  checking h _ := by omega
  synced h := by omega
  cntFirst h _ := by omega
  cntSecond h _ := by omega
  stored k _ h := by omega


/-- A bit of the frame returned is the bit of FRM. -/
theorem getLsbD_frameBytesOf (hc : c.Legal) (m : Memory 8) {k : Nat} (hk : k < c.frameBits) :
    ((Claims.frameBytesOf c m).getD (k / 8) 0).getLsbD (7 - k % 8) = Claims.frameBit m k := by
  have hbytes : k / 8 < (c.frameBits + c.padBits) / 8 := by
    have := hc.frame.2
    omega
  unfold Claims.frameBytesOf Claims.frameBit
  rw [List.getD_eq_getElem _ _ (by simpa using hbytes), List.getElem_map, List.getElem_range]

theorem getD_take {l : List Bool} {m j : Nat} (h : j < m) :
    (l.take m).getD j false = l.getD j false := by
  rw [List.getD_eq_getElem?_getD, List.getElem?_take, if_pos h, List.getD_eq_getElem?_getD]

end

end Sys2Proof.Machine

namespace Sys2Proof
open Sys2Proof.Machine Sys2Proof.Claims

/-- Settles O41: the invariant of the stream, read after the first marker, after the second and at
the end of the second frame. -/
theorem deframerLocksInTwoFrames : Obligations.DeframerLocksInTwoFrames := by
  intro s l o hinv hcfg hconf hdf hlen hfirst hmatch hagain
  have hlegal := legal_of_configError hcfg
  obtain ⟨hasm8, -, -⟩ := hlegal.asmLen
  obtain ⟨hasm, hwhole⟩ := hlegal.frame
  have hstart : Locking s.cfg l o 0 s := locking_start hinv (by omega) hdf
  have hrun := hstart.feed hcfg hconf hfirst hmatch hagain
  have hprefix (m : Nat) (hm : m ≤ l.length) (j : Nat) (hj : j < (l.take m).length) :
      (l.take m).getD j false = l.getD (0 + j) false := by
    rw [List.length_take, Nat.min_eq_left hm] at hj
    rw [getD_take hj, Nat.zero_add]
  have hlocked (m : Nat) (hm : m ≤ l.length) : ∃ res t,
      feed .dfPush latchBit (l.take m) s = some (res, t) ∧ Locking s.cfg l o m t := by
    obtain ⟨res, t, ht, hlock, -⟩ := hrun (l.take m) (hprefix m hm) (by
      rw [List.length_take, Nat.min_eq_left hm]
      omega)
    rw [List.length_take, Nat.min_eq_left hm, Nat.zero_add] at hlock
    exact ⟨res, t, ht, hlock⟩
  refine ⟨?_, ?_, ?_⟩
  · obtain ⟨res, t, ht, hlock⟩ := hlocked (o + s.cfg.asmLen) (by omega)
    obtain ⟨hstate, -, hoff⟩ := hlock.checking le_rfl (by omega)
    exact ⟨res, t, ht, hstate, hoff⟩
  · obtain ⟨res, t, ht, hlock⟩ := hlocked (o + s.cfg.frameBits + s.cfg.asmLen) (by omega)
    exact ⟨res, t, ht, hlock.synced le_rfl⟩
  · obtain ⟨res, t, ht, hlock, hnone, hsome⟩ := hrun l (fun j _ => by rw [Nat.zero_add]) (by omega)
    have hne : l ≠ [] := by
      rintro rfl
      rw [List.length_nil] at hlen
      omega
    rw [Nat.zero_add, hlen] at hlock
    refine ⟨res, t, _, ht, fun n hn => hnone n (by omega) (by omega), hsome hne (by omega), ?_,
      fun k hk => ?_⟩
    · rw [frameBytesOf, List.length_map, List.length_range]
      omega
    · rw [getLsbD_frameBytesOf hlegal t.frm hk, hlock.stored k hk (by omega)]

end Sys2Proof
end

section
/-! SUPPORT. The operations that index outside a space (00_scope R14): where each of them stops. -/

namespace Sys2Proof.Machine

section
variable {s : State} {c : Cfg}

/-! ## The decoder -/

theorem addCompareSelect_error {v : Viterbi} (h : c.tbd ≤ v.histWp.toNat) (m : Metrics) :
    addCompareSelect c v m = .error (.outOfBounds .hist) := by
  unfold addCompareSelect
  rw [within_error (Nat.not_lt.2 h)]
  rfl

theorem errorRate_error {v : Viterbi} (h : c.tbd ≤ v.histWp.toNat) (x y : Soft)
    (b : Option Bool) : errorRate c v x y b = .error (.outOfBounds .dly) := by
  unfold errorRate
  rw [within_error (Nat.not_lt.2 h)]
  rfl

theorem trellisStep_error {v : Viterbi} (h : c.tbd ≤ v.histWp.toNat) (x y : Soft) :
    trellisStep c v x y = .error (.outOfBounds .hist) := by
  unfold trellisStep
  rw [addCompareSelect_error h]
  rfl

theorem flushList_error {v : Viterbi} (h0 : c.tbd = 0) (hn : 2 ≤ v.vitN.toNat) :
    flushList c v = .error (.outOfBounds .hist) := by
  have hheld : 2 ≤ heldBits c v := by
    unfold heldBits
    rw [h0, if_neg (by omega)]
    exact hn
  have hne : v.vitN ≠ 0 := by
    intro e
    rw [e] at hn
    exact absurd hn (by decide)
  unfold flushList
  rw [if_neg hne, if_pos ⟨h0, hheld⟩]

/-! ## The deframer -/

theorem storeBit_error {frm : Memory 8} {k : Nat} (h : 8 * c.frameBytes ≤ k) (b : Bool) :
    storeBit c frm k b = .error (.outOfBounds .frm) := by
  unfold storeBit
  rw [within_error (by omega)]
  rfl

/-- Bits that do not all fit in the frame are not stored. -/
theorem storeBits_error {bits : List Bool} {frm : Memory 8} {k : Nat}
    (h : 8 * c.frameBytes < k + bits.length) (hne : bits ≠ []) :
    storeBits c frm k bits = .error (.outOfBounds .frm) := by
  induction bits generalizing frm k with
  | nil => exact absurd rfl hne
  | cons b r ih =>
    rw [List.length_cons] at h
    unfold storeBits
    cases hb : storeBit c frm k b with
    | error e =>
      rcases Nat.lt_or_ge k (8 * c.frameBytes) with hlt | hge
      · obtain ⟨f, hf⟩ := storeBit_total (c := c) (k := k) (by omega) frm b
        cases hf.symm.trans hb
      · rw [← hb, storeBit_error hge]
        rfl
    | ok f =>
      rw [ok_bind]
      obtain ⟨hk, -⟩ := storeBit_ok hb
      refine ih (by omega) ?_
      rintro rfl
      rw [List.length_nil] at h
      omega

theorem exec_dfPush_fault {f : Fault}
    (h : pushBit s.cfg s.df s.frm s.env.args.bit = .error f) : exec .dfPush s = .fault f := by
  show execDfPush s = _
  unfold execDfPush
  rw [h]
  rfl

theorem pushBit_match_error {d : Deframer} {b : Bool} {f : Fault} (hs : d.dfState = .searching)
    (hm : Claims.matching c (Claims.shifted d b)) (frm : Memory 8)
    (h : startChecking c (shiftIn c d b) d.dfBitctr.toNat frm = .error f) :
    pushBit c d frm b = .error f := by
  unfold pushBit
  dsimp only
  rw [if_pos hs, if_pos (by rwa [dfSr_shiftIn, markerMatches_iff]), h]

theorem pushBit_inFrame_error {d : Deframer} {b : Bool} {f : Fault} {frm : Memory 8}
    (hs : d.dfState ≠ .searching) (h : storeBit c frm d.dfCnt.toNat b = .error f) :
    pushBit c d frm b = .error f := by
  unfold pushBit
  dsimp only
  rw [if_neg hs, h]
  rfl

theorem startChecking_long {d : Deframer} (h : 64 < c.asmLen) (pos : Nat) (frm : Memory 8) :
    startChecking c d pos frm = .error (.outOfBounds .dfSr) := by
  unfold startChecking
  rw [within_error (by omega)]
  rfl

theorem startChecking_outside {d : Deframer} (h64 : c.asmLen ≤ 64)
    (h : 8 * c.frameBytes < c.asmLen) (pos : Nat) (frm : Memory 8) :
    startChecking c d pos frm = .error (.outOfBounds .frm) := by
  have hlen : (receivedMarker c d.dfSr).length = c.asmLen := by
    rw [receivedMarker, List.length_map, List.length_range]
  unfold startChecking
  rw [within_ok (by omega), ok_bind, storeBits_error (by omega)]
  · rfl
  · rintro e
    rw [e, List.length_nil] at hlen
    omega

/-- The padding of a frame that does not fit is not stored. -/
theorem pushBit_frameEnd_error {d : Deframer} {b : Bool} (frm : Memory 8)
    (hs : d.dfState = .synced) (hend : (d.dfCnt + 1).toNat = c.frameBits)
    (hasm : c.asmLen ≠ c.frameBits) (h : 8 * c.frameBytes < c.frameBits + c.padBits) :
    pushBit c d frm b = .error (.outOfBounds .frm) := by
  have hne : d.dfState ≠ .searching := by rw [hs]; exact DfState.noConfusion
  cases hf : storeBit c frm d.dfCnt.toNat b with
  | error e =>
    rcases Nat.lt_or_ge d.dfCnt.toNat (8 * c.frameBytes) with hlt | hge
    · obtain ⟨f, hf'⟩ := storeBit_total (c := c) (k := d.dfCnt.toNat) (by omega) frm b
      cases hf'.symm.trans hf
    · exact pushBit_inFrame_error hne (storeBit_error hge b)
  | ok f =>
    obtain ⟨hk, -⟩ := storeBit_ok hf
    have hsucc : (d.dfCnt + 1).toNat ≤ d.dfCnt.toNat + 1 := by
      rw [BitVec.toNat_add]
      exact Nat.mod_le _ _
    rw [pushBit_inFrame hne hf, if_neg (hend.symm ▸ hasm.symm), if_pos hend, atFrameEnd,
      if_pos (show (countedIn c d b).dfState = .synced from hs), storeBits_error]
    · rfl
    · rwa [List.length_replicate]
    · rw [Ne, List.replicate_eq_nil_iff]
      omega

/-! ## The batch and the correlator -/

theorem readEntry_error {e : SymWord} {r : List SymWord} (he : e.getLsbD 8 = false)
    (hn : s.cfg.batchLen ≤ s.ctl.symN.toNat) :
    readEntry s e r = .error (.outOfBounds .sym) := by
  unfold readEntry
  rw [if_neg (ne_true_of_eq_false he), within_error (Nat.not_lt.2 hn)]
  rfl

theorem dataStep_error (h : s.cfg.batchLen ≤ s.ctl.symI.toNat) :
    dataStep s = .error (.outOfBounds .sym) := by
  unfold dataStep
  rw [within_error (Nat.not_lt.2 h)]
  rfl

theorem exec_corrScore_sym (h : windowLen s < s.env.args.off.toNat +
      s.cfg.patLen s.env.args.pat.toNat ∨ s.cfg.batchLen < windowLen s) :
    exec .corrScore s = .fault (.outOfBounds .sym) := by
  show execCorrScore s = _
  unfold execCorrScore
  dsimp only
  by_cases hspan : s.env.args.off.toNat + s.cfg.patLen s.env.args.pat.toNat < windowLen s + 1
  · rw [within_ok hspan, ok_bind, within_error (by omega)]
    rfl
  · rw [within_error hspan]
    rfl

theorem exec_corrScore_pattern
    (hspan : s.env.args.off.toNat + s.cfg.patLen s.env.args.pat.toNat ≤ windowLen s)
    (hwindow : windowLen s ≤ s.cfg.batchLen) (hlen : 64 < s.cfg.patLen s.env.args.pat.toNat) :
    exec .corrScore s = .fault (.outOfBounds .pattern) := by
  show execCorrScore s = _
  unfold execCorrScore
  dsimp only
  rw [within_ok (by omega), ok_bind, within_ok (by omega), ok_bind, within_error (by omega)]
  rfl

theorem searchBounds_sym (h : s.cfg.batchLen < windowLen s) :
    searchBounds s = .error (.outOfBounds .sym) := by
  unfold searchBounds
  rw [if_neg (by omega), within_error (by omega)]
  rfl

theorem searchBounds_pattern (h0 : 0 < windowLen s) (hw : windowLen s ≤ s.cfg.batchLen)
    (h : 8 < s.cfg.npat ∨
      ∃ j < s.cfg.npat, 64 < s.cfg.patLen j ∧ s.cfg.patLen j ≤ windowLen s) :
    searchBounds s = .error (.outOfBounds .pattern) := by
  unfold searchBounds
  rw [if_neg h0.ne', within_ok (by omega), ok_bind]
  by_cases hnpat : s.cfg.npat < 9
  · obtain ⟨j, hj, hlong, hfits⟩ := h.resolve_left (by omega)
    rw [within_ok hnpat, ok_bind, if_neg]
    rw [List.all_eq_true]
    intro hall
    have := hall j (List.mem_range.2 hj)
    rw [Bool.or_eq_true, decide_eq_true_iff, decide_eq_true_iff] at this
    omega
  · rw [within_error hnpat]
    rfl

theorem exec_corrSearch_fault {f : Fault} (h : searchBounds s = .error f) :
    exec .corrSearch s = .fault f := by
  show execCorrSearch s = _
  unfold execCorrSearch
  rw [h]
  rfl

/-- CTL.CORR makes the indices of the search it performs. -/
theorem exec_ctlCorr_fault {f : Fault} (hp : s.ctl.acqPending = true)
    (h : exec .corrSearch s = .fault f) : exec .ctlCorr s = .fault f := by
  cases hb : searchBounds s with
  | ok u =>
    change settle ((searchBounds s).map fun _ => s.setRes (.search (search s))) = _ at h
    rw [hb] at h
    cases h
  | error e =>
    cases (exec_corrSearch_fault hb).symm.trans h
    show execCtlCorr s = _
    unfold execCtlCorr
    dsimp only
    rw [if_pos hp, hb]
    rfl

/-! ## Reed-Solomon -/

theorem laneBounds_error {j : Nat} (h : c.frameBytes ≤ Claims.laneIndex c j 254) :
    laneBounds c j = .error (.outOfBounds .frm) :=
  within_error (Nat.not_lt.2 h)

theorem laneBounds_ok {j : Nat} (h : Claims.laneIndex c j 254 < c.frameBytes) :
    laneBounds c j = .ok () :=
  within_ok h

theorem decodeLane_frm {j : Nat} (h : c.frameBytes ≤ Claims.laneIndex c j 254) (l : Lanes) :
    decodeLane c l j = .error (.outOfBounds .frm) := by
  unfold decodeLane gather
  rw [laneBounds_error h]
  rfl

theorem decodeLane_hrs {j : Nat} (h : Claims.laneIndex c j 254 < c.frameBytes) (hj : 8 ≤ j)
    (l : Lanes) : decodeLane c l j = .error (.outOfBounds .hrs) := by
  unfold decodeLane gather
  rw [laneBounds_ok h, ok_map, ok_bind]
  dsimp only
  rw [within_error (by omega)]
  rfl

theorem laneIndex_mono {i j : Nat} (h : i ≤ j) :
    Claims.laneIndex c i 254 ≤ Claims.laneIndex c j 254 := by
  unfold Claims.laneIndex
  omega

/-- The loop of R307 stops at the first lane that stops. -/
theorem decodeLanes_stops {f : Fault} {k : Nat} (n j : Nat) (hj : j ≤ k) (hk : k < j + n)
    (hbefore : ∀ i < k, ∀ l, (∃ r, decodeLane c l i = .ok r) ∨ decodeLane c l i = .error f)
    (hstop : ∀ l, decodeLane c l k = .error f) (l : Lanes) :
    decodeLanes c l j n = .error f := by
  induction n generalizing j l with
  | zero => omega
  | succ n ih =>
    unfold decodeLanes
    rcases Nat.eq_or_lt_of_le hj with rfl | hlt
    · rw [hstop]
      rfl
    · rcases hbefore j hlt l with ⟨r, hr⟩ | hr
      · rw [hr, ok_bind]
        exact ih (j + 1) hlt (by omega) r
      · rw [hr]
        rfl

theorem exec_rsFrame_fault {f : Fault}
    (h : ∀ l, decodeLanes s.cfg l 0 s.cfg.rsDepth = .error f) : exec .rsFrame s = .fault f := by
  show settle (decodeFrame s) = _
  unfold decodeFrame
  rw [h]
  rfl

theorem exec_rsFrame_frm (h0 : 0 < s.cfg.rsDepth)
    (h : s.cfg.frameBytes ≤ Claims.laneIndex s.cfg (min (s.cfg.rsDepth - 1) 8) 254) :
    exec .rsFrame s = .fault (.outOfBounds .frm) := by
  refine exec_rsFrame_fault (decodeLanes_stops _ 0 (Nat.zero_le (min (s.cfg.rsDepth - 1) 8))
    (by omega) (fun i hi l => ?_) (decodeLane_frm h))
  rcases Nat.lt_or_ge (Claims.laneIndex s.cfg i 254) s.cfg.frameBytes with hlt | hge
  · exact .inl (decodeLane_total (by omega) hlt l)
  · exact .inr (decodeLane_frm hge l)

theorem exec_rsFrame_hrs (hd : 8 < s.cfg.rsDepth)
    (h : Claims.laneIndex s.cfg 8 254 < s.cfg.frameBytes) :
    exec .rsFrame s = .fault (.outOfBounds .hrs) := by
  refine exec_rsFrame_fault (decodeLanes_stops _ 0 (Nat.zero_le 8) (by omega) (fun i hi l => ?_)
    (decodeLane_hrs h le_rfl))
  exact .inl (decodeLane_total hi ((laneIndex_mono hi.le).trans_lt h) l)

/-! ## The depuncturer -/

theorem puncture_eq_none {r : Nat} (h : 5 ≤ r) : puncture r = none := by
  obtain ⟨k, rfl⟩ := Nat.exists_eq_add_of_le' h
  rfl

theorem puncture_eq_some {r : Nat} (h : r < 5) :
    puncture r = some ⟨(Claims.punc r).1, (Claims.punc r).2⟩ := by
  interval_cases r <;> rfl

theorem depuncture_error {d : Depunct} {y : Soft}
    (h : 5 ≤ c.rate ∨ d.dpI = false ∧ Claims.period c.rate ≤ d.dpK.toNat) :
    depuncture c d y = .error (.outOfBounds .punc) := by
  unfold depuncture
  rcases Nat.lt_or_ge c.rate 5 with hlt | hge
  · obtain ⟨hi, hk⟩ := h.resolve_left (by omega)
    rw [puncture_eq_some hlt]
    dsimp only
    rw [Puncture.place, hi]
    exact if_neg (Nat.not_lt.2 hk)
  · rw [puncture_eq_none hge]

theorem exec_dpPush_fault {f : Fault} (h : depuncture s.cfg s.dp s.env.args.x = .error f) :
    exec .dpPush s = .fault f := by
  show execDpPush s = _
  unfold execDpPush
  rw [h]
  rfl

end

end Sys2Proof.Machine

namespace Sys2Proof
open Sys2Proof.Machine Sys2Proof.Claims

/-- Settles O60: each operation stops at the first index it makes outside a space. -/
theorem indexOutsideSpaceStops : Obligations.IndexOutsideSpaceStops := by
  intro s
  rw [← windowLen_eq_windowLength]
  refine ⟨fun h => ⟨?_, ?_, ?_⟩, fun h0 hn => ?_, fun hs hm => ⟨fun h => ?_, fun h64 h => ?_⟩,
    fun hs h => ?_, fun hs hend hasm h => ?_, fun e r hin he hn => ?_, fun h => ?_,
    exec_corrScore_sym, exec_corrScore_pattern, fun h => exec_corrSearch_fault (searchBounds_sym h),
    fun h0 hw h => exec_corrSearch_fault (searchBounds_pattern h0 hw h),
    fun f => exec_ctlCorr_fault, fun h => ⟨?_, ?_⟩, exec_rsFrame_frm, exec_rsFrame_hrs,
    fun h => exec_dpPush_fault (depuncture_error h)⟩
  · exact congrArg (fun r => settle (Except.map _ r)) (addCompareSelect_error h _)
  · exact congrArg (fun r => settle (Except.map _ r)) (errorRate_error h _ _ _)
  · exact congrArg (fun r => settle (Except.map _ r)) (trellisStep_error h _ _)
  · exact congrArg (fun r => settle (Except.map _ r)) (flushList_error h0 hn)
  · exact exec_dfPush_fault (pushBit_match_error hs hm _ (startChecking_long h _ _))
  · exact exec_dfPush_fault (pushBit_match_error hs hm _ (startChecking_outside h64 h _ _))
  · exact exec_dfPush_fault (pushBit_inFrame_error hs (storeBit_error h _))
  · exact exec_dfPush_fault (pushBit_frameEnd_error _ hs hend hasm h)
  · rw [exec_ctlRead_cons hin, readEntry_error he hn]
    rfl
  · rw [exec_ctlData, dataStep_error h]
    rfl
  · exact congrArg (fun r => settle (Except.map _ (Except.map _ r))) (laneBounds_error h)
  · exact congrArg (fun r => settle (Except.map _ (Except.map _ r))) (laneBounds_error h)

end Sys2Proof
end

section
/-! SUPPORT. The depuncturer (42_convolutional_code sections 2, 3): a period has no step with both
slots punctured, so from one kept slot to the next at most one pair is completed. -/

namespace Sys2Proof.Machine

/-- The row of PUNC (R194). -/
def punctureOf (rate : Nat) : Puncture := ⟨(Claims.punc rate).1, (Claims.punc rate).2⟩

/-- The first slot of step `k` is transmitted. -/
def sentFirst (rate k : Nat) : Bool := (Claims.punc rate).1.getD k false

/-- The second slot of step `k` is transmitted. -/
def sentSecond (rate k : Nat) : Bool := (Claims.punc rate).2.getD k false

/-- The first kept slot of step `k`, `r` what `dp_r1` holds when that is the first slot. -/
def slotAt (rate k : Nat) (r : Soft) : Depunct :=
  if sentFirst rate k then ⟨BitVec.ofNat 3 k, false, r⟩ else ⟨BitVec.ofNat 3 k, true, 0⟩

theorem period_bounds {rate : Nat} (h : rate < 5) :
    0 < Claims.period rate ∧ Claims.period rate ≤ 7 := by
  interval_cases rate <;> decide

theorem sent_or {rate k : Nat} (h : rate < 5) (hk : k < Claims.period rate) :
    sentFirst rate k = true ∨ sentSecond rate k = true := by
  have htable : ∀ rate < 5, ∀ k < Claims.period rate,
      sentFirst rate k = true ∨ sentSecond rate k = true := by decide
  exact htable rate h k hk

theorem sentFirst_zero {rate : Nat} (h : rate < 5) : sentFirst rate 0 = true := by
  interval_cases rate <;> rfl

section
variable {rate k : Nat} (hr : rate < 5) (hk : k < Claims.period rate)
include hr hk

theorem toNat_ofNat_step : (BitVec.ofNat 3 k).toNat = k := by
  have := (period_bounds hr).2
  exact Nat.mod_eq_of_lt (show k < 2 ^ 3 by omega)

theorem kept_first (r : Soft) :
    (punctureOf rate).kept ⟨BitVec.ofNat 3 k, false, r⟩ = sentFirst rate k := by
  unfold Puncture.kept
  rw [if_neg Bool.false_ne_true]
  dsimp only
  rw [toNat_ofNat_step hr hk]
  rfl

theorem kept_second (r : Soft) :
    (punctureOf rate).kept ⟨BitVec.ofNat 3 k, true, r⟩ = sentSecond rate k := by
  unfold Puncture.kept
  rw [if_pos rfl]
  dsimp only
  rw [toNat_ofNat_step hr hk]
  rfl

theorem kept_slotAt (r : Soft) : (punctureOf rate).kept (slotAt rate k r) = true := by
  unfold slotAt
  split
  · next h => rw [kept_first hr hk, h]
  · next h => rw [kept_second hr hk, (sent_or hr hk).resolve_left h]

theorem toNat_dpK_slotAt (r : Soft) : (slotAt rate k r).dpK.toNat = k := by
  unfold slotAt
  split <;> exact toNat_ofNat_step hr hk

/-- From the first slot of a step the loop of R198 comes to the step's first kept slot. -/
theorem fill_first (r : Soft) (n : Nat) :
    (punctureOf rate).fill (n + 1) ⟨BitVec.ofNat 3 k, false, r⟩ = (slotAt rate k r, []) := by
  unfold Puncture.fill slotAt
  rw [kept_first hr hk]
  split
  · rfl
  · next h =>
    have hkept := (kept_second hr hk 0).trans ((sent_or hr hk).resolve_left h)
    have hstay : (punctureOf rate).fill n ⟨BitVec.ofNat 3 k, true, 0⟩ =
        (⟨BitVec.ofNat 3 k, true, 0⟩, []) := by
      cases n with
      | zero => rfl
      | succ n =>
        unfold Puncture.fill
        rw [if_pos hkept]
    show (((punctureOf rate).fill n ⟨BitVec.ofNat 3 k, true, 0⟩).1,
      [] ++ ((punctureOf rate).fill n ⟨BitVec.ofNat 3 k, true, 0⟩).2) = _
    rw [hstay]
    rfl

/-- The second slot filled completes a pair and begins the next step. -/
theorem place_second (r y : Soft) :
    (punctureOf rate).place ⟨BitVec.ofNat 3 k, true, r⟩ y =
      (⟨BitVec.ofNat 3 ((k + 1) % Claims.period rate), false, r⟩, [(r, y)]) := by
  unfold Puncture.place
  rw [if_pos rfl]
  dsimp only
  rw [toNat_ofNat_step hr hk]
  rfl

end

/-! ## One symbol (R198) -/

section
variable {c : Cfg} {k : Nat} (hr : c.rate < 5) (hk : k < Claims.period c.rate)
include hr

theorem depuncture_eq {d e : Depunct} {y : Soft} {l : List (Soft × Soft)}
    (hp : (punctureOf c.rate).place d y = (e, l)) (he : e.dpK.toNat < Claims.period c.rate) :
    depuncture c d y = .ok
      (((punctureOf c.rate).fill (4 * Claims.period c.rate) e).1,
        l ++ ((punctureOf c.rate).fill (4 * Claims.period c.rate) e).2) := by
  have hrow : puncture c.rate = some (punctureOf c.rate) := puncture_eq_some hr
  unfold depuncture
  rw [hrow]
  dsimp only
  rw [hp]
  exact if_pos he

/-- The loop's bound is not 0. -/
theorem fuel_eq : ∃ n, 4 * Claims.period c.rate = n + 2 := by
  have := (period_bounds hr).1
  exact ⟨4 * Claims.period c.rate - 2, by omega⟩

theorem next_lt : (k + 1) % Claims.period c.rate < Claims.period c.rate :=
  Nat.mod_lt _ (period_bounds hr).1

include hk

theorem depuncture_second (r y : Soft) : depuncture c ⟨BitVec.ofNat 3 k, true, r⟩ y =
    .ok (slotAt c.rate ((k + 1) % Claims.period c.rate) r, [(r, y)]) := by
  have hnext := next_lt (k := k) hr
  obtain ⟨n, hn⟩ := fuel_eq hr
  rw [depuncture_eq hr (place_second hr hk r y) (by rwa [toNat_ofNat_step hr hnext]), hn,
    fill_first hr hnext]
  rfl

theorem depuncture_first_kept (hs : sentSecond c.rate k = true) (r y : Soft) :
    depuncture c ⟨BitVec.ofNat 3 k, false, r⟩ y = .ok (⟨BitVec.ofNat 3 k, true, y⟩, []) := by
  obtain ⟨n, hn⟩ := fuel_eq hr
  have hplace : (punctureOf c.rate).place ⟨BitVec.ofNat 3 k, false, r⟩ y =
      (⟨BitVec.ofNat 3 k, true, y⟩, []) := rfl
  rw [depuncture_eq hr hplace (by rwa [toNat_ofNat_step hr hk]), hn, Puncture.fill,
    if_pos ((kept_second hr hk y).trans hs)]
  rfl

theorem depuncture_first_punctured (hs : sentSecond c.rate k = false) (r y : Soft) :
    depuncture c ⟨BitVec.ofNat 3 k, false, r⟩ y =
      .ok (slotAt c.rate ((k + 1) % Claims.period c.rate) y, [(y, 0)]) := by
  have hnext := next_lt (k := k) hr
  obtain ⟨n, hn⟩ := fuel_eq hr
  have hplace : (punctureOf c.rate).place ⟨BitVec.ofNat 3 k, false, r⟩ y =
      (⟨BitVec.ofNat 3 k, true, y⟩, []) := rfl
  rw [depuncture_eq hr hplace (by rwa [toNat_ofNat_step hr hk]), hn, Puncture.fill,
    if_neg (by rw [kept_second hr hk y, hs]; exact Bool.false_ne_true)]
  dsimp only
  rw [place_second hr hk, fill_first hr hnext]
  rfl

end

/-- A slot answers with at most one pair and leaves a kept slot. -/
theorem depuncture_kept {c : Cfg} (hr : c.rate < 5) {d : Depunct}
    (hd : d.dpK.toNat < Claims.period c.rate) (y : Soft) :
    ∃ e l, depuncture c d y = .ok (e, l) ∧ l.length ≤ 1 ∧
      e.dpK.toNat < Claims.period c.rate ∧ (punctureOf c.rate).kept e = true := by
  obtain ⟨k, i, r⟩ := d
  have hnext := next_lt (k := k.toNat) hr
  have hk : k = BitVec.ofNat 3 k.toNat := (BitVec.ofNat_toNat 3 k).symm
  rw [hk]
  cases i with
  | true =>
    exact ⟨_, _, depuncture_second hr hd r y, le_rfl, by rwa [toNat_dpK_slotAt hr hnext],
      kept_slotAt hr hnext r⟩
  | false =>
    cases hs : sentSecond c.rate k.toNat with
    | true =>
      exact ⟨_, _, depuncture_first_kept hr hd hs r y, Nat.zero_le _,
        by rwa [toNat_ofNat_step hr hd], (kept_second hr hd y).trans hs⟩
    | false =>
      exact ⟨_, _, depuncture_first_punctured hr hd hs r y, le_rfl,
        by rwa [toNat_dpK_slotAt hr hnext], kept_slotAt hr hnext y⟩

theorem exec_dpPush {s : State} {e : Depunct} {l : List (Soft × Soft)}
    (h : depuncture s.cfg s.dp s.env.args.x = .ok (e, l)) :
    exec .dpPush s = .next (({ s with dp := e } : State).setRes (.pairs l)) := by
  show execDpPush s = _
  unfold execDpPush
  rw [h, ok_map]
  rfl

/-! ## A punctured stream (R195, R197) -/

/-- Latch of a soft symbol. -/
def latchSymbol (x : Soft) (a : Args) : Args := { a with x := x }

/-- One push within a run. -/
theorem feed_dpPush_cons {s t : State} {y : Soft} {r : List Soft} {e : Depunct}
    {l : List (Soft × Soft)} {res : List OpResult} (h : depuncture s.cfg s.dp y = .ok (e, l))
    (hr : Claims.feed .dpPush latchSymbol r
      (({ Claims.withArgs s (latchSymbol y) with dp := e } : State).setRes (.pairs l)) =
        some (res, t)) :
    Claims.feed .dpPush latchSymbol (y :: r) s = some (.pairs l :: res, t) :=
  feed_cons (exec_dpPush (s := Claims.withArgs s (latchSymbol y)) h) hr

theorem erased_cons (rate : Nat) (p : Soft × Soft) (r : List (Soft × Soft)) (n : Nat) :
    Claims.erased rate (p :: r) n =
      (if sentFirst rate (n % Claims.period rate) then p.1 else 0,
        if sentSecond rate (n % Claims.period rate) then p.2 else 0) ::
          Claims.erased rate r (n + 1) := rfl

theorem punctured_cons (rate : Nat) (p : Soft × Soft) (r : List (Soft × Soft)) (n : Nat) :
    Claims.punctured rate (p :: r) n =
      (if sentFirst rate (n % Claims.period rate) then [p.1] else []) ++
      (if sentSecond rate (n % Claims.period rate) then [p.2] else []) ++
        Claims.punctured rate r (n + 1) := rfl

/-- The symbols of each pair complete that pair, with erasures, and come to the next step. -/
theorem feed_dpPush_punctured (l : List (Soft × Soft)) {s : State} {n : Nat} {r : Soft}
    (hr : s.cfg.rate < 5) (hd : s.dp = slotAt s.cfg.rate (n % Claims.period s.cfg.rate) r) :
    ∃ res t r', Claims.feed .dpPush latchSymbol (Claims.punctured s.cfg.rate l n) s =
        some (res, t) ∧ Claims.pairsOf res = Claims.erased s.cfg.rate l n ∧
      t.dp = slotAt s.cfg.rate ((n + l.length) % Claims.period s.cfg.rate) r' := by
  induction l generalizing s n r with
  | nil => exact ⟨[], s, r, rfl, rfl, hd⟩
  | cons p q ih =>
    have hk : n % Claims.period s.cfg.rate < Claims.period s.cfg.rate :=
      Nat.mod_lt _ (period_bounds hr).1
    have hnext : (n % Claims.period s.cfg.rate + 1) % Claims.period s.cfg.rate =
        (n + 1) % Claims.period s.cfg.rate := Nat.mod_add_mod _ _ _
    rw [punctured_cons, erased_cons, List.length_cons, ← Nat.add_assoc, Nat.add_right_comm]
    cases h1 : sentFirst s.cfg.rate (n % Claims.period s.cfg.rate) with
    | false =>
      have h2 := (sent_or hr hk).resolve_left (ne_true_of_eq_false h1)
      rw [slotAt, h1] at hd
      have hpush := depuncture_second hr hk 0 p.2
      rw [hnext] at hpush
      obtain ⟨res, t, r', ht, hres, hdp⟩ := ih (s := ({ Claims.withArgs s (latchSymbol p.2) with
        dp := slotAt s.cfg.rate ((n + 1) % Claims.period s.cfg.rate) 0 } : State).setRes
          (.pairs [(0, p.2)])) hr rfl
      rw [h2]
      exact ⟨_, t, r', feed_dpPush_cons (hd ▸ hpush) ht, congrArg (_ :: ·) hres, hdp⟩
    | true =>
      rw [slotAt, h1] at hd
      cases h2 : sentSecond s.cfg.rate (n % Claims.period s.cfg.rate) with
      | true =>
        have hfirst := depuncture_first_kept hr hk h2 r p.1
        have hpush := depuncture_second hr hk p.1 p.2
        rw [hnext] at hpush
        obtain ⟨res, t, r', ht, hres, hdp⟩ := ih (s := ({ Claims.withArgs
          (({ Claims.withArgs s (latchSymbol p.1) with
            dp := ⟨BitVec.ofNat 3 (n % Claims.period s.cfg.rate), true, p.1⟩ } : State).setRes
              (.pairs [])) (latchSymbol p.2) with
          dp := slotAt s.cfg.rate ((n + 1) % Claims.period s.cfg.rate) p.1 } : State).setRes
            (.pairs [(p.1, p.2)])) hr rfl
        exact ⟨_, t, r', feed_dpPush_cons (hd ▸ hfirst) (feed_dpPush_cons hpush ht),
          congrArg (_ :: ·) hres, hdp⟩
      | false =>
        have hpush := depuncture_first_punctured hr hk h2 r p.1
        rw [hnext] at hpush
        obtain ⟨res, t, r', ht, hres, hdp⟩ := ih (s := ({ Claims.withArgs s (latchSymbol p.1) with
          dp := slotAt s.cfg.rate ((n + 1) % Claims.period s.cfg.rate) p.1 } : State).setRes
            (.pairs [(p.1, 0)])) hr rfl
        exact ⟨_, t, r', feed_dpPush_cons (hd ▸ hpush) ht, congrArg (_ :: ·) hres, hdp⟩

end Sys2Proof.Machine

namespace Sys2Proof
open Sys2Proof.Machine Sys2Proof.Claims

/-- Settles O28: one push by the slot it fills, a stream by induction on its pairs. -/
theorem depunctureRestoresPairs : Obligations.DepunctureRestoresPairs := by
  refine ⟨fun s hr hd _ => ?_, fun s l hr hk hi hwhole => ?_⟩
  · obtain ⟨e, l, he, hlen, hlt, hkept⟩ := depuncture_kept hr hd s.env.args.x
    refine ⟨e, l, exec_dpPush he, hlen, hlt, ?_⟩
    rw [Puncture.kept] at hkept
    unfold slotKept
    cases h : e.dpI with
    | _ =>
      rw [h] at hkept
      exact hkept
  · have hslot (r : Soft) : slotAt s.cfg.rate 0 r = ⟨0, false, r⟩ :=
      if_pos (sentFirst_zero hr)
    have hstart : s.dp = slotAt s.cfg.rate (0 % period s.cfg.rate) s.dp.dpR1 := by
      rw [Nat.zero_mod, hslot, ← hk, ← hi]
    obtain ⟨res, t, r, ht, hres, hdp⟩ := feed_dpPush_punctured l hr hstart
    rw [Nat.zero_add, hwhole, hslot] at hdp
    exact ⟨res, t, ht, hres, by rw [hdp], by rw [hdp]⟩

end Sys2Proof
end

section
/-! SUPPORT. CW and the interleaves of a frame (46_reed_solomon R295, R300, R306), and the dual
basis (R296, R301, R305). -/

namespace Sys2Proof.Machine

/-! ## CW as 255 bytes -/

theorem getElem_codeword (cw : Memory 8) {k : Nat} (hk : k < (codeword cw).length) :
    (codeword cw)[k] = cw.read k := by
  simp only [codeword, Memory.firstN, List.getElem_map, List.getElem_range]

theorem read_setCodeword {cw : Memory 8} (hw : cw.wf) {l : List Byte} (hl : l.length = 255)
    {k : Nat} (hk : k < 255) : (setCodeword cw l).read k = l[k] := by
  have h := Memory.read_storeStride l cw 0 1 k hw Nat.one_pos (by omega)
  rwa [Nat.zero_add, Nat.one_mul] at h

theorem read_setCodeword_ge (cw : Memory 8) {l : List Byte} (hl : l.length = 255) {k : Nat}
    (hk : 255 ≤ k) : (setCodeword cw l).read k = cw.read k :=
  Memory.read_storeStride_ne _ _ _ _ _ fun i hi => by omega

theorem read_setCodeword_map {cw : Memory 8} (hw : cw.wf) (f : Byte → Byte) {k : Nat}
    (hk : k < 255) : (setCodeword cw ((codeword cw).map f)).read k = f (cw.read k) := by
  rw [read_setCodeword hw (by rw [List.length_map, length_codeword]) hk, List.getElem_map,
    getElem_codeword]

/-- Two byte maps that undo each other undo each other on CW. -/
theorem setCodeword_map_map {cw : Memory 8} (hw : cw.wf) {f g : Byte → Byte}
    (hfg : ∀ v, f (g v) = v) :
    setCodeword (setCodeword cw ((codeword cw).map g))
      ((codeword (setCodeword cw ((codeword cw).map g))).map f) = cw := by
  have hlen (h : Byte → Byte) (m : Memory 8) : ((codeword m).map h).length = 255 := by
    rw [List.length_map, length_codeword]
  have hwg := wf_setCodeword cw ((codeword cw).map g) hw
  refine Memory.eq_of_read_eq (wf_setCodeword _ _ hwg) hw fun k => ?_
  rcases Nat.lt_or_ge k 255 with hk | hk
  · rw [read_setCodeword_map hwg f hk, read_setCodeword_map hw g hk, hfg]
  · rw [read_setCodeword_ge _ (hlen _ _) hk, read_setCodeword_ge _ (hlen _ _) hk]

/-! ## The dual basis (R296) -/

theorem getLsbD_foldl_xor (l : List Byte) (a : Byte) (j : Nat) :
    (l.foldl (· ^^^ ·) a).getLsbD j =
      (a.getLsbD j != ((l.countP fun v => v.getLsbD j) % 2 == 1)) := by
  induction l generalizing a with
  | nil => simp
  | cons v r ih =>
    rw [List.foldl_cons, ih, BitVec.getLsbD_xor, List.countP_cons]
    rcases Nat.mod_two_eq_zero_or_one (r.countP fun v => v.getLsbD j) with h | h <;>
      cases a.getLsbD j <;> cases v.getLsbD j <;> simp [h, Nat.add_mod]

theorem getLsbD_selectRows (rows : List Byte) (v : Byte) (j : Nat) :
    (selectRows rows v).getLsbD j =
      (((List.range 8).countP fun i => v.getLsbD (7 - i) && (rows.getD i 0).getLsbD j) % 2 ==
        1) := by
  have hrow (i : Nat) : (if v.getLsbD (7 - i) then rows.getD i 0 else 0).getLsbD j =
      (v.getLsbD (7 - i) && (rows.getD i 0).getLsbD j) := by
    cases v.getLsbD (7 - i) with
    | true => rfl
    | false => exact BitVec.getLsbD_zero
  unfold selectRows xorAll
  rw [getLsbD_foldl_xor, List.countP_map]
  simp only [Function.comp_def, hrow]
  exact (congrArg (· != _) BitVec.getLsbD_zero).trans (Bool.false_bne _)

/-- The rows as numbers and as bytes. -/
theorem getLsbD_row {rows : List Nat} {i j : Nat} (hj : j < 8) :
    ((rows.map (BitVec.ofNat 8)).getD i 0).getLsbD j = (rows.getD i 0).testBit j := by
  have hzero : (0 : Byte) = BitVec.ofNat 8 0 := rfl
  rw [hzero, List.getD_map, BitVec.getLsbD_ofNat, decide_eq_true hj, Bool.true_and]

theorem getLsbD_selectRows_eq_timesMatrix (rows : List Nat) (v : Byte) {k : Nat} (hk : k < 8) :
    (selectRows (rows.map (BitVec.ofNat 8)) v).getLsbD (7 - k) =
      Claims.timesMatrix rows v k := by
  rw [getLsbD_selectRows, Claims.timesMatrix]
  simp only [getLsbD_row (show 7 - k < 8 by omega)]

theorem tal1_tal (v : Byte) : tal1 (tal v) = v := by
  revert v
  decide +kernel

theorem tal_tal1 (v : Byte) : tal (tal1 v) = v := by
  revert v
  decide +kernel

theorem exec_rsTodual (s : State) : exec .rsTodual s = .next { s with cw := toDual s.cw } := rfl

theorem exec_rsToconv (s : State) :
    exec .rsToconv s = .next { s with cw := toConventional s.cw } := rfl

/-! ## Interleaves (R295) -/

section
variable {c : Cfg} {frm cw : Memory 8} {j : Nat}

theorem getElem_laneBytes (c : Cfg) (frm : Memory 8) (j : Nat) {k : Nat}
    (hk : k < (laneBytes c frm j).length) :
    (laneBytes c frm j)[k] = frm.read (Claims.laneIndex c j k) := by
  simp only [laneBytes, List.getElem_map, List.getElem_range]
  rfl

theorem length_laneBytes (c : Cfg) (frm : Memory 8) (j : Nat) :
    (laneBytes c frm j).length = 255 := by
  rw [laneBytes, List.length_map, List.length_range]

theorem gather_ok (h : Claims.laneIndex c j 254 < c.frameBytes) (frm cw : Memory 8) :
    gather c frm cw j = .ok (setCodeword cw (laneBytes c frm j)) := by
  unfold gather
  rw [laneBounds_ok h]
  rfl

/-- CW scattered to the places of an interleave. -/
def scattered (c : Cfg) (frm cw : Memory 8) (j : Nat) : Memory 8 :=
  frm.storeStride (c.asmBytes + j) c.rsDepth (codeword cw)

theorem scatter_ok (h : Claims.laneIndex c j 254 < c.frameBytes) (frm cw : Memory 8) :
    scatter c frm cw j = .ok (scattered c frm cw j) := by
  unfold scatter
  rw [laneBounds_ok h]
  rfl

theorem read_scattered (hf : frm.wf) (hd : 0 < c.rsDepth) {k : Nat} (hk : k < 255) :
    (scattered c frm cw j).read (Claims.laneIndex c j k) = cw.read k := by
  have h := Memory.read_storeStride (codeword cw) frm (c.asmBytes + j) c.rsDepth k hf hd
    (by rwa [length_codeword])
  rwa [getElem_codeword] at h

theorem read_scattered_ne {a : Nat} (h : ∀ k < 255, a ≠ Claims.laneIndex c j k) :
    (scattered c frm cw j).read a = frm.read a := by
  refine Memory.read_storeStride_ne _ _ _ _ _ fun k hk => ?_
  rw [length_codeword] at hk
  exact h k hk

/-- A gather followed by a scatter leaves the frame as it was. -/
theorem scattered_gathered (hf : frm.wf) (hc : cw.wf) (hd : 0 < c.rsDepth) :
    scattered c frm (setCodeword cw (laneBytes c frm j)) j = frm := by
  refine Memory.eq_of_read_eq (Memory.wf_storeStride _ _ _ _ hf) hf fun a => ?_
  by_cases ha : ∃ k < 255, a = Claims.laneIndex c j k
  · obtain ⟨k, hk, rfl⟩ := ha
    have h := read_scattered (c := c) (cw := setCodeword cw (laneBytes c frm j)) (j := j) hf hd hk
    rw [read_setCodeword hc (length_laneBytes c frm j) hk, getElem_laneBytes] at h
    exact h
  · exact read_scattered_ne fun k hk e => ha ⟨k, hk, e⟩

end

theorem exec_rsDeint {s : State} {m : Memory 8}
    (h : gather s.cfg s.frm s.cw s.env.args.lane.toNat = .ok m) :
    exec .rsDeint s = .next { s with cw := m } := by
  show execRsDeint s = _
  unfold execRsDeint
  rw [h]
  rfl

theorem exec_rsReint {s : State} {m : Memory 8}
    (h : scatter s.cfg s.frm s.cw s.env.args.lane.toNat = .ok m) :
    exec .rsReint s = .next { s with frm := m } := by
  show execRsReint s = _
  unfold execRsReint
  rw [h]
  rfl

end Sys2Proof.Machine

namespace Sys2Proof
open Sys2Proof.Machine Sys2Proof.Claims

/-- Settles O43: the two tables as matrices over GF(2), inverse to each other on every byte. -/
theorem dualBasisTransforms : Obligations.DualBasisTransforms := by
  intro s hw
  have hlen (f : Byte → Byte) : ((codeword s.cw).map f).length = 255 := by
    rw [List.length_map, length_codeword]
  have hplaces : ∀ k < 255, ∀ i < 8,
      ((toDual s.cw).read k).getLsbD (7 - i) = timesMatrix matrixT (s.cw.read k) i ∧
      ((toConventional s.cw).read k).getLsbD (7 - i) = timesMatrix matrixTInv (s.cw.read k) i := by
    intro k hk i hi
    rw [toDual, toConventional, read_setCodeword_map hw _ hk, read_setCodeword_map hw _ hk]
    exact ⟨getLsbD_selectRows_eq_timesMatrix matrixT _ hi,
      getLsbD_selectRows_eq_timesMatrix matrixTInv _ hi⟩
  have hrest : ∀ k, 255 ≤ k →
      (toDual s.cw).read k = s.cw.read k ∧ (toConventional s.cw).read k = s.cw.read k :=
    fun k hk => ⟨read_setCodeword_ge s.cw (hlen tal) hk, read_setCodeword_ge s.cw (hlen tal1) hk⟩
  have hback : toConventional (toDual s.cw) = s.cw := setCodeword_map_map hw tal1_tal
  have hforth : toDual (toConventional s.cw) = s.cw := setCodeword_map_map hw tal_tal1
  have hdual := exec_rsTodual s
  have hconv := exec_rsToconv s
  generalize toDual s.cw = d at hdual hplaces hrest hback
  generalize toConventional s.cw = c at hconv hplaces hrest hforth
  exact ⟨_, _, hdual, rfl, hconv, rfl, hplaces, hrest,
    (exec_rsToconv { s with cw := d }).trans
      (congrArg (fun m => Host.Outcome.next { s with cw := m }) hback),
    (exec_rsTodual { s with cw := c }).trans
      (congrArg (fun m => Host.Outcome.next { s with cw := m }) hforth)⟩

/-- Settles O44: the reads of CW after a gather and of FRM after a scatter. -/
theorem interleaveGatherScatter : Obligations.InterleaveGatherScatter := by
  intro s hf hc j hj hin
  have hd : 0 < s.cfg.rsDepth := by omega
  have hlen := length_laneBytes s.cfg s.frm j
  have hgathered : ∀ k < 255, (setCodeword s.cw (laneBytes s.cfg s.frm j)).read k =
      s.frm.read (laneIndex s.cfg j k) := fun k hk =>
    (read_setCodeword hc hlen hk).trans (getElem_laneBytes s.cfg s.frm j _)
  have hrest : ∀ k, 255 ≤ k →
      (setCodeword s.cw (laneBytes s.cfg s.frm j)).read k = s.cw.read k :=
    fun k hk => read_setCodeword_ge s.cw hlen hk
  have hplaces : ∀ k < 255, (scattered s.cfg s.frm s.cw j).read (laneIndex s.cfg j k) =
      s.cw.read k := fun k hk => read_scattered hf hd hk
  have hothers : ∀ a, (∀ k < 255, a ≠ laneIndex s.cfg j k) →
      (scattered s.cfg s.frm s.cw j).read a = s.frm.read a := fun a ha => read_scattered_ne ha
  have hdeint := exec_rsDeint (gather_ok hin s.frm s.cw)
  have hreint := exec_rsReint (scatter_ok hin s.frm s.cw)
  have hback := scattered_gathered (j := j) hf hc hd
  generalize setCodeword s.cw (laneBytes s.cfg s.frm j) = m at hgathered hrest hdeint hback
  generalize scattered s.cfg s.frm s.cw j = f at hplaces hothers hreint
  exact ⟨_, _, hdeint, rfl, hgathered, hrest, hreint, rfl, hplaces, hothers,
    (exec_rsReint (s := { s with cw := m }) (scatter_ok hin s.frm m)).trans
      (congrArg (fun x => Host.Outcome.next { s with cw := m, frm := x }) hback)⟩

end Sys2Proof
end

section
/-! SUPPORT. What waits in OUT and the surroundings make no difference to the datapath: it commutes
with putting frames in front of OUT and with replacing the surroundings (R85, R98, R334). -/

namespace Sys2Proof.Machine

/-- `s` with the frames `q` waiting in front of OUT, among the surroundings `e`. -/
def aside (q : List Frame) (e : Env) (s : State) : State :=
  { s with outq := q ++ s.outq, env := e }

theorem aside_emptyOut (s : State) : aside s.outq s.env (Claims.emptyOut s) = s := by
  show { s with outq := s.outq ++ [] } = s
  rw [List.append_nil]

section
variable (q : List Frame) (e : Env)

theorem map_bind_map {α β γ δ : Type} (x : Except Fault α) (f : α → β)
    (g : β → Except Fault γ) (g' : α → Except Fault δ) (h : δ → γ)
    (hg : ∀ a, g (f a) = (g' a).map h) : (x.map f >>= g) = (x >>= g').map h := by
  cases x with
  | error => rfl
  | ok a => exact hg a

theorem bind_map {α γ δ : Type} (x : Except Fault α)
    (g : α → Except Fault γ) (g' : α → Except Fault δ) (h : δ → γ)
    (hg : ∀ a, g a = (g' a).map h) : (x >>= g) = (x >>= g').map h := by
  cases x with
  | error => rfl
  | ok a => exact hg a

theorem derandAt_aside (m : Nat) (s : State) :
    derandAt m (aside q e s) = aside q e (derandAt m s) := by
  rw [derandAt_eq, derandAt_eq]
  rfl

theorem correctFrame_aside (s : State) :
    correctFrame (aside q e s) = (correctFrame s).map (aside q e) := by
  unfold correctFrame
  split
  · next h =>
    rw [if_pos (show s.cfg.rsType ≠ 0#2 from h)]
    unfold decodeFrame
    show Except.map _ (decodeLanes s.cfg ⟨s.frm, s.cw, noCounts⟩ 0 s.cfg.rsDepth) = _
    cases decodeLanes s.cfg ⟨s.frm, s.cw, noCounts⟩ 0 s.cfg.rsDepth <;> rfl
  · next h =>
    rw [if_neg (show ¬ s.cfg.rsType ≠ 0#2 from h)]
    rfl

theorem emit_aside (s : State) : emit (aside q e s) = aside q e (emit s) := by
  show ({ s with outq := (q ++ s.outq) ++ [frameOf s.cfg s.frm], env := e } : State) = _
  rw [List.append_assoc]
  rfl

/-- The last part of R342: the frame is accepted and emitted, or dropped. -/
def emitAccepted (s : State) : State := if accepts s then emit s else s

theorem emitAccepted_aside (s : State) :
    emitAccepted (aside q e s) = aside q e (emitAccepted s) := by
  have hsame : accepts (aside q e s) = accepts s := rfl
  unfold emitAccepted
  rw [hsame]
  split
  · exact emit_aside q e s
  · rfl

theorem processFrame_eq_map (s : State) :
    processFrame s = (correctFrame (derandAt 1 s)).map fun t => emitAccepted (derandAt 2 t) := rfl

theorem processFrame_aside (s : State) :
    processFrame (aside q e s) = (processFrame s).map (aside q e) := by
  rw [processFrame_eq_map, processFrame_eq_map, derandAt_aside, correctFrame_aside]
  cases correctFrame (derandAt 1 s) with
  | error => rfl
  | ok t =>
    show Except.ok (emitAccepted (derandAt 2 (aside q e t))) = Except.ok _
    rw [derandAt_aside, emitAccepted_aside]

theorem routeBit_aside (s : State) (b : Bool) :
    routeBit (aside q e s) b = (routeBit s b).map (aside q e) := by
  rw [routeBit_eq_bind, routeBit_eq_bind]
  refine bind_map _ _ _ _ fun p => ?_
  have hpushed : bitPushed (aside q e s) b p = aside q e (bitPushed s b p) := rfl
  rw [hpushed, processFrame_aside]
  cases p.frame <;> rfl

theorem routePair_aside (s : State) (p : Soft × Soft) :
    routePair (aside q e s) p = (routePair s p).map (aside q e) := by
  unfold routePair
  refine bind_map _ _ _ _ fun r => ?_
  dsimp only
  split
  · rfl
  · next b _ => exact routeBit_aside q e { s with vit := r.1 } b

theorem routePairs_aside (l : List (Soft × Soft)) (s : State) :
    routePairs (aside q e s) l = (routePairs s l).map (aside q e) := by
  induction l generalizing s with
  | nil => rfl
  | cons p r ih =>
    unfold routePairs
    rw [routePair_aside]
    exact map_bind_map _ _ _ _ _ ih

theorem routeSymbol_aside (s : State) (y : Soft) :
    routeSymbol (aside q e s) y = (routeSymbol s y).map (aside q e) :=
  bind_map _ _ _ _ fun r => routePairs_aside q e r.2 { s with dp := r.1 }

theorem routeSymbols_aside (l : List Soft) (s : State) :
    routeSymbols (aside q e s) l = (routeSymbols s l).map (aside q e) := by
  induction l generalizing s with
  | nil => rfl
  | cons y r ih =>
    unfold routeSymbols
    rw [routeSymbol_aside]
    exact map_bind_map _ _ _ _ _ ih

theorem takeSymbol_aside (s : State) (x : Soft) :
    takeSymbol (aside q e s) x = (takeSymbol s x).map (aside q e) := by
  unfold takeSymbol
  split
  · next h =>
    rw [if_pos (show s.ph.skip ≠ 0 from h)]
    rfl
  · next h =>
    rw [if_neg (show ¬ s.ph.skip ≠ 0 from h)]
    exact routeSymbols_aside q e (normalise s.cfg s.ph x).2
      { s with ph := (normalise s.cfg s.ph x).1 }

/-- The end of a data step: the last symbol of the batch ends it (R339). -/
def endBatch (s : State) : State := if s.ctl.symI = s.ctl.symN then s.goto .resync else s

theorem endBatch_aside (s : State) : endBatch (aside q e s) = aside q e (endBatch s) := by
  show (if s.ctl.symI = s.ctl.symN then _ else _) = aside q e (if _ then _ else _)
  split <;> rfl

theorem dataStep_eq (s : State) : dataStep s =
    within .sym s.cfg.batchLen s.ctl.symI.toNat >>= fun _ =>
      (takeSymbol { s with ctl := { s.ctl with symI := s.ctl.symI + 1 } }
        (s.sym.read s.ctl.symI.toNat)).map endBatch := rfl

theorem dataStep_aside (s : State) :
    dataStep (aside q e s) = (dataStep s).map (aside q e) := by
  rw [dataStep_eq, dataStep_eq]
  refine bind_map _ _ _ _ fun _ => ?_
  have htake := takeSymbol_aside q e
    { s with ctl := { s.ctl with symI := s.ctl.symI + 1 } } (s.sym.read s.ctl.symI.toNat)
  refine (congrArg (Except.map endBatch) htake).trans ?_
  cases takeSymbol { s with ctl := { s.ctl with symI := s.ctl.symI + 1 } }
    (s.sym.read s.ctl.symI.toNat) with
  | error => rfl
  | ok t => exact congrArg Except.ok (endBatch_aside q e t)

end

/-! ## Behind what waits in OUT -/

theorem roomInOut_emptyOut (s : State) : Claims.roomInOut (Claims.emptyOut s) :=
  show 0 < Config.outDepth by decide

/-- A step with OUT empty, and the same step behind what waits in OUT. -/
theorem behindOut_settleEmit {s t : State} {r : Except Fault State} (hr : r = .ok t)
    (henv : t.env = s.env) :
    Claims.behindOut s t (settleEmit s (r.map (aside s.outq s.env))) := by
  have hbehind : r.map (aside s.outq s.env) = .ok { t with outq := s.outq ++ t.outq } := by
    rw [hr, ← henv]
    rfl
  refine ⟨fun h => settleEmit_done hbehind (h.imp_left fun hnone => ?_),
    fun hsome hfull => settleEmit_wait hbehind (fun hlen => hsome ?_) hfull⟩
  · show (s.outq ++ t.outq).length = _
    rw [hnone, List.append_nil]
  · have hsum : (s.outq ++ t.outq).length = s.outq.length := hlen
    rw [List.length_append] at hsum
    exact List.eq_nil_of_length_eq_zero (by omega)

/-- An operation that may emit completes with OUT empty. -/
theorem settleEmit_emptyOut {s t : State} {r : Except Fault State} (hr : r = .ok t) :
    settleEmit (Claims.emptyOut s) r = .next t :=
  settleEmit_done hr (.inr (roomInOut_emptyOut s))

theorem exec_ctlBit (s : State) :
    exec .ctlBit s = settleEmit s (routeBit s s.env.args.bit) := rfl

/-! ## The parts of CTL.FRAME and CTL.BIT -/

theorem exec_rsFrame {s t : State} (h : decodeFrame s = .ok t) : exec .rsFrame s = .next t := by
  show settle (decodeFrame s) = _
  rw [h]
  rfl

theorem exec_drApply_of_mode {s : State} {m : Nat} (h : s.cfg.derandMode = m) :
    exec .drApply s = .next (derandAt m s) := by
  rw [derandAt, if_pos h]
  exact exec_drApply s

theorem derandAt_of_ne {s : State} {m : Nat} (h : s.cfg.derandMode ≠ m) : derandAt m s = s :=
  if_neg h

theorem cfg_derandAt (m : Nat) (s : State) : (derandAt m s).cfg = s.cfg := by
  rw [derandAt_eq]

theorem outq_derandAt (m : Nat) (s : State) : (derandAt m s).outq = s.outq := by
  rw [derandAt_eq]

/-- What R342's Reed-Solomon part leaves alone. -/
theorem correctFrame_kept {s t : State} (h : correctFrame s = .ok t) :
    t.cfg = s.cfg ∧ t.outq = s.outq := by
  unfold correctFrame at h
  split at h
  · obtain ⟨l, -, rfl⟩ := decodeFrame_ok h
    exact ⟨rfl, rfl⟩
  · cases h
    exact ⟨rfl, rfl⟩

theorem correctFrame_off {s : State} (h : s.cfg.rsType = 0#2) :
    correctFrame s = .ok { s with hRs := noCounts } := if_neg (not_not_intro h)

theorem correctFrame_on {s : State} (h : s.cfg.rsType ≠ 0#2) : correctFrame s = decodeFrame s :=
  if_pos h

theorem processFrame_of_correctFrame {s t : State} (h : correctFrame (derandAt 1 s) = .ok t) :
    processFrame s = .ok (emitAccepted (derandAt 2 t)) := by
  rw [processFrame_eq_map, h]
  rfl

theorem correctFrame_total {s : State} (hc : s.cfg.Legal) :
    ∃ t, correctFrame (derandAt 1 s) = .ok t := by
  obtain ⟨u, hu⟩ := processFrame_total hc
  obtain ⟨t, ht, -⟩ := (map_ok_iff _ _ _).1 hu
  exact ⟨t, ht⟩

theorem noCounts_eq : noCounts = Vector.replicate 8 0 := by decide

theorem countUnsync_eq (d : DfState) (n : BitVec 32) :
    countUnsync d n =
      BitVec.ofNat 32 (if d = .synced then 0 else min (n.toNat + 1) (2 ^ 32 - 1)) := by
  have hn := n.isLt
  unfold countUnsync
  split
  · rfl
  · split
    · next h =>
      rw [h]
      rfl
    · next h =>
      have hne : n.toNat ≠ 2 ^ 32 - 1 := fun e => h (BitVec.eq_of_toNat_eq e)
      refine BitVec.eq_of_toNat_eq ?_
      rw [BitVec.toNat_add, BitVec.toNat_ofNat, Nat.min_eq_left (by omega)]
      rfl

/-- Routing a bit keeps the surroundings and `fl_i`. -/
theorem routeBit_env {s t : State} {b : Bool} (h : routeBit s b = .ok t) :
    t.env = s.env ∧ t.ctl.flI = s.ctl.flI := by
  obtain ⟨k, -⟩ := routeBit_kept h
  exact ⟨k.env, by rw [k.ctl]⟩

end Sys2Proof.Machine

namespace Sys2Proof
open Sys2Proof.Machine Sys2Proof.Claims

/-- Settles O55: the parts of CTL.FRAME in their order, the emission last. -/
theorem frameProcessed : Obligations.FrameProcessed := by
  intro s hcfg
  obtain ⟨t, ht⟩ := correctFrame_total (legal_of_configError hcfg)
  obtain ⟨hcfgt, houtt⟩ := correctFrame_kept ht
  rw [cfg_derandAt] at hcfgt
  have hout : (derandAt 2 t).outq = s.outq := by rw [outq_derandAt, houtt, outq_derandAt]
  have hframe := processFrame_of_correctFrame ht
  refine ⟨derandAt 1 s, t, derandAt 2 t, accepts (derandAt 2 t), ?_, ?_, ?_, rfl, fun hr => ?_,
    fun hr hroom => ?_, fun hr hfull => ?_⟩
  · split
    · next h => exact exec_drApply_of_mode h
    · next h => exact derandAt_of_ne h
  · split
    · next h =>
      rw [correctFrame_off (by rwa [cfg_derandAt]), noCounts_eq] at ht
      exact (Except.ok.inj ht).symm
    · next h => exact exec_rsFrame ((correctFrame_on (by rwa [cfg_derandAt])).symm.trans ht)
  · rw [← hcfgt]
    split
    · next h => exact exec_drApply_of_mode h
    · next h => exact derandAt_of_ne h
  · rw [emitAccepted, hr, if_neg Bool.false_ne_true] at hframe
    exact settleEmit_done hframe (.inl (congrArg List.length hout))
  · rw [emitAccepted, if_pos hr] at hframe
    have hroom' : roomInOut (derandAt 2 t) := by
      unfold roomInOut
      rwa [hout]
    exact ⟨_, exec_ctlEmit_room hroom', settleEmit_done hframe (.inr hroom)⟩
  · rw [emitAccepted, if_pos hr] at hframe
    refine settleEmit_wait hframe (fun hlen => ?_) hfull
    have hlen' : ((derandAt 2 t).outq ++ [frameOf (derandAt 2 t).cfg (derandAt 2 t).frm]).length =
        s.outq.length := hlen
    rw [hout, List.length_append, List.length_singleton] at hlen'
    omega

/-- Settles O54: DF.PUSH answers on a ready deframer; a completed frame goes through CTL.FRAME with
OUT empty and joins what waits there. -/
theorem bitRouted : Obligations.BitRouted := by
  intro s hready
  obtain ⟨p, hp⟩ := pushBit_ready hready s.frm (diffBit s s.env.args.bit)
  have hroute : routeBit s s.env.args.bit =
      if p.frame then processFrame (bitPushed s s.env.args.bit p)
      else .ok (bitPushed s s.env.args.bit p) := by
    rw [routeBit_eq_bind, hp, ok_bind]
  refine ⟨(bitPushed s s.env.args.bit p).ph, diffBit s s.env.args.bit,
    { s with ph := (bitPushed s s.env.args.bit p).ph, df := p.df, frm := p.frm },
    if p.frame then some (frameBytesOf s.cfg p.frm) else none, ?_, exec_dfPush hp, rfl, ?_⟩
  · unfold bitPushed diffBit
    cases hn : s.cfg.nrzm with
    | true => exact exec_diffDec s
    | false => exact ⟨rfl, rfl⟩
  · dsimp only
    rw [← countUnsync_eq]
    cases hf : p.frame with
    | false =>
      rw [hf] at hroute
      exact ⟨fun _ => settleEmit_done hroute (.inl rfl), fun h => absurd rfl h⟩
    | true =>
      rw [hf, if_pos rfl] at hroute
      refine ⟨fun h => (by cases h), fun _ => ?_⟩
      obtain ⟨t, ht⟩ := processFrame_total (s := emptyOut (bitPushed s s.env.args.bit p))
        (show s.cfg.Legal from legal_of_framerReady hready)
      have hbehind := processFrame_aside s.outq s.env (emptyOut (bitPushed s s.env.args.bit p))
      rw [show aside s.outq s.env (emptyOut (bitPushed s s.env.args.bit p)) =
        bitPushed s s.env.args.bit p from aside_emptyOut _, ← hroute] at hbehind
      refine ⟨t, settleEmit_emptyOut (s := bitPushed s s.env.args.bit p) ht, ?_⟩
      rw [exec_ctlBit, hbehind]
      exact behindOut_settleEmit ht (flow_processFrame ht).env

/-- Settles O59: the held bit goes through CTL.BIT with OUT empty and joins what waits there. -/
theorem flushStepRoutesBit : Obligations.FlushStepRoutesBit := by
  intro s h hseq
  have hw : s.ctl.seq.working = true := by rw [hseq]; rfl
  have hc := h.configLegal hw
  obtain ⟨-, hb⟩ := h.legal hw
  obtain ⟨l, hl⟩ := flushList_total hc.tbd s.vit
  refine ⟨l, exec_vitFlush hl, fun b hbit => ?_, fun hn =>
    settleEmit_done (flushStep_done hl hn) (.inl rfl)⟩
  obtain ⟨v, hv⟩ := routeBit_total (s := emptyOut s) hc
    (hb.of_eq rfl rfl rfl rfl rfl rfl) b
  obtain ⟨henv, hfl⟩ := routeBit_env hv
  have hlatched : routeBit (withArgs (emptyOut s) (latchBit b)) b = .ok
      { v with env := (withArgs (emptyOut s) (latchBit b)).env } := by
    have := routeBit_aside [] (withArgs (emptyOut s) (latchBit b)).env (emptyOut s) b
    rwa [hv] at this
  have hroute := routeBit_aside s.outq s.env (emptyOut s) b
  rw [aside_emptyOut, hv] at hroute
  have hflush : flushStep s = Except.map (aside s.outq s.env)
      (.ok { v with env := s.env, ctl := { v.ctl with flI := s.ctl.flI + 1 } }) := by
    rw [flushStep_held hl hbit, hroute, ← show v.ctl.flI = s.ctl.flI from hfl]
    rfl
  refine ⟨_, settleEmit_done hlatched (.inr (roomInOut_emptyOut s)), ?_⟩
  rw [exec_ctlFlush, hflush]
  exact behindOut_settleEmit rfl rfl

/-- Settles O52: a discarded symbol by the branch of R340; in a run the step answers, with OUT empty
too. -/
theorem dataStepTakesOneSymbol : Obligations.DataStepTakesOneSymbol := by
  refine ⟨fun s hskip hi => ?_, fun s h hseq => ?_⟩
  · have htake : takeSymbol { s with ctl := { s.ctl with symI := s.ctl.symI + 1 } }
        (s.sym.read s.ctl.symI.toNat) = .ok { s with
          ph := { s.ph with skip := s.ph.skip - 1 }
          ctl := { s.ctl with symI := s.ctl.symI + 1 } } := if_pos hskip
    have hdata := dataStep_eq s
    rw [within_ok hi, ok_bind, htake, ok_map] at hdata
    have hend : endBatch { s with
        ph := { s.ph with skip := s.ph.skip - 1 }
        ctl := { s.ctl with symI := s.ctl.symI + 1 } } = { s with
        ph := { s.ph with skip := s.ph.skip - 1 }
        ctl := { s.ctl with
          symI := s.ctl.symI + 1
          seq := if s.ctl.symI + 1 = s.ctl.symN then .resync else s.ctl.seq } } := by
      show (if s.ctl.symI + 1 = s.ctl.symN then _ else _) = _
      split <;> rfl
    rw [hend] at hdata
    exact settleEmit_done hdata (.inl rfl)
  · obtain ⟨u, hu, -, -, hi, -⟩ := runInv_data h hseq
    have hbehind := dataStep_aside s.outq s.env (emptyOut s)
    rw [aside_emptyOut] at hbehind
    obtain ⟨t, ht, rfl⟩ := (map_ok_iff _ _ _).1 (hbehind.symm.trans hu)
    obtain ⟨_, -, hflow⟩ := flow_dataStep ht
    refine ⟨t, settleEmit_emptyOut ht, hi, ?_⟩
    rw [exec_ctlData, hbehind]
    exact behindOut_settleEmit ht hflow.env

end Sys2Proof
end

section
/-! SUPPORT. The data step as separate operations (47_pipeline_controller R339). A step decodes at
most two bits, and a bit right after the end of a frame ends no other: OUT has room for both. -/

namespace Sys2Proof.Machine

/-! ## Bits that find room in OUT -/

/-- A bit completes a frame where it is the last of FRAME_BITS, and the count begins again. -/
theorem pushBit_frame {c : Cfg} {d : Deframer} {frm : Memory 8} {b : Bool} {p : Pushed}
    (h : pushBit c d frm b = .ok p) (hf : p.frame = true) :
    (d.dfCnt + 1).toNat = c.frameBits ∧ p.df.dfCnt = 0 := by
  unfold pushBit at h
  dsimp only at h
  split at h
  · split at h
    · obtain ⟨_, -, h⟩ := (bind_ok_iff _ _ _).1 h
      obtain ⟨_, -, h⟩ := (bind_ok_iff _ _ _).1 h
      cases h
      cases hf
    · cases h
      cases hf
  · obtain ⟨_, -, h⟩ := (bind_ok_iff _ _ _).1 h
    split at h
    · cases h
      cases hf
    · split at h
      · next hend => exact ⟨hend, by rw [(atFrameEnd_ok h).1]⟩
      · cases h
        cases hf

theorem pushBit_no_frame {c : Cfg} (hc : c.Legal) {d : Deframer} {frm : Memory 8} {b : Bool}
    {p : Pushed} (hd : d.dfCnt = 0) (h : pushBit c d frm b = .ok p) : p.frame = false := by
  refine Bool.eq_false_iff.2 fun hf => ?_
  have hend := (pushBit_frame h hf).1
  rw [hd] at hend
  have hone : c.frameBits = 1 := hend.symm
  have := hc.asmLen.1
  have := hc.frame.1
  omega

/-- The next `n` bits, two at most, find room in OUT where they emit. -/
def Fits (n : Nat) (s : State) : Prop :=
  n ≤ 2 ∧ (n = 0 ∨ Claims.roomInOut s ∨ n = 1 ∧ s.df.dfCnt = 0)

theorem Fits.mono {m n : Nat} {s : State} (h : Fits n s) (hm : m ≤ n) : Fits m s := by
  obtain ⟨h2, h⟩ := h
  refine ⟨hm.trans h2, ?_⟩
  obtain h0 | hroom | ⟨h1, hcnt⟩ := h
  · exact .inl (by omega)
  · exact .inr (.inl hroom)
  · rcases Nat.eq_zero_or_pos m with hz | hz
    · exact .inl hz
    · exact .inr (.inr ⟨by omega, hcnt⟩)

/-- Room in OUT and the count of the deframer are all that counts. -/
theorem Fits.of_eq {n : Nat} {s t : State} (h : Fits n s) (hout : t.outq = s.outq)
    (hdf : t.df = s.df) : Fits n t := by
  unfold Fits Claims.roomInOut
  rw [hout, hdf]
  exact h

/-- A bit that fits does not wait, and the bits after it fit. -/
theorem Fits.routeBit {n : Nat} {s t : State} {b : Bool} (hf : Fits (n + 1) s)
    (hc : s.cfg.Legal) (h : routeBit s b = .ok t) :
    (t.outq.length = s.outq.length ∨ Claims.roomInOut s) ∧ Fits n t := by
  obtain ⟨h2, hf⟩ := hf
  obtain ⟨p, hp, ⟨hframe, h⟩ | ⟨-, rfl⟩⟩ := routeBit_ok h
  · have hcnt := (pushBit_frame hp hframe).2
    obtain ⟨f, w, r, o, rfl, -⟩ := processFrame_eq h
    have hroom : Claims.roomInOut s := by
      obtain h0 | hroom | ⟨-, hd⟩ := hf
      · omega
      · exact hroom
      · rw [pushBit_no_frame hc hd hp] at hframe
        cases hframe
    refine ⟨.inr hroom, by omega, ?_⟩
    rcases Nat.eq_zero_or_pos n with hz | hz
    · exact .inl hz
    · exact .inr (.inr ⟨by omega, hcnt⟩)
  · refine ⟨.inl rfl, by omega, ?_⟩
    obtain h0 | hroom | ⟨h1, -⟩ := hf
    · omega
    · exact .inr (.inl hroom)
    · exact .inl (by omega)

/-! ## The separate operations, whatever the surroundings -/

theorem perform_of_exec {i : Instr} {f : Args → Args} {s t : State}
    (h : exec i (Claims.withArgs s f) = .next t) : Claims.perform i f s = some t := by
  unfold Claims.perform
  rw [h]

/-- The operation performed with other operands and results in the latches: the same state. -/
def Same (t : State) (r : Option State) : Prop := ∃ e, r = some { t with env := e }

theorem perform_ctlBit {n : Nat} {s t : State} {b : Bool} (hf : Fits (n + 1) s)
    (hc : s.cfg.Legal) (h : routeBit s b = .ok t) (e : Env) :
    Same t (Claims.perform .ctlBit (Claims.latchBit b) { s with env := e }) := by
  have hbit := routeBit_aside []
    (Claims.withArgs { s with env := e } (Claims.latchBit b)).env s b
  rw [h] at hbit
  exact ⟨_, perform_of_exec (settleEmit_done hbit (hf.routeBit hc h).1)⟩

theorem routePair_eq (s : State) (p : Soft × Soft) : routePair s p =
    trellisStep s.cfg s.vit (invertPair s.cfg p).1 (invertPair s.cfg p).2 >>= fun r =>
      match r.2 with
      | none => .ok { s with vit := r.1 }
      | some b => routeBit { s with vit := r.1 } b := rfl

theorem perform_ccInv (s : State) (p : Soft × Soft) (e : Env) :
    ∃ e', Claims.perform .ccInv (Claims.latchPair p) { s with env := e } =
      some { s with env := e' } ∧
      e'.res = .pair (invertPair s.cfg p).1 (invertPair s.cfg p).2 :=
  ⟨_, perform_of_exec (exec_ccInv _), rfl⟩

theorem perform_vitStep {s : State} {p : Soft × Soft} {r : Viterbi × Option Bool}
    (h : trellisStep s.cfg s.vit p.1 p.2 = .ok r) (e : Env) :
    ∃ e', Claims.perform .vitStep (Claims.latchPair p) { s with env := e } =
      some { s with vit := r.1, env := e' } ∧ e'.res = .bitOpt r.2 :=
  ⟨_, perform_of_exec (exec_vitStep
    (s := Claims.withArgs { s with env := e } (Claims.latchPair p)) h), rfl⟩

/-- One pair through CC.INV, VIT.STEP and CTL.BIT. -/
theorem pairThrough_of_routePair {n : Nat} {s t : State} {p : Soft × Soft}
    (hf : Fits (n + 1) s) (hc : s.cfg.Legal) (h : routePair s p = .ok t) :
    Fits n t ∧ t.cfg = s.cfg ∧ t.dp = s.dp ∧
      ∀ e, Same t (Claims.pairThrough { s with env := e } p) := by
  rw [routePair_eq] at h
  obtain ⟨⟨v, o⟩, hr, h⟩ := (bind_ok_iff _ _ _).1 h
  have hthrough (e : Env) : ∃ e',
      Claims.pairThrough { s with env := e } p = (match o with
        | some u => Claims.perform .ctlBit (Claims.latchBit u) { s with vit := v, env := e' }
        | none => some { s with vit := v, env := e' }) := by
    obtain ⟨e1, h1, hres1⟩ := perform_ccInv s p e
    obtain ⟨e2, h2, hres2⟩ := perform_vitStep (p := invertPair s.cfg p) hr e1
    refine ⟨e2, ?_⟩
    unfold Claims.pairThrough
    rw [h1, Option.bind_eq_bind, Option.bind_some]
    dsimp only
    rw [hres1]
    dsimp only
    rw [h2, Option.bind_some]
    dsimp only
    rw [hres2]
    cases o <;> rfl
  have hfv : Fits (n + 1) { s with vit := v } := hf.of_eq rfl rfl
  cases o with
  | none =>
    cases h
    refine ⟨hfv.mono (Nat.le_succ n), rfl, rfl, fun e => ?_⟩
    obtain ⟨e', he⟩ := hthrough e
    exact ⟨e', he⟩
  | some b =>
    have hbit : routeBit { s with vit := v } b = .ok t := h
    obtain ⟨k, -, hdp, -⟩ := routeBit_kept hbit
    refine ⟨(hfv.routeBit hc hbit).2, k.cfg, hdp, fun e => ?_⟩
    obtain ⟨e', he⟩ := hthrough e
    obtain ⟨e2, he2⟩ := perform_ctlBit hfv hc hbit e'
    exact ⟨e2, he.trans he2⟩

/-- At most one pair, through the same. -/
theorem pairsThrough_of_routePairs {n : Nat} {s t : State} {l : List (Soft × Soft)}
    (hl : l.length ≤ 1) (hf : Fits (n + 1) s) (hc : s.cfg.Legal) (h : routePairs s l = .ok t) :
    Fits n t ∧ t.cfg = s.cfg ∧ t.dp = s.dp ∧
      ∀ e, Same t (l.foldlM Claims.pairThrough { s with env := e }) := by
  cases l with
  | nil =>
    cases h
    exact ⟨hf.mono (Nat.le_succ n), rfl, rfl, fun e => ⟨e, rfl⟩⟩
  | cons p r =>
    have hnil : r = [] := List.eq_nil_of_length_eq_zero (by rw [List.length_cons] at hl; omega)
    obtain ⟨u, hu, h⟩ := (bind_ok_iff _ _ _).1 h
    rw [hnil] at h
    cases h
    obtain ⟨hfit, hcfg, hdp, hsame⟩ := pairThrough_of_routePair hf hc hu
    refine ⟨hfit, hcfg, hdp, fun e => ?_⟩
    obtain ⟨e', he⟩ := hsame e
    refine ⟨e', ?_⟩
    rw [hnil, List.foldlM_cons, he]
    rfl

/-- One normalised symbol through DP.PUSH and what follows. -/
theorem symbolThrough_of_routeSymbol {n : Nat} {s t : State} {y : Soft} (hf : Fits (n + 1) s)
    (hc : s.cfg.Legal) (hk : s.dp.dpK.toNat < Claims.period s.cfg.rate)
    (h : routeSymbol s y = .ok t) :
    Fits n t ∧ t.cfg = s.cfg ∧ t.dp.dpK.toNat < Claims.period s.cfg.rate ∧
      ∀ e, Same t (Claims.symbolThrough { s with env := e } y) := by
  obtain ⟨d, l, hd, hl, hk', -⟩ := depuncture_kept hc.rate hk y
  unfold routeSymbol at h
  rw [hd, ok_bind] at h
  obtain ⟨hfit, hcfg, hdp, hsame⟩ :=
    pairsThrough_of_routePairs (s := { s with dp := d }) hl (hf.of_eq rfl rfl) hc h
  refine ⟨hfit, hcfg, by rw [hdp]; exact hk', fun e => ?_⟩
  have hpush := perform_of_exec (exec_dpPush
    (s := Claims.withArgs { s with env := e } fun g => { g with x := y }) hd)
  unfold Claims.symbolThrough
  rw [hpush, Option.bind_eq_bind, Option.bind_some]
  exact hsame _

/-- As many symbols as bits fit. -/
theorem symbolsThrough_of_routeSymbols {n : Nat} {l : List Soft} {s t : State}
    (hl : l.length ≤ n) (hf : Fits n s) (hc : s.cfg.Legal)
    (hk : s.dp.dpK.toNat < Claims.period s.cfg.rate) (h : routeSymbols s l = .ok t) (e : Env) :
    Same t (l.foldlM Claims.symbolThrough { s with env := e }) := by
  induction l generalizing n s e with
  | nil =>
    cases h
    exact ⟨e, rfl⟩
  | cons y r ih =>
    obtain ⟨u, hu, h⟩ := (bind_ok_iff _ _ _).1 h
    cases n with
    | zero => cases hl
    | succ n =>
      obtain ⟨hfit, hcfg, hk', hsame⟩ := symbolThrough_of_routeSymbol hf hc hk hu
      obtain ⟨e', he⟩ := hsame e
      rw [List.foldlM_cons, he]
      exact ih (Nat.le_of_succ_le_succ hl) hfit (hcfg ▸ hc) (hcfg.symm ▸ hk') h e'

theorem length_normalise_le (c : Cfg) (p : Phase) (x : Soft) :
    (normalise c p x).2.length ≤ 2 := by
  unfold normalise
  split
  · exact Nat.le_succ 1
  · split
    · exact le_rfl
    · exact Nat.zero_le 2

/-- PH.PUSH and what follows. -/
theorem batchSymbolThrough_of_takeSymbol {s t : State} {x : Soft} (hskip : s.ph.skip = 0)
    (hroom : Claims.roomInOut s) (hc : s.cfg.Legal)
    (hk : s.dp.dpK.toNat < Claims.period s.cfg.rate) (h : takeSymbol s x = .ok t) :
    Same t (Claims.batchSymbolThrough s x) := by
  unfold takeSymbol at h
  rw [if_neg (not_not_intro hskip)] at h
  have hpush := perform_of_exec
    (exec_phPush (Claims.withArgs s fun g => { g with x := x }))
  unfold Claims.batchSymbolThrough
  rw [hpush, Option.bind_eq_bind, Option.bind_some]
  exact symbolsThrough_of_routeSymbols (n := 2)
    (s := { s with ph := (normalise s.cfg s.ph x).1 }) (length_normalise_le s.cfg s.ph x)
    ⟨le_rfl, .inr (.inl hroom)⟩ hc hk h _

/-- The step index in the period, by the row of PUNC. -/
theorem dpK_lt_period {s : State} (hc : s.cfg.Legal) (hb : Bounds s) :
    s.dp.dpK.toNat < Claims.period s.cfg.rate := by
  obtain ⟨p, hp, hk⟩ := hb.dpK
  rw [puncture_eq_some hc.rate] at hp
  cases hp
  exact hk

end Sys2Proof.Machine

namespace Sys2Proof
open Sys2Proof.Machine Sys2Proof.Claims

/-- Settles O53: the loops of R339 stage by stage. -/
theorem dataStepRunsDatapath : Obligations.DataStepRunsDatapath := by
  intro s h hseq hskip hroom
  have hw : s.ctl.seq.working = true := by rw [hseq]; rfl
  have hc := h.configLegal hw
  obtain ⟨-, hb⟩ := h.legal hw
  obtain ⟨t, ht, -⟩ := runInv_data h hseq
  have hdata := ht
  rw [dataStep_eq] at hdata
  obtain ⟨_, -, hdata⟩ := (bind_ok_iff _ _ _).1 hdata
  obtain ⟨v, hv, hend⟩ := (map_ok_iff _ _ _).1 hdata
  obtain ⟨e, he⟩ := batchSymbolThrough_of_takeSymbol
    (s := { s with ctl := { s.ctl with symI := s.ctl.symI + 1 } }) hskip hroom hc
    (show s.dp.dpK.toNat < _ from dpK_lt_period hc hb) hv
  refine ⟨_, he, ?_⟩
  have hdone : exec .ctlData s = .next t := settleEmit_done ht (.inr hroom)
  have henv : v.env = s.env := (flow_takeSymbol hv).env
  rw [hdone, ← hend, endBatch, ← henv]
  dsimp only
  split <;> rfl

end Sys2Proof
end

section
/-! SUPPORT. RS.DEC on the 255 bytes of CW (46_reed_solomon R303, R304), and RS.FRAME lane by lane
(R307): a lane's outcome depends on its own 255 bytes, and lanes do not overlap. -/

namespace Sys2Proof.Machine

/-! ## What RS.DEC may change -/

theorem correctAt_eq_set {t : BitVec 2} {c om cw w : List Byte} {k : Nat}
    (h : correctAt t c om cw k = some w) : ∃ v, w = cw.set k v := by
  unfold correctAt at h
  dsimp only at h
  split at h
  · cases h
  · exact ⟨_, (Option.some.inj h).symm⟩

/-- The corrected word differs from the received one at the error positions only. -/
theorem correctAll_only {t : BitVec 2} {c om : List Byte} {locs : List Nat} {cw w : List Byte}
    (h : correctAll t c om cw locs = some w) :
    w.length = cw.length ∧ ∀ i, i ∉ locs → w[i]? = cw[i]? := by
  induction locs generalizing cw with
  | nil =>
    cases h
    exact ⟨rfl, fun _ _ => rfl⟩
  | cons k r ih =>
    unfold correctAll at h
    split at h
    · cases h
    · next w' hw' =>
      obtain ⟨v, rfl⟩ := correctAt_eq_set hw'
      obtain ⟨hlen, hrest⟩ := ih h
      refine ⟨hlen.trans (List.length_set ..), fun i hi => ?_⟩
      rw [List.mem_cons, not_or] at hi
      rw [hrest i hi.2, List.getElem?_set_ne (Ne.symm hi.1)]

/-- The two ways RS.DEC answers with a count (R303, R304). -/
theorem decodeWord_some {t : BitVec 2} {cw w : List Byte} {n : Nat}
    (h : decodeWord t cw = some (n, w)) :
    isCodeword t cw = true ∧ n = 0 ∧ w = cw ∨
    isCodeword t cw = false ∧ isCodeword t w = true ∧ n = distance cw w ∧
      w.length = cw.length ∧
      ∃ locs : List Nat, locs.length ≤ rsT t ∧ ∀ i, i ∉ locs → w[i]? = cw[i]? := by
  unfold decodeWord at h
  split at h
  · next hcode =>
    cases h
    exact .inl ⟨hcode, rfl, rfl⟩
  · next hcode =>
    dsimp only at h
    split at h
    · cases h
    · next hbound =>
      split at h
      · cases h
      · next hcount =>
        split at h
        · cases h
        · next w' hw' =>
          split at h
          · next hgood =>
            cases h
            obtain ⟨hlen, hrest⟩ := correctAll_only hw'
            exact .inr ⟨Bool.eq_false_iff.2 hcode, hgood, rfl, hlen, _, by omega, hrest⟩
          · cases h

theorem length_decodeWord {t : BitVec 2} {cw w : List Byte} {n : Nat}
    (h : decodeWord t cw = some (n, w)) : w.length = cw.length := by
  obtain ⟨-, -, rfl⟩ | ⟨-, -, -, hlen, -⟩ := decodeWord_some h
  · rfl
  · exact hlen

/-! ## CW as its 255 bytes -/

theorem length_map_codeword (f : Byte → Byte) (cw : Memory 8) :
    ((codeword cw).map f).length = 255 := by
  rw [List.length_map, length_codeword]

theorem codeword_toConventional {cw : Memory 8} (hw : cw.wf) :
    codeword (toConventional cw) = (codeword cw).map tal1 :=
  codeword_setCodeword _ _ hw (length_map_codeword _ _)

theorem codeword_toDual {cw : Memory 8} (hw : cw.wf) :
    codeword (toDual cw) = (codeword cw).map tal :=
  codeword_setCodeword _ _ hw (length_map_codeword _ _)

theorem correctCw_none {t : BitVec 2} {cw : Memory 8} (h : decodeWord t (codeword cw) = none) :
    correctCw t cw = (cw, -1) := by
  unfold correctCw
  rw [h]

theorem correctCw_some {t : BitVec 2} {cw : Memory 8} {n : Nat} {w : List Byte}
    (h : decodeWord t (codeword cw) = some (n, w)) :
    correctCw t cw = (setCodeword cw w, (n : Int)) := by
  unfold correctCw
  rw [h]

theorem exec_rsDec (s : State) : exec .rsDec s =
    .next (({ s with cw := (correctCw s.cfg.rsType s.cw).1 } : State).setRes
      (.count (correctCw s.cfg.rsType s.cw).2)) := rfl

/-! ## One interleave (R307) -/

/-- CW in the conventional basis, where the frame is in the dual one. -/
def basisIn (c : Cfg) (cw : Memory 8) : Memory 8 := if c.rsDual then toConventional cw else cw

/-- CW back in the frame's basis. -/
def basisOut (c : Cfg) (cw : Memory 8) : Memory 8 := if c.rsDual then toDual cw else cw

/-- What becomes of the bytes of an interleave: the count, and the bytes. -/
def laneOutcome (c : Cfg) (l : List Byte) : Int × List Byte :=
  match decodeWord c.rsType (if c.rsDual then l.map tal1 else l) with
  | some (n, w) => (n, if c.rsDual then w.map tal else w)
  | none => (-1, l)

theorem wf_basisIn (c : Cfg) {cw : Memory 8} (hw : cw.wf) : (basisIn c cw).wf := by
  unfold basisIn
  split
  · exact wf_toConventional _ hw
  · exact hw

theorem codeword_basisIn (c : Cfg) {cw : Memory 8} (hw : cw.wf) : codeword (basisIn c cw) =
    if c.rsDual then (codeword cw).map tal1 else codeword cw := by
  unfold basisIn
  split
  · exact codeword_toConventional hw
  · rfl

theorem codeword_basisOut (c : Cfg) {cw : Memory 8} (hw : cw.wf) : codeword (basisOut c cw) =
    if c.rsDual then (codeword cw).map tal else codeword cw := by
  unfold basisOut
  split
  · exact codeword_toDual hw
  · rfl

/-- RS.DEC on an interleave in CW, by the outcome for its bytes. -/
theorem correctCw_basisIn (c : Cfg) {cw : Memory 8} (hw : cw.wf) :
    let r := correctCw c.rsType (basisIn c cw)
    r.2 = (laneOutcome c (codeword cw)).1 ∧
      (r.2 < 0 → (laneOutcome c (codeword cw)).2 = codeword cw) ∧
      (0 ≤ r.2 → codeword (basisOut c r.1) = (laneOutcome c (codeword cw)).2) := by
  have hin := codeword_basisIn c hw
  unfold laneOutcome
  rw [← hin]
  cases hd : decodeWord c.rsType (codeword (basisIn c cw)) with
  | none =>
    rw [correctCw_none hd]
    exact ⟨rfl, fun _ => rfl, fun h => absurd h (by decide : ¬(0 : Int) ≤ -1)⟩
  | some r =>
    obtain ⟨n, w⟩ := r
    have hlen : w.length = 255 := (length_decodeWord hd).trans (length_codeword _)
    rw [correctCw_some hd]
    refine ⟨rfl, fun h => absurd h (Int.not_lt.2 (Int.natCast_nonneg n)), fun _ => ?_⟩
    dsimp only
    rw [codeword_basisOut c (wf_setCodeword _ _ (wf_basisIn c hw)),
      codeword_setCodeword _ _ (wf_basisIn c hw) hlen]

/-! ## The lanes of a frame -/

/-- What lane `j` of the frame `frm` has become. -/
def LaneDone (c : Cfg) (frm : Memory 8) (r : Lanes) (j : Nat) (hj : j < 8) : Prop :=
  r.hRs[j] = BitVec.ofInt 8 (laneOutcome c (laneBytes c frm j)).1 ∧
    laneBytes c r.frm j = (laneOutcome c (laneBytes c frm j)).2

theorem getElem_setCount (h : Vector (BitVec 8) 8) (j : Nat) (n : Int) {i : Nat} (hi : i < 8) :
    (setCount h j n)[i] = if i = j then BitVec.ofInt 8 n else h[i] := by
  unfold setCount
  rw [Vector.getElem_ofFn]
  rfl

theorem laneBytes_congr {c : Cfg} {f g : Memory 8} {j : Nat}
    (h : ∀ k < 255, f.read (Claims.laneIndex c j k) = g.read (Claims.laneIndex c j k)) :
    laneBytes c f j = laneBytes c g j := by
  refine List.ext_getElem (by rw [length_laneBytes, length_laneBytes]) fun k hk hk' => ?_
  rw [length_laneBytes] at hk
  exact ((getElem_laneBytes c f j _).trans (h k hk)).trans (getElem_laneBytes c g j _).symm

theorem read_of_laneBytes_eq {c : Cfg} {f g : Memory 8} {j k : Nat}
    (h : laneBytes c f j = laneBytes c g j) (hk : k < 255) :
    f.read (Claims.laneIndex c j k) = g.read (Claims.laneIndex c j k) := by
  have hkf : k < (laneBytes c f j).length := (length_laneBytes c f j).symm ▸ hk
  have hkg : k < (laneBytes c g j).length := (length_laneBytes c g j).symm ▸ hk
  exact ((getElem_laneBytes c f j hkf).symm.trans (List.getElem_of_eq h hkf)).trans
    (getElem_laneBytes c g j hkg)

theorem read_of_laneBytes_eq_codeword {c : Cfg} {f cw : Memory 8} {j k : Nat}
    (h : laneBytes c f j = codeword cw) (hk : k < 255) :
    f.read (Claims.laneIndex c j k) = cw.read k := by
  have hkf : k < (laneBytes c f j).length := (length_laneBytes c f j).symm ▸ hk
  have hkc : k < (codeword cw).length := (length_codeword cw).symm ▸ hk
  exact ((getElem_laneBytes c f j hkf).symm.trans (List.getElem_of_eq h hkf)).trans
    (getElem_codeword cw hkc)

theorem laneBytes_scattered {c : Cfg} {frm cw : Memory 8} {j : Nat} (hf : frm.wf)
    (hd : 0 < c.rsDepth) : laneBytes c (scattered c frm cw j) j = codeword cw := by
  refine List.ext_getElem (by rw [length_laneBytes, length_codeword]) fun k hk hk' => ?_
  rw [length_laneBytes] at hk
  exact ((getElem_laneBytes c _ j _).trans (read_scattered hf hd hk)).trans
    (getElem_codeword cw _).symm

/-- Two lanes share no place (R295). -/
theorem laneIndex_ne {c : Cfg} {i j k m : Nat} (hi : i < c.rsDepth) (hj : j < c.rsDepth)
    (h : i ≠ j) : Claims.laneIndex c i k ≠ Claims.laneIndex c j m := by
  intro e
  have hmod : (i + c.rsDepth * k) % c.rsDepth = (j + c.rsDepth * m) % c.rsDepth :=
    congrArg (· % c.rsDepth) (show i + c.rsDepth * k = j + c.rsDepth * m by
      unfold Claims.laneIndex at e
      omega)
  rw [Nat.add_mul_mod_self_left, Nat.add_mul_mod_self_left, Nat.mod_eq_of_lt hi,
    Nat.mod_eq_of_lt hj] at hmod
  exact h hmod

section
variable {c : Cfg} {l r : Lanes} {j : Nat}

/-- One lane: its bytes and its count become the outcome, the rest stays. -/
theorem decodeLane_spec (hf : l.frm.wf) (hc : l.cw.wf) (hd : 0 < c.rsDepth)
    (hin : Claims.laneIndex c j 254 < c.frameBytes) (hj : j < 8) (h : decodeLane c l j = .ok r) :
    LaneDone c l.frm r j hj ∧ (∀ i (hi : i < 8), i ≠ j → r.hRs[i] = l.hRs[i]) ∧
      ∀ a, (∀ k < 255, a ≠ Claims.laneIndex c j k) → r.frm.read a = l.frm.read a := by
  have hgw := wf_setCodeword l.cw (laneBytes c l.frm j) hc
  obtain ⟨hcount, hneg, hpos⟩ := correctCw_basisIn c hgw
  rw [codeword_setCodeword _ _ hc (length_laneBytes ..)] at hcount hneg hpos
  have hcounts : ∀ n i (hi : i < 8), i ≠ j → (setCount l.hRs j n)[i] = l.hRs[i] :=
    fun n i hi hne => by rw [getElem_setCount, if_neg hne]
  unfold decodeLane at h
  rw [gather_ok hin, ok_bind] at h
  dsimp only at h
  rw [within_ok hj, ok_bind, ← basisIn] at h
  generalize correctCw c.rsType (basisIn c (setCodeword l.cw (laneBytes c l.frm j))) = q
    at h hcount hneg hpos
  unfold LaneDone
  rw [← hcount]
  split at h
  · next hn =>
    obtain ⟨f, hscatter, h⟩ := (bind_ok_iff _ _ _).1 h
    cases h
    rw [← basisOut, scatter_ok hin] at hscatter
    have hrest := fun a =>
      read_scattered_ne (c := c) (frm := l.frm) (cw := basisOut c q.1) (j := j) (a := a)
    have hbytes := laneBytes_scattered (cw := basisOut c q.1) (j := j) hf hd
    rw [Except.ok.inj hscatter] at hrest hbytes
    exact ⟨⟨by rw [getElem_setCount, if_pos rfl], hbytes.trans (hpos hn)⟩, hcounts _, hrest⟩
  · next hn =>
    cases h
    refine ⟨⟨by rw [getElem_setCount, if_pos rfl], ?_⟩, hcounts _, fun _ _ => rfl⟩
    exact (hneg (Int.not_le.1 hn)).symm

/-- The loop of R307 from lane `j` on, `n` lanes of it. -/
theorem decodeLanes_spec {n : Nat} (hf : l.frm.wf) (hc : l.cw.wf) (hd : j + n ≤ c.rsDepth)
    (h8 : c.rsDepth ≤ 8) (hin : ∀ i < c.rsDepth, Claims.laneIndex c i 254 < c.frameBytes)
    (h : decodeLanes c l j n = .ok r) :
    (∀ i (hi : i < 8), j ≤ i → i < j + n → LaneDone c l.frm r i hi) ∧
      (∀ i (hi : i < 8), i < j ∨ j + n ≤ i → r.hRs[i] = l.hRs[i]) ∧
      ∀ a, (∀ i k, j ≤ i → i < j + n → k < 255 → a ≠ Claims.laneIndex c i k) →
        r.frm.read a = l.frm.read a := by
  induction n generalizing l j with
  | zero =>
    cases h
    exact ⟨fun i hi h1 h2 => by omega, fun _ _ _ => rfl, fun _ _ => rfl⟩
  | succ n ih =>
    unfold decodeLanes at h
    obtain ⟨l', h1, h⟩ := (bind_ok_iff _ _ _).1 h
    obtain ⟨hf', hc'⟩ := wf_decodeLane hf hc h1
    obtain ⟨hdone, hcounts, hplaces⟩ :=
      decodeLane_spec hf hc (by omega) (hin j (by omega)) (by omega : j < 8) h1
    obtain ⟨hdone', hcounts', hplaces'⟩ := ih hf' hc' (by omega) h
    refine ⟨fun i hi hle hlt => ?_, fun i hi hout => ?_, fun a ha => ?_⟩
    · rcases Nat.eq_or_lt_of_le hle with rfl | hgt
      · obtain ⟨hcnt, hbytes⟩ := hdone
        refine ⟨(hcounts' j hi (.inl (Nat.lt_succ_self j))).trans hcnt, Eq.trans ?_ hbytes⟩
        exact laneBytes_congr fun k hk => hplaces' _ fun i m hi1 hi2 _ =>
          laneIndex_ne (by omega) (by omega) (by omega)
      · have hsame : laneBytes c l'.frm i = laneBytes c l.frm i :=
          laneBytes_congr fun k hk => hplaces _ fun m _ =>
            laneIndex_ne (by omega) (by omega) (by omega)
        have hi' := hdone' i hi hgt (by omega)
        unfold LaneDone at hi' ⊢
        rwa [hsame] at hi'
    · exact (hcounts' i hi (by omega)).trans (hcounts i hi (by omega))
    · exact (hplaces' a fun i k h1 h2 => ha i k (by omega) (by omega)).trans
        (hplaces a fun k hk => ha j k le_rfl (by omega) hk)

end

/-- RS.TOCONV, RS.DEC and RS.TODUAL after one another, the first and the last where RS_DUAL = 1. -/
theorem exec_laneOperations (s : State) :
    ∃ b c d, (if s.cfg.rsDual then exec .rsToconv s = .next b else b = s) ∧
      exec .rsDec b = .next (Claims.answered c
        (.count (correctCw s.cfg.rsType (basisIn s.cfg s.cw)).2)) ∧
      (if s.cfg.rsDual then exec .rsTodual c = .next d else d = c) ∧
      d.cw = basisOut s.cfg (correctCw s.cfg.rsType (basisIn s.cfg s.cw)).1 := by
  unfold basisIn basisOut
  cases s.cfg.rsDual with
  | true =>
    have hconv := exec_rsToconv s
    simp only [if_true]
    generalize toConventional s.cw = m at hconv ⊢
    have hdec := exec_rsDec { s with cw := m }
    dsimp only at hdec
    generalize correctCw s.cfg.rsType m = q at hdec ⊢
    exact ⟨_, { s with cw := q.1 }, { s with cw := toDual q.1 }, hconv, hdec, exec_rsTodual _,
      by dsimp only⟩
  | false =>
    have hdec := exec_rsDec s
    simp only [Bool.false_eq_true, if_false]
    generalize correctCw s.cfg.rsType s.cw = q at hdec ⊢
    exact ⟨s, { s with cw := q.1 }, { s with cw := q.1 }, rfl, hdec, rfl, rfl⟩

theorem getElem_noCounts {i : Nat} (hi : i < 8) : noCounts[i] = 0 := by
  unfold noCounts
  rw [Vector.getElem_ofFn]

theorem laneIndex_lt_frameBytes {c : Cfg} {i : Nat} (hi : i < c.rsDepth)
    (h : c.asmBytes + 255 * c.rsDepth ≤ c.frameBytes) :
    Claims.laneIndex c i 254 < c.frameBytes := by
  show c.asmBytes + i + c.rsDepth * 254 < _
  omega

end Sys2Proof.Machine

namespace Sys2Proof
open Sys2Proof.Machine Sys2Proof.Claims

/-- Settles O48: the loop lane by lane against the separate operations on the lane's bytes. -/
theorem rsFrameDecodesEachLane : Obligations.RsFrameDecodesEachLane := by
  intro s hcfg hrs hf hc
  have hlegal := legal_of_configError hcfg
  obtain ⟨hd, h8, hbytes⟩ := hlegal.rs hrs
  have hin : ∀ i < s.cfg.rsDepth, laneIndex s.cfg i 254 < s.cfg.frameBytes :=
    fun i hi => laneIndex_lt_frameBytes hi hbytes
  obtain ⟨r, hr⟩ := decodeLanes_total (c := s.cfg) s.cfg.rsDepth ⟨s.frm, s.cw, noCounts⟩ 0
    (by omega) fun i hi => hin i (by omega)
  obtain ⟨hdone, hcounts, hplaces⟩ :=
    decodeLanes_spec (l := ⟨s.frm, s.cw, noCounts⟩) hf hc (by omega) h8 hin hr
  refine ⟨{ s with frm := r.frm, cw := r.cw, hRs := r.hRs }, exec_rsFrame ?_, rfl,
    fun j hj hge => ?_, fun j hj hlt => ?_, fun a ha => ?_⟩
  · unfold decodeFrame
    rw [hr, ok_map]
  · exact (hcounts j hj (.inr (by omega))).trans (getElem_noCounts hj)
  · have hlane : (BitVec.ofNat 3 j).toNat = j := Nat.mod_eq_of_lt (show j < 2 ^ 3 by omega)
    obtain ⟨hcount, hframe⟩ := hdone j hj (Nat.zero_le j) (by omega)
    have hgw := wf_setCodeword s.cw (laneBytes s.cfg s.frm j) hc
    have hgathered := codeword_setCodeword s.cw _ hc (length_laneBytes s.cfg s.frm j)
    have hdeint := exec_rsDeint
      (s := withArgs s fun g => { g with lane := BitVec.ofNat 3 j })
      (m := setCodeword s.cw (laneBytes s.cfg s.frm j)) (by
        show gather s.cfg s.frm s.cw (BitVec.ofNat 3 j).toNat = _
        rw [hlane]
        exact gather_ok (hin j hlt) s.frm s.cw)
    obtain ⟨hn, hneg, hpos⟩ := correctCw_basisIn s.cfg hgw
    generalize setCodeword s.cw (laneBytes s.cfg s.frm j) = m at hgw hgathered hdeint hn hneg hpos
    rw [hgathered] at hn hneg hpos
    obtain ⟨b, c, d, hb, hdec, hd, hdcw⟩ := exec_laneOperations
      { withArgs s (fun g => { g with lane := BitVec.ofNat 3 j }) with cw := m }
    refine ⟨_, b, _, hdeint, hb,
      ⟨c, hdec, fun hlt0 k hk => ?_, fun hge0 => ⟨d, hd, fun k hk => ?_⟩⟩,
      hcount.trans (congrArg (BitVec.ofInt 8) hn.symm)⟩
    · exact read_of_laneBytes_eq (hframe.trans (hneg hlt0)) hk
    · refine read_of_laneBytes_eq_codeword (hframe.trans ((hpos hge0).symm.trans ?_)) hk
      exact (congrArg codeword hdcw).symm
  · exact hplaces a fun i k _ hi hk => ha i k (by omega) hk

end Sys2Proof
end

section
/-! SUPPORT. The field GF(256) (46_reed_solomon R290, R291): every byte but 0 is a power of alpha,
multiplication adds the exponents, and it is linear in both factors. -/

namespace Sys2Proof.Machine

/-! ## Multiplication is linear -/

theorem xtime_eq (a : Byte) : xtime a = (a <<< 1) ^^^ (if a.getLsbD 7 then 0x87#8 else 0#8) := by
  unfold xtime
  split
  · rfl
  · exact (BitVec.xor_zero).symm

theorem xtime_xor (a b : Byte) : xtime (a ^^^ b) = xtime a ^^^ xtime b := by
  have hcarry : (if (a ^^^ b).getLsbD 7 then 0x87#8 else 0#8) =
      (if a.getLsbD 7 then 0x87#8 else 0#8) ^^^ (if b.getLsbD 7 then 0x87#8 else 0#8) := by
    rw [BitVec.getLsbD_xor]
    cases a.getLsbD 7 <;> cases b.getLsbD 7 <;> rfl
  rw [xtime_eq, xtime_eq, xtime_eq, hcarry, BitVec.shiftLeft_xor_distrib]
  ac_rfl

theorem xtime_zero : xtime 0 = 0 := by decide

theorem gmulFrom_xor_left (n k : Nat) (a b c : Byte) :
    gmulFrom n k (a ^^^ b) c = gmulFrom n k a c ^^^ gmulFrom n k b c := by
  induction n generalizing k a b with
  | zero => exact (BitVec.xor_self (x := 0#8)).symm
  | succ n ih =>
    have hbit : (if c.getLsbD k then a ^^^ b else 0) =
        (if c.getLsbD k then a else 0) ^^^ (if c.getLsbD k then b else 0) := by
      cases c.getLsbD k <;> simp
    unfold gmulFrom
    rw [xtime_xor, ih, hbit]
    ac_rfl

theorem gmulFrom_xor_right (n k : Nat) (a b c : Byte) :
    gmulFrom n k a (b ^^^ c) = gmulFrom n k a b ^^^ gmulFrom n k a c := by
  induction n generalizing k a with
  | zero => exact (BitVec.xor_self (x := 0#8)).symm
  | succ n ih =>
    have hbit : (if (b ^^^ c).getLsbD k then a else 0) =
        (if b.getLsbD k then a else 0) ^^^ (if c.getLsbD k then a else 0) := by
      rw [BitVec.getLsbD_xor]
      cases b.getLsbD k <;> cases c.getLsbD k <;> simp
    unfold gmulFrom
    rw [ih, hbit]
    ac_rfl

theorem xtime_gmulFrom (n k : Nat) (a b : Byte) :
    xtime (gmulFrom n k a b) = gmulFrom n k (xtime a) b := by
  induction n generalizing k a with
  | zero => exact xtime_zero
  | succ n ih =>
    unfold gmulFrom
    rw [xtime_xor, ih, apply_ite xtime, xtime_zero]

theorem gmul_xor_left (a b c : Byte) : gmul (a ^^^ b) c = gmul a c ^^^ gmul b c :=
  gmulFrom_xor_left 8 0 a b c

theorem gmul_xor_right (a b c : Byte) : gmul a (b ^^^ c) = gmul a b ^^^ gmul a c :=
  gmulFrom_xor_right 8 0 a b c

theorem gmul_xtime_left (a b : Byte) : gmul (xtime a) b = xtime (gmul a b) :=
  (xtime_gmulFrom 8 0 a b).symm

theorem gmul_zero_left (b : Byte) : gmul 0 b = 0 := by
  have h := gmul_xor_left 0 0 b
  rwa [BitVec.xor_self, BitVec.xor_self] at h

theorem gmul_zero_right (a : Byte) : gmul a 0 = 0 := by
  have h := gmul_xor_right a 0 0
  rwa [BitVec.xor_self, BitVec.xor_self] at h

theorem gmul_one_left (b : Byte) : gmul 1 b = b := by
  revert b
  decide +kernel

/-! ## Powers of alpha -/

/-- `α^i`. -/
def power (i : Nat) : Byte := xtime^[i] 1

theorem power_succ (i : Nat) : power (i + 1) = xtime (power i) := Function.iterate_succ_apply' ..

theorem gmul_power_left (i : Nat) (b : Byte) : gmul (power i) b = xtime^[i] b := by
  induction i with
  | zero => exact gmul_one_left b
  | succ i ih => rw [power_succ, gmul_xtime_left, ih, Function.iterate_succ_apply']

theorem gmul_power (i j : Nat) : gmul (power i) (power j) = power (i + j) := by
  rw [gmul_power_left, power, power, Function.iterate_add_apply]

theorem isPeriodicPt_xtime : Function.IsPeriodicPt xtime 255 1 := by
  have h : power 255 = 1 := by decide +kernel
  exact h

/-- The order of alpha is 255: no divisor 85, 51 or 15 will do. -/
theorem minimalPeriod_xtime : Function.minimalPeriod xtime 1 = 255 := by
  have hdvd := isPeriodicPt_xtime.minimalPeriod_dvd
  have hsplit : ∀ p ≤ 255, p ∣ 255 → p = 255 ∨ p ∣ 85 ∨ p ∣ 51 ∨ p ∣ 15 := by decide +kernel
  have hnot : ∀ n, power n ≠ 1 → ¬ Function.minimalPeriod xtime 1 ∣ n := fun n hn h =>
    hn (Function.isPeriodicPt_iff_minimalPeriod_dvd.2 h)
  obtain h | h | h | h := hsplit _ (Nat.le_of_dvd (by decide) hdvd) hdvd
  · exact h
  · exact absurd h (hnot 85 (by decide +kernel))
  · exact absurd h (hnot 51 (by decide +kernel))
  · exact absurd h (hnot 15 (by decide +kernel))

theorem power_mod (i : Nat) : power (i % 255) = power i := by
  have h := Function.iterate_mod_minimalPeriod_eq (f := xtime) (x := 1) (n := i)
  rwa [minimalPeriod_xtime] at h

theorem power_add_period (i : Nat) : power (i + 255) = power i := by
  rw [← power_mod (i + 255), Nat.add_mod_right, power_mod]

theorem power_period : power 255 = 1 := power_add_period 0

theorem power_inj {i j : Nat} (hi : i < 255) (hj : j < 255) (h : power i = power j) : i = j := by
  rw [← minimalPeriod_xtime] at hi hj
  exact Function.iterate_injOn_Iio_minimalPeriod hi hj h

theorem power_ne_zero (i : Nat) : power i ≠ 0 := by
  intro h
  have hone : gmul (power i) (power (255 * i - i)) = 1 := by
    have hsum : i + (255 * i - i) = 255 * i := by omega
    rw [gmul_power, hsum, ← power_mod, Nat.mul_mod_right]
    rfl
  rw [h, gmul_zero_left] at hone
  cases hone

/-- The 255 powers are the 255 bytes that are not 0. -/
theorem exists_power {a : Byte} (h : a ≠ 0) : ∃ i < 255, a = power i := by
  have hinj : ∀ i ∈ Finset.range 255, ∀ j ∈ Finset.range 255,
      (power i).toNat = (power j).toNat → i = j := fun i hi j hj e =>
    power_inj (Finset.mem_range.1 hi) (Finset.mem_range.1 hj) (BitVec.eq_of_toNat_eq e)
  have hsub : (Finset.range 255).image (fun i => (power i).toNat) ⊆
      (Finset.range 256).erase 0 := by
    intro x hx
    obtain ⟨i, -, rfl⟩ := Finset.mem_image.1 hx
    exact Finset.mem_erase.2 ⟨fun e => power_ne_zero i (BitVec.eq_of_toNat_eq e),
      Finset.mem_range.2 (power i).isLt⟩
  have hall := Finset.eq_of_subset_of_card_le hsub (by
    rw [Finset.card_image_of_injOn hinj, Finset.card_erase_of_mem (by decide), Finset.card_range,
      Finset.card_range])
  have ha : a.toNat ∈ (Finset.range 256).erase 0 := Finset.mem_erase.2
    ⟨fun e => h (BitVec.eq_of_toNat_eq e), Finset.mem_range.2 a.isLt⟩
  rw [← hall] at ha
  obtain ⟨i, hi, e⟩ := Finset.mem_image.1 ha
  exact ⟨i, Finset.mem_range.1 hi, (BitVec.eq_of_toNat_eq e).symm⟩

theorem getD_powersFrom {n i : Nat} (h : i < n) (a : Byte) :
    (powersFrom n a).getD i 0 = xtime^[i] a := by
  induction n generalizing i a with
  | zero => omega
  | succ n ih =>
    unfold powersFrom
    cases i with
    | zero => rfl
    | succ i =>
      rw [List.getD_cons_succ, ih (by omega)]
      rfl

/-- The table GFEXP holds the powers of alpha. -/
theorem gfexp_eq_power (i : Nat) : gfexp i = power i := by
  unfold gfexp gfexpTable
  exact (getD_powersFrom (Nat.mod_lt i (by decide)) 1).trans (power_mod i)

theorem length_powersFrom (n : Nat) (a : Byte) : (powersFrom n a).length = n := by
  induction n generalizing a with
  | zero => rfl
  | succ n ih => rw [powersFrom, List.length_cons, ih]

theorem length_gfexpTable : gfexpTable.length = 255 := length_powersFrom 255 1

theorem getElem_gfexpTable {i : Nat} (h : i < gfexpTable.length) : gfexpTable[i] = power i :=
  (List.getD_eq_getElem _ 0 h).symm.trans (getD_powersFrom (h.trans_eq length_gfexpTable) 1)

theorem mem_gfexpTable {a : Byte} (h : a ≠ 0) : a ∈ gfexpTable := by
  obtain ⟨i, hi, rfl⟩ := exists_power h
  have hlen := hi.trans_eq length_gfexpTable.symm
  rw [← getElem_gfexpTable hlen]
  exact List.getElem_mem hlen

/-- The table GFLOG holds the places in GFEXP. -/
theorem gflog_eq_idxOf {a : Byte} (h : a ≠ 0) : gflog a = gfexpTable.idxOf a := by
  have hpos : a.toNat ≠ 0 := fun e => h (BitVec.eq_of_toNat_eq e)
  obtain ⟨n, hn⟩ := Nat.exists_eq_succ_of_ne_zero hpos
  have hlt := a.isLt
  unfold gflog gflogTable
  rw [hn, List.getD_cons_succ, List.getD_eq_getElem _ _ (by
    rw [List.length_map, List.length_range]
    omega), List.getElem_map, List.getElem_range, ← Nat.succ_eq_add_one, ← hn, BitVec.ofNat_toNat,
    BitVec.setWidth_eq]

theorem gflog_lt {a : Byte} (h : a ≠ 0) : gflog a < 255 := by
  rw [gflog_eq_idxOf h]
  exact (List.idxOf_lt_length_of_mem (mem_gfexpTable h)).trans_eq length_gfexpTable

theorem power_gflog {a : Byte} (h : a ≠ 0) : power (gflog a) = a := by
  have hlt := List.idxOf_lt_length_of_mem (mem_gfexpTable h)
  rw [gflog_eq_idxOf h, ← getElem_gfexpTable hlt, List.getElem_idxOf]

/-! ## The laws of a field -/

theorem gmul_comm (a b : Byte) : gmul a b = gmul b a := by
  by_cases ha : a = 0
  · rw [ha, gmul_zero_left, gmul_zero_right]
  · by_cases hb : b = 0
    · rw [hb, gmul_zero_left, gmul_zero_right]
    · obtain ⟨i, -, rfl⟩ := exists_power ha
      obtain ⟨j, -, rfl⟩ := exists_power hb
      rw [gmul_power, gmul_power, Nat.add_comm]

theorem gmul_assoc (a b c : Byte) : gmul (gmul a b) c = gmul a (gmul b c) := by
  by_cases ha : a = 0
  · rw [ha, gmul_zero_left, gmul_zero_left, gmul_zero_left]
  · by_cases hb : b = 0
    · rw [hb, gmul_zero_right, gmul_zero_left, gmul_zero_right]
    · by_cases hc : c = 0
      · rw [hc, gmul_zero_right, gmul_zero_right, gmul_zero_right]
      · obtain ⟨i, -, rfl⟩ := exists_power ha
        obtain ⟨j, -, rfl⟩ := exists_power hb
        obtain ⟨k, -, rfl⟩ := exists_power hc
        rw [gmul_power, gmul_power, gmul_power, gmul_power, Nat.add_assoc]

theorem gmul_one_right (a : Byte) : gmul a 1 = a := by rw [gmul_comm, gmul_one_left]

theorem gmul_ginv {a : Byte} (h : a ≠ 0) : gmul a (ginv a) = 1 := by
  have hlog := gflog_lt h
  have hpower := power_gflog h
  have hsum : gflog a + (255 - gflog a) = 255 := by omega
  unfold ginv
  rw [gfexp_eq_power]
  generalize gflog a = i at *
  rw [← hpower, gmul_power, hsum, power_period]

/-- R291: a quotient times the divisor is the dividend. -/
theorem gmul_gdiv (a : Byte) {b : Byte} (h : b ≠ 0) : gmul (gdiv a b) b = a := by
  unfold gdiv
  split
  · next ha => rw [ha]; exact gmul_zero_left b
  · next ha =>
    have hlog := gflog_lt h
    have hb := power_gflog h
    have ha' := power_gflog ha
    have hsum : gflog a + 255 - gflog b + gflog b = gflog a + 255 := by omega
    rw [gfexp_eq_power]
    generalize gflog b = j at *
    generalize gflog a = i at *
    rw [← hb, gmul_power, hsum, power_add_period, ha']

/-- A field element (R290). -/
@[ext] structure GF where
  byte : Byte

/-- Addition (R290). -/
def GF.sum (a b : GF) : GF := ⟨a.byte ^^^ b.byte⟩

/-- The field of R290: addition is XOR, multiplication `gmul`. -/
@[reducible] def gfField : Field GF where
  add := GF.sum
  add_assoc a b c := congrArg GF.mk (BitVec.xor_assoc a.byte b.byte c.byte)
  zero := ⟨0⟩
  zero_add a := congrArg GF.mk BitVec.zero_xor
  add_zero a := congrArg GF.mk BitVec.xor_zero
  nsmul := @nsmulRec GF ⟨⟨0⟩⟩ ⟨GF.sum⟩
  neg a := a
  zsmul := @zsmulRec GF ⟨⟨0⟩⟩ ⟨GF.sum⟩ ⟨id⟩ (@nsmulRec GF ⟨⟨0⟩⟩ ⟨GF.sum⟩)
  neg_add_cancel a := congrArg GF.mk BitVec.xor_self
  add_comm a b := congrArg GF.mk (BitVec.xor_comm a.byte b.byte)
  mul a b := ⟨gmul a.byte b.byte⟩
  left_distrib a b c := congrArg GF.mk (gmul_xor_right a.byte b.byte c.byte)
  right_distrib a b c := congrArg GF.mk (gmul_xor_left a.byte b.byte c.byte)
  zero_mul a := congrArg GF.mk (gmul_zero_left a.byte)
  mul_zero a := congrArg GF.mk (gmul_zero_right a.byte)
  mul_assoc a b c := congrArg GF.mk (gmul_assoc a.byte b.byte c.byte)
  one := ⟨1⟩
  one_mul a := congrArg GF.mk (gmul_one_left a.byte)
  mul_one a := congrArg GF.mk (gmul_one_right a.byte)
  mul_comm a b := congrArg GF.mk (gmul_comm a.byte b.byte)
  inv a := ⟨if a.byte = 0 then 0 else ginv a.byte⟩
  exists_pair_ne := ⟨⟨0⟩, ⟨1⟩, fun h => (by cases h)⟩
  mul_inv_cancel a ha := by
    have hne : a.byte ≠ 0 := fun h => ha (congrArg GF.mk h)
    refine congrArg GF.mk ?_
    show gmul a.byte (if a.byte = 0 then 0 else ginv a.byte) = 1
    rw [if_neg hne, gmul_ginv hne]
  inv_zero := rfl
  nnqsmul := _
  nnqsmul_def := fun _ _ => rfl
  qsmul := _
  qsmul_def := fun _ _ => rfl

/-! ## The product of the statements (R290) -/

theorem reduced_xor (p q : Nat) :
    Claims.reduced (p ^^^ q) = Claims.reduced p ^^^ Claims.reduced q := by
  have hstep (r s j c : Nat) : (r ^^^ s) ^^^ (if (r ^^^ s).testBit j then c else 0) =
      (r ^^^ if r.testBit j then c else 0) ^^^ (s ^^^ if s.testBit j then c else 0) := by
    rw [Nat.testBit_xor]
    cases r.testBit j <;> cases s.testBit j
    · simp
    · simp [Nat.xor_assoc]
    · simp [Nat.xor_comm, Nat.xor_left_comm]
    · simp [Nat.xor_comm c, Nat.xor_assoc]
  unfold Claims.reduced
  induction List.range 7 generalizing p q with
  | nil => rfl
  | cons k l ih => rw [List.foldl_cons, List.foldl_cons, List.foldl_cons, hstep, ih]

/-- The summand of bit `k` of the second factor. -/
def summand (a b : Byte) (k : Nat) : Byte := if b.getLsbD k then xtime^[k] a else 0

theorem gmul_eq_foldl (a b : Byte) :
    gmul a b = (List.range 8).foldl (fun p k => p ^^^ summand a b k) 0 := by
  show _ = 0 ^^^ summand a b 0 ^^^ summand a b 1 ^^^ summand a b 2 ^^^ summand a b 3 ^^^
    summand a b 4 ^^^ summand a b 5 ^^^ summand a b 6 ^^^ summand a b 7
  show summand a b 0 ^^^ (summand a b 1 ^^^ (summand a b 2 ^^^ (summand a b 3 ^^^
    (summand a b 4 ^^^ (summand a b 5 ^^^ (summand a b 6 ^^^ (summand a b 7 ^^^ 0))))))) = _
  ac_rfl

/-- Maps of bytes that keep XOR and agree on the eight bits agree. -/
theorem eq_of_xor_of_bits {f g : Byte → Nat} (hf : ∀ a b, f (a ^^^ b) = f a ^^^ f b)
    (hg : ∀ a b, g (a ^^^ b) = g a ^^^ g b) (h : ∀ k < 8, f (power k) = g (power k)) (a : Byte) :
    f a = g a := by
  have hzero {f : Byte → Nat} (hf : ∀ a b, f (a ^^^ b) = f a ^^^ f b) : f 0 = 0 := by
    have := hf 0 0
    rwa [BitVec.xor_self, Nat.xor_self] at this
  have hterm : ∀ k < 8, f (summand 1 a k) = g (summand 1 a k) := by
    intro k hk
    unfold summand
    split
    · exact h k hk
    · rw [hzero hf, hzero hg]
  have hfold : ∀ l : List Nat, (∀ k ∈ l, k < 8) → ∀ p, f p = g p →
      f (l.foldl (fun p k => p ^^^ summand 1 a k) p) =
        g (l.foldl (fun p k => p ^^^ summand 1 a k) p) := by
    intro l
    induction l with
    | nil => exact fun _ p hp => hp
    | cons k r ih =>
      intro hl p hp
      refine ih (fun j hj => hl j (List.mem_cons_of_mem k hj)) _ ?_
      rw [hf, hg, hp, hterm k (hl k List.mem_cons_self)]
  have hsum := hfold (List.range 8) (fun k hk => List.mem_range.1 hk) 0
    ((hzero hf).trans (hzero hg).symm)
  rwa [← gmul_eq_foldl, gmul_one_left] at hsum

theorem iterate_xtime_xor (k : Nat) (a b : Byte) :
    xtime^[k] (a ^^^ b) = xtime^[k] a ^^^ xtime^[k] b := by
  rw [← gmul_power_left, ← gmul_power_left, ← gmul_power_left, gmul_xor_right]

/-- A byte times `x^k`, reduced. -/
theorem reduced_shifted (a : Byte) {k : Nat} (h : k < 8) :
    Claims.reduced (a.toNat * 2 ^ k) = (xtime^[k] a).toNat := by
  have hbits : ∀ k < 8, ∀ j < 8,
      Claims.reduced ((power j).toNat * 2 ^ k) = (xtime^[k] (power j)).toNat := by decide +kernel
  refine eq_of_xor_of_bits (f := fun a => Claims.reduced (a.toNat * 2 ^ k))
    (g := fun a => (xtime^[k] a).toNat) (fun a b => ?_) (fun a b => ?_) (hbits k h) a
  · rw [← reduced_xor, BitVec.toNat_xor, ← Nat.shiftLeft_eq, ← Nat.shiftLeft_eq,
      ← Nat.shiftLeft_eq, Nat.shiftLeft_xor_distrib]
  · rw [iterate_xtime_xor, BitVec.toNat_xor]

theorem reduced_summand (a b : Byte) {k : Nat} (h : k < 8) :
    Claims.reduced (if b.toNat.testBit k then a.toNat * 2 ^ k else 0) =
      (summand a b k).toNat := by
  unfold summand
  rw [BitVec.testBit_toNat]
  cases b.getLsbD k with
  | true => exact reduced_shifted a h
  | false =>
    simp only [Bool.false_eq_true, if_false]
    decide

/-- The product of the statements is the field's. -/
theorem product_eq_gmul (a b : Byte) : Claims.product a b = gmul a b := by
  have hfold : ∀ l : List Nat, (∀ k ∈ l, k < 8) → ∀ (p : Nat) (q : Byte),
      Claims.reduced p = q.toNat →
      Claims.reduced (l.foldl (fun p k => p ^^^ if b.toNat.testBit k then a.toNat * 2 ^ k else 0) p)
        = (l.foldl (fun p k => p ^^^ summand a b k) q).toNat := by
    intro l
    induction l with
    | nil => exact fun _ p q h => h
    | cons k r ih =>
      intro hl p q h
      refine ih (fun j hj => hl j (List.mem_cons_of_mem k hj)) _ _ ?_
      rw [reduced_xor, h, reduced_summand a b (hl k List.mem_cons_self), BitVec.toNat_xor]
  have h := hfold (List.range 8) (fun k hk => List.mem_range.1 hk) 0 0 rfl
  rw [← gmul_eq_foldl] at h
  exact BitVec.eq_of_toNat_eq (by rw [Claims.product, Claims.carryless, h, BitVec.ofNat_toNat,
    BitVec.setWidth_eq])

theorem alphaPow_eq_power (n : Nat) : Claims.alphaPow n = power n := by
  have htwo : (2 : Byte) = power 1 := by decide
  induction n with
  | zero => rfl
  | succ n ih => rw [Claims.alphaPow, product_eq_gmul, ih, htwo, gmul_power]

theorem betaPow_eq_power (n : Nat) : betaPow n = power (11 * n) := gfexp_eq_power _

theorem beta_eq_betaPow (n : Nat) : Claims.beta n = betaPow n := by
  rw [Claims.beta, alphaPow_eq_power, power_mod, betaPow_eq_power]

/-! ## Syndromes (R302) -/

theorem nroots_eq_roots {t : BitVec 2} (h : t = 1#2 ∨ t = 2#2) : nroots t = Claims.roots t := by
  rcases h with rfl | rfl <;> rfl

theorem fcr_eq_firstRoot {t : BitVec 2} (h : t = 1#2 ∨ t = 2#2) : fcr t = Claims.firstRoot t := by
  rcases h with rfl | rfl <;> rfl

/-- Horner's rule over the first `n` bytes of CW. -/
theorem horner_eq_of_hornerRun {cw : Memory 8} {x : Byte} {y : Nat → Byte}
    (h : Claims.hornerRun cw x y) : horner x (codeword cw) = y 255 := by
  obtain ⟨hzero, hstep⟩ := h
  have hfold : ∀ n ≤ 255, horner x ((List.range n).map cw.read) = y n := by
    intro n
    induction n with
    | zero => exact fun _ => hzero.symm
    | succ n ih =>
      intro hn
      rw [List.range_succ, List.map_append, horner, List.foldl_append, ← horner, ih (by omega),
        hstep n (by omega), product_eq_gmul]
      rfl
  exact hfold 255 le_rfl

/-- The run of Horner's rule over CW. -/
theorem hornerRun_horner (cw : Memory 8) (x : Byte) :
    Claims.hornerRun cw x fun n => horner x ((List.range n).map cw.read) := by
  refine ⟨rfl, fun k _ => ?_⟩
  dsimp only
  rw [List.range_succ, List.map_append, horner, List.foldl_append, ← horner, product_eq_gmul]
  rfl

theorem length_syndromes (t : BitVec 2) (cw : List Byte) :
    (syndromes t cw).length = nroots t := by
  rw [syndromes, List.length_map, List.length_range]

theorem getElem_syndromes (t : BitVec 2) (cw : List Byte) {i : Nat}
    (h : i < (syndromes t cw).length) :
    (syndromes t cw)[i] = horner (betaPow (fcr t + i)) cw := by
  simp only [syndromes, List.getElem_map, List.getElem_range]

/-- The codewords of the statements are those of the decoder. -/
theorem isCode_iff {t : BitVec 2} (ht : t = 1#2 ∨ t = 2#2) (cw : Memory 8) :
    Claims.isCode t cw ↔ isCodeword t (codeword cw) = true := by
  unfold isCodeword
  rw [List.all_eq_true]
  unfold syndromes Claims.isCode
  rw [nroots_eq_roots ht, fcr_eq_firstRoot ht]
  refine ⟨fun h y hy => ?_, fun h i hi => ⟨_, hornerRun_horner _ _, ?_⟩⟩
  · obtain ⟨i, hi, rfl⟩ := List.mem_map.1 hy
    obtain ⟨y, hrun, hy⟩ := h i (List.mem_range.1 hi)
    rw [beta_eq_betaPow] at hrun
    rw [horner_eq_of_hornerRun hrun, hy]
    rfl
  · have := h _ (List.mem_map.2 ⟨i, List.mem_range.2 hi, rfl⟩)
    rw [beta_eq_betaPow]
    exact eq_of_beq this

end Sys2Proof.Machine

namespace Sys2Proof
open Sys2Proof.Machine Sys2Proof.Claims

/-- Settles O45: the two multiplications agree, and with them the two runs of Horner's rule. -/
theorem syndromesByHorner : Obligations.SyndromesByHorner := by
  intro s
  refine ⟨fun ht => ⟨_, rfl, ?_, fun i hi y hrun => ?_⟩, _, rfl⟩
  · rw [length_syndromes, nroots_eq_roots ht]
  · rw [← fcr_eq_firstRoot ht, beta_eq_betaPow] at hrun
    have hlen : i < (syndromes s.cfg.rsType (codeword s.cw)).length := by
      rwa [length_syndromes, nroots_eq_roots ht]
    rw [List.getElem?_eq_getElem hlen, getElem_syndromes, horner_eq_of_hornerRun hrun]

end Sys2Proof
end

section
/-! SUPPORT. The mathematics behind 46_reed_solomon R304, over any field: linear recurrences and the
Berlekamp-Massey step (Massey's bound on their lengths), the locator of a sum of powers, its
uniqueness, and Forney's formula. -/

namespace Sys2Proof.Machine
open Polynomial

section
variable {K : Type} [Field K] {S : PowerSeries K} {C B : K[X]} {a b : K} {L m n : Nat}

/-! ## Linear recurrences -/

/-- The discrepancy of `C` at `n`: what the recurrence `C` misses of term `n` of `S`. -/
noncomputable def disc (S : PowerSeries K) (C : K[X]) (n : Nat) : K :=
  PowerSeries.coeff n ((C : PowerSeries K) * S)

theorem disc_eq_sum (S : PowerSeries K) (C : K[X]) (n : Nat) :
    disc S C n = ∑ p ∈ Finset.HasAntidiagonal.antidiagonal n,
      C.coeff p.1 * PowerSeries.coeff p.2 S := by
  simp only [disc, PowerSeries.coeff_mul, Polynomial.coeff_coe]

/-- `C` is a recurrence of length `L` for the first `n` terms. -/
structure Connects (S : PowerSeries K) (C : K[X]) (L n : Nat) : Prop where
  degree : C.natDegree ≤ L
  terms : ∀ k, L ≤ k → k < n → disc S C k = 0

theorem Connects.succ (h : Connects S C L n) (h0 : disc S C n = 0) : Connects S C L (n + 1) := by
  refine ⟨h.degree, fun k hk hn => ?_⟩
  rcases Nat.lt_succ_iff_lt_or_eq.1 hn with hlt | rfl
  · exact h.terms k hk hlt
  · exact h0

/-- A recurrence corrected by a shifted one. -/
theorem disc_add_shift (S : PowerSeries K) (C B : K[X]) (a : K) (m n : Nat) :
    disc S (C + Polynomial.C a * X ^ m * B) n =
      disc S C n + if m ≤ n then a * disc S B (n - m) else 0 := by
  have hcast : ((C + Polynomial.C a * X ^ m * B : K[X]) : PowerSeries K) * S =
      (C : PowerSeries K) * S +
        PowerSeries.C a * (PowerSeries.X ^ m * ((B : PowerSeries K) * S)) := by
    rw [Polynomial.coe_add, Polynomial.coe_mul, Polynomial.coe_mul, Polynomial.coe_pow,
      Polynomial.coe_C, Polynomial.coe_X]
    ring
  unfold disc
  rw [hcast, map_add, PowerSeries.coeff_C_mul, PowerSeries.coeff_X_pow_mul', mul_ite, mul_zero]

/-- Massey's bound: where a recurrence of length `L` first fails, every recurrence that goes on has
length `n + 1 - L` at least. -/
theorem length_of_disc_ne_zero {M : K[X]} {d : Nat} (h : Connects S C L n)
    (hn : disc S C n ≠ 0) (hM : Connects S M d (n + 1)) (hone : M.coeff 0 = 1) :
    n + 1 ≤ L + d := by
  by_contra hlt
  have hleft : PowerSeries.coeff n ((M : PowerSeries K) * ((C : PowerSeries K) * S)) =
      disc S C n := by
    rw [PowerSeries.coeff_mul, Finset.sum_eq_single (0, n)]
    · rw [Polynomial.coeff_coe, hone, one_mul, disc]
    · rintro ⟨i, j⟩ hij hne
      have hsum : i + j = n := Finset.HasAntidiagonal.mem_antidiagonal.1 hij
      have hi : i ≠ 0 := fun e => hne (by rw [Prod.mk.injEq]; omega)
      rw [Polynomial.coeff_coe]
      by_cases hid : i ≤ d
      · exact mul_eq_zero_of_right _ (h.terms j (by omega) (by omega))
      · exact mul_eq_zero_of_left
          (Polynomial.coeff_eq_zero_of_natDegree_lt (hM.degree.trans_lt (by omega))) _
    · exact fun hmem => absurd (Finset.HasAntidiagonal.mem_antidiagonal.2 (Nat.zero_add n)) hmem
  have hright : PowerSeries.coeff n ((C : PowerSeries K) * ((M : PowerSeries K) * S)) = 0 := by
    rw [PowerSeries.coeff_mul]
    refine Finset.sum_eq_zero fun p hp => ?_
    have hsum := Finset.HasAntidiagonal.mem_antidiagonal.1 hp
    rw [Polynomial.coeff_coe]
    by_cases hiL : p.1 ≤ L
    · exact mul_eq_zero_of_right _ (hM.terms p.2 (by omega) (by omega))
    · exact mul_eq_zero_of_left
        (Polynomial.coeff_eq_zero_of_natDegree_lt (h.degree.trans_lt (by omega))) _
  rw [mul_left_comm, hleft] at hright
  exact hn hright

/-- The variables of the Berlekamp-Massey loop after `n` terms: `C` is a recurrence of length `L`;
`B` is the last one of another length, `L'`, which missed term `n - m` by `b`. -/
structure Stage (S : PowerSeries K) (C B : K[X]) (b : K) (L m n : Nat) : Prop where
  const : C.coeff 0 = 1
  connects : Connects S C L n
  length_le : L ≤ n
  shift_pos : 1 ≤ m
  missed : b ≠ 0
  last : ∃ L', L + L' + m = n + 1 ∧ B.natDegree ≤ L' ∧
    (∀ k, L' ≤ k → k + m < n → disc S B k = 0) ∧ (m ≤ n → disc S B (n - m) = b)

theorem stage_init (S : PowerSeries K) : Stage S 1 1 1 0 1 0 where
  const := Polynomial.coeff_one_zero
  connects := ⟨Polynomial.natDegree_one.le, fun k _ hk => absurd hk (Nat.not_lt_zero k)⟩
  length_le := le_rfl
  shift_pos := le_rfl
  missed := one_ne_zero
  last := ⟨0, rfl, Polynomial.natDegree_one.le, fun k _ hk => absurd hk (Nat.not_lt_zero _),
    fun h => absurd h (by decide)⟩

/-- A term that the recurrence meets. -/
theorem Stage.met (h : Stage S C B b L m n) (h0 : disc S C n = 0) :
    Stage S C B b L (m + 1) (n + 1) := by
  obtain ⟨L', hsum, hdeg, hterms, hmiss⟩ := h.last
  exact ⟨h.const, h.connects.succ h0, h.length_le.trans n.le_succ, by omega, h.missed,
    L', by omega, hdeg, fun k hk hn => hterms k hk (by omega), fun hn => by
      rw [Nat.add_sub_add_right]
      exact hmiss (by omega)⟩

/-- The corrected recurrence. -/
theorem Stage.corrected (h : Stage S C B b L m n) (ha : disc S C n + a * b = 0) :
    (C + Polynomial.C a * X ^ m * B).coeff 0 = 1 ∧
      Connects S (C + Polynomial.C a * X ^ m * B) (max L (n + 1 - L)) (n + 1) := by
  obtain ⟨L', hsum, hdeg, hterms, hmiss⟩ := h.last
  have hm := h.shift_pos
  have hL := h.length_le
  refine ⟨?_, ?_, fun k hk hn => ?_⟩
  · rw [Polynomial.coeff_add, h.const, mul_assoc, Polynomial.coeff_C_mul,
      Polynomial.coeff_X_pow_mul', if_neg (by omega), mul_zero, add_zero]
  · have hshift : (Polynomial.C a * X ^ m * B).natDegree ≤ n + 1 - L :=
      calc (Polynomial.C a * X ^ m * B).natDegree
          ≤ (Polynomial.C a * X ^ m).natDegree + B.natDegree := Polynomial.natDegree_mul_le
        _ ≤ m + L' := Nat.add_le_add (Polynomial.natDegree_C_mul_X_pow_le a m) hdeg
        _ ≤ n + 1 - L := by omega
    exact (Polynomial.natDegree_add_le _ _).trans (max_le_max h.connects.degree hshift)
  · rw [disc_add_shift, if_pos (by omega)]
    rcases Nat.lt_succ_iff_lt_or_eq.1 hn with hlt | rfl
    · rw [h.connects.terms k (by omega) hlt, hterms (k - m) (by omega) (by omega), mul_zero,
        add_zero]
    · rw [hmiss (by omega), ha]

/-- A missed term that the corrected recurrence of the same length meets. -/
theorem Stage.kept_length (h : Stage S C B b L m n) (ha : disc S C n + a * b = 0)
    (hL : n < 2 * L) : Stage S (C + Polynomial.C a * X ^ m * B) B b L (m + 1) (n + 1) := by
  obtain ⟨hconst, hconn⟩ := h.corrected ha
  rw [max_eq_left (by omega)] at hconn
  obtain ⟨L', hsum, hdeg, hterms, hmiss⟩ := h.last
  exact ⟨hconst, hconn, h.length_le.trans n.le_succ, by omega, h.missed,
    L', by omega, hdeg, fun k hk hn => hterms k hk (by omega), fun hn => by
      rw [Nat.add_sub_add_right]
      exact hmiss (by omega)⟩

/-- A missed term that needs a longer recurrence. -/
theorem Stage.longer (h : Stage S C B b L m n) (ha : disc S C n + a * b = 0)
    (hd : disc S C n ≠ 0) (hL : 2 * L ≤ n) :
    Stage S (C + Polynomial.C a * X ^ m * B) C (disc S C n) (n + 1 - L) 1 (n + 1) := by
  obtain ⟨hconst, hconn⟩ := h.corrected ha
  rw [max_eq_right (by omega)] at hconn
  exact ⟨hconst, hconn, by omega, le_rfl, hd, L, by omega, h.connects.degree,
    fun k hk hn => h.connects.terms k hk (by omega), fun _ => rfl⟩

end

/-! ## Sums of powers -/

section
variable {K : Type} [Field K] (J : Finset Nat) (x z : Nat → K)

/-- `∏ (1 - x_k X)`. -/
noncomputable def locatorPoly : K[X] := ∏ k ∈ J, (1 - C (x k) * X)

/-- The locator without the factor of `k`. -/
noncomputable def locatorWithout (k : Nat) : K[X] := ∏ j ∈ J.erase k, (1 - C (x j) * X)

/-- The series of the sums `∑ z_k x_k^i`. -/
noncomputable def powerSums : PowerSeries K := PowerSeries.mk fun i => ∑ k ∈ J, z k * x k ^ i

/-- The evaluator: the locator times the series. -/
noncomputable def evaluatorPoly : K[X] := ∑ k ∈ J, C (z k) * locatorWithout J x k

theorem factor_mul_powers (a : K) :
    ((1 - C a * X : K[X]) : PowerSeries K) * PowerSeries.mk (fun i => a ^ i) = 1 := by
  rw [Polynomial.coe_sub, Polynomial.coe_one, Polynomial.coe_mul, Polynomial.coe_C,
    Polynomial.coe_X, sub_mul, one_mul, mul_assoc]
  ext n
  rw [map_sub, PowerSeries.coeff_C_mul, PowerSeries.coeff_mk]
  cases n with
  | zero => simp
  | succ n =>
    rw [PowerSeries.coeff_succ_X_mul, PowerSeries.coeff_mk, pow_succ', sub_self,
      PowerSeries.coeff_one, if_neg n.succ_ne_zero]

theorem locatorPoly_eq_mul {k : Nat} (hk : k ∈ J) :
    locatorPoly J x = locatorWithout J x k * (1 - C (x k) * X) := by
  rw [locatorPoly, locatorWithout, Finset.prod_erase_mul _ _ hk]

theorem locatorPoly_mul_powerSums :
    ((locatorPoly J x : K[X]) : PowerSeries K) * powerSums J x z =
      ((evaluatorPoly J x z : K[X]) : PowerSeries K) := by
  have hseries : powerSums J x z =
      ∑ k ∈ J, PowerSeries.C (z k) * PowerSeries.mk (fun i => x k ^ i) := by
    ext n
    simp only [powerSums, PowerSeries.coeff_mk, map_sum, PowerSeries.coeff_C_mul]
  have hcast : ((evaluatorPoly J x z : K[X]) : PowerSeries K) =
      ∑ k ∈ J, PowerSeries.C (z k) * ((locatorWithout J x k : K[X]) : PowerSeries K) := by
    ext n
    simp only [evaluatorPoly, Polynomial.coeff_coe, Polynomial.finsetSum_coeff, map_sum,
      PowerSeries.coeff_C_mul, Polynomial.coeff_C_mul]
  rw [hseries, hcast, Finset.mul_sum]
  refine Finset.sum_congr rfl fun k hk => ?_
  rw [locatorPoly_eq_mul J x hk, Polynomial.coe_mul, mul_left_comm, mul_assoc,
    factor_mul_powers, mul_one]

theorem natDegree_factor_le (a : K) : (1 - C a * X : K[X]).natDegree ≤ 1 := by
  refine (Polynomial.natDegree_sub_le _ _).trans (max_le ?_
    ((Polynomial.natDegree_C_mul_le a X).trans Polynomial.natDegree_X_le))
  rw [Polynomial.natDegree_one]
  exact Nat.zero_le 1

theorem natDegree_prod_factors_le (I : Finset Nat) :
    (∏ k ∈ I, (1 - C (x k) * X)).natDegree ≤ I.card :=
  (Polynomial.natDegree_prod_le I _).trans
    ((Finset.sum_le_card_nsmul I _ 1 fun k _ => natDegree_factor_le (x k)).trans_eq
      (by rw [smul_eq_mul, mul_one]))

theorem coeff_evaluatorPoly {n : Nat} (hn : J.card ≤ n) : (evaluatorPoly J x z).coeff n = 0 := by
  rw [evaluatorPoly, Polynomial.finsetSum_coeff]
  refine Finset.sum_eq_zero fun k hk => ?_
  rw [Polynomial.coeff_C_mul, Polynomial.coeff_eq_zero_of_natDegree_lt, mul_zero]
  have hcard := Finset.card_erase_lt_of_mem hk
  exact ((natDegree_prod_factors_le x (J.erase k)).trans_lt hcard).trans_le hn

theorem disc_locatorPoly (n : Nat) :
    disc (powerSums J x z) (locatorPoly J x) n = (evaluatorPoly J x z).coeff n := by
  rw [disc, locatorPoly_mul_powerSums, Polynomial.coeff_coe]

theorem coeff_zero_locatorPoly : (locatorPoly J x).coeff 0 = 1 := by
  rw [Polynomial.coeff_zero_eq_eval_zero, locatorPoly, Polynomial.eval_prod]
  exact Finset.prod_eq_one fun k _ => by simp

/-- The locator is a recurrence for the sums of powers. -/
theorem connects_locatorPoly (n : Nat) :
    Connects (powerSums J x z) (locatorPoly J x) J.card n :=
  ⟨natDegree_prod_factors_le x J, fun k hk _ => by
    rw [disc_locatorPoly, coeff_evaluatorPoly J x z hk]⟩

variable {J x z}

theorem eval_locatorWithout (k : Nat) (y : K) :
    (locatorWithout J x k).eval y = ∏ j ∈ J.erase k, (1 - x j * y) := by
  rw [locatorWithout, Polynomial.eval_prod]
  exact Finset.prod_congr rfl fun j _ => by simp

section
variable (h0 : ∀ k ∈ J, x k ≠ 0)
include h0

theorem eval_locatorWithout_of_ne {j k : Nat} (hk : k ∈ J) (hjk : j ≠ k) :
    (locatorWithout J x j).eval (x k)⁻¹ = 0 := by
  rw [eval_locatorWithout]
  refine Finset.prod_eq_zero (Finset.mem_erase.2 ⟨hjk.symm, hk⟩) ?_
  rw [mul_inv_cancel₀ (h0 k hk), sub_self]

theorem eval_evaluatorPoly {k : Nat} (hk : k ∈ J) :
    (evaluatorPoly J x z).eval (x k)⁻¹ = z k * (locatorWithout J x k).eval (x k)⁻¹ := by
  rw [evaluatorPoly, Polynomial.eval_finsetSum, Finset.sum_eq_single k]
  · rw [Polynomial.eval_mul, Polynomial.eval_C]
  · intro j _ hne
    rw [Polynomial.eval_mul, eval_locatorWithout_of_ne h0 hk hne, mul_zero]
  · exact fun hn => absurd hk hn

theorem eval_derivative_locatorPoly {k : Nat} (hk : k ∈ J) :
    (derivative (locatorPoly J x)).eval (x k)⁻¹ =
      -(x k * (locatorWithout J x k).eval (x k)⁻¹) := by
  rw [locatorPoly, Polynomial.derivative_prod_finset, Polynomial.eval_finsetSum,
    Finset.sum_eq_single k]
  · rw [← locatorWithout, Polynomial.eval_mul, Polynomial.derivative_sub,
      Polynomial.derivative_one, zero_sub, Polynomial.derivative_C_mul, Polynomial.derivative_X,
      mul_one, Polynomial.eval_neg, Polynomial.eval_C, mul_neg, mul_comm]
  · intro j _ hne
    rw [← locatorWithout, Polynomial.eval_mul, eval_locatorWithout_of_ne h0 hk hne, zero_mul]
  · exact fun hn => absurd hk hn

/-- The inverse locators are exactly the roots of the locator. -/
theorem eval_locatorPoly_eq_zero_iff {y : K} :
    (locatorPoly J x).eval y = 0 ↔ ∃ k ∈ J, y = (x k)⁻¹ := by
  have hfactor (k : Nat) : (1 - C (x k) * X : K[X]).eval y = 1 - x k * y := by simp
  rw [locatorPoly, Polynomial.eval_prod, Finset.prod_eq_zero_iff]
  refine exists_congr fun k => and_congr_right fun hk => ?_
  rw [hfactor, sub_eq_zero, eq_comm, mul_comm, mul_eq_one_iff_eq_inv₀ (h0 k hk)]

end

section
variable (hx : Set.InjOn x J)
include hx

/-- Powers of distinct elements are independent (Vandermonde). -/
theorem eq_zero_of_powerSums {A : Nat → K} (h : ∀ j < J.card, ∑ k ∈ J, A k * x k ^ j = 0) :
    ∀ k ∈ J, A k = 0 := by
  intro k hk
  have hdeg : (∏ j ∈ J.erase k, (X - C (x j))).natDegree < J.card := by
    rw [Polynomial.natDegree_prod_of_monic _ _ fun j _ => Polynomial.monic_X_sub_C (x j)]
    simp only [Polynomial.natDegree_X_sub_C, Finset.sum_const, smul_eq_mul, mul_one]
    exact Finset.card_erase_lt_of_mem hk
  have hall : ∑ i ∈ J, A i * (∏ j ∈ J.erase k, (X - C (x j))).eval (x i) = 0 := by
    simp only [Polynomial.eval_eq_sum_range' hdeg, Finset.mul_sum]
    rw [Finset.sum_comm]
    refine Finset.sum_eq_zero fun n hn => ?_
    rw [Finset.sum_congr rfl fun i _ => mul_left_comm (A i) _ (x i ^ n), ← Finset.mul_sum,
      h n (Finset.mem_range.1 hn), mul_zero]
  rw [Finset.sum_eq_single k] at hall
  · refine (mul_eq_zero.1 hall).resolve_right ?_
    rw [Polynomial.eval_prod]
    refine Finset.prod_ne_zero_iff.2 fun j hj => ?_
    obtain ⟨hne, hj⟩ := Finset.mem_erase.1 hj
    rw [Polynomial.eval_sub, Polynomial.eval_X, Polynomial.eval_C]
    exact sub_ne_zero.2 fun e => hne (hx hj hk e.symm)
  · intro i hi hne
    rw [Polynomial.eval_prod, Finset.prod_eq_zero (Finset.mem_erase.2 ⟨hne, hi⟩), mul_zero]
    simp
  · exact fun hn => absurd hk hn

theorem injOn_inv : Set.InjOn (fun k => (x k)⁻¹) J := fun _ hi _ hj e => hx hi hj (inv_injective e)

theorem eval_locatorWithout_ne_zero (h0 : ∀ k ∈ J, x k ≠ 0) {k : Nat} (hk : k ∈ J) :
    (locatorWithout J x k).eval (x k)⁻¹ ≠ 0 := by
  rw [eval_locatorWithout, Finset.prod_ne_zero_iff]
  intro j hj
  obtain ⟨hne, hj⟩ := Finset.mem_erase.1 hj
  refine sub_ne_zero.2 fun e => hne (hx hj hk ?_)
  rw [eq_comm, mul_inv_eq_one₀ (h0 k hk)] at e
  exact e

/-- A polynomial with all the inverse locators as roots has their number as degree at least. -/
theorem card_le_natDegree {C : K[X]} (hC : C.coeff 0 = 1) (hroot : ∀ k ∈ J, C.eval (x k)⁻¹ = 0) :
    J.card ≤ C.natDegree := by
  classical
  by_contra hlt
  have hcard : (J.image fun k => (x k)⁻¹).card = J.card :=
    Finset.card_image_of_injOn (injOn_inv hx)
  have hzero := Polynomial.eq_zero_of_natDegree_lt_card_of_eval_eq_zero' C
    (J.image fun k => (x k)⁻¹) (fun y hy => by
      obtain ⟨k, hk, rfl⟩ := Finset.mem_image.1 hy
      exact hroot k hk) (by omega)
  rw [hzero, Polynomial.coeff_zero] at hC
  exact zero_ne_one hC

theorem natDegree_locatorPoly (h0 : ∀ k ∈ J, x k ≠ 0) : (locatorPoly J x).natDegree = J.card :=
  le_antisymm (natDegree_prod_factors_le x J) (card_le_natDegree hx (coeff_zero_locatorPoly J x)
    fun k hk => (eval_locatorPoly_eq_zero_iff h0).2 ⟨k, hk, rfl⟩)

/-- A recurrence no longer than the locator, for twice as many terms, is the locator. -/
theorem eq_locatorPoly (h0 : ∀ k ∈ J, x k ≠ 0) (hz : ∀ k ∈ J, z k ≠ 0) {C : K[X]} {L n : Nat}
    (hC : C.coeff 0 = 1)
    (h : Connects (powerSums J x z) C L n) (hL : L ≤ J.card) (hn : 2 * J.card ≤ n) :
    C = locatorPoly J x ∧ L = J.card := by
  classical
  have hroot : ∀ k ∈ J, C.eval (x k)⁻¹ = 0 := by
    have hsum : ∀ j < J.card,
        ∑ k ∈ J, z k * x k ^ J.card * C.eval (x k)⁻¹ * x k ^ j = 0 := by
      intro j hj
      rw [← h.terms (J.card + j) (by omega) (by omega), disc_eq_sum,
        Finset.Nat.sum_antidiagonal_eq_sum_range_succ_mk]
      simp only [powerSums, PowerSeries.coeff_mk, Finset.mul_sum]
      rw [Finset.sum_comm]
      refine Finset.sum_congr rfl fun k hk => ?_
      rw [Polynomial.eval_eq_sum_range' (n := (J.card + j).succ)
        (Nat.lt_succ_of_le (h.degree.trans (by omega))), Finset.mul_sum, Finset.sum_mul]
      refine Finset.sum_congr rfl fun i hi => ?_
      have hi' : i ≤ J.card + j := Nat.lt_succ_iff.1 (Finset.mem_range.1 hi)
      have hpow : x k ^ (J.card + j) = x k ^ (J.card + j - i) * x k ^ i := by
        rw [← pow_add, Nat.sub_add_cancel hi']
      have hcancel : x k ^ i * (x k)⁻¹ ^ i = 1 := by
        rw [← mul_pow, mul_inv_cancel₀ (h0 k hk), one_pow]
      calc z k * x k ^ J.card * (C.coeff i * (x k)⁻¹ ^ i) * x k ^ j
          = C.coeff i * z k * (x k ^ (J.card + j) * (x k)⁻¹ ^ i) := by rw [pow_add]; ring
        _ = C.coeff i * (z k * x k ^ (J.card + j - i)) := by
            rw [hpow, mul_assoc (x k ^ _), hcancel]; ring
    intro k hk
    exact (mul_eq_zero.1 (eq_zero_of_powerSums hx hsum k hk)).resolve_left
      (mul_ne_zero (hz k hk) (pow_ne_zero _ (h0 k hk)))
  have hcard : (J.image fun k => (x k)⁻¹).card = J.card :=
    Finset.card_image_of_injOn (injOn_inv hx)
  have hlen : J.card ≤ L := (card_le_natDegree hx hC hroot).trans h.degree
  refine ⟨?_, le_antisymm hL hlen⟩
  have hnot : (0 : K) ∉ J.image fun k => (x k)⁻¹ := by
    intro hmem
    obtain ⟨k, hk, e⟩ := Finset.mem_image.1 hmem
    exact h0 k hk (inv_eq_zero.1 e)
  refine sub_eq_zero.1 (Polynomial.eq_zero_of_natDegree_lt_card_of_eval_eq_zero' _
    (insert 0 (J.image fun k => (x k)⁻¹)) (fun y hy => ?_) ?_)
  · rw [Polynomial.eval_sub, sub_eq_zero]
    rcases Finset.mem_insert.1 hy with rfl | hy
    · rw [← Polynomial.coeff_zero_eq_eval_zero, ← Polynomial.coeff_zero_eq_eval_zero, hC,
        coeff_zero_locatorPoly]
    · obtain ⟨k, hk, rfl⟩ := Finset.mem_image.1 hy
      rw [hroot k hk, (eval_locatorPoly_eq_zero_iff h0).2 ⟨k, hk, rfl⟩]
  · rw [Finset.card_insert_of_notMem hnot, hcard, Nat.lt_succ_iff]
    exact (Polynomial.natDegree_sub_le _ _).trans
      (max_le (h.degree.trans hL) (natDegree_prod_factors_le x J))

end

end

end Sys2Proof.Machine
end

section
/-! SUPPORT. The bytes of 46_reed_solomon as elements of a field, its lists as polynomials over it,
and the loops of R304 as operations on those. -/

namespace Sys2Proof.Machine
open Polynomial

/-- `φ` reads bytes as elements of a field: XOR is addition, `gmul` multiplication (R290). -/
structure FieldModel {K : Type} [Field K] (φ : Byte → K) : Prop where
  xor : ∀ a b, φ (a ^^^ b) = φ a + φ b
  mul : ∀ a b, φ (gmul a b) = φ a * φ b
  one : φ 1 = 1
  inj : Function.Injective φ

/-- The bytes are such a field (R290). -/
theorem exists_fieldModel : ∃ (K : Type) (_ : Field K) (φ : Byte → K), FieldModel φ :=
  ⟨GF, gfField, GF.mk, @FieldModel.mk GF gfField GF.mk (fun _ _ => rfl) (fun _ _ => rfl) rfl
    fun _ _ h => congrArg GF.byte h⟩

/-- A list of coefficients, lowest degree first, as a polynomial. -/
noncomputable def toPoly {K : Type} [Field K] (φ : Byte → K) (l : List Byte) : K[X] :=
  match l with
  | [] => 0
  | a :: r => C (φ a) + X * toPoly φ r

namespace FieldModel

section
variable {K : Type} [Field K] {φ : Byte → K} (hφ : FieldModel φ)
include hφ

/-! ## Bytes -/

theorem zero : φ 0 = 0 := by
  have h := hφ.xor 0 0
  rw [BitVec.xor_self] at h
  exact left_eq_add.1 h

theorem eq_zero_iff {a : Byte} : φ a = 0 ↔ a = 0 :=
  ⟨fun h => hφ.inj (h.trans hφ.zero.symm), fun h => h ▸ hφ.zero⟩

theorem two_eq_zero : (1 : K) + 1 = 0 := by
  rw [← hφ.one, ← hφ.xor, BitVec.xor_self]
  exact hφ.zero

/-- Addition is its own inverse. -/
theorem add_self (x : K) : x + x = 0 := by
  rw [← one_mul x, ← add_mul, hφ.two_eq_zero, zero_mul]

theorem neg_eq (x : K) : -x = x := neg_eq_of_add_eq_zero_left (hφ.add_self x)

theorem map_power (i : Nat) : φ (power i) = φ (power 1) ^ i := by
  induction i with
  | zero => rw [pow_zero]; exact hφ.one
  | succ i ih => rw [← gmul_power, hφ.mul, ih, pow_succ]

theorem map_ginv {a : Byte} (h : a ≠ 0) : φ (ginv a) = (φ a)⁻¹ := by
  refine eq_inv_of_mul_eq_one_right ?_
  rw [← hφ.mul, gmul_ginv h, hφ.one]

theorem map_gdiv (a : Byte) {b : Byte} (h : b ≠ 0) : φ (gdiv a b) = φ a / φ b := by
  refine eq_div_of_mul_eq (fun e => h (hφ.eq_zero_iff.1 e)) ?_
  rw [← hφ.mul, gmul_gdiv a h]

theorem map_gpow (a : Byte) (n : Nat) : φ (gpow a n) = φ a ^ n := by
  unfold gpow
  split
  · next h => rw [h, pow_zero]; exact hφ.one
  · next hn =>
    split
    · next h =>
      rw [h, show φ 0#8 = 0 from hφ.zero, zero_pow hn]
      exact hφ.zero
    · next h =>
      have hlog := power_gflog h
      rw [gfexp_eq_power]
      generalize gflog a = i at hlog ⊢
      rw [← hlog, hφ.map_power, hφ.map_power i, pow_mul]

theorem map_xorAll_range (f : Nat → Byte) (n : Nat) :
    φ (xorAll ((List.range n).map f)) = ∑ i ∈ Finset.range n, φ (f i) := by
  induction n with
  | zero => exact hφ.zero
  | succ n ih =>
    rw [Finset.sum_range_succ, ← ih, ← hφ.xor, List.range_succ, List.map_append, xorAll,
      List.foldl_append]
    rfl

/-! ## Polynomials -/

theorem coeff_toPoly (l : List Byte) (i : Nat) : (toPoly φ l).coeff i = φ (l.getD i 0) := by
  induction l generalizing i with
  | nil => exact (Polynomial.coeff_zero i).trans hφ.zero.symm
  | cons a r ih =>
    unfold toPoly
    cases i with
    | zero => rw [Polynomial.coeff_add, Polynomial.coeff_C_zero, Polynomial.coeff_X_mul_zero,
        add_zero, List.getD_cons_zero]
    | succ i => rw [Polynomial.coeff_add, Polynomial.coeff_C_succ, Polynomial.coeff_X_mul, zero_add,
        ih, List.getD_cons_succ]

theorem coeff_toPoly_of_le {l : List Byte} {i : Nat} (h : l.length ≤ i) :
    (toPoly φ l).coeff i = 0 := by
  rw [hφ.coeff_toPoly, List.getD_eq_default _ _ h, hφ.zero]

theorem natDegree_toPoly_lt {l : List Byte} (h : l ≠ []) : (toPoly φ l).natDegree < l.length := by
  have hpos := List.length_pos_of_ne_nil h
  refine Nat.lt_of_le_pred hpos (Polynomial.natDegree_le_iff_coeff_eq_zero.2 fun i hi => ?_)
  exact hφ.coeff_toPoly_of_le (Nat.le_of_pred_lt hi)

theorem toPoly_one : toPoly φ [1] = 1 := by
  show C (φ 1) + X * 0 = 1
  rw [hφ.one, mul_zero, add_zero, Polynomial.C_1]

theorem toPoly_polyAdd (p q : List Byte) :
    toPoly φ (polyAdd p q) = toPoly φ p + toPoly φ q := by
  induction p generalizing q with
  | nil => exact (zero_add _).symm
  | cons a p ih =>
    cases q with
    | nil => exact (add_zero _).symm
    | cons b q =>
      show C (φ (a ^^^ b)) + X * toPoly φ (polyAdd p q) =
        (C (φ a) + X * toPoly φ p) + (C (φ b) + X * toPoly φ q)
      rw [ih, hφ.xor, Polynomial.C_add]
      ring

theorem toPoly_polyScale (c : Byte) (m : Nat) (p : List Byte) :
    toPoly φ (polyScale c m p) = C (φ c) * X ^ m * toPoly φ p := by
  unfold polyScale
  induction m with
  | zero =>
    rw [pow_zero, mul_one]
    induction p with
    | nil => exact (mul_zero _).symm
    | cons a p ih =>
      show C (φ (gmul c a)) + X * toPoly φ (p.map (gmul c)) = C (φ c) * (C (φ a) + X * toPoly φ p)
      have ih' : toPoly φ (p.map (gmul c)) = C (φ c) * toPoly φ p := ih
      rw [ih', hφ.mul, Polynomial.C_mul]
      ring
  | succ m ih =>
    show C (φ 0) + X * toPoly φ (List.replicate m 0 ++ p.map (gmul c)) = _
    rw [ih, hφ.zero, Polynomial.C_0, pow_succ]
    ring

theorem map_polyEval (p : List Byte) (x : Byte) : φ (polyEval p x) = (toPoly φ p).eval (φ x) := by
  induction p with
  | nil => exact hφ.zero.trans Polynomial.eval_zero.symm
  | cons a p ih =>
    show φ (gmul (polyEval p x) x ^^^ a) = (C (φ a) + X * toPoly φ p).eval (φ x)
    rw [hφ.xor, hφ.mul, ih, Polynomial.eval_add, Polynomial.eval_mul, Polynomial.eval_C,
      Polynomial.eval_X]
    ring

/-- The places past the last coefficient that is not 0 are stripped. -/
theorem polyTrim_spec (p : List Byte) : toPoly φ (polyTrim p) = toPoly φ p ∧
    (toPoly φ p ≠ 0 → (polyTrim p).length = (toPoly φ p).natDegree + 1) := by
  have htrim : ∀ p, polyTrim p = List.rdropWhile (· == 0#8) p := fun _ => rfl
  induction p using List.reverseRecOn with
  | nil => exact ⟨rfl, fun h => absurd rfl h⟩
  | append_singleton p a ih =>
    rw [htrim, List.rdropWhile_concat, ← htrim]
    split
    · next h =>
      have ha : a = 0 := eq_of_beq h
      have hsame : toPoly φ (p ++ [a]) = toPoly φ p := by
        ext i
        rw [hφ.coeff_toPoly, hφ.coeff_toPoly, ha]
        rcases Nat.lt_or_ge i p.length with hi | hi
        · rw [List.getD_append _ _ _ _ hi]
        · rw [List.getD_append_right _ _ _ _ hi, List.getD_eq_default p _ hi]
          cases i - p.length <;> rfl
      rwa [hsame]
    · next h =>
      have ha : φ a ≠ 0 := fun e => h (beq_iff_eq.2 (hφ.eq_zero_iff.1 e))
      refine ⟨rfl, fun _ => ?_⟩
      have hdeg : (toPoly φ (p ++ [a])).natDegree = p.length := by
        refine Polynomial.natDegree_eq_of_le_of_coeff_ne_zero
          (Polynomial.natDegree_le_iff_coeff_eq_zero.2 fun i hi => ?_) ?_
        · exact hφ.coeff_toPoly_of_le (by rw [List.length_append]; exact hi)
        · rw [hφ.coeff_toPoly, List.getD_append_right _ _ _ _ le_rfl, Nat.sub_self]
          exact ha
      rw [hdeg, List.length_append, List.length_singleton]

theorem natCast_eq (n : Nat) : (n : K) = if n % 2 = 1 then 1 else 0 := by
  have htwo : ((2 : Nat) : K) = 0 := by
    rw [Nat.cast_ofNat, ← one_add_one_eq_two, hφ.two_eq_zero]
  have hsplit : (n : K) = ((n % 2 : Nat) : K) := by
    conv_lhs => rw [← Nat.mod_add_div n 2]
    rw [Nat.cast_add, Nat.cast_mul, htwo, zero_mul, add_zero]
  rw [hsplit]
  rcases Nat.mod_two_eq_zero_or_one n with h | h
  · rw [h, if_neg (by decide), Nat.cast_zero]
  · rw [h, if_pos rfl, Nat.cast_one]

/-- The formal derivative: in characteristic 2 the odd powers count. -/
theorem map_derivativeAt {c : List Byte} (hc : c ≠ []) (x : Byte) :
    φ (derivativeAt c x) = (derivative (toPoly φ c)).eval (φ x) := by
  rw [derivativeAt, hφ.map_xorAll_range, Polynomial.derivative_eval,
    Polynomial.sum_over_range' _ (fun n => by rw [zero_mul, zero_mul]) _
      (hφ.natDegree_toPoly_lt hc)]
  refine Finset.sum_congr rfl fun i _ => ?_
  rw [hφ.natCast_eq, hφ.coeff_toPoly]
  rcases Nat.mod_two_eq_zero_or_one i with h | h
  · rw [h, if_neg (by decide), if_neg (by decide), hφ.zero, mul_zero, zero_mul]
  · rw [h, if_pos (by decide), if_pos rfl, hφ.mul, hφ.map_gpow, mul_one]

/-! ## The locator (R304 step 1) and the evaluator (step 3) -/

variable {S : PowerSeries K} {s : List Byte}
  (hS : ∀ i < s.length, PowerSeries.coeff i S = φ (s.getD i 0))
include hS

/-- The discrepancy that the loop computes. -/
theorem map_discrepancy {c : List Byte} {l n : Nat} (hn : n < s.length) (hl : l ≤ n)
    (hone : (toPoly φ c).coeff 0 = 1) (hdeg : (toPoly φ c).natDegree ≤ l) :
    φ (s.getD n 0 ^^^ xorAll ((List.range l).map fun i =>
      gmul (c.getD (i + 1) 0) (s.getD (n - (i + 1)) 0))) = disc S (toPoly φ c) n := by
  rw [hφ.xor, hφ.map_xorAll_range, disc_eq_sum, Finset.Nat.sum_antidiagonal_eq_sum_range_succ_mk,
    Finset.sum_range_succ', hone, one_mul, Nat.sub_zero, hS n hn, add_comm]
  congr 1
  refine Finset.sum_subset_zero_on_sdiff (Finset.range_mono hl) (fun i hi => ?_) fun i hi => ?_
  · obtain ⟨-, hout⟩ := Finset.mem_sdiff.1 hi
    have hil : l ≤ i := Nat.le_of_not_lt fun h => hout (Finset.mem_range.2 h)
    rw [Polynomial.coeff_eq_zero_of_natDegree_lt (hdeg.trans_lt (Nat.lt_succ_of_le hil)), zero_mul]
  · rw [hφ.mul, hφ.coeff_toPoly, hS _ (by omega)]

/-- One iteration keeps the stage, and the length stays below that of a recurrence that goes on. -/
theorem stage_locatorStep {k : Locator} {n d : Nat} {M : K[X]} (hn : n < s.length)
    (hM : Connects S M d s.length) (hone : M.coeff 0 = 1)
    (h : Stage S (toPoly φ k.c) (toPoly φ k.b) (φ k.d) k.l k.m n) (hd : k.l ≤ d) :
    let r := locatorStep s k n
    Stage S (toPoly φ r.c) (toPoly φ r.b) (φ r.d) r.l r.m (n + 1) ∧ r.l ≤ d := by
  have hdisc := hφ.map_discrepancy hS hn h.length_le h.const h.connects.degree
  unfold locatorStep
  dsimp only
  generalize s.getD n 0 ^^^ xorAll ((List.range k.l).map fun i =>
    gmul (k.c.getD (i + 1) 0) (s.getD (n - (i + 1)) 0)) = e at hdisc ⊢
  split
  · next he =>
    rw [he] at hdisc
    exact ⟨h.met (hdisc.symm.trans hφ.zero), hd⟩
  · next he =>
    have hne : disc S (toPoly φ k.c) n ≠ 0 := fun e0 =>
      he (hφ.eq_zero_iff.1 (hdisc.trans e0))
    have hkd : k.d ≠ 0 := fun e0 => h.missed (hφ.eq_zero_iff.2 e0)
    have ha : disc S (toPoly φ k.c) n + φ (gdiv e k.d) * φ k.d = 0 := by
      rw [hφ.map_gdiv e hkd, div_mul_cancel₀ _ h.missed, ← hdisc, hφ.add_self]
    have hpoly : toPoly φ (polyAdd k.c (polyScale (gdiv e k.d) k.m k.b)) =
        toPoly φ k.c + C (φ (gdiv e k.d)) * X ^ k.m * toPoly φ k.b := by
      rw [hφ.toPoly_polyAdd, hφ.toPoly_polyScale]
    split
    · next hlong =>
      rw [hpoly, hdisc]
      have hbound := length_of_disc_ne_zero h.connects hne
        (⟨hM.degree, fun i hi hlt => hM.terms i hi (by omega)⟩ : Connects S M d (n + 1)) hone
      exact ⟨h.longer ha hne hlong, show n + 1 - k.l ≤ d by omega⟩
    · next hshort =>
      rw [hpoly]
      exact ⟨h.kept_length ha (by omega), hd⟩

/-- The locator is a recurrence for the syndromes, no longer than any other. -/
theorem stage_locator {d : Nat} {M : K[X]} (hM : Connects S M d s.length)
    (hone : M.coeff 0 = 1) :
    (toPoly φ (locator s).c).coeff 0 = 1 ∧
      Connects S (toPoly φ (locator s).c) (locator s).l s.length ∧ (locator s).l ≤ d := by
  have hloop : ∀ n ≤ s.length,
      let r := (List.range n).foldl (locatorStep s) ⟨[1], [1], 0, 1, 1⟩
      Stage S (toPoly φ r.c) (toPoly φ r.b) (φ r.d) r.l r.m n ∧ r.l ≤ d := by
    intro n
    induction n with
    | zero =>
      intro _
      show Stage S (toPoly φ [1]) (toPoly φ [1]) (φ 1) 0 1 0 ∧ 0 ≤ d
      rw [hφ.toPoly_one, hφ.one]
      exact ⟨stage_init S, Nat.zero_le d⟩
    | succ n ih =>
      intro hn
      obtain ⟨hstage, hd⟩ := ih (by omega)
      rw [List.range_succ, List.foldl_append]
      exact hφ.stage_locatorStep hS hn hM hone hstage hd
  obtain ⟨hstage, hd⟩ := hloop s.length le_rfl
  exact ⟨hstage.const, hstage.connects, hd⟩

theorem coeff_evaluator (c : List Byte) {i : Nat} (hi : i < s.length) :
    (toPoly φ (evaluator s c)).coeff i = disc S (toPoly φ c) i := by
  rw [hφ.coeff_toPoly, evaluator, List.getD_eq_getElem _ _ (by
    rwa [List.length_map, List.length_range]), List.getElem_map, List.getElem_range,
    hφ.map_xorAll_range, disc_eq_sum, Finset.Nat.sum_antidiagonal_eq_sum_range_succ_mk,
    ← Finset.sum_range_reflect]
  refine Finset.sum_congr rfl fun j hj => ?_
  have hj' := Finset.mem_range.1 hj
  have hback : i + 1 - 1 - j = i - j := by omega
  have hfront : i - (i - j) = j := by omega
  rw [hφ.mul, hback, hfront, hφ.coeff_toPoly, hS _ (by omega), mul_comm]

end

end FieldModel

end Sys2Proof.Machine
end

section
/-! SUPPORT. RS.DEC decodes up to the bound (46_reed_solomon R303, R304): the syndromes are
sums of powers of the errors' positions, whose locator R304's steps find, and Forney's formula
gives back what was added there. -/

namespace Sys2Proof.Machine
open Polynomial

/-! ## Positions -/

theorem position_eq_power (k : Nat) : position k = power (11 * (254 - k)) := betaPow_eq_power _

theorem position_ne_zero (k : Nat) : position k ≠ 0 := by
  rw [position_eq_power]
  exact power_ne_zero _

theorem position_inj {j k : Nat} (hj : j < 255) (hk : k < 255) (h : position j = position k) :
    j = k := by
  rw [position_eq_power, position_eq_power, ← power_mod, ← power_mod (11 * (254 - k))] at h
  have := power_inj (Nat.mod_lt _ (by decide)) (Nat.mod_lt _ (by decide)) h
  omega

/-! ## Errors -/

/-- The places in which `r` differs from `c`. -/
def errorPlaces (c r : List Byte) : List Nat :=
  (List.range 255).filter fun k => c.getD k 0 != r.getD k 0

/-- What was added at place `k`. -/
def errorValue (c r : List Byte) (k : Nat) : Byte := r.getD k 0 ^^^ c.getD k 0

theorem mem_errorPlaces {c r : List Byte} {k : Nat} :
    k ∈ errorPlaces c r ↔ k < 255 ∧ c.getD k 0 ≠ r.getD k 0 := by
  rw [errorPlaces, List.mem_filter, List.mem_range, bne_iff_ne]

theorem nodup_errorPlaces (c r : List Byte) : (errorPlaces c r).Nodup :=
  List.nodup_range.filter _

theorem errorValue_ne_zero {c r : List Byte} {k : Nat} (h : k ∈ errorPlaces c r) :
    errorValue c r k ≠ 0 := fun e =>
  (mem_errorPlaces.1 h).2 (BitVec.xor_eq_zero_iff.1 e).symm

theorem errorValue_eq_zero {c r : List Byte} {k : Nat} (hk : k < 255)
    (h : k ∉ errorPlaces c r) : errorValue c r k = 0 := by
  have hsame : c.getD k 0 = r.getD k 0 := by
    by_contra hne
    exact h (mem_errorPlaces.2 ⟨hk, hne⟩)
  rw [errorValue, hsame, BitVec.xor_self]
  rfl

theorem card_errorPlaces (c r : List Byte) :
    (errorPlaces c r).toFinset.card = (errorPlaces c r).length :=
  List.toFinset_card_of_nodup (nodup_errorPlaces c r)

theorem zip_eq_map {a b : List Byte} (ha : a.length = 255) (hb : b.length = 255) :
    List.zip a b = (List.range 255).map fun k => (a.getD k 0, b.getD k 0) := by
  refine List.ext_getElem (by rw [List.length_zip, ha, hb, List.length_map, List.length_range]; rfl)
    fun k hk hk' => ?_
  rw [List.length_zip] at hk
  rw [List.getElem_zip, List.getElem_map, List.getElem_range, List.getD_eq_getElem _ _ (by omega),
    List.getD_eq_getElem _ _ (by omega)]

/-- The number of positions that RS.DEC counts. -/
theorem distance_eq_length {a b : List Byte} (ha : a.length = 255) (hb : b.length = 255) :
    distance a b = (errorPlaces a b).length := by
  rw [distance, zip_eq_map ha hb, List.countP_map, errorPlaces, List.countP_eq_length_filter]
  rfl

theorem errorPlaces_comm (a b : List Byte) : errorPlaces a b = errorPlaces b a :=
  List.filter_congr fun _ _ => Bool.eq_iff_iff.2 (by rw [bne_iff_ne, bne_iff_ne, ne_comm])

theorem getD_codeword (cw : Memory 8) {k : Nat} (hk : k < 255) :
    (codeword cw).getD k 0 = cw.read k := by
  rw [List.getD_eq_getElem _ _ (by rwa [length_codeword]), getElem_codeword]

theorem changed_eq_length (m n : Memory 8) :
    Claims.changed m n = (errorPlaces (codeword m) (codeword n)).length := by
  rw [Claims.changed, errorPlaces, List.countP_eq_length_filter]
  refine congrArg List.length (List.filter_congr fun k hk => ?_)
  have hk' := List.mem_range.1 hk
  rw [getD_codeword m hk', getD_codeword n hk']

/-! ## Corrections (R304 step 4) -/

/-- Corrections that add `v k` at each place `k` of a list. -/
theorem correctAll_spec {t : BitVec 2} {c om : List Byte} {v : Nat → Byte} {locs : List Nat}
    (hnodup : locs.Nodup) (w : List Byte)
    (h : ∀ k ∈ locs, ∀ w, correctAt t c om w k = some (w.set k (w.getD k 0 ^^^ v k))) :
    ∃ w', correctAll t c om w locs = some w' ∧ w'.length = w.length ∧
      ∀ i < w.length, w'.getD i 0 = if i ∈ locs then w.getD i 0 ^^^ v i else w.getD i 0 := by
  induction locs generalizing w with
  | nil => exact ⟨w, rfl, rfl, fun i _ => rfl⟩
  | cons k r ih =>
    obtain ⟨hk, hr⟩ := List.nodup_cons.1 hnodup
    obtain ⟨w', hw', hlen, hget⟩ := ih hr (w.set k (w.getD k 0 ^^^ v k)) fun j hj =>
      h j (List.mem_cons_of_mem k hj)
    rw [List.length_set] at hlen hget
    refine ⟨w', ?_, hlen, fun i hi => ?_⟩
    · rw [correctAll, h k List.mem_cons_self]
      exact hw'
    · rw [hget i hi]
      by_cases hik : i = k
      · subst hik
        rw [if_neg hk, if_pos List.mem_cons_self, List.getD_eq_getElem _ _ (by
          rwa [List.length_set]), List.getElem_set_self]
      · have hset : (w.set k (w.getD k 0 ^^^ v k)).getD i 0 = w.getD i 0 := by
          rw [List.getD_eq_getElem?_getD, List.getElem?_set_ne (Ne.symm hik),
            ← List.getD_eq_getElem?_getD]
        rw [hset]
        refine if_congr ?_ rfl rfl
        rw [List.mem_cons, or_iff_right hik]

/-! ## Syndromes of a word with errors -/

namespace FieldModel

section
variable {K : Type} [Field K] {φ : Byte → K} (hφ : FieldModel φ)
include hφ

/-- Horner's rule as a sum (R302). -/
theorem map_horner (x : Byte) (w : List Byte) : φ (horner x w) =
    ∑ k ∈ Finset.range w.length, φ (w.getD k 0) * φ x ^ (w.length - 1 - k) := by
  induction w using List.reverseRecOn with
  | nil => exact hφ.zero
  | append_singleton w v ih =>
    rw [horner, List.foldl_append, ← horner, List.length_append, List.length_singleton,
      Finset.sum_range_succ]
    show φ (gmul (horner x w) x ^^^ v) = _
    rw [hφ.xor, hφ.mul, ih, Finset.sum_mul, List.getD_append_right _ _ _ _ le_rfl, Nat.sub_self,
      Nat.add_sub_cancel, Nat.sub_self, pow_zero, mul_one]
    refine congrArg (· + φ v) (Finset.sum_congr rfl fun k hk => ?_)
    have hk' := Finset.mem_range.1 hk
    have hexp : w.length - k = w.length - 1 - k + 1 := by omega
    rw [List.getD_append _ _ _ _ hk', hexp, pow_succ, mul_assoc]

theorem map_betaPow_pow (n k : Nat) : φ (betaPow n) ^ (254 - k) = φ (position k) ^ n := by
  rw [betaPow_eq_power, position_eq_power, hφ.map_power, hφ.map_power (11 * (254 - k)), ← pow_mul,
    ← pow_mul, Nat.mul_right_comm]

theorem position_pow_order (k : Nat) : φ (position k) ^ 255 = 1 := by
  rw [position_eq_power, hφ.map_power, ← pow_mul, mul_comm, pow_mul, ← hφ.map_power 255,
    power_period, hφ.one, one_pow]

theorem position_ne_zero (k : Nat) : φ (position k) ≠ 0 := fun e =>
  Machine.position_ne_zero k (hφ.eq_zero_iff.1 e)

theorem injOn_position (c r : List Byte) :
    Set.InjOn (fun k => φ (position k)) (errorPlaces c r).toFinset := by
  intro j hj k hk e
  have hj' := mem_errorPlaces.1 (List.mem_toFinset.1 hj)
  have hk' := mem_errorPlaces.1 (List.mem_toFinset.1 hk)
  exact position_inj hj'.1 hk'.1 (hφ.inj e)

section
variable {t : BitVec 2} {c r : List Byte} (hc : c.length = 255) (hr : r.length = 255)
  (hcode : isCodeword t c = true)
include hc hr hcode

/-- The syndromes of a codeword with errors are sums of powers of the positions of the errors. -/
theorem coeff_powerSums_eq_syndrome {i : Nat} (hi : i < (syndromes t r).length) :
    PowerSeries.coeff i (powerSums (errorPlaces c r).toFinset (fun k => φ (position k))
      fun k => φ (errorValue c r k) * φ (position k) ^ fcr t) =
      φ ((syndromes t r).getD i 0) := by
  have hzero : horner (betaPow (fcr t + i)) c = 0 := by
    have hi' : i < nroots t := by rwa [length_syndromes] at hi
    have hall := List.all_eq_true.1 hcode _
      (List.mem_map.2 ⟨i, List.mem_range.2 hi', rfl⟩)
    exact eq_of_beq hall
  have hsum : φ (horner (betaPow (fcr t + i)) r) = ∑ k ∈ Finset.range 255,
      φ (errorValue c r k) * φ (position k) ^ (fcr t + i) := by
    rw [← add_zero (φ _), ← hφ.zero, ← hzero, hφ.map_horner, hφ.map_horner, hc, hr,
      ← Finset.sum_add_distrib]
    refine Finset.sum_congr rfl fun k _ => ?_
    rw [errorValue, hφ.xor, ← hφ.map_betaPow_pow, add_mul]
  rw [List.getD_eq_getElem _ _ hi, getElem_syndromes, hsum, powerSums, PowerSeries.coeff_mk]
  refine Eq.trans (Finset.sum_congr rfl fun k _ => ?_)
    (Finset.sum_subset (fun k hk => ?_) fun k hk hout => ?_)
  · rw [mul_assoc, ← pow_add]
  · exact Finset.mem_range.2 (mem_errorPlaces.1 (List.mem_toFinset.1 hk)).1
  · rw [errorValue_eq_zero (Finset.mem_range.1 hk) fun h => hout (List.mem_toFinset.2 h), hφ.zero,
      zero_mul]

/-- A codeword is found to be one only where no error was made within the bound. -/
theorem errorPlaces_eq_nil (hbound : (errorPlaces c r).length ≤ nroots t)
    (hrcode : isCodeword t r = true) : errorPlaces c r = [] := by
  rw [← card_errorPlaces] at hbound
  have hsum : ∀ j < (errorPlaces c r).toFinset.card, ∑ k ∈ (errorPlaces c r).toFinset,
      φ (errorValue c r k) * φ (position k) ^ fcr t * φ (position k) ^ j = 0 := by
    intro j hj
    have hlt : j < (syndromes t r).length := by
      rw [length_syndromes]
      omega
    have hcoeff := hφ.coeff_powerSums_eq_syndrome hc hr hcode hlt
    rw [powerSums, PowerSeries.coeff_mk] at hcoeff
    have hzero : (syndromes t r).getD j 0 = 0 := by
      rw [List.getD_eq_getElem _ _ hlt]
      exact eq_of_beq (List.all_eq_true.1 hrcode _ (List.getElem_mem hlt))
    rw [hcoeff, hzero, hφ.zero]
  have hall := eq_zero_of_powerSums (hφ.injOn_position c r) hsum
  refine List.eq_nil_iff_forall_not_mem.2 fun k hk => ?_
  refine (mul_eq_zero.1 (hall k (List.mem_toFinset.2 hk))).elim (fun e => ?_)
    (pow_ne_zero _ (hφ.position_ne_zero k))
  exact errorValue_ne_zero hk (hφ.eq_zero_iff.1 e)

/-- The locator of the word's errors, as R304 finds it, and its length. -/
theorem locator_eq (hbound : 2 * (errorPlaces c r).length ≤ nroots t) :
    toPoly φ (locator (syndromes t r)).c =
        locatorPoly (errorPlaces c r).toFinset (fun k => φ (position k)) ∧
      (locator (syndromes t r)).l = (errorPlaces c r).length := by
  have hS := fun i (hi : i < (syndromes t r).length) =>
    hφ.coeff_powerSums_eq_syndrome hc hr hcode hi
  obtain ⟨hone, hconn, hlen⟩ := hφ.stage_locator hS (connects_locatorPoly ..)
    (coeff_zero_locatorPoly ..)
  rw [← card_errorPlaces] at hbound ⊢
  refine eq_locatorPoly (hφ.injOn_position c r) (fun k _ => hφ.position_ne_zero k)
    (fun k hk => ?_) hone hconn hlen (by rwa [length_syndromes])
  exact mul_ne_zero
    (fun e => errorValue_ne_zero (List.mem_toFinset.1 hk) (hφ.eq_zero_iff.1 e))
    (pow_ne_zero _ (hφ.position_ne_zero k))

end

/-! ## The decoder's steps on the locator -/

section
variable {c r l : List Byte}
  (hl : toPoly φ l = locatorPoly (errorPlaces c r).toFinset fun k => φ (position k))
include hl

/-- Step 2 of R304 finds the places of the errors. -/
theorem errorPositions_eq : errorPositions l = errorPlaces c r := by
  refine List.filter_congr fun k hk => ?_
  have hk' := List.mem_range.1 hk
  rw [Bool.eq_iff_iff, beq_iff_eq, bne_iff_ne]
  have hiff : k ∈ errorPlaces c r ↔ c.getD k 0 ≠ r.getD k 0 :=
    mem_errorPlaces.trans (and_iff_right hk')
  show polyEval l (ginv (position k)) = 0 ↔ _
  rw [← hiff, ← hφ.eq_zero_iff, hφ.map_polyEval, hφ.map_ginv (Machine.position_ne_zero k), hl,
    eval_locatorPoly_eq_zero_iff fun k _ => hφ.position_ne_zero k]
  refine ⟨fun ⟨j, hj, e⟩ => ?_, fun hmem => ⟨k, List.mem_toFinset.2 hmem, rfl⟩⟩
  have hj' := List.mem_toFinset.1 hj
  rwa [position_inj hk' (mem_errorPlaces.1 hj').1 (hφ.inj (inv_injective e))]

/-- Step 4 of R304 (Forney): what is added at the place of an error is the error. -/
theorem correctAt_eq {t : BitVec 2} {om : List Byte}
    (ht : (((1 : Int) - (fcr t : Int)) % 255).toNat + fcr t = 256)
    (hom : toPoly φ om = evaluatorPoly (errorPlaces c r).toFinset (fun k => φ (position k))
      fun k => φ (errorValue c r k) * φ (position k) ^ fcr t)
    {k : Nat} (hk : k ∈ errorPlaces c r) (w : List Byte) :
    correctAt t l om w k = some (w.set k (w.getD k 0 ^^^ errorValue c r k)) := by
  have hmem := List.mem_toFinset.2 hk
  have hx0 : ∀ k ∈ (errorPlaces c r).toFinset, φ (position k) ≠ 0 :=
    fun k _ => hφ.position_ne_zero k
  have hne : l ≠ [] := by
    rintro rfl
    have hone := coeff_zero_locatorPoly (errorPlaces c r).toFinset fun k => φ (position k)
    rw [← hl] at hone
    exact zero_ne_one ((Polynomial.coeff_zero 0).symm.trans hone)
  have hfactor := eval_locatorWithout_ne_zero (hφ.injOn_position c r) hx0 hmem
  have hden := hφ.map_derivativeAt hne (ginv (position k))
  rw [hl, hφ.map_ginv (Machine.position_ne_zero k), eval_derivative_locatorPoly hx0 hmem,
    hφ.neg_eq] at hden
  have hnum := hφ.map_polyEval om (ginv (position k))
  rw [hom, hφ.map_ginv (Machine.position_ne_zero k), eval_evaluatorPoly hx0 hmem] at hnum
  have hden0 : derivativeAt l (ginv (position k)) ≠ 0#8 := fun e => by
    rw [e, show φ 0#8 = 0 from hφ.zero] at hden
    exact mul_ne_zero (hφ.position_ne_zero k) hfactor hden.symm
  have hvalue : gmul (gpow (position k) (((1 : Int) - (fcr t : Int)) % 255).toNat)
      (gdiv (polyEval om (ginv (position k))) (derivativeAt l (ginv (position k)))) =
      errorValue c r k := by
    refine hφ.inj ?_
    have hpow : φ (position k) ^ (((1 : Int) - (fcr t : Int)) % 255).toNat *
        φ (position k) ^ fcr t = φ (position k) := by
      rw [← pow_add, ht, pow_succ, hφ.position_pow_order, one_mul]
    rw [hφ.mul, hφ.map_gpow, hφ.map_gdiv _ hden0, hden, hnum,
      mul_div_mul_right _ _ hfactor, mul_div_assoc', div_eq_iff (hφ.position_ne_zero k),
      mul_left_comm, hpow]
  unfold correctAt
  dsimp only
  rw [if_neg hden0, hvalue]

end

/-- From any word within the bound of a codeword RS.DEC restores the codeword (R303, R304). -/
theorem decodeWord_eq {t : BitVec 2} {c r : List Byte} (hc : c.length = 255)
    (hr : r.length = 255) (hcode : isCodeword t c = true)
    (ht : (((1 : Int) - (fcr t : Int)) % 255).toNat + fcr t = 256)
    (hbound : (errorPlaces c r).length ≤ rsT t) :
    decodeWord t r = some ((errorPlaces c r).length, c) := by
  have htwice : 2 * (errorPlaces c r).length ≤ nroots t := by
    unfold rsT at hbound
    omega
  have hback : ∀ w : List Byte, w.length = 255 → (∀ i < 255, w.getD i 0 =
      if i ∈ errorPlaces c r then r.getD i 0 ^^^ errorValue c r i else r.getD i 0) → w = c := by
    intro w hw hget
    refine List.ext_getElem (hw.trans hc.symm) fun i hi hi' => ?_
    rw [← List.getD_eq_getElem _ 0 hi, ← List.getD_eq_getElem _ 0 hi', hget i (by omega)]
    split
    · rw [errorValue, ← BitVec.xor_assoc, BitVec.xor_self, BitVec.zero_xor]
    · next hout =>
      have h0 := errorValue_eq_zero (by omega) hout
      exact BitVec.xor_eq_zero_iff.1 h0
  unfold decodeWord
  split
  · next hrcode =>
    have hnil := hφ.errorPlaces_eq_nil hc hr hcode (by omega) hrcode
    rw [hnil, hback r hr fun i _ => by rw [hnil, if_neg List.not_mem_nil]]
    rfl
  · obtain ⟨hpoly, hlen⟩ := hφ.locator_eq hc hr hcode htwice
    obtain ⟨htrim, htrimlen⟩ := hφ.polyTrim_spec (locator (syndromes t r)).c
    rw [hpoly] at htrim htrimlen
    have hne : locatorPoly (errorPlaces c r).toFinset (fun k => φ (position k)) ≠ 0 := fun e => by
      have hone := coeff_zero_locatorPoly (errorPlaces c r).toFinset fun k => φ (position k)
      rw [e, Polynomial.coeff_zero] at hone
      exact zero_ne_one hone
    have hlength := htrimlen hne
    rw [natDegree_locatorPoly (hφ.injOn_position c r) fun k _ => hφ.position_ne_zero k,
      card_errorPlaces] at hlength
    have hom : toPoly φ (evaluator (syndromes t r) (polyTrim (locator (syndromes t r)).c)) =
        evaluatorPoly (errorPlaces c r).toFinset (fun k => φ (position k))
          fun k => φ (errorValue c r k) * φ (position k) ^ fcr t := by
      ext i
      rcases Nat.lt_or_ge i (syndromes t r).length with hi | hi
      · rw [hφ.coeff_evaluator (fun i hi => hφ.coeff_powerSums_eq_syndrome hc hr hcode hi) _ hi,
          htrim, disc_locatorPoly]
      · rw [hφ.coeff_toPoly_of_le (by rwa [evaluator, List.length_map, List.length_range]),
          coeff_evaluatorPoly]
        rw [length_syndromes] at hi
        rw [card_errorPlaces]
        omega
    obtain ⟨w, hw, hwlen, hwget⟩ := correctAll_spec (t := t) (nodup_errorPlaces c r) r
      fun k hk w => hφ.correctAt_eq htrim ht hom hk w
    rw [hr] at hwlen hwget
    have hwc := hback w hwlen hwget
    dsimp only
    rw [hlen, if_neg (by rw [hlength, not_or]; exact ⟨not_not_intro rfl, Nat.not_lt.2 hbound⟩),
      hφ.errorPositions_eq htrim, if_neg (not_not_intro rfl), hw]
    dsimp only
    rw [hwc, if_pos hcode, distance_eq_length hr hc, errorPlaces_comm]

end

end FieldModel

end Sys2Proof.Machine

namespace Sys2Proof.Machine

/-! ## RS.DEC -/

theorem fcr_exponent {t : BitVec 2} (h : t = 1#2 ∨ t = 2#2) :
    (((1 : Int) - (fcr t : Int)) % 255).toNat + fcr t = 256 := by
  rcases h with rfl | rfl <;> rfl

/-- From any word within the bound RS.DEC restores the codeword and counts the errors. -/
theorem correctCw_eq {t : BitVec 2} (ht : t = 1#2 ∨ t = 2#2) {cw received : Memory 8}
    (hcw : cw.wf) (hrec : received.wf) (hcode : Claims.isCode t cw)
    (hbound : Claims.changed cw received ≤ Claims.roots t / 2)
    (hrest : ∀ a, 255 ≤ a → received.read a = cw.read a) :
    correctCw t received = (cw, (Claims.changed cw received : Int)) := by
  obtain ⟨K, hK, φ, hφ⟩ := exists_fieldModel
  rw [changed_eq_length, ← nroots_eq_roots ht, ← rsT] at hbound
  have hdec := hφ.decodeWord_eq (length_codeword cw) (length_codeword received)
    ((isCode_iff ht cw).1 hcode) (fcr_exponent ht) hbound
  have hlen := length_codeword cw
  rw [correctCw_some hdec, changed_eq_length, Prod.mk.injEq]
  refine ⟨Memory.eq_of_read_eq (wf_setCodeword _ _ hrec) hcw fun a => ?_, rfl⟩
  rcases Nat.lt_or_ge a 255 with ha | ha
  · rw [read_setCodeword hrec hlen ha, getElem_codeword]
  · exact (read_setCodeword_ge received hlen ha).trans (hrest a ha)

theorem changed_write {cw : Memory 8} (hw : cw.wf) {k : Nat} (hk : k < 255) {e : Byte}
    (he : e ≠ 0) : Claims.changed cw (cw.write k (cw.read k ^^^ e)) = 1 := by
  have hplace : ∀ a, (cw.read a != (cw.write k (cw.read k ^^^ e)).read a) = (a == k) := by
    intro a
    rw [Memory.read_write _ _ _ _ hw, Bool.eq_iff_iff, bne_iff_ne, beq_iff_eq]
    split
    · next h =>
      rw [h]
      refine iff_of_true (fun hsame => he ?_) rfl
      have hzero := congrArg (cw.read k ^^^ ·) hsame
      rw [BitVec.xor_self, ← BitVec.xor_assoc, BitVec.xor_self, BitVec.zero_xor] at hzero
      exact hzero.symm
    · next h => exact iff_of_false (fun hne => hne rfl) h
  unfold Claims.changed
  rw [funext hplace]
  exact List.count_eq_one_of_mem List.nodup_range (List.mem_range.2 hk)

/-- What RS.DEC changes where it answers with a count. -/
theorem distance_le_of_only {cw w : List Byte} {locs : List Nat} (hc : cw.length = 255)
    (hw : w.length = 255) (h : ∀ i, i ∉ locs → w[i]? = cw[i]?) :
    distance cw w ≤ locs.length := by
  rw [distance_eq_length hc hw]
  refine ((nodup_errorPlaces cw w).subperm fun i hi => ?_).length_le
  by_contra hout
  have hne := (mem_errorPlaces.1 hi).2
  rw [List.getD_eq_getElem?_getD, List.getD_eq_getElem?_getD, h i hout] at hne
  exact hne rfl

/-- RS.DEC leaves CW, or makes it a codeword within the bound. -/
theorem correctCw_sound {t : BitVec 2} (ht : t = 1#2 ∨ t = 2#2) {cw : Memory 8} (hcw : cw.wf) :
    let q := correctCw t cw
    (q.2 = -1 ∧ q.1 = cw ∨
      0 ≤ q.2 ∧ q.2 ≤ Claims.roots t / 2 ∧ q.2 = Claims.changed cw q.1 ∧
        Claims.isCode t q.1 ∧ ∀ a, 255 ≤ a → q.1.read a = cw.read a) ∧
      (Claims.isCode t cw ↔ q.2 = 0) := by
  rw [isCode_iff ht]
  cases hd : decodeWord t (codeword cw) with
  | none =>
    have hnot : isCodeword t (codeword cw) ≠ true := fun hcode => by
      rw [decodeWord, if_pos hcode] at hd
      cases hd
    rw [correctCw_none hd]
    exact ⟨.inl ⟨rfl, rfl⟩, iff_of_false hnot (by decide : (-1 : Int) ≠ 0)⟩
  | some r =>
    obtain ⟨n, w⟩ := r
    have hlen := (length_decodeWord hd).trans (length_codeword cw)
    have hback := codeword_setCodeword cw w hcw hlen
    have hrest := fun a (ha : 255 ≤ a) => read_setCodeword_ge cw hlen ha
    rw [correctCw_some hd]
    dsimp only
    rw [isCode_iff ht, changed_eq_length, hback, ← nroots_eq_roots ht]
    obtain ⟨hcode, rfl, rfl⟩ | ⟨hcode, hgood, rfl, -, locs, hlocs, honly⟩ := decodeWord_some hd
    · have hnone : errorPlaces (codeword cw) (codeword cw) = [] :=
        List.filter_eq_nil_iff.2 fun k _ => by simp
      rw [hnone]
      exact ⟨.inr ⟨le_rfl, by omega, rfl, hcode, hrest⟩, iff_of_true hcode rfl⟩
    · have hdist := distance_eq_length (length_codeword cw) hlen
      have hle := (distance_le_of_only (length_codeword cw) hlen honly).trans hlocs
      refine ⟨.inr ⟨Int.natCast_nonneg _, ?_, by rw [hdist], hgood, hrest⟩,
        iff_of_false (fun h => Bool.false_ne_true (hcode.symm.trans h)) fun h0 => ?_⟩
      · unfold rsT at hle
        omega
      · have hnil : errorPlaces (codeword cw) w = [] :=
          List.eq_nil_of_length_eq_zero (by rw [← hdist]; exact_mod_cast h0)
        have hsame : w = codeword cw := by
          refine List.ext_getElem (hlen.trans (length_codeword cw).symm) fun i hi hi' => ?_
          have hout : i ∉ errorPlaces (codeword cw) w := by
            rw [hnil]
            exact List.not_mem_nil
          have hzero := errorValue_eq_zero (by omega) hout
          rw [← List.getD_eq_getElem _ 0 hi, ← List.getD_eq_getElem _ 0 hi']
          exact BitVec.xor_eq_zero_iff.1 hzero
        rw [hsame, hcode] at hgood
        cases hgood

end Sys2Proof.Machine

namespace Sys2Proof
open Sys2Proof.Machine Sys2Proof.Claims

/-- Settles O46: soundness from the last test of R304, the single error from O47's half. -/
theorem rsDecodeSound : Obligations.RsDecodeSound := by
  refine ⟨fun s hcw ht => ?_, fun s e k hcw hk he ht hcode => ?_, fun s => ?_⟩
  · have hdec := exec_rsDec s
    have hsound := correctCw_sound ht hcw
    generalize correctCw s.cfg.rsType s.cw = q at hdec hsound
    exact ⟨{ s with cw := q.1 }, q.2, hdec, rfl, hsound⟩
  · have hone := changed_write hcw hk he
    have hdec := exec_rsDec { s with cw := s.cw.write k (s.cw.read k ^^^ e) }
    dsimp only at hdec
    rw [correctCw_eq ht hcw (Memory.wf_write _ _ _ hcw) hcode (by
      rw [hone]
      rcases ht with h | h <;> rw [h] <;> decide) fun a ha =>
        Memory.read_write_ne _ _ _ _ (by omega), hone] at hdec
    exact hdec
  · have hdec := exec_rsDec s
    generalize correctCw s.cfg.rsType s.cw = q at hdec
    exact ⟨q.1, q.2, hdec⟩

/-- Settles O47: the decoder's steps find the locator, the places and the values of the errors. -/
theorem rsDecodeRepairsErrors : Obligations.RsDecodeRepairsErrors := by
  intro s received hcw hrec ht hcode hbound hrest
  have h := exec_rsDec { s with cw := received }
  dsimp only at h
  rwa [correctCw_eq ht hcw hrec hcode hbound hrest] at h

end Sys2Proof
end

section
/-! SUPPORT. The decoder on an error-free stream (43_viterbi sections 3, 4 and 7): only paths with
the labels that were sent keep metric 0, and six labels determine a path. -/

namespace Sys2Proof.Machine

/-! ## Six labels determine a path (R193) -/

theorem countP_xor_mod_two (p q : Nat → Bool) (l : List Nat) :
    (l.countP fun i => Bool.xor (p i) (q i)) % 2 = (l.countP p + l.countP q) % 2 := by
  induction l with
  | nil => rfl
  | cons i r ih =>
    simp only [List.countP_cons]
    cases p i <;> cases q i <;> simp <;> omega

theorem parity_xor {w : Nat} (x y : BitVec w) :
    parity (x ^^^ y) = Bool.xor (parity x) (parity y) := by
  unfold parity popcount
  simp only [BitVec.getLsbD_xor]
  rw [countP_xor_mod_two, Nat.add_mod]
  rcases Nat.mod_two_eq_zero_or_one ((List.range w).countP fun i => x.getLsbD i) with h | h <;>
    rcases Nat.mod_two_eq_zero_or_one ((List.range w).countP fun i => y.getLsbD i) with k | k <;>
      rw [h, k] <;> rfl

/-- The encoder is linear. -/
theorem convEncode_xor (s t : BitVec 6) (u v : Bool) :
    convEncode (s ^^^ t) (Bool.xor u v) =
      ((convEncode s u).1 ^^^ (convEncode t v).1,
        Bool.xor (convEncode s u).2.1 (convEncode t v).2.1,
        Bool.xor (convEncode s u).2.2 (convEncode t v).2.2) := by
  have hmask (x y m : BitVec 7) : (x ^^^ y) &&& m = (x &&& m) ^^^ (y &&& m) := by
    ext i
    simp [Bool.and_xor_distrib_right]
  unfold convEncode
  dsimp only
  rw [← BitVec.ofBool_xor_ofBool, ← BitVec.xor_append, BitVec.extractLsb'_xor, hmask, hmask,
    parity_xor, parity_xor]

/-- From state `x` the encoder can send nothing but 0 for `n` steps. -/
def silent (n : Nat) (x : BitVec 6) : Bool :=
  match n with
  | 0 => true
  | m + 1 => [false, true].any fun u =>
      (convEncode x u).2 == (false, false) && silent m (convEncode x u).1

/-- Six steps of silence begin in state 0. -/
theorem eq_zero_of_silent : ∀ x : BitVec 6, silent 6 x = true → x = 0 := by decide +kernel

/-- A path with the labels `o` for `n` steps: the newest bit of a state is the bit read. -/
def Follows (o : Nat → Bool × Bool) (n : Nat) (τ : Nat → BitVec 6) : Prop :=
  ∀ i < n, convEncode (τ i) ((τ (i + 1)).getLsbD 0) = (τ (i + 1), o i)

section
variable {o : Nat → Bool × Bool} {n : Nat} {τ σ : Nat → BitVec 6}

/-- The difference of two paths with the same labels is silent. -/
theorem exists_difference (h : Follows o n τ) (k : Follows o n σ) {i : Nat} (hi : i < n) :
    ∃ u, convEncode (τ i ^^^ σ i) u = (τ (i + 1) ^^^ σ (i + 1), false, false) := by
  refine ⟨Bool.xor ((τ (i + 1)).getLsbD 0) ((σ (i + 1)).getLsbD 0), ?_⟩
  rw [convEncode_xor, h i hi, k i hi, Bool.xor_self, Bool.xor_self]

theorem silent_difference (h : Follows o n τ) (k : Follows o n σ) (m : Nat) {i : Nat}
    (hi : i + m ≤ n) : silent m (τ i ^^^ σ i) = true := by
  induction m generalizing i with
  | zero => rfl
  | succ m ih =>
    obtain ⟨u, hu⟩ := exists_difference h k (i := i) (by omega)
    unfold silent
    refine List.any_eq_true.2 ⟨u, by cases u <;> simp, ?_⟩
    rw [hu, ih (by omega)]
    rfl

/-- Six labels and more determine a path. -/
theorem Follows.unique (h : Follows o n τ) (k : Follows o n σ) (hn : 6 ≤ n) {i : Nat}
    (hi : i ≤ n) : τ i = σ i := by
  refine BitVec.xor_eq_zero_iff.1 ?_
  induction i with
  | zero => exact eq_zero_of_silent _ (silent_difference h k 6 (by omega))
  | succ i ih =>
    obtain ⟨u, hu⟩ := exists_difference h k (i := i) (by omega)
    rw [ih (by omega)] at hu
    cases u with
    | false => exact (congrArg Prod.fst hu).symm
    | true =>
      have hones : (convEncode 0 true).2 ≠ (false, false) := by decide
      exact absurd (congrArg Prod.snd hu) hones

end

/-! ## The stream (R196) -/

/-- The encoder's state after the first `k` bits of a message. -/
def stateAt (msg : List Bool) (st k : Nat) : BitVec 6 :=
  BitVec.ofNat 6 (Claims.endState (msg.take k) st)

/-- The channel bits of bit `k` of a message. -/
def labelAt (msg : List Bool) (st k : Nat) : Bool × Bool :=
  (convEncode (stateAt msg st k) (msg.getD k false)).2

section
variable {msg : List Bool} {st : Nat}

theorem encoder_fst_lt (x : Nat) (u : Bool) : (Claims.encoder x u).1 < 64 :=
  Nat.mod_lt _ (by decide)

theorem convEncode_ofNat {x : Nat} (hx : x < 64) (u : Bool) :
    convEncode (BitVec.ofNat 6 x) u =
      (BitVec.ofNat 6 (Claims.encoder x u).1, (Claims.encoder x u).2) := by
  rw [convEncode_eq_encoder, BitVec.toNat_ofNat, Nat.mod_eq_of_lt hx]

theorem stateAt_zero (msg : List Bool) (st : Nat) : stateAt msg st 0 = BitVec.ofNat 6 st := rfl

theorem stateAt_cons (u : Bool) (r : List Bool) (st k : Nat) :
    stateAt (u :: r) st (k + 1) = stateAt r (Claims.encoder st u).1 k := rfl

/-- One bit of the message. -/
theorem convEncode_stateAt (hst : st < 64) {k : Nat} (hk : k < msg.length) :
    convEncode (stateAt msg st k) (msg.getD k false) =
      (stateAt msg st (k + 1), labelAt msg st k) := by
  refine Prod.ext ?_ rfl
  induction msg generalizing st k with
  | nil => cases hk
  | cons u r ih =>
    cases k with
    | zero =>
      rw [stateAt_zero, List.getD_cons_zero, convEncode_ofNat hst]
      rfl
    | succ k =>
      rw [stateAt_cons, stateAt_cons, List.getD_cons_succ]
      exact ih (encoder_fst_lt st u) (Nat.lt_of_succ_lt_succ hk)

/-- The newest bit of a state is the bit read. -/
theorem getLsbD_zero_convEncode (x : BitVec 6) (u : Bool) :
    (convEncode x u).1.getLsbD 0 = u := by
  have hall : ∀ (x : BitVec 6) (u : Bool), (convEncode x u).1.getLsbD 0 = u := by decide +kernel
  exact hall x u

theorem getLsbD_stateAt_succ (hst : st < 64) {k : Nat} (hk : k < msg.length) :
    (stateAt msg st (k + 1)).getLsbD 0 = msg.getD k false := by
  have h := getLsbD_zero_convEncode (stateAt msg st k) (msg.getD k false)
  rwa [convEncode_stateAt hst hk] at h

theorem follows_stateAt (hst : st < 64) {n : Nat} (hn : n ≤ msg.length) :
    Follows (labelAt msg st) n (stateAt msg st) := by
  intro i hi
  rw [getLsbD_stateAt_succ hst (by omega), convEncode_stateAt hst (by omega)]

theorem length_sent (a : Soft) (msg : List Bool) (st : Nat) :
    (Claims.sent a msg st).length = msg.length := by
  induction msg generalizing st with
  | nil => rfl
  | cons u r ih => exact congrArg (· + 1) (ih _)

theorem getElem_sent (a : Soft) (hst : st < 64) {k : Nat}
    (hk : k < (Claims.sent a msg st).length) : (Claims.sent a msg st)[k] =
      (Claims.softOf a (labelAt msg st k).1, Claims.softOf a (labelAt msg st k).2) := by
  induction msg generalizing st k with
  | nil => cases hk
  | cons u r ih =>
    cases k with
    | zero =>
      unfold labelAt
      rw [stateAt_zero, List.getD_cons_zero, convEncode_ofNat hst]
      rfl
    | succ k => exact ih (encoder_fst_lt st u) (Nat.lt_of_succ_lt_succ hk)

end

/-! ## Metrics on an error-free stream -/

/-- The smallest branch metric at amplitude `a`. -/
def leastCost (a : Soft) : Nat := (2 * (127 - a.toInt)).toNat

section
variable {a : Soft} (ha : 0 < a.toInt)
include ha

theorem softOf_clamped (b : Bool) : Claims.clamped (Claims.softOf a b) := by
  have hall : ∀ (a : Soft) (b : Bool), 0 < a.toInt → Claims.clamped (Claims.softOf a b) := by
    unfold Claims.clamped
    decide +kernel
  exact hall a b ha

theorem cost_softOf (b d : Bool) : Claims.cost d (Claims.softOf a b).toInt =
    if d = b then 127 - a.toInt else 127 + a.toInt := by
  have hmax := BitVec.toInt_lt (x := a)
  have hneg : (-a).toInt = -a.toInt := by
    rw [BitVec.toInt_neg, Int.bmod_eq_of_le] <;> omega
  unfold Claims.cost Claims.softOf
  cases b <;> cases d <;> simp [hneg]
  omega

/-- The branch that carries the channel bits that were sent has the smallest metric, and no other
has it. -/
theorem branchMetrics_sent (p : Bool × Bool) (c d : Bool) :
    let m := (branchMetrics (Claims.softOf a p.1) (Claims.softOf a p.2)).get c d
    leastCost a ≤ m.toNat ∧ (m.toNat = leastCost a ↔ (c, d) = p) := by
  obtain ⟨p1, p2⟩ := p
  have hm := toNat_branchMetrics (softOf_clamped ha p1) (softOf_clamped ha p2) c d
  have hmax := BitVec.toInt_lt (x := a)
  rw [cost_softOf ha, cost_softOf ha] at hm
  dsimp only
  generalize ((branchMetrics (Claims.softOf a p1) (Claims.softOf a p2)).get c d).toNat = m at hm ⊢
  unfold leastCost
  rw [Prod.mk.injEq]
  norm_num at hmax
  split at hm <;> split at hm <;> refine ⟨by omega, ?_⟩
  · exact iff_of_true (by omega) ⟨‹_›, ‹_›⟩
  · exact iff_of_false (by omega) fun h => absurd h.2 ‹_›
  · exact iff_of_false (by omega) fun h => absurd h.1 ‹_›
  · exact iff_of_false (by omega) fun h => absurd h.1 ‹_›

end

/-! ## One step of the decoder (R214, R230) -/

/-- The ring entry for step `i`, read at state `y`, leads back to state `x`. -/
def LeadsBack (c : Cfg) (v : Viterbi) (i : Nat) (y x : BitVec 6) : Prop :=
  predecessor y ((v.hist.read (i % c.tbd)).getLsbD y.toNat) = x

/-- The decoder after `k` steps on an error-free stream with labels `o` from the states `σ`. -/
structure OnStream (c : Cfg) (o : Nat → Bool × Bool) (σ : Nat → BitVec 6) (k : Nat)
    (v : Viterbi) : Prop where
  hist : v.hist.wf
  histWp : v.histWp.toNat = k % c.tbd
  vitN : v.vitN.toNat = min k (c.tbd + 1)
  near : ∀ i ≤ 6, Near v i
  path : v.metric (σ k) = 0
  /-- A state of metric 0 ends a path with these labels, and the ring leads back along it. -/
  survivors : ∀ x, v.metric x = 0 → ∃ τ, τ k = x ∧ Follows o k τ ∧
    ∀ i < k, k ≤ i + c.tbd → LeadsBack c v i (τ (i + 1)) (τ i)

theorem predecessor_convEncode {y : BitVec 6} (x : BitVec 6) (u : Bool)
    (h : (convEncode x u).1 = y) : ∃ d, predecessor y d = x := by
  have hall : ∀ (x : BitVec 6) (u : Bool), ∃ d, predecessor (convEncode x u).1 d = x := by
    decide +kernel
  exact h ▸ hall x u

theorem convEncode_predecessor (y : BitVec 6) (d : Bool) :
    (convEncode (predecessor y d) (y.getLsbD 0)).1 = y := by
  have hall : ∀ (y : BitVec 6) (d : Bool),
      (convEncode (predecessor y d) (y.getLsbD 0)).1 = y := by decide +kernel
  exact hall y d

section
variable {c : Cfg} {o : Nat → Bool × Bool} {σ : Nat → BitVec 6} {k : Nat} {v v1 : Viterbi}
  {a : Soft}

theorem OnStream.metric_le (h : OnStream c o σ k v) (x : BitVec 6) : v.metric x ≤ 60000 := by
  obtain ⟨z, hz, hblock⟩ := h.near 6 le_rfl
  have hx := hblock x (by have := x.isLt; omega)
  rw [minOver_metric_of_zero ⟨_, h.path⟩] at hx
  omega

/-- A cleared decoder. -/
theorem onStream_zero (o : Nat → Bool × Bool) (σ : Nat → BitVec 6) (hw : v.hist.wf)
    (h : Claims.cleared v) : OnStream c o σ 0 v := by
  obtain ⟨hm, hwp, hn⟩ := h
  refine ⟨hw, by rw [hwp, Nat.zero_mod]; rfl, by rw [hn, Nat.zero_min]; rfl, fun i hi => ?_,
    hm _, fun x _ => ⟨fun _ => x, rfl, fun _ hi => absurd hi (Nat.not_lt_zero _),
      fun _ hi => absurd hi (Nat.not_lt_zero _)⟩⟩
  exact ⟨0, Nat.two_pow_pos _, fun t _ => by rw [hm]; exact Nat.zero_le _⟩

/-- After one more add-compare-select: metric 0 means a predecessor of metric 0 and the label that
was sent. -/
theorem metric_eq_zero_iff (ha : 0 < a.toInt) (h : OnStream c o σ k v)
    (hσ : Follows o (k + 1) σ)
    (h1 : addCompareSelect c v
      (branchMetrics (Claims.softOf a (o k).1) (Claims.softOf a (o k).2)) = .ok v1)
    (y : BitVec 6) :
    (v1.metric y = 0 → ∃ d,
      d = decision v (branchMetrics (Claims.softOf a (o k).1) (Claims.softOf a (o k).2)) y ∧
      v.metric (predecessor y d) = 0 ∧ branchLabel y d = o k) ∧
    v1.metric (σ (k + 1)) = 0 := by
  generalize hm : branchMetrics (Claims.softOf a (o k).1) (Claims.softOf a (o k).2) = m at h1 ⊢
  have hbranch (d1 d2 : Bool) := branchMetrics_sent ha (o k) d1 d2
  dsimp only at hbranch
  rw [hm] at hbranch
  have hsmall : Claims.smallMetrics m := hm ▸ fun d1 d2 =>
    branchMetrics_le (softOf_clamped ha _) (softOf_clamped ha _) d1 d2
  have hadd := metric_addCompareSelect_add h1 h.metric_le hsmall
  have hcand (x : BitVec 6) (d : Bool) : leastCost a ≤ candidate v m x d :=
    (hbranch _ _).1.trans (Nat.le_add_left _ _)
  have hsigma := hσ k (Nat.lt_succ_self k)
  obtain ⟨d, hd⟩ := predecessor_convEncode (y := σ (k + 1)) _ _ (congrArg Prod.fst hsigma)
  have hlabel : branchLabel (σ (k + 1)) d = o k := by
    rw [branchLabel, hd, hsigma]
  have htrue : newMetric v m (σ (k + 1)) ≤ leastCost a := by
    have hle : newMetric v m (σ (k + 1)) ≤ v.metric (predecessor (σ (k + 1)) d) +
      (m.get (branchLabel (σ (k + 1)) d).1 (branchLabel (σ (k + 1)) d).2).toNat :=
      newMetric_le v m (σ (k + 1)) d
    rwa [hd, h.path, Nat.zero_add, hlabel, (hbranch (o k).1 (o k).2).2.2 rfl] at hle
  have hleast : minOver (newMetric v m) = leastCost a := by
    obtain ⟨x, hx⟩ := minOver_mem (newMetric v m)
    exact le_antisymm ((minOver_le _ _).trans htrue) (hx ▸ hcand x _)
  refine ⟨fun hy => ⟨_, rfl, ?_⟩, ?_⟩
  · have hnew := hadd y
    rw [hy, Nat.zero_add, hleast] at hnew
    have hsum : leastCost a = v.metric (predecessor y (decision v m y)) +
      (m.get (branchLabel y (decision v m y)).1 (branchLabel y (decision v m y)).2).toNat := hnew
    generalize branchLabel y (decision v m y) = p at hsum ⊢
    obtain ⟨hge, hiff⟩ := hbranch p.1 p.2
    exact ⟨by omega, hiff.1 (by omega)⟩
  · have := hadd (σ (k + 1))
    omega

/-- The add-compare-select of a step keeps the picture. -/
theorem OnStream.step (ha : 0 < a.toInt) (h : OnStream c o σ k v) (hσ : Follows o (k + 1) σ)
    (h1 : addCompareSelect c v
      (branchMetrics (Claims.softOf a (o k).1) (Claims.softOf a (o k).2)) = .ok v1)
    {u : Viterbi} (hpm : u.pm = v1.pm) (hhist : u.hist = v1.hist)
    (hwp : u.histWp.toNat = (k + 1) % c.tbd) (hn : u.vitN.toNat = min (k + 1) (c.tbd + 1)) :
    OnStream c o σ (k + 1) u := by
  have hmetric := metric_of_pm_eq hpm
  have hzero := metric_eq_zero_iff ha h hσ h1
  have hnear := near_step (n := 6) h1
    (fun d1 d2 => branchMetrics_le (softOf_clamped ha _) (softOf_clamped ha _) d1 d2)
    fun i hi => h.near i hi
  obtain ⟨-, heq⟩ := addCompareSelect_ok h1
  refine ⟨?_, hwp, hn, fun i hi => ?_, ?_, fun y hy => ?_⟩
  · rw [hhist, heq]
    exact Memory.wf_write _ _ _ h.hist
  · unfold Near
    rw [hmetric]
    exact hnear i hi
  · rw [hmetric]
    exact (hzero 0).2
  · rw [hmetric] at hy
    obtain ⟨d, hd, hprev, hlabel⟩ := (hzero y).1 hy
    obtain ⟨τ, hτ, hfollow, hback⟩ := h.survivors _ hprev
    have hold : ∀ i ≤ k, Function.update τ (k + 1) y i = τ i := fun i hi =>
      Function.update_of_ne (by omega) _ _
    have hnew : Function.update τ (k + 1) y (k + 1) = y := Function.update_self ..
    refine ⟨Function.update τ (k + 1) y, hnew, fun i hi => ?_, fun i hi hring => ?_⟩
    · rcases Nat.lt_succ_iff_lt_or_eq.1 hi with hlt | rfl
      · rw [hold i hlt.le, hold (i + 1) hlt]
        exact hfollow i hlt
      · rw [hold i le_rfl, hnew, hτ]
        exact Prod.ext (convEncode_predecessor y d) hlabel
    · unfold LeadsBack
      rw [hhist]
      rcases Nat.lt_succ_iff_lt_or_eq.1 hi with hlt | rfl
      · have hslot : i % c.tbd ≠ v.histWp.toNat := by
          rw [h.histWp]
          intro e
          have hdvd := (Nat.modEq_iff_dvd' hlt.le).1 e
          have := Nat.le_of_dvd (by omega) hdvd
          omega
        rw [hold i hlt.le, hold (i + 1) hlt, read_hist_addCompareSelect_ne h1 hslot]
        exact hback i hlt (by omega)
      · rw [hold i le_rfl, hnew, hτ, hd, ← h.histWp,
          getLsbD_read_hist_addCompareSelect h1 h.hist]

/-- From six steps on the true state is the only one of metric 0, and the ring leads back along the
true path. -/
theorem OnStream.lowest_path (h : OnStream c o σ k v) (hσ : Follows o k σ) (hk : 6 ≤ k) :
    (∀ x, v.metric x = 0 ↔ x = σ k) ∧
      ∀ i < k, k ≤ i + c.tbd → LeadsBack c v i (σ (i + 1)) (σ i) := by
  refine ⟨fun x => ⟨fun hx => ?_, fun hx => hx ▸ h.path⟩, fun i hi hring => ?_⟩
  · obtain ⟨τ, rfl, hfollow, -⟩ := h.survivors x hx
    exact hfollow.unique hσ hk le_rfl
  · obtain ⟨τ, -, hfollow, hback⟩ := h.survivors _ h.path
    rw [← hfollow.unique hσ hk (show i ≤ k by omega),
      ← hfollow.unique hσ hk (show i + 1 ≤ k by omega)]
    exact hback i hi hring

/-- The true path, read backwards, is the survivor. -/
theorem OnStream.survivorPath (h : OnStream c o σ k v) (hσ : Follows o k σ) (hk : 6 ≤ k) {n : Nat}
    (hn : n ≤ c.tbd) (hnk : n ≤ k) :
    Claims.survivorPath c v ((k - 1) % c.tbd) n (σ k) fun j => σ (k - j) := by
  refine ⟨rfl, fun j hj => ?_⟩
  have hslot : ((k - 1) % c.tbd + c.tbd - j) % c.tbd = (k - (j + 1)) % c.tbd := by
    have hdiv := Nat.div_add_mod (k - 1) c.tbd
    have hadd : k - (j + 1) + c.tbd =
        c.tbd * ((k - 1) / c.tbd) + ((k - 1) % c.tbd + c.tbd - j) := by omega
    rw [← Nat.add_mod_right (k - (j + 1)), hadd, Nat.mul_add_mod]
  have hback := (h.lowest_path hσ hk).2 (k - (j + 1)) (by omega) (by omega)
  have hnext : k - (j + 1) + 1 = k - j := by omega
  unfold LeadsBack at hback
  rw [hnext, predecessor_eq_pred] at hback
  dsimp only
  rw [Claims.historyAt, hslot, hback]

/-- The traceback before `hist_wp` moves on reads the newest bit of the true state TBD steps ago. -/
theorem OnStream.traceback (h : OnStream c o σ k v) (hσ : Follows o k σ) (hk : 6 ≤ k)
    (hn : c.tbd ≤ k) {w : Viterbi} (hpm : w.pm = v.pm) (hhist : w.hist = v.hist)
    (hwp : w.histWp.toNat = (k - 1) % c.tbd) :
    traceback c w = (σ (k - c.tbd)).getLsbD 0 := by
  have hstart : traceStart w = σ k := by
    have hlow := (h.lowest_path hσ hk).1
    refine traceStart_eq ⟨?_, fun x hx => ?_⟩
    · rw [metric_of_pm_eq hpm]
      exact h.path
    · rw [metric_of_pm_eq hpm] at hx
      rw [(hlow x).1 hx]
  rw [Machine.traceback, hstart, hwp, hhist,
    survivorPath_eq_foldl (h.survivorPath hσ hk le_rfl hn) le_rfl le_rfl]

/-- One step on the stream: the bit that comes out, and the picture after it. -/
theorem OnStream.trellisStep (ha : 0 < a.toInt) (h : OnStream c o σ k v)
    (hσ : Follows o (k + 1) σ) (hc : 5 ≤ c.tbd) :
    ∃ u, trellisStep c v (Claims.softOf a (o k).1) (Claims.softOf a (o k).2) = .ok (u,
        if k < c.tbd then none else some ((σ (k + 1 - c.tbd)).getLsbD 0)) ∧
      OnStream c o σ (k + 1) u := by
  have hwp : v.histWp.toNat < c.tbd := h.histWp ▸ Nat.mod_lt k (by omega)
  have htbd := c.tbd_lt
  obtain ⟨v1, h1⟩ := addCompareSelect_total hwp
    (branchMetrics (Claims.softOf a (o k).1) (Claims.softOf a (o k).2))
  have hv1 : v1.histWp = v.histWp ∧ v1.vitN = v.vitN := by
    obtain ⟨-, heq⟩ := addCompareSelect_ok h1
    rw [heq]
    exact ⟨rfl, rfl⟩
  have hcount : (countStep c v1).vitN.toNat = min (k + 1) (c.tbd + 1) := by
    rw [toNat_vitN_countStep, hv1.2, h.vitN]
    split <;> omega
  have hring : (countStep c v1).histWp = v.histWp := by rw [countStep_eq_vitN, hv1.1]
  obtain ⟨v3, h3⟩ := errorRate_total (c := c) (v := countStep c v1) (hring ▸ hwp)
    (Claims.softOf a (o k).1) (Claims.softOf a (o k).2) (decodedBit c v1)
  obtain ⟨-, hpm, hhist, -, -, hn⟩ := errorRate_ok h3
  have hpm' : v3.pm = v1.pm := by rw [hpm, countStep_eq_vitN]
  have hhist' : v3.hist = v1.hist := by rw [hhist, countStep_eq_vitN]
  have hnext : (BitVec.ofNat 8 ((v.histWp.toNat + 1) % c.tbd)).toNat = (k + 1) % c.tbd := by
    have hlt : (v.histWp.toNat + 1) % c.tbd < 2 ^ 8 :=
      (Nat.mod_lt _ (by omega)).trans htbd
    rw [BitVec.toNat_ofNat, Nat.mod_eq_of_lt hlt, h.histWp, Nat.mod_add_mod]
  refine ⟨_, (trellisStep_eq h1 h3).trans (congrArg (fun b => Except.ok (_, b)) ?_),
    h.step ha hσ h1 hpm' hhist' hnext (hn ▸ hcount)⟩
  unfold decodedBit
  rw [hcount]
  split
  · next hfull =>
    have hafter := h.step
      (u := { countStep c v1 with histWp := BitVec.ofNat 8 ((v.histWp.toNat + 1) % c.tbd) })
      ha hσ h1 (by rw [countStep_eq_vitN]) (by rw [countStep_eq_vitN]) hnext hcount
    have hbit := hafter.traceback (w := countStep c v1) hσ (by omega) (by omega) rfl rfl
      (by rw [hring, h.histWp, Nat.add_sub_cancel])
    rw [if_neg (by omega), hbit]
  · next hfull => rw [if_pos (by omega)]

/-- The flush after more than TBD steps reads the newest bits of the last TBD states, oldest
first. -/
theorem OnStream.flush (h : OnStream c o σ k v) (hσ : Follows o k σ) (hk : c.tbd < k)
    (hc : 5 ≤ c.tbd) : ∃ l, flushList c v = .ok l ∧ l.length = c.tbd ∧
      ∀ j < c.tbd, l[j]? = some ((σ (k - c.tbd + 1 + j)).getLsbD 0) := by
  have hn : v.vitN.toNat = c.tbd + 1 := by rw [h.vitN, Nat.min_eq_right (by omega)]
  obtain ⟨l, hl, hlen, hpath⟩ := flushList_spec (v := v) (by omega) hn.le
  rw [hn, Nat.min_eq_right (Nat.le_succ _)] at hlen
  have hlow : Claims.lowest (fun x => ∀ y, v.metric x ≤ v.metric y) (σ k) := by
    refine ⟨fun y => h.path ▸ Nat.zero_le _, fun x hx => ?_⟩
    have hx0 : v.metric x = 0 := Nat.le_zero.1 (h.path ▸ hx (σ k))
    rw [((h.lowest_path hσ (by omega)).1 x).1 hx0]
  have hlast : (v.histWp.toNat + c.tbd - 1) % c.tbd = (k - 1) % c.tbd := by
    have hdiv := Nat.div_add_mod k c.tbd
    have hadd : k - 1 + c.tbd = c.tbd * (k / c.tbd) + (k % c.tbd + c.tbd - 1) := by omega
    rw [h.histWp, ← Nat.add_mod_right (k - 1), hadd, Nat.mul_add_mod]
  have hread := hpath (σ k) (fun j => σ (k - j)) hlow
    (hlast ▸ h.survivorPath hσ (by omega) (by omega) (by omega))
  refine ⟨l, hl, hlen, fun j hj => ?_⟩
  have hrev := hread (l.length - 1 - j) (by omega)
  rw [List.getElem?_reverse (by omega)] at hrev
  have hfront : l.length - 1 - (l.length - 1 - j) = j := by omega
  have hplace : k - (l.length - 1 - j) = k - c.tbd + 1 + j := by omega
  rwa [hfront, hplace] at hrev

end

/-! ## Many steps -/

/-- Operations performed one after another, each leading from its picture to the next. -/
theorem feed_of_step {α : Type} {i : Instr} {latch : α → Args → Args} (l : List α)
    {P : Nat → State → Prop} {R : Nat → OpResult}
    (hstep : ∀ k (hk : k < l.length) s, P k s → ∃ t,
      exec i (Claims.withArgs s (latch l[k])) = .next t ∧ t.env.res = R k ∧ P (k + 1) t)
    {s : State} (h : P 0 s) :
    ∃ res t, Claims.feed i latch l s = some (res, t) ∧ res.length = l.length ∧
      (∀ n < l.length, res[n]? = some (R n)) ∧ P l.length t := by
  induction l generalizing P R s with
  | nil => exact ⟨[], s, rfl, rfl, fun _ hn => absurd hn (Nat.not_lt_zero _), h⟩
  | cons x r ih =>
    obtain ⟨u, hu, hres, hP⟩ := hstep 0 (Nat.succ_pos _) s h
    obtain ⟨res, t, ht, hlen, hget, hend⟩ := ih (P := fun k => P (k + 1))
      (R := fun k => R (k + 1)) (fun k hk => hstep (k + 1) (Nat.succ_lt_succ hk)) hP
    refine ⟨u.env.res :: res, t, feed_cons hu ht, congrArg (· + 1) hlen, fun n hn => ?_, hend⟩
    cases n with
    | zero => rw [hres]; rfl
    | succ n => exact hget n (Nat.lt_of_succ_lt_succ hn)

end Sys2Proof.Machine

namespace Sys2Proof
open Sys2Proof.Machine Sys2Proof.Claims

/-- Settles O38: the picture of an error-free stream kept step by step; from six steps on the
survivor is the path that was sent. -/
theorem decoderReturnsMessage : Obligations.DecoderReturnsMessage := by
  intro s a msg st hinv hclear ha hst hc
  have hlen := length_sent a msg st
  obtain ⟨res, t, ht, hres, hget, hcfg, hend⟩ := feed_of_step (i := .vitStep) (latch := latchPair)
    (sent a msg st) (s := s)
    (P := fun k t => t.cfg = s.cfg ∧ OnStream s.cfg (labelAt msg st) (stateAt msg st) k t.vit)
    (R := fun k => .bitOpt (if k < s.cfg.tbd then none
      else some ((stateAt msg st (k + 1 - s.cfg.tbd)).getLsbD 0)))
    (fun k hk u ⟨hcfg, hon⟩ => by
      have hk' : k < msg.length := hlen ▸ hk
      obtain ⟨v, hv, hnext⟩ := hon.trellisStep ha (follows_stateAt hst hk') hc
      have hexec := exec_vitStep (s := withArgs u (latchPair
        (softOf a (labelAt msg st k).1, softOf a (labelAt msg st k).2))) (hcfg ▸ hv)
      rw [getElem_sent a hst hk]
      exact ⟨_, hexec, by rw [← hcfg]; rfl, hcfg, hnext⟩)
    ⟨rfl, onStream_zero _ _ hinv.canonical.hist hclear⟩
  rw [hlen] at hres hget hend
  refine ⟨res, t, ht, hres, fun n hn => ?_, fun hlong => ?_⟩
  · rw [hget n hn]
    split
    · rfl
    · next hge =>
      have hplace : n + 1 - s.cfg.tbd = n - s.cfg.tbd + 1 := by omega
      have hlt : n - s.cfg.tbd < msg.length := by omega
      rw [hplace, getLsbD_stateAt_succ hst hlt, List.getElem?_eq_getElem hlt,
        List.getD_eq_getElem _ _ hlt]
  · obtain ⟨l, hl, hllen, hlget⟩ := hend.flush (follows_stateAt hst le_rfl) hlong hc
    have hbits : l = msg.drop (msg.length - s.cfg.tbd) := by
      refine List.ext_getElem? fun j => ?_
      rcases Nat.lt_or_ge j s.cfg.tbd with hj | hj
      · have hplace : msg.length - s.cfg.tbd + 1 + j = msg.length - s.cfg.tbd + j + 1 := by omega
        have hlt : msg.length - s.cfg.tbd + j < msg.length := by omega
        rw [hlget j hj, hplace, getLsbD_stateAt_succ hst hlt, List.getElem?_drop,
          List.getElem?_eq_getElem hlt, List.getD_eq_getElem _ _ hlt]
      · rw [List.getElem?_eq_none (by omega), List.getElem?_eq_none (by
          rw [List.length_drop]
          omega)]
    rw [← hbits]
    exact exec_vitFlush (hcfg ▸ hl)

end Sys2Proof
end
